-- ==== Sys2Proof/Word.lean ====
section
/-! DEFINITION. The words of the Vintab 464: time values, bytes, and the numbers of its ports, slots, lines, pins and notice records. -/

namespace Sys2Proof

/-- A byte of a frame (R163). -/
abbrev Byte := BitVec 8

/-- A time value: a 48-bit count of ticks that wraps (section 1.1, R1). -/
abbrev Time := BitVec 48

/-- A port P0 to P3. -/
abbrev Port := Fin 4

/-- A timer slot S0 to S63. -/
abbrev SlotNo := Fin 64

/-- An event line E0 to E11. -/
abbrev LineNo := Fin 12

/-- An output pin O0 to O3. -/
abbrev PinNo := Fin 4

/-- The handle of a notice record, 0 to 63 (section 5.1). -/
abbrev Handle := Fin 64

/-- A notice class; 0 is the most urgent and 7 the least. -/
abbrev Class := Fin 8

/-- A set of ports: bit p stands for port Pp (R163). -/
abbrev PortSet := BitVec 4

/-- A set of lines: bit e stands for line Ee (R163). -/
abbrev LineSet := BitVec 12

end Sys2Proof
end

