-- ==== Sys2Proof/Config.lean ====
section
/-! DEFINITION. The sizes the manual fixes for the part. The manual leaves no value of the part to an implementation, so there is no free value here. -/

namespace Sys2Proof.Config

/-- The horizon: the farthest a deadline lies ahead of the time at which it is set, 2^46 - 1 ticks (R2). -/
def horizon : Nat := 2 ^ 46 - 1

/-- A port's notice queue holds at most 16 entries (R96). -/
def queueCapacity : Nat := 16

/-- A port's in-service stack holds at most 4 notices (R116). -/
def stackCapacity : Nat := 4

/-- The longest payload of a request frame, 40 bytes (section 8.3, R152). -/
def maxRequestPayload : Nat := 40

/-- The number of samples in a row that must find RSTn low before a device reset begins (R145). -/
def resetSamples : Nat := 8

/-- The divisor after power-on (R18). -/
def powerOnDivisor : BitVec 17 := 1000

end Sys2Proof.Config
end

