-- ==== Sys2Proof/Syntax.lean ====
section
/-! DEFINITION. The commands of the part: one constructor for each row of spec/opcode_table.json.
A row that a block carries out on a message (a request, a tick, a report, ...) takes the message from the head of the path it
stands on; the constructor's operands say which path. A row for an event at a pin carries what the pins show. -/

namespace Sys2Proof

/-- The four blocks that take requests, parts of PORT_STATUS and session ends from a Port Unit (R136). -/
inductive Block where
  | timebase | calendar | router | line
  deriving DecidableEq, Repr

/-- One step of the part. -/
inductive Instr where
  -- Session and port requests, carried out by the Port Unit of `p` in the event that ends their frame (R135)
  | openSession (p : Port)
  | closeSession (p : Port)
  | portStatus (p : Port)
  -- Service requests: the Notice Router takes the request at the head of p's path
  | serviceSet (p : Port)
  | fetch (p : Port)
  | peek (p : Port)
  | done (p : Port)
  | decline (p : Port)
  -- Slot requests: the Calendar takes the request at the head of p's path
  | slotAllocate (p : Port)
  | slotConfigure (p : Port)
  | slotArm (p : Port)
  | slotDisarm (p : Port)
  | slotTouch (p : Port)
  | slotRelease (p : Port)
  | slotAdopt (p : Port)
  | slotQuery (p : Port)
  -- Time requests: the Timebase takes the request at the head of p's path
  | timeRead (p : Port)
  | timeClaim (p : Port)
  | timeRelease (p : Port)
  | timeSet (p : Port)
  | timeAdjust (p : Port)
  | timeTick (p : Port)
  | timeWithdraw (p : Port)
  -- Line requests: the Line Unit takes the request at the head of p's path
  | lineClaim (p : Port)
  | lineRelease (p : Port)
  | lineConfig (p : Port)
  | lineEnable (p : Port)
  | lineDisable (p : Port)
  | linePulse (p : Port)
  | lineStatus (p : Port)
  -- Resets
  | powerOn
  /-- A sample finds RSTn low; the device reset begins at the eighth in a row. -/
  | deviceReset
  /-- A sample finds RSTn high. -/
  | deviceResetEnd
  | portReset (p : Port)
  | portResetEnd (p : Port)
  -- The Timebase
  | tickArrival
  | slewStep
  -- The Calendar
  | deliveredTick
  | timeStep
  | fire (n : SlotNo)
  /-- `touchedBy` is the port whose SLOT_TOUCH completes the count, or none for an edge arrival. -/
  | countFire (n : SlotNo) (touchedBy : Option Port)
  | edgeArrival
  | gateReport
  | slotCountReport
  -- The end of p's session at each block
  | calendarSessionEnd (p : Port)
  | timebaseSessionEnd (p : Port)
  | lineSessionEnd (p : Port)
  | teardown (p : Port)
  -- The Line Unit
  /-- Bit e of `levels` is the level sampled on line Ee. -/
  | lineSample (levels : LineSet)
  /-- The sample of line `e` at `level` that completes its filter run. -/
  | changeOfAcceptedLevel (e : LineNo) (level : Bool)
  -- The Pin Unit
  | bindingRequest
  | fireAction
  | driveLow
  | unbind
  | pinDeliveredTick
  | pulseEnd (o : PinNo)
  -- The Notice Router
  | fireRequest
  | purgeRequest
  -- Messages between the blocks and the Port Unit of `p`
  | portStatusPart (p : Port) (b : Block)
  | portStatusPartReturn (p : Port) (b : Block)
  | completion (p : Port) (b : Block)
  | blockOutcome (p : Port) (b : Block)
  | lostNoticeReport (p : Port)
  | alertReport (p : Port)
  -- The link of `p`
  | statusHeader (p : Port)
  | requestFrame (p : Port)
  | responseRead (p : Port)
  | responseConsumed (p : Port)
  | transactionEnd (p : Port)
  | requestByteReceived (p : Port) (byte : Byte)
  deriving DecidableEq, Repr

end Sys2Proof
end

