-- ==== Sys2Proof/Machine/State.lean ====
section
/-! DEFINITION. The state of the part, as plain data, and its value after power-on.
Each block holds its own state and the paths on which it sends; a path is a list, its head the message sent first. -/

namespace Sys2Proof.Machine

/-! ### Outcomes, requests and replies -/

/-- The outcome vocabulary (00_scope, R165). -/
inductive OutcomeCode where
  | ok | accepted | none | noResponse | busy | notOpen | alreadyOpen | staleSession | staleSlot | notOwner | noSlot
  | badState | badField | pinBusy | lineBusy | heldByOther | notAuthority | notPending | notInService | lapsed
  | checkFail | badFrame | unknownCommand
  deriving DecidableEq, Repr

/-- The thirty commands of a request frame (00_scope, R165). -/
inductive Command where
  | openSession | closeSession | portStatus
  | serviceSet | fetch | peek | done | decline
  | slotAllocate | slotConfigure | slotArm | slotDisarm | slotTouch | slotRelease | slotAdopt | slotQuery
  | timeRead | timeClaim | timeRelease | timeSet | timeAdjust | timeTick | timeWithdraw
  | lineClaim | lineRelease | lineConfig | lineEnable | lineDisable | linePulse | lineStatus
  deriving DecidableEq, Repr

/-- A slot handle as a request carries it: a number and a generation (R22, section 9.4). -/
structure SlotHandle where
  slot : Byte
  generation : BitVec 16
  deriving DecidableEq, Repr

/-- The fields of SLOT_CONFIGURE as they stand in the frame, not yet judged (section 9.4). -/
structure RawConfig where
  mode : Byte
  period : BitVec 32
  window : BitVec 32
  count : BitVec 16
  line : Byte
  gate : Byte
  anchor : Byte
  pin : Byte
  action : Byte
  cls : Byte
  targets : Byte
  delivery : Byte
  policy : Byte
  tag : BitVec 16
  deriving DecidableEq, Repr

/-- A request passed on to a block, with its fields as the frame carries them: the block judges them (R166). -/
inductive Request where
  | serviceSet (mask autoDone alertOnResponse : Byte)
  | fetch
  | peek
  | done (handle : Byte)
  | decline (handle : Byte)
  | slotAllocate (requested : Byte)
  | slotConfigure (h : SlotHandle) (fields : RawConfig)
  | slotArm (h : SlotHandle) (startKind : Byte) (startValue : Time) (startNow : Bool)
  | slotDisarm (h : SlotHandle) (purge : Bool)
  | slotTouch (h : SlotHandle)
  | slotRelease (h : SlotHandle)
  | slotAdopt (h : SlotHandle)
  | slotQuery (h : SlotHandle)
  | timeRead
  | timeClaim
  | timeRelease
  | timeSet (value : Time)
  | timeAdjust (amount : BitVec 24) (spacing : BitVec 16)
  | timeTick (divisor : BitVec 24)
  | timeWithdraw
  | lineClaim (line : Byte)
  | lineRelease (line : Byte)
  | lineConfig (line sense filter : Byte)
  | lineEnable (line : Byte) (discard : Bool)
  | lineDisable (line : Byte)
  | linePulse (line : Byte)
  | lineStatus (line : Byte)
  deriving DecidableEq, Repr

/-! ### Slots (chapter 2) -/

inductive Mode where
  | once | repeat | retrigger | window | gated | count
  deriving DecidableEq, Repr

inductive Polarity where
  | low | high
  deriving DecidableEq, Repr

inductive Anchor where
  | relative | absolute
  deriving DecidableEq, Repr

inductive PinAction where
  | pulse | toggle | level
  deriving DecidableEq, Repr

inductive Delivery where
  | broadcast | claim
  deriving DecidableEq, Repr

inductive Policy where
  | release | keep | announce
  deriving DecidableEq, Repr

/-- The state of a slot with the timing field that the state has (R21). -/
inductive SlotStatus where
  | free
  | idle
  | running (deadline : Time)
  /-- Edges left is present for mode COUNT and absent for RETRIGGER. -/
  | waiting (edgesLeft : Option (BitVec 16))
  | paused (remaining : Time)
  | lapsed
  deriving DecidableEq, Repr

/-- The configuration fields of a slot (section 2.1). -/
structure SlotConfig where
  mode : Mode
  period : BitVec 32
  window : BitVec 32
  count : BitVec 16
  line : Option LineNo
  gate : Polarity
  anchor : Anchor
  pin : Option PinNo
  action : PinAction
  cls : Class
  targets : PortSet
  delivery : Delivery
  policy : Policy
  tag : BitVec 16
  deriving DecidableEq, Repr

/-- The values loaded at allocation for the given targets (R28). -/
def SlotConfig.defaults (targets : PortSet) : SlotConfig :=
  { mode := .once, period := 1, window := 1, count := 1, line := none, gate := .high, anchor := .relative, pin := none,
    action := .pulse, cls := 7, targets := targets, delivery := .broadcast, policy := .release, tag := 0 }

/-- A slot record (section 2.1) with its fired mark (R46). `left`: the port whose session end left it an orphan, and the number of the
first delivery that was not yet on its way when the Calendar took that end (R39; log entry 24). -/
structure Slot where
  status : SlotStatus
  generation : BitVec 16
  owner : Option Port
  config : SlotConfig
  fires : BitVec 32
  lost : BitVec 16
  undelivered : BitVec 16
  fired : Bool
  left : Option (Port × Nat)
  deriving DecidableEq, Repr

/-- A slot after power-on (R42, R46). -/
def Slot.initial : Slot :=
  { status := .free, generation := 0, owner := none, config := SlotConfig.defaults 0, fires := 0, lost := 0,
    undelivered := 0, fired := false, left := none }

/-! ### Notices (chapter 5) -/

inductive NoticeKind where
  | expiry | late | early | orphaned
  deriving DecidableEq, Repr

/-- The delivery of a record, with the two sets that a CLAIM record alone has (R92). -/
inductive Offer where
  | broadcast
  | claim (offered declined : PortSet)
  deriving DecidableEq, Repr

/-- A notice record in use (section 5.1). Its handle is its place in the pool; its holders and taker are read off the queues
and stacks (R95, R116). -/
structure Notice where
  slot : SlotNo
  generation : BitVec 16
  kind : NoticeKind
  cls : Class
  tag : BitVec 16
  offer : Offer
  firstFired : Time
  lastFired : Time
  overrun : BitVec 8
  redelivered : Bool
  deriving DecidableEq, Repr

/-- The service settings of a port (R114). -/
structure ServiceSettings where
  mask : BitVec 8
  autoDone : Bool
  alertOnResponse : Bool
  deriving DecidableEq, Repr

def ServiceSettings.defaults : ServiceSettings := { mask := 0, autoDone := false, alertOnResponse := false }

/-- What an alert report carries (R159). -/
structure AlertReport where
  fetchable : Bool
  alertOnResponse : Bool
  queueLength : Nat
  stackDepth : Nat
  deriving DecidableEq, Repr

def AlertReport.quiet : AlertReport := { fetchable := false, alertOnResponse := false, queueLength := 0, stackDepth := 0 }

/-! ### What responses carry -/

/-- The reasons of a NONE answer (R118). -/
inductive NoneReason where
  | empty | masked | blocked | full
  deriving DecidableEq, Repr

/-- The result of a re-offer (R126, R127). -/
inductive Reoffer where
  | listed (ports : PortSet)
  | folded (into : Handle)
  | undelivered
  deriving DecidableEq, Repr

inductive SlewDirection where
  | gain | lose
  deriving DecidableEq, Repr

/-- The value fields of a timebase write (R10 to R13). -/
inductive TimeWrite where
  | set (value : Time)
  | adjust (amount : BitVec 24) (spacing : BitVec 16)
  | tick (divisor : BitVec 24)
  deriving DecidableEq, Repr

/-- A pending write: the write and the port that issued it (R10). -/
structure PendingWrite where
  write : TimeWrite
  issuer : Port
  deriving DecidableEq, Repr

/-- The snapshot of TIME_READ (R7). -/
structure TimeSnapshot where
  time : Time
  divisor : BitVec 17
  valid : Bool
  authority : Option Port
  pendingWrite : Option PendingWrite
  slewRemaining : BitVec 16
  slewDirection : SlewDirection
  deriving DecidableEq, Repr

inductive Sense where
  | rise | fall | both
  deriving DecidableEq, Repr

/-- A line record (section 4.1). A level is `true` for high. -/
structure LineRecord where
  owner : Option Port
  enabled : Bool
  sense : Sense
  filter : BitVec 4
  accepted : Bool
  run : BitVec 4
  held : Bool
  edgeCount : BitVec 16
  deriving DecidableEq, Repr

/-- A line record after power-on and device reset (R86). -/
def LineRecord.initial : LineRecord :=
  { owner := none, enabled := false, sense := .rise, filter := 0, accepted := false, run := 0, held := false, edgeCount := 0 }

/-- The Router's part of PORT_STATUS (R140). -/
structure NoticesPart where
  queueLength : Nat
  stackDepth : Nat
  settings : ServiceSettings
  freeRecords : Nat
  poolExhausted : BitVec 16
  deriving DecidableEq, Repr

/-- The Port Unit's own part of PORT_STATUS (R140). -/
structure SessionPart where
  isOpen : Bool
  epoch : Byte
  refused : BitVec 16
  checkFailures : BitVec 16
  badFrames : BitVec 16
  lostNotices : BitVec 16
  lostFlag : Bool
  deriving DecidableEq, Repr

/-- A part of PORT_STATUS as one of the four blocks reports it (R140). -/
inductive PartReport where
  | authority (held : Bool)
  | slots (owned : Nat)
  | lines (owned : LineSet)
  | notices (part : NoticesPart)
  deriving DecidableEq, Repr

/-- The response fields an outcome carries (R167). -/
inductive Payload where
  | empty
  | epoch (e : Byte)
  | portStatus (session : SessionPart) (authority : Bool) (slots : Nat) (lines : LineSet) (notices : NoticesPart)
  | service (settings : ServiceSettings) (queueLength stackDepth : Nat)
  | notice (h : Handle) (record : Notice) (queueLength stackDepth : Nat)
  | noNotice (reason : NoneReason) (queueLength stackDepth : Nat)
  | completed (h : Handle) (record : Notice) (stackDepth : Nat)
  | declined (h : Handle) (stackDepth : Nat) (result : Reoffer)
  | allocated (slot : SlotNo) (generation : BitVec 16)
  | armed (restarted : Bool) (status : SlotStatus)
  | disarmed (wasIn : SlotStatus) (alreadyFired : Bool)
  | touched (early : Bool) (status : SlotStatus)
  | slot (n : SlotNo) (record : Slot) (now : Time)
  | time (snapshot : TimeSnapshot)
  | lineEnabled (held : Bool)
  | linePulsed (delivered : Bool)
  | line (e : LineNo) (record : LineRecord)
  deriving DecidableEq, Repr

/-- The outcome of a request with its response fields. -/
structure Reply where
  outcome : OutcomeCode
  payload : Payload
  deriving DecidableEq, Repr

/-- A response frame as it is held (R151), less the length and the check byte, which follow from the rest. -/
structure ResponseFrame where
  code : Byte
  outcome : OutcomeCode
  sequence : Byte
  payload : List Byte
  deriving DecidableEq, Repr

/-! ### Paths -/

/-- What a Port Unit sends on its path to a block (R136). A request and a part carry the Port Unit's mark (R155). -/
inductive ToBlock where
  | request (mark : Nat) (epoch : Byte) (r : Request)
  | part (mark : Nat)
  | sessionEnd (epoch : Byte)
  deriving DecidableEq, Repr

/-- What a block sends on its path back to a Port Unit. Lost-notice and alert reports come from the Notice Router alone. -/
inductive FromBlock where
  | outcome (mark : Nat) (reply : Reply)
  | part (mark : Nat) (report : PartReport)
  | completion
  | lostNotice
  | alert (report : AlertReport)
  deriving DecidableEq, Repr

/-- What the Timebase delivers to the Calendar (R5). -/
inductive TimeDelivery where
  | tick (value : Time)
  | step (old new delta : Time)
  deriving DecidableEq, Repr

/-- What the Line Unit sends the Calendar (R75). -/
inductive LineMessage where
  | gate (e : LineNo) (enabled level : Bool)
  | edge (e : LineNo)
  deriving DecidableEq, Repr

/-- How a fire request hangs on the session of a port (log entry 24): its slot fired at a delivery under the port's ownership, or it
stands beside the end of the port's session, and finds the port closed (R39, R40, R133). -/
inductive SessionTie where
  | owner (p : Port)
  | ended (p : Port)
  deriving DecidableEq, Repr

/-- A fire request (R56). -/
structure FireRequest where
  slot : SlotNo
  generation : BitVec 16
  kind : NoticeKind
  cls : Class
  tag : BitVec 16
  targets : PortSet
  delivery : Delivery
  fired : Time
  weight : BitVec 16
  tie : Option SessionTie
  deriving DecidableEq, Repr

/-- What the Calendar sends the Notice Router (R53). -/
inductive RouterRequest where
  | fire (r : FireRequest)
  | purge (slot : SlotNo) (generation : BitVec 16)
  deriving DecidableEq, Repr

/-- What the Calendar sends the Pin Unit (section 4.6). -/
inductive PinRequest where
  | binding (old new : Option PinNo) (action : PinAction) (slot : SlotNo)
  | fire (pin : PinNo) (action : PinAction) (fired : Time)
  | driveLow (pin : PinNo)
  | unbind (pin : PinNo)
  deriving DecidableEq, Repr

/-- What the Notice Router reports to the Calendar (R107). -/
inductive CountReport where
  | lost (slot : SlotNo) (generation : BitVec 16)
  | undelivered (slot : SlotNo) (generation : BitVec 16)
  deriving DecidableEq, Repr

/-! ### The blocks -/

/-- The parts of a PORT_STATUS taken so far (R140). -/
structure Gathering where
  session : SessionPart
  authority : Option Bool
  slots : Option Nat
  lines : Option LineSet
  notices : Option NoticesPart
  deriving DecidableEq, Repr

/-- What the request in the request holder waits for (R138, R140, R155). -/
inductive Work where
  | atBlock
  | waitingOpen
  | gathering (parts : Gathering)
  deriving DecidableEq, Repr

/-- The request in a request holder that is EXECUTING: its mark, its code and sequence as received, and what it waits for. -/
structure Executing where
  mark : Nat
  code : Byte
  sequence : Byte
  work : Work
  deriving DecidableEq, Repr

/-- The link receive state (R148). -/
inductive LinkState where
  | idle | header | request | read | discard
  deriving DecidableEq, Repr

inductive Session where
  | closed | opened
  deriving DecidableEq, Repr

/-- A Port Unit (chapters 7 and 8). -/
structure PortUnit where
  session : Session
  epoch : Byte
  pendingTeardowns : Nat
  link : LinkState
  buffer : List Byte
  out : List Byte
  shownReady : Bool
  executing : Option Executing
  nextMark : Nat
  response : Option ResponseFrame
  refusedFlag : Bool
  checkFlag : Bool
  lostFlag : Bool
  refused : BitVec 16
  checkFailures : BitVec 16
  badFrames : BitVec 16
  lostNotices : BitVec 16
  alertReport : AlertReport
  alertLine : Bool
  prstLow : Bool
  toTimebase : List ToBlock
  toCalendar : List ToBlock
  toRouter : List ToBlock
  toLine : List ToBlock
  deriving DecidableEq, Repr

/-- A Port Unit after power-on (R134, R146, R161). -/
def PortUnit.initial : PortUnit :=
  { session := .closed, epoch := 0, pendingTeardowns := 0, link := .idle, buffer := [], out := [], shownReady := false,
    executing := none, nextMark := 0, response := none, refusedFlag := false, checkFlag := false, lostFlag := false,
    refused := 0, checkFailures := 0, badFrames := 0, lostNotices := 0, alertReport := AlertReport.quiet,
    alertLine := false, prstLow := false, toTimebase := [], toCalendar := [], toRouter := [], toLine := [] }

/-- The Timebase (chapter 1). -/
structure Timebase where
  time : Time
  divisor : BitVec 17
  phase : BitVec 17
  valid : Bool
  authority : Option Port
  pendingWrite : Option PendingWrite
  slewRemaining : BitVec 16
  slewDirection : SlewDirection
  slewSpacing : BitVec 16
  countdown : BitVec 16
  toCalendar : List TimeDelivery
  toPin : List Time
  back : Vector (List FromBlock) 4
  deriving DecidableEq, Repr

/-- The Timebase after power-on (R18). -/
def Timebase.initial : Timebase :=
  { time := 0, divisor := Config.powerOnDivisor, phase := 0, valid := false, authority := none, pendingWrite := none,
    slewRemaining := 0, slewDirection := .gain, slewSpacing := 2, countdown := 0, toCalendar := [], toPin := [],
    back := Vector.replicate 4 [] }

/-- The Calendar's copy of a line's enable and accepted level (R47). -/
structure LineView where
  enabled : Bool
  level : Bool
  deriving DecidableEq, Repr

def LineView.initial : LineView := { enabled := false, level := false }

/-- A configure that waits for the Pin Unit's answer (R33). -/
structure WaitingConfigure where
  port : Port
  mark : Nat
  slot : SlotNo
  config : SlotConfig
  deriving DecidableEq, Repr

/-- What the Calendar is in the middle of: while it is not `free`, it takes no other event (R33, R55, R68). -/
inductive CalendarBusy where
  | free
  /-- It awaits the answer to the binding request of this configure (R33). -/
  | binding (w : WaitingConfigure)
  /-- Some fires of the delivery at the head of the Timebase's path were taken as steps of their own (FIRE). -/
  | delivering
  /-- The edge arrival at the head of the Line Unit's path has acted on the slots below `next` (COUNT_FIRE). -/
  | edge (next : Nat)
  deriving DecidableEq, Repr

/-- The Calendar (chapters 2 and 3). `deliveries`: how many deliveries it has taken (log entry 24). -/
structure Calendar where
  slots : Vector Slot 64
  deliveries : Nat
  now : Time
  dueList : List SlotNo
  views : Vector LineView 12
  busy : CalendarBusy
  toRouter : List RouterRequest
  toPin : List PinRequest
  back : Vector (List FromBlock) 4
  deriving DecidableEq, Repr

/-- The Calendar after power-on (R42, R44, R47). -/
def Calendar.initial : Calendar :=
  { slots := Vector.replicate 64 Slot.initial, deliveries := 0, now := 0, dueList := [], views := Vector.replicate 12 LineView.initial,
    busy := .free, toRouter := [], toPin := [], back := Vector.replicate 4 [] }

/-- The Notice Router (chapters 5 and 6). A stack lists its top entry first. -/
structure Router where
  pool : Vector (Option Notice) 64
  queues : Vector (List Handle) 4
  inService : Vector (List Handle) 4
  settings : Vector ServiceSettings 4
  poolExhausted : BitVec 16
  toCalendar : List CountReport
  back : Vector (List FromBlock) 4
  deriving DecidableEq, Repr

/-- The Notice Router after power-on (R112, R114). -/
def Router.initial : Router :=
  { pool := Vector.replicate 64 none, queues := Vector.replicate 4 [], inService := Vector.replicate 4 [],
    settings := Vector.replicate 4 ServiceSettings.defaults, poolExhausted := 0, toCalendar := [],
    back := Vector.replicate 4 [] }

/-- The Line Unit (chapter 4). -/
structure LineUnit where
  records : Vector LineRecord 12
  initialTaken : Bool
  toCalendar : List LineMessage
  back : Vector (List FromBlock) 4
  deriving DecidableEq, Repr

/-- The Line Unit after power-on (R77, R86). -/
def LineUnit.initial : LineUnit :=
  { records := Vector.replicate 12 LineRecord.initial, initialTaken := false, toCalendar := [],
    back := Vector.replicate 4 [] }

/-- An output pin record (section 4.6). -/
structure PinRecord where
  bound : Option SlotNo
  action : PinAction
  level : Bool
  pulseTime : Option Time
  deriving DecidableEq, Repr

/-- An unbound pin (R91). -/
def PinRecord.initial : PinRecord := { bound := none, action := .pulse, level := false, pulseTime := none }

/-- The Pin Unit (section 4.6). `tickBegun`: some pulse ends of the delivered tick at the head of its path were taken as
steps of their own (PULSE_END). -/
structure PinUnit where
  records : Vector PinRecord 4
  tickBegun : Bool
  deriving DecidableEq, Repr

/-- The Pin Unit after power-on (R91). -/
def PinUnit.initial : PinUnit := { records := Vector.replicate 4 PinRecord.initial, tickBegun := false }

/-! ### The part -/

/-- The state of the part, and the queue of the commands that wait, the next one first. -/
structure State where
  ports : Vector PortUnit 4
  timebase : Timebase
  calendar : Calendar
  router : Router
  lines : LineUnit
  pins : PinUnit
  /-- How many samples of RSTn in a row, up to the last, found it low; from 8 on a device reset is in progress (R145). -/
  rstnLows : Nat
  pending : List Instr
  deriving DecidableEq, Repr

/-- The part after power-on (R18, R42, R44 to R47, R86, R91, R112, R114, R134, R146, R161). -/
def State.reset : State :=
  { ports := Vector.replicate 4 PortUnit.initial, timebase := Timebase.initial, calendar := Calendar.initial,
    router := Router.initial, lines := LineUnit.initial, pins := PinUnit.initial, rstnLows := 0,
    pending := [] }

/-- The reasons for which the part stops. The manual describes no event that stops it: a bad frame, a stale handle or a bad
field is answered with an outcome. So no command raises a fault. -/
inductive Fault where
  deriving DecidableEq, Repr

/-- The commands this model has no meaning for. -/
inductive Refusal where
  /-- Raised by `exec` alone for a row without a meaning (none is left). Safe: nothing can be concluded about such a step. -/
  | notModelled (mnemonic : String)
  deriving DecidableEq, Repr

end Sys2Proof.Machine
end

