-- ==== Sys2Proof/Machine/Ops.lean ====
section
/-! DEFINITION. The operations every block shares: tables of records, comparison of time values, counters, the Port Units'
records and paths, and the taking of a request by a block. -/

namespace Sys2Proof.Machine

/-- One step's answer. -/
abbrev Result := Host.Outcome State Fault Refusal

/-! ### Tables -/

/-- The table whose entry `i` is `f i`. -/
def tabulate {α : Type} (n : Nat) (f : Fin n → α) : Vector α n :=
  ⟨((List.finRange n).map f).toArray, by simp⟩

/-- The table with entry `i` replaced. -/
def setAt {α : Type} {n : Nat} (v : Vector α n) (i : Fin n) (x : α) : Vector α n := v.set i.val x i.isLt

/-- A record number carried by a byte, if the table has such a record. -/
def indexOf (n : Nat) (b : Byte) : Option (Fin n) := if h : b.toNat < n then some ⟨b.toNat, h⟩ else none

/-! ### Time values (section 1.1) -/

/-- The distance by which `d` lies ahead of `t` (R1). -/
def ahead (d t : Time) : Nat := (d - t).toNat

/-- A difference of time values read as signed (R1). -/
def signedDiff (a b : Time) : Int := (a - b).toInt

/-- Deadline `d` is due at time `t` (R2). -/
def isDue (d t : Time) : Bool := (t - d).toNat < 2 ^ 47

/-- The time value `n` ticks after `t`. -/
def after (t : Time) (n : Nat) : Time := t + BitVec.ofNat 48 n

/-! ### Counters and numbers -/

/-- One more, staying at the largest value (R24, R108, R157). -/
def satInc {w : Nat} (v : BitVec w) : BitVec w := if v = BitVec.allOnes w then v else v + 1

/-- `v + n`, staying at the largest value (R93, R100). -/
def satAdd {w : Nat} (v : BitVec w) (n : Nat) : BitVec w := BitVec.ofNat w (min (v.toNat + n) (2 ^ w - 1))

/-- The next generation or epoch: the largest value is followed by 1 (R22, R134). -/
def nextNumber {w : Nat} (v : BitVec w) : BitVec w := if v = BitVec.allOnes w then 1 else v + 1

/-- Port `p` is in the set. -/
def hasPort (t : PortSet) (p : Port) : Bool := t.getLsbD p.val

/-- The set of the ports for which `f` holds. -/
def portSetOf (f : Port → Bool) : PortSet :=
  (List.finRange 4).foldl (fun t p => if f p then t ||| BitVec.twoPow 4 p.val else t) 0

/-- The set with port `p` added. -/
def addPort (t : PortSet) (p : Port) : PortSet := t ||| BitVec.twoPow 4 p.val

/-- The set of the lines for which `f` holds. -/
def lineSetOf (f : LineNo → Bool) : LineSet :=
  (List.finRange 12).foldl (fun t e => if f e then t ||| BitVec.twoPow 12 e.val else t) 0

/-! ### Port Units and their paths -/

/-- Port Unit `p`. -/
def State.port (s : State) (p : Port) : PortUnit := s.ports[p]

/-- The state with Port Unit `p` replaced. -/
def State.setPort (s : State) (p : Port) (u : PortUnit) : State := { s with ports := setAt s.ports p u }

/-- The path from a Port Unit to block `b` (R136). -/
def PortUnit.path (u : PortUnit) : Block → List ToBlock
  | .timebase => u.toTimebase
  | .calendar => u.toCalendar
  | .router => u.toRouter
  | .line => u.toLine

/-- The Port Unit with its path to block `b` replaced. -/
def PortUnit.setPath (u : PortUnit) (b : Block) (l : List ToBlock) : PortUnit :=
  match b with
  | .timebase => { u with toTimebase := l }
  | .calendar => { u with toCalendar := l }
  | .router => { u with toRouter := l }
  | .line => { u with toLine := l }

/-- The Port Unit with message `m` sent on its path to block `b`. -/
def PortUnit.send (u : PortUnit) (b : Block) (m : ToBlock) : PortUnit := u.setPath b (u.path b ++ [m])

/-- The Port Unit with message `m` sent on all four of its paths (R140, R142). -/
def PortUnit.sendAll (u : PortUnit) (m : ToBlock) : PortUnit :=
  (((u.send .timebase m).send .calendar m).send .router m).send .line m

/-- The path from block `b` back to Port Unit `p` (R142). -/
def State.back (s : State) (b : Block) (p : Port) : List FromBlock :=
  match b with
  | .timebase => s.timebase.back[p]
  | .calendar => s.calendar.back[p]
  | .router => s.router.back[p]
  | .line => s.lines.back[p]

/-- The state with the path from block `b` back to Port Unit `p` replaced. -/
def State.setBack (s : State) (b : Block) (p : Port) (l : List FromBlock) : State :=
  match b with
  | .timebase => { s with timebase := { s.timebase with back := setAt s.timebase.back p l } }
  | .calendar => { s with calendar := { s.calendar with back := setAt s.calendar.back p l } }
  | .router => { s with router := { s.router with back := setAt s.router.back p l } }
  | .line => { s with lines := { s.lines with back := setAt s.lines.back p l } }

/-- A message put at the end of the path back to `p`. -/
def sendBack (back : Vector (List FromBlock) 4) (p : Port) (m : FromBlock) : Vector (List FromBlock) 4 :=
  setAt back p (back[p] ++ [m])

/-- The Timebase with a message sent back to Port Unit `p`. -/
def Timebase.send (t : Timebase) (p : Port) (m : FromBlock) : Timebase := { t with back := sendBack t.back p m }

/-- The Calendar with a message sent back to Port Unit `p`. -/
def Calendar.send (c : Calendar) (p : Port) (m : FromBlock) : Calendar := { c with back := sendBack c.back p m }

/-- The Notice Router with a message sent back to Port Unit `p`. -/
def Router.send (r : Router) (p : Port) (m : FromBlock) : Router := { r with back := sendBack r.back p m }

/-- The Line Unit with a message sent back to Port Unit `p`. -/
def LineUnit.send (l : LineUnit) (p : Port) (m : FromBlock) : LineUnit := { l with back := sendBack l.back p m }

/-! ### The session, as every block reads it -/

/-- The session of `p` is OPEN, as its Port Unit holds it now (R99, R134). -/
def State.isOpen (s : State) (p : Port) : Bool := (s.port p).session = .opened

/-- The session of `p` is OPEN with epoch `e` (R136). -/
def State.sessionIs (s : State) (p : Port) (e : Byte) : Bool := s.isOpen p && (s.port p).epoch = e

/-- A refusal or a bare answer: an outcome with no response fields (R167). -/
def Reply.bare (o : OutcomeCode) : Reply := { outcome := o, payload := .empty }

/-- A device reset is in progress: "RSTn low" in the sense of R145. -/
def State.inReset (s : State) : Bool := Config.resetSamples ≤ s.rstnLows

/-! ### Taking what stands at the head of a path -/

/-- A request taken from a path: its mark, epoch and fields, and the state without it. -/
structure Taken where
  mark : Nat
  epoch : Byte
  request : Request
  rest : State

/-- The request at the head of p's path to block `b`, if a request stands there (R136). -/
def State.takeRequest (s : State) (b : Block) (p : Port) : Option Taken :=
  match (s.port p).path b with
  | .request m e r :: rest =>
    some { mark := m, epoch := e, request := r, rest := s.setPort p ((s.port p).setPath b rest) }
  | _ => none

/-- The session end at the head of p's path to block `b`, taken off it (R142). -/
def State.takeSessionEnd (s : State) (b : Block) (p : Port) : Option State :=
  match (s.port p).path b with
  | .sessionEnd _ :: rest => some (s.setPort p ((s.port p).setPath b rest))
  | _ => none

/-- The PORT_STATUS part at the head of p's path to block `b`, taken off it (R140). -/
def State.takePart (s : State) (b : Block) (p : Port) : Option (Nat × State) :=
  match (s.port p).path b with
  | .part m :: rest => some (m, s.setPort p ((s.port p).setPath b rest))
  | _ => none

/-- The Timebase takes a request of `p` (R136): `act` says what the request does, or none if it is not the one commanded. -/
def State.serveTimebase (s : State) (p : Port) (act : Request → Option (Timebase → Timebase × Reply)) : Result :=
  match s.takeRequest .timebase p with
  | none => .next s
  | some k =>
    match act k.request with
    | none => .next s
    | some f =>
      let (t, reply) := if s.sessionIs p k.epoch then f k.rest.timebase else (k.rest.timebase, Reply.bare .staleSession)
      .next { k.rest with timebase := t.send p (.outcome k.mark reply) }

/-- The Calendar takes a request of `p` (R136), unless it is in the middle of an event. `act` gets the request's mark and sends
the reply itself, since a configure that binds a pin is answered later (R33). -/
def State.serveCalendar (s : State) (p : Port) (act : Request → Option (Nat → Calendar → Calendar)) : Result :=
  match s.calendar.busy, s.takeRequest .calendar p with
  | .free, some k =>
    match act k.request with
    | none => .next s
    | some f =>
      .next { k.rest with
        calendar :=
          if s.sessionIs p k.epoch then f k.mark k.rest.calendar
          else k.rest.calendar.send p (.outcome k.mark (Reply.bare .staleSession)) }
  | _, _ => .next s

/-- The Line Unit takes a request of `p` (R136). -/
def State.serveLine (s : State) (p : Port) (act : Request → Option (LineUnit → LineUnit × Reply)) : Result :=
  match s.takeRequest .line p with
  | none => .next s
  | some k =>
    match act k.request with
    | none => .next s
    | some f =>
      let (l, reply) := if s.sessionIs p k.epoch then f k.rest.lines else (k.rest.lines, Reply.bare .staleSession)
      .next { k.rest with lines := l.send p (.outcome k.mark reply) }

end Sys2Proof.Machine
end

