-- ==== Sys2Proof/Machine/Calendar.lean ====
section
/-! DEFINITION. The Calendar's shared operations (chapters 2 and 3): slot records, the due list, fires, gates, edges, releases. -/

namespace Sys2Proof.Machine

/-! ### Slots -/

/-- The record of slot `n`. -/
def Calendar.slot (c : Calendar) (n : SlotNo) : Slot := c.slots[n]

/-- The Calendar with slot record `n` replaced. -/
def Calendar.setSlot (c : Calendar) (n : SlotNo) (x : Slot) : Calendar := { c with slots := setAt c.slots n x }

/-- The deadline of a RUNNING slot (R21). -/
def SlotStatus.deadline? : SlotStatus → Option Time
  | .running d => some d
  | _ => none

/-- The slot is RUNNING. -/
def SlotStatus.isRunning (st : SlotStatus) : Bool := st.deadline?.isSome

/-- The period as a count of ticks. -/
def Slot.period (x : Slot) : Nat := x.config.period.toNat

/-! ### The due list (R45) -/

/-- Where the deadline of slot `n` stands relative to now, read as signed (R45). A deadline exactly 2^47 ticks ahead of now reads as
-2^47 and stands first, though it is not due (R2) and R45 puts every deadline that is due before it (log entry 26, a DESIGN CHOICE). -/
def Calendar.position (c : Calendar) (n : SlotNo) : Int :=
  match (c.slot n).status.deadline? with
  | some d => signedDiff d c.now
  | none => 0

/-- Slot `m` stands before slot `n`: by deadline, then by slot number (R45). -/
def Calendar.before (c : Calendar) (m n : SlotNo) : Bool :=
  c.position m < c.position n || (c.position m == c.position n && m.val < n.val)

/-- `n` placed in a list before the first entry it stands before. -/
def Calendar.place (c : Calendar) (n : SlotNo) : List SlotNo → List SlotNo
  | [] => [n]
  | m :: l => if c.before n m then n :: m :: l else m :: c.place n l

/-- The list without slot `n`. -/
def unlist (n : SlotNo) (l : List SlotNo) : List SlotNo := l.filter (fun m => m ≠ n)

/-- Slot `n` moves to a state with its timing field: it leaves the due list, and is placed again if it is RUNNING (R21, R45). -/
def Calendar.move (c : Calendar) (n : SlotNo) (st : SlotStatus) : Calendar :=
  let c' := c.setSlot n { c.slot n with status := st }
  { c' with dueList := if st.isRunning then c'.place n (unlist n c.dueList) else unlist n c.dueList }

/-- Every entry of the due list is placed again, by its position relative to now (R45). -/
def Calendar.placeAll (c : Calendar) : Calendar :=
  { c with dueList := c.dueList.foldl (fun l n => c.place n l) [] }

/-- The entries of the due list whose deadlines are due at `t`, in due-list order (R55). Due is R2's word, judged at `t` alone. So a
deadline armed due does not fire at the next delivery if it is no longer due there, though R51 says without exception that it does: one
armed so far behind that it then lies 2^47 ticks or more behind (log entry 20, a DESIGN CHOICE), and an ABSOLUTE one that a backward
time step leaves ahead, which R73 says does not fire there (log entry 30, a DESIGN CHOICE). -/
def Calendar.dueAt (c : Calendar) (t : Time) : List SlotNo :=
  c.dueList.filter fun n =>
    match (c.slot n).status.deadline? with
    | some d => isDue d t
    | none => false

/-! ### What the Calendar sends -/

/-- A request sent to the Notice Router (R53). -/
def Calendar.sendRouter (c : Calendar) (m : RouterRequest) : Calendar := { c with toRouter := c.toRouter ++ [m] }

/-- A request sent to the Pin Unit (R57). -/
def Calendar.sendPin (c : Calendar) (m : PinRequest) : Calendar := { c with toPin := c.toPin ++ [m] }

/-- How the request of the slot's fire at delivery number `k` hangs on a session (R39; log entry 24): on its owner's; or, for an orphan,
on the session that left it one, if the delivery was on its way when the Calendar took the end of that session. -/
def Slot.tieAt (x : Slot) (k : Nat) : Option SessionTie :=
  match x.owner with
  | some p => some (.owner p)
  | none => x.left.bind fun (p, first) => if k < first then some (.ended p) else none

/-- The fire request of slot `n` (R56). -/
def Calendar.fireRequestOf (c : Calendar) (n : SlotNo) (kind : NoticeKind) (t : Time) (weight : BitVec 16)
    (tie : Option SessionTie) : FireRequest :=
  let x := c.slot n
  { slot := n, generation := x.generation, kind := kind, cls := x.config.cls, tag := x.config.tag,
    targets := x.config.targets, delivery := x.config.delivery, fired := t, weight := weight, tie := tie }

/-- The drive-low sent at an arming, restart or disarm of a slot that binds a LEVEL pin (R48, R50, R52). -/
def Calendar.driveLevelLow (c : Calendar) (n : SlotNo) : Calendar :=
  match (c.slot n).config.pin, (c.slot n).config.action with
  | some o, .level => c.sendPin (.driveLow o)
  | _, _ => c

/-! ### Fires (section 3.4) -/

/-- The first three things a fire does (R55): it is counted and marked, the fire request is sent unless targets is {}, the pin
action is sent if a pin is bound. -/
def Calendar.announceFire (c : Calendar) (n : SlotNo) (kind : NoticeKind) (t : Time) (weight : BitVec 16)
    (tie : Option SessionTie) : Calendar :=
  let x := c.slot n
  let c1 := c.setSlot n { x with fires := x.fires + 1, fired := true }
  let c2 := if x.config.targets = 0 then c1 else c1.sendRouter (.fire (c.fireRequestOf n kind t weight tie))
  match x.config.pin with
  | some o => c2.sendPin (.fire o x.config.action t)
  | none => c2

/-- How many periods a REPEAT slot with deadline `d` moves on when it fires at `t`: the smallest k of 1 or more that takes the
deadline beyond `t` (R59). -/
def repeatCount (period : Nat) (d t : Time) : Nat := (t - d).toNat / period + 1

/-- The weight of a REPEAT fire (R59). -/
def repeatWeight (k : Nat) : BitVec 16 := BitVec.ofNat 16 (min k 65535)

/-- The fire of RUNNING slot `n` with deadline `d` at `t` (R55, R58 to R62). A COUNT slot is never RUNNING (R63). -/
def Calendar.fireSlot (c : Calendar) (n : SlotNo) (d t : Time) : Calendar :=
  let x := c.slot n
  let tie := x.tieAt c.deliveries
  match x.config.mode with
  | .once => (c.announceFire n .expiry t 1 tie).move n .idle
  | .repeat =>
    let k := repeatCount x.period d t
    (c.announceFire n .expiry t (repeatWeight k) tie).move n (.running (after d (k * x.period)))
  | .retrigger => (c.announceFire n .expiry t 1 tie).move n (.waiting none)
  | .window => (c.announceFire n .late t 1 tie).move n .lapsed
  | .gated => (c.announceFire n .expiry t 1 tie).move n (.running (after t x.period))
  | .count => c

/-- Slot `n` fires at `t` if it is RUNNING. -/
def Calendar.fireIfRunning (t : Time) (c : Calendar) (n : SlotNo) : Calendar :=
  match (c.slot n).status.deadline? with
  | some d => c.fireSlot n d t
  | none => c

/-- Every RUNNING slot whose deadline is due at `t` fires, in due-list order (R55, R73). At a backward time step that holds of an ABSOLUTE
deadline too, armed due and still due at the new value, though R73 says that a backward step fires none of them (log entry 28, a DESIGN
CHOICE). -/
def Calendar.fireAllDue (c : Calendar) (t : Time) : Calendar := (c.dueAt t).foldl (Calendar.fireIfRunning t) c

/-- The time value a delivery carries (R44). -/
def TimeDelivery.value : TimeDelivery → Time
  | .tick t => t
  | .step _ new _ => new

/-- The deadline after a time step to `new` with step delta `delta`: RELATIVE deadlines are shifted, ABSOLUTE ones are kept, and one
that then lies beyond the horizon is set to it (R2, R72, R73). R2 clamps any deadline that a step leaves there; so a RELATIVE deadline
that was due 2^47 - 1 ticks behind, or was left ahead by the choice of log entry 20, is clamped too, though R72 has only the shift and
calls the first still due (log entry 23, a DESIGN CHOICE). -/
def steppedDeadline (anchor : Anchor) (new delta d : Time) : Time :=
  let d' := match anchor with
    | .relative => d + delta
    | .absolute => d
  if !isDue d' new && Config.horizon < ahead d' new then after new Config.horizon else d'

/-- The slot record after a time step: only the deadline of a RUNNING slot moves (R72). -/
def Slot.stepped (new delta : Time) (x : Slot) : Slot :=
  match x.status with
  | .running d => { x with status := .running (steppedDeadline x.config.anchor new delta d) }
  | _ => x

/-- The beginning of a delivery: now is set; at a time step the deadlines move; the due list stands in its order at the new now (R45,
R55, R72, R73). At a tick that is the order it had, except round a deadline that is no longer due (log entry 20). -/
def Calendar.beginDelivery (c : Calendar) : TimeDelivery → Calendar
  | .tick t => Calendar.placeAll { c with now := t }
  | .step _ new delta =>
    Calendar.placeAll { c with now := new, slots := tabulate 64 fun n => (c.slot n).stepped new delta }

/-! ### Touches and edges (sections 3.5, 3.6) -/

/-- A RETRIGGER slot is triggered: its period starts from now (R67, R68). -/
def Calendar.trigger (c : Calendar) (n : SlotNo) : Calendar := c.move n (.running (after c.now (c.slot n).period))

/-- One edge on a WAITING COUNT slot with `left` edges left: at 0 the slot fires and the count is loaded again (R63). -/
def Calendar.countEdge (c : Calendar) (n : SlotNo) (left : BitVec 16) : Calendar :=
  if left.toNat ≤ 1 then
    (c.announceFire n .expiry c.now 1 none).move n (.waiting (some (c.slot n).config.count))
  else c.move n (.waiting (some (left - 1)))

/-- What an edge arrival of line `e` does to slot `n` (R68). -/
def Calendar.edgeOn (e : LineNo) (c : Calendar) (n : SlotNo) : Calendar :=
  let x := c.slot n
  if x.config.line = some e then
    match x.config.mode, x.status with
    | .retrigger, .waiting _ => c.trigger n
    | .retrigger, .running _ => c.trigger n
    | .count, .waiting (some left) => c.countEdge n left
    | _, _ => c
  else c

/-- The visit of an edge arrival to the slots from `start` to before `stop`, in ascending order (R68). -/
def Calendar.edgeVisit (c : Calendar) (e : LineNo) (start stop : Nat) : Calendar :=
  ((List.finRange 64).filter fun n => start ≤ n.val && n.val < stop).foldl (Calendar.edgeOn e) c

/-! ### Gates (section 3.7) -/

/-- The gate of a slot with line `line` and polarity `pol`, judged by the line view `v` (R47). -/
def gateActive (v : LineView) (pol : Polarity) : Bool :=
  v.enabled && (match pol with | .high => v.level | .low => !v.level)

/-- The gate of slot `n` by the line views as they stand (R47); a slot without a line has none. -/
def Calendar.gateOf (c : Calendar) (n : SlotNo) : Bool :=
  match (c.slot n).config.line with
  | some e => gateActive c.views[e] (c.slot n).config.gate
  | none => false

/-- The pause of a RUNNING GATED slot with deadline `d` (R70). A slot due at now fires first (R71). -/
def Calendar.pause (c : Calendar) (n : SlotNo) (d : Time) : Calendar :=
  if isDue d c.now then
    (c.announceFire n .expiry c.now 1 none).move n (.paused (BitVec.ofNat 48 (c.slot n).period))
  else c.move n (.paused (d - c.now))

/-- What a change of line `e`'s view from `old` to `new` does to slot `n` (R70). -/
def Calendar.gateOn (e : LineNo) (old new : LineView) (c : Calendar) (n : SlotNo) : Calendar :=
  let x := c.slot n
  if x.config.mode = .gated && x.config.line = some e then
    match x.status, gateActive old x.config.gate, gateActive new x.config.gate with
    | .running d, true, false => c.pause n d
    | .paused r, false, true => c.move n (.running (c.now + r))
    | _, _, _ => c
  else c

/-- A gate report is taken: the line view is replaced and the GATED slots on the line are visited (R47, R70). -/
def Calendar.takeGate (c : Calendar) (e : LineNo) (new : LineView) : Calendar :=
  (List.finRange 64).foldl (Calendar.gateOn e c.views[e] new) { c with views := setAt c.views e new }

/-! ### Release and session end (sections 2.8, 2.11) -/

/-- A slot is freed (R35, R46): its pin is unbound, its pin field becomes none, its mark clear; generation, the other fields and
the counters are kept. -/
def Calendar.releaseSlot (c : Calendar) (n : SlotNo) : Calendar :=
  let x := c.slot n
  let c1 := c.setSlot n { x with owner := none, fired := false, config := { x.config with pin := none } }
  let c2 := match x.config.pin with
    | some o => c1.sendPin (.unbind o)
    | none => c1
  c2.move n .free

/-- The orphan policy of slot `n` is applied if port `p` owns it (R39, R40); `first` is the number of the first delivery that is not
yet on its way (log entry 24). -/
def Calendar.applyPolicy (p : Port) (first : Nat) (c : Calendar) (n : SlotNo) : Calendar :=
  let x := c.slot n
  if x.owner = some p && x.status ≠ .free then
    match x.config.policy with
    | .release => c.releaseSlot n
    | .keep => c.setSlot n { x with owner := none, left := some (p, first) }
    | .announce => (c.sendRouter (.fire (c.fireRequestOf n .orphaned c.now 1 (some (.ended p))))).releaseSlot n
  else c

/-- A fire made at a delivery under p's ownership stands beside the end of p's session once the Calendar has taken that end (R39). -/
def RouterRequest.endTie (p : Port) : RouterRequest → RouterRequest
  | .fire q => .fire (if q.tie = some (.owner p) then { q with tie := some (.ended p) } else q)
  | m => m

/-- The end of p's session at the Calendar: the slots p owns, in ascending order (R39), with `onTheWay` deliveries on their way. -/
def Calendar.endSession (c : Calendar) (p : Port) (onTheWay : Nat) : Calendar :=
  (List.finRange 64).foldl (Calendar.applyPolicy p (c.deliveries + onTheWay))
    { c with toRouter := c.toRouter.map (RouterRequest.endTie p) }

/-- The number of slots owned by `p` (R140). -/
def Calendar.ownedBy (c : Calendar) (p : Port) : Nat := (List.finRange 64).countP fun n => (c.slot n).owner = some p

/-! ### Reports and resets -/

/-- A lost or undelivered report is applied if the generation matches (R24). -/
def Calendar.count (c : Calendar) : CountReport → Calendar
  | .lost n g =>
    if (c.slot n).generation = g then c.setSlot n { c.slot n with lost := satInc (c.slot n).lost } else c
  | .undelivered n g =>
    if (c.slot n).generation = g then c.setSlot n { c.slot n with undelivered := satInc (c.slot n).undelivered } else c

/-- Device reset at the Calendar (R43, R44, R46, R47, and the discarded messages of R91, R113, R146): every slot is freed at its
generation; now is kept. -/
def Calendar.deviceReset (c : Calendar) : Calendar :=
  { Calendar.initial with
    now := c.now, slots := tabulate 64 fun n => { Slot.initial with generation := (c.slot n).generation } }

end Sys2Proof.Machine
end

