-- ==== Sys2Proof/Machine/Operands.lean ====
section
/-! DEFINITION. Every layout of chapter 9 and the check byte of section 8.3: the fields of request payloads, the codes of
commands and outcomes, the bytes of response payloads and frames. -/

namespace Sys2Proof.Machine

/-! ### Bytes (R163) -/

/-- The number that bytes spell, most significant byte first. -/
def beNat (l : List Byte) : Nat := l.foldl (fun n b => n * 256 + b.toNat) 0

/-- The `k` bytes of a number, most significant byte first. -/
def beBytes : Nat → Nat → List Byte
  | 0, _ => []
  | k + 1, n => BitVec.ofNat 8 (n / 256 ^ k) :: beBytes k n

/-- The field of `w` bits in the `len` bytes from offset `off`; a byte that is not there reads as 0. -/
def field (w : Nat) (l : List Byte) (off len : Nat) : BitVec w := BitVec.ofNat w (beNat ((l.drop off).take len))

/-- The byte at offset `off`; a byte that is not there reads as 0 (R151). -/
def byteAt (l : List Byte) (off : Nat) : Byte := (l[off]?).getD 0

/-- Bit 0 of a flags byte (R166). -/
def flag0 (b : Byte) : Bool := b.getLsbD 0

/-! ### The check byte (R150) -/

/-- One bit of the check computation. -/
def crcBit (reg : Byte) (bit : Bool) : Byte :=
  if reg.msb = bit then reg <<< 1 else (reg <<< 1) ^^^ 0x2F

/-- One byte of the check computation, its most significant bit first. -/
def crcByte (reg : Byte) (b : Byte) : Byte := [7, 6, 5, 4, 3, 2, 1, 0].foldl (fun r i => crcBit r (b.getLsbD i)) reg

/-- The check byte over a list of bytes, from starting value 0xFF. -/
def checkByte (l : List Byte) : Byte := l.foldl crcByte 0xFF

/-! ### Command and outcome codes (R165) -/

/-- The command a code names. -/
def Command.ofCode (code : Byte) : Option Command :=
  match code.toNat with
  | 0x01 => some .openSession
  | 0x02 => some .closeSession
  | 0x03 => some .portStatus
  | 0x10 => some .serviceSet
  | 0x11 => some .fetch
  | 0x12 => some .peek
  | 0x13 => some .done
  | 0x14 => some .decline
  | 0x20 => some .slotAllocate
  | 0x21 => some .slotConfigure
  | 0x22 => some .slotArm
  | 0x23 => some .slotDisarm
  | 0x24 => some .slotTouch
  | 0x25 => some .slotRelease
  | 0x26 => some .slotAdopt
  | 0x27 => some .slotQuery
  | 0x30 => some .timeRead
  | 0x31 => some .timeClaim
  | 0x32 => some .timeRelease
  | 0x33 => some .timeSet
  | 0x34 => some .timeAdjust
  | 0x35 => some .timeTick
  | 0x36 => some .timeWithdraw
  | 0x40 => some .lineClaim
  | 0x41 => some .lineRelease
  | 0x42 => some .lineConfig
  | 0x43 => some .lineEnable
  | 0x44 => some .lineDisable
  | 0x45 => some .linePulse
  | 0x46 => some .lineStatus
  | _ => none

/-- The request payload length of a command. -/
def Command.payloadLength : Command → Nat
  | .openSession | .closeSession | .fetch | .peek | .timeRead | .timeClaim | .timeRelease | .timeWithdraw => 0
  | .portStatus | .done | .decline | .slotAllocate => 1
  | .lineClaim | .lineRelease | .lineDisable | .linePulse | .lineStatus => 1
  | .lineEnable => 2
  | .serviceSet | .slotTouch | .slotRelease | .slotAdopt | .slotQuery | .timeTick | .lineConfig => 3
  | .slotDisarm => 4
  | .timeAdjust => 5
  | .timeSet => 6
  | .slotArm => 11
  | .slotConfigure => 25

/-- The value of an outcome byte. -/
def OutcomeCode.code : OutcomeCode → Byte
  | .ok => 0x00
  | .accepted => 0x01
  | .none => 0x02
  | .noResponse => 0x03
  | .busy => 0x10
  | .notOpen => 0x11
  | .alreadyOpen => 0x12
  | .staleSession => 0x13
  | .staleSlot => 0x14
  | .notOwner => 0x15
  | .noSlot => 0x16
  | .badState => 0x17
  | .badField => 0x18
  | .pinBusy => 0x19
  | .lineBusy => 0x1A
  | .heldByOther => 0x1B
  | .notAuthority => 0x1C
  | .notPending => 0x1D
  | .notInService => 0x1E
  | .lapsed => 0x1F
  | .checkFail => 0x20
  | .badFrame => 0x21
  | .unknownCommand => 0x22

/-! ### Request payloads (section 9.4) -/

/-- The slot handle at the front of a payload. -/
def handleField (l : List Byte) : SlotHandle := { slot := byteAt l 0, generation := field 16 l 1 2 }

/-- The configuration fields of a SLOT_CONFIGURE payload. -/
def configFields (l : List Byte) : RawConfig :=
  { mode := byteAt l 3, period := field 32 l 4 4, window := field 32 l 8 4, count := field 16 l 12 2, line := byteAt l 14,
    gate := byteAt l 15, anchor := byteAt l 16, pin := byteAt l 17, action := byteAt l 18, cls := byteAt l 19,
    targets := byteAt l 20, delivery := byteAt l 21, policy := byteAt l 22, tag := field 16 l 23 2 }

/-- The block that owns a command's subject, and the request passed to it; none for the requests the Port Unit carries out
itself (R135, section 9.4). -/
def Command.request (c : Command) (l : List Byte) : Option (Block × Request) :=
  match c with
  | .openSession | .closeSession | .portStatus => none
  | .serviceSet => some (.router, .serviceSet (byteAt l 0) (byteAt l 1) (byteAt l 2))
  | .fetch => some (.router, .fetch)
  | .peek => some (.router, .peek)
  | .done => some (.router, .done (byteAt l 0))
  | .decline => some (.router, .decline (byteAt l 0))
  | .slotAllocate => some (.calendar, .slotAllocate (byteAt l 0))
  | .slotConfigure => some (.calendar, .slotConfigure (handleField l) (configFields l))
  | .slotArm => some (.calendar, .slotArm (handleField l) (byteAt l 3) (field 48 l 4 6) (flag0 (byteAt l 10)))
  | .slotDisarm => some (.calendar, .slotDisarm (handleField l) (flag0 (byteAt l 3)))
  | .slotTouch => some (.calendar, .slotTouch (handleField l))
  | .slotRelease => some (.calendar, .slotRelease (handleField l))
  | .slotAdopt => some (.calendar, .slotAdopt (handleField l))
  | .slotQuery => some (.calendar, .slotQuery (handleField l))
  | .timeRead => some (.timebase, .timeRead)
  | .timeClaim => some (.timebase, .timeClaim)
  | .timeRelease => some (.timebase, .timeRelease)
  | .timeSet => some (.timebase, .timeSet (field 48 l 0 6))
  | .timeAdjust => some (.timebase, .timeAdjust (field 24 l 0 3) (field 16 l 3 2))
  | .timeTick => some (.timebase, .timeTick (field 24 l 0 3))
  | .timeWithdraw => some (.timebase, .timeWithdraw)
  | .lineClaim => some (.line, .lineClaim (byteAt l 0))
  | .lineRelease => some (.line, .lineRelease (byteAt l 0))
  | .lineConfig => some (.line, .lineConfig (byteAt l 0) (byteAt l 1) (byteAt l 2))
  | .lineEnable => some (.line, .lineEnable (byteAt l 0) (flag0 (byteAt l 1)))
  | .lineDisable => some (.line, .lineDisable (byteAt l 0))
  | .linePulse => some (.line, .linePulse (byteAt l 0))
  | .lineStatus => some (.line, .lineStatus (byteAt l 0))

/-! ### Named values of request fields (R163) -/

def Mode.ofCode (b : Byte) : Option Mode :=
  match b.toNat with
  | 0 => some .once
  | 1 => some .repeat
  | 2 => some .retrigger
  | 3 => some .window
  | 4 => some .gated
  | 5 => some .count
  | _ => none

def Polarity.ofCode (b : Byte) : Option Polarity :=
  match b.toNat with
  | 0 => some .low
  | 1 => some .high
  | _ => none

/-- An anchor, or a start kind: the two share their codes. -/
def Anchor.ofCode (b : Byte) : Option Anchor :=
  match b.toNat with
  | 0 => some .relative
  | 1 => some .absolute
  | _ => none

def PinAction.ofCode (b : Byte) : Option PinAction :=
  match b.toNat with
  | 0 => some .pulse
  | 1 => some .toggle
  | 2 => some .level
  | _ => none

def Delivery.ofCode (b : Byte) : Option Delivery :=
  match b.toNat with
  | 0 => some .broadcast
  | 1 => some .claim
  | _ => none

def Policy.ofCode (b : Byte) : Option Policy :=
  match b.toNat with
  | 0 => some .release
  | 1 => some .keep
  | 2 => some .announce
  | _ => none

def Sense.ofCode (b : Byte) : Option Sense :=
  match b.toNat with
  | 0 => some .rise
  | 1 => some .fall
  | 2 => some .both
  | _ => none

/-- A two-valued field. -/
def boolOfCode (b : Byte) : Option Bool :=
  match b.toNat with
  | 0 => some false
  | 1 => some true
  | _ => none

/-- An optional item: 0xFF is none, a number the table has is that record, any other value has no meaning (R163). -/
def optionOfCode (n : Nat) (b : Byte) : Option (Option (Fin n)) :=
  if b = 0xFF then some none else (indexOf n b).map some

/-- The configuration the fields of SLOT_CONFIGURE name, if each field lies in its range (R31). -/
def RawConfig.decode (r : RawConfig) : Option SlotConfig :=
  match Mode.ofCode r.mode, optionOfCode 12 r.line, Polarity.ofCode r.gate, Anchor.ofCode r.anchor, optionOfCode 4 r.pin,
    PinAction.ofCode r.action, indexOf 8 r.cls, Delivery.ofCode r.delivery, Policy.ofCode r.policy with
  | some mode, some line, some gate, some anchor, some pin, some action, some cls, some delivery, some policy =>
    if r.period ≠ 0 && r.window ≠ 0 && r.window.toNat ≤ r.period.toNat && r.count ≠ 0 then
      some { mode := mode, period := r.period, window := r.window, count := r.count, line := line, gate := gate,
             anchor := anchor, pin := pin, action := action, cls := cls, targets := r.targets.setWidth 4,
             delivery := delivery, policy := policy, tag := r.tag }
    else none
  | _, _, _, _, _, _, _, _, _ => none

/-- The fields agree with one another: GATED has a line, CLAIM has a target (R32). -/
def SlotConfig.consistent (c : SlotConfig) : Bool :=
  !(c.mode = .gated && c.line.isNone) && !(c.delivery = .claim && c.targets = 0)

/-! ### Response payloads (section 9.5, R163, R167) -/

/-- A yes/no item: 1 or 0. -/
def codeOfBool (b : Bool) : Byte := if b then 1 else 0

/-- An optional record number: 0xFF for none. -/
def codeOfOption {n : Nat} : Option (Fin n) → Byte
  | none => 0xFF
  | some i => BitVec.ofNat 8 i.val

def Mode.code : Mode → Byte
  | .once => 0
  | .repeat => 1
  | .retrigger => 2
  | .window => 3
  | .gated => 4
  | .count => 5

def Polarity.code : Polarity → Byte
  | .low => 0
  | .high => 1

def Anchor.code : Anchor → Byte
  | .relative => 0
  | .absolute => 1

def PinAction.code : PinAction → Byte
  | .pulse => 0
  | .toggle => 1
  | .level => 2

def Delivery.code : Delivery → Byte
  | .broadcast => 0
  | .claim => 1

def Policy.code : Policy → Byte
  | .release => 0
  | .keep => 1
  | .announce => 2

def Sense.code : Sense → Byte
  | .rise => 0
  | .fall => 1
  | .both => 2

def NoticeKind.code : NoticeKind → Byte
  | .expiry => 0
  | .late => 1
  | .early => 2
  | .orphaned => 3

def NoneReason.code : NoneReason → Byte
  | .empty => 1
  | .masked => 2
  | .blocked => 3
  | .full => 4

def SlotStatus.code : SlotStatus → Byte
  | .free => 0
  | .idle => 1
  | .running _ => 2
  | .waiting _ => 3
  | .paused _ => 4
  | .lapsed => 5

/-- The seven bytes of a timing field (section 9.1). -/
def SlotStatus.timingBytes : SlotStatus → List Byte
  | .running d => 1 :: beBytes 6 d.toNat
  | .paused r => 2 :: beBytes 6 r.toNat
  | .waiting (some n) => 3 :: beBytes 6 n.toNat
  | _ => 0 :: beBytes 6 0

/-- The delivery of a record. -/
def Offer.delivery : Offer → Delivery
  | .broadcast => .broadcast
  | .claim _ _ => .claim

/-- The configuration fields in the order of SLOT_CONFIGURE offsets 3 to 24. -/
def SlotConfig.bytes (c : SlotConfig) : List Byte :=
  [c.mode.code] ++ beBytes 4 c.period.toNat ++ beBytes 4 c.window.toNat ++ beBytes 2 c.count.toNat ++
  [codeOfOption c.line, c.gate.code, c.anchor.code, codeOfOption c.pin, c.action.code, BitVec.ofNat 8 c.cls.val,
   c.targets.setWidth 8, c.delivery.code, c.policy.code] ++ beBytes 2 c.tag.toNat

/-- The response fields of a notice, offsets 0 to 22 of a FETCH or PEEK response. -/
def noticeBytes (h : Handle) (x : Notice) : List Byte :=
  [BitVec.ofNat 8 h.val, BitVec.ofNat 8 x.slot.val] ++ beBytes 2 x.generation.toNat ++
  [x.kind.code, BitVec.ofNat 8 x.cls.val] ++ beBytes 2 x.tag.toNat ++ [x.offer.delivery.code] ++
  beBytes 6 x.firstFired.toNat ++ beBytes 6 x.lastFired.toNat ++ [x.overrun, codeOfBool x.redelivered]

/-- The two bytes of a re-offer result in a DECLINE response. -/
def Reoffer.bytes : Reoffer → List Byte
  | .listed ports => [1, ports.setWidth 8]
  | .folded h => [2, BitVec.ofNat 8 h.val]
  | .undelivered => [3, 0]

/-- The pending kind and pending issuer of a TIME_READ response. -/
def pendingBytes : Option PendingWrite → List Byte
  | none => [0, 0xFF]
  | some w =>
    [match w.write with
      | .set _ => 1
      | .adjust _ _ => 2
      | .tick _ => 3,
     BitVec.ofNat 8 w.issuer.val]

/-- The payload bytes of a response (R167). -/
def Payload.bytes : Payload → List Byte
  | .empty => []
  | .epoch e => [e]
  | .portStatus u a n l r =>
    [codeOfBool u.isOpen, u.epoch] ++ beBytes 2 u.refused.toNat ++ beBytes 2 u.checkFailures.toNat ++
    beBytes 2 u.badFrames.toNat ++ beBytes 2 u.lostNotices.toNat ++ [codeOfBool u.lostFlag, codeOfBool a, BitVec.ofNat 8 n] ++
    beBytes 2 l.toNat ++
    [BitVec.ofNat 8 r.queueLength, BitVec.ofNat 8 r.stackDepth, r.settings.mask, codeOfBool r.settings.autoDone,
     codeOfBool r.settings.alertOnResponse, BitVec.ofNat 8 r.freeRecords] ++ beBytes 2 r.poolExhausted.toNat
  | .service x q d =>
    [x.mask, codeOfBool x.autoDone, codeOfBool x.alertOnResponse, BitVec.ofNat 8 q, BitVec.ofNat 8 d]
  | .notice h x q d => noticeBytes h x ++ [BitVec.ofNat 8 q, BitVec.ofNat 8 d]
  | .noNotice r q d => [r.code, BitVec.ofNat 8 q, BitVec.ofNat 8 d]
  | .completed h x d =>
    [BitVec.ofNat 8 h.val, BitVec.ofNat 8 x.slot.val] ++ beBytes 2 x.generation.toNat ++ [x.kind.code, BitVec.ofNat 8 d]
  | .declined h d r => [BitVec.ofNat 8 h.val, BitVec.ofNat 8 d] ++ r.bytes
  | .allocated n g => BitVec.ofNat 8 n.val :: beBytes 2 g.toNat
  | .armed restarted st => [codeOfBool restarted, st.code] ++ st.timingBytes
  | .disarmed st fired => [st.code, codeOfBool fired]
  | .touched early st => [codeOfBool early, st.code] ++ st.timingBytes
  | .slot n x now =>
    [BitVec.ofNat 8 n.val, x.status.code] ++ beBytes 2 x.generation.toNat ++ [codeOfOption x.owner] ++ x.config.bytes ++
    x.status.timingBytes ++ beBytes 4 x.fires.toNat ++ beBytes 2 x.lost.toNat ++ beBytes 2 x.undelivered.toNat ++
    beBytes 6 now.toNat
  | .time t =>
    beBytes 6 t.time.toNat ++ beBytes 3 t.divisor.toNat ++ [codeOfBool t.valid, codeOfOption t.authority] ++
    pendingBytes t.pendingWrite ++ beBytes 2 t.slewRemaining.toNat ++
    [match t.slewDirection with
      | .gain => 0
      | .lose => 1]
  | .lineEnabled held => [codeOfBool held]
  | .linePulsed delivered => [codeOfBool delivered]
  | .line e x =>
    [BitVec.ofNat 8 e.val, codeOfOption x.owner, codeOfBool x.enabled, x.sense.code, x.filter.setWidth 8,
     codeOfBool x.accepted, x.run.setWidth 8, codeOfBool x.held] ++ beBytes 2 x.edgeCount.toNat

/-! ### Frames (section 8.3, R151, R164) -/

/-- A list of bytes with its check byte. -/
def withCheck (l : List Byte) : List Byte := l ++ [checkByte l]

/-- The bytes of a response frame. -/
def ResponseFrame.bytes (f : ResponseFrame) : List Byte :=
  withCheck ([f.code, f.outcome.code, f.sequence, BitVec.ofNat 8 f.payload.length] ++ f.payload)

/-- The bytes of the empty frame (R151). -/
def emptyFrame : List Byte := withCheck [0x00, OutcomeCode.noResponse.code, 0x00, 0x00]

end Sys2Proof.Machine
end

