-- ==== Sys2Proof/Machine/Slots.lean ====
section
/-! DEFINITION. The slot commands (chapter 2 and sections 3.2, 3.3, 3.5). -/

namespace Sys2Proof.Machine

/-! ### The slot handle check (R25) -/

/-- What a slot command does to its slot, for the checks of R25. -/
inductive SlotAccess where
  | modify | adopt | query
  deriving DecidableEq, Repr

/-- The checks of R25: the slot the command goes on with, or the outcome that refuses it. -/
def Calendar.checkHandle (c : Calendar) (p : Port) (access : SlotAccess) (h : SlotHandle) : Except OutcomeCode SlotNo :=
  match indexOf 64 h.slot with
  | none => .error .badField
  | some n =>
    let x := c.slot n
    if access = .query && h.generation = 0 then .ok n
    else if x.status = .free || x.generation ≠ h.generation then .error .staleSlot
    else if access = .modify && x.owner ≠ some p then .error .notOwner
    else .ok n

/-- The reply to a slot command of `p` is sent. -/
def Calendar.answer (c : Calendar) (p : Port) (mark : Nat) (o : OutcomeCode) (f : Payload) : Calendar :=
  c.send p (.outcome mark { outcome := o, payload := f })

/-- A slot command that names a slot: refused by R25, or carried out by `act` on the slot. -/
def Calendar.withSlot (p : Port) (access : SlotAccess) (h : SlotHandle)
    (act : SlotNo → Nat → Calendar → Calendar) (mark : Nat) (c : Calendar) : Calendar :=
  match c.checkHandle p access h with
  | .error o => c.answer p mark o .empty
  | .ok n => act n mark c

/-! ### Allocation (section 2.6) -/

/-- The slot an allocation takes, or the outcome that refuses it (R26, R27). -/
def Calendar.slotToAllocate (c : Calendar) (requested : Byte) : Except OutcomeCode SlotNo :=
  if requested = 0xFF then
    match (List.finRange 64).find? fun n => (c.slot n).status = .free with
    | some n => .ok n
    | none => .error .noSlot
  else
    match indexOf 64 requested with
    | none => .error .badField
    | some n => if (c.slot n).status = .free then .ok n else .error .noSlot

/-- The slot record right after its allocation by `p` (R22, R26, R28, R46). -/
def Slot.allocated (p : Port) (x : Slot) : Slot :=
  { Slot.initial with
    status := .idle, generation := nextNumber x.generation, owner := some p,
    config := SlotConfig.defaults (addPort 0 p) }

/-- SLOT_ALLOCATE at the Calendar (R26, R27). -/
def Calendar.allocate (p : Port) (requested : Byte) (mark : Nat) (c : Calendar) : Calendar :=
  match c.slotToAllocate requested with
  | .error o => c.answer p mark o .empty
  | .ok n =>
    let x := (c.slot n).allocated p
    (c.setSlot n x).answer p mark .ok (.allocated n x.generation)

/-! ### Configuration (section 2.7) -/

/-- All configuration fields of slot `n` are replaced (R34). -/
def Calendar.installConfig (c : Calendar) (n : SlotNo) (f : SlotConfig) : Calendar :=
  c.setSlot n { c.slot n with config := f }

/-- SLOT_CONFIGURE after the checks of R25 (R30 to R34): with a pin before or after, the Pin Unit is asked and the answer is
awaited (R33); otherwise the fields are replaced at once. -/
def Calendar.configure (p : Port) (r : RawConfig) (n : SlotNo) (mark : Nat) (c : Calendar) : Calendar :=
  let x := c.slot n
  if x.status ≠ .idle then c.answer p mark .badState .empty
  else
    match r.decode with
    | none => c.answer p mark .badField .empty
    | some f =>
      if !f.consistent then c.answer p mark .badField .empty
      else if x.config.pin.isNone && f.pin.isNone then (c.installConfig n f).answer p mark .ok .empty
      else
        { c.sendPin (.binding x.config.pin f.pin f.action n) with
          busy := .binding { port := p, mark := mark, slot := n, config := f } }

/-- The Calendar takes the Pin Unit's answer to the configure it waits with (R33, R34). -/
def Calendar.takeAnswer (c : Calendar) (granted : Bool) : Calendar :=
  match c.busy with
  | .binding w =>
    let c' := { c with busy := .free }
    if granted then (c'.installConfig w.slot w.config).answer w.port w.mark .ok .empty
    else c'.answer w.port w.mark .pinBusy .empty
  | _ => c

/-! ### Arming and disarming (sections 3.2, 3.3) -/

/-- The deadline a start field gives, if the field passes the checks of R48. It is accepted however far behind it lies as long as it is
due; what becomes of one close to 2^47 ticks behind is log entries 20 and 21. -/
def startDeadline (now : Time) (kind : Byte) (value : Time) : Option Time :=
  match Anchor.ofCode kind with
  | some .relative => if value.toNat ≤ Config.horizon then some (now + value) else none
  | some .absolute => if isDue value now || ahead value now < 2 ^ 46 then some value else none
  | none => none

/-- The state that arming gives slot `n`, or none for BAD_FIELD (R48, R49). -/
def Calendar.armedStatus (c : Calendar) (n : SlotNo) (kind : Byte) (value : Time) (startNow : Bool) : Option SlotStatus :=
  let x := c.slot n
  match x.config.mode with
  | .once | .repeat | .window => (startDeadline c.now kind value).map .running
  | .retrigger => some (if startNow then .running (after c.now x.period) else .waiting none)
  | .gated =>
    some (if c.gateOf n then .running (after c.now x.period) else .paused (BitVec.ofNat 48 x.period))
  | .count => some (.waiting (some x.config.count))

/-- SLOT_ARM after the checks of R25 (R48 to R51): an arming, or a restart when the slot was not IDLE. -/
def Calendar.arm (p : Port) (kind : Byte) (value : Time) (startNow : Bool) (n : SlotNo) (mark : Nat) (c : Calendar) :
    Calendar :=
  match c.armedStatus n kind value startNow with
  | none => c.answer p mark .badField .empty
  | some st =>
    let restarted := (c.slot n).status ≠ .idle
    let c1 := c.driveLevelLow n
    let c2 := c1.setSlot n { c1.slot n with fired := false }
    (c2.move n st).answer p mark .ok (.armed restarted st)

/-- SLOT_DISARM after the checks of R25 (R52, R53). -/
def Calendar.disarm (p : Port) (purge : Bool) (n : SlotNo) (mark : Nat) (c : Calendar) : Calendar :=
  let x := c.slot n
  let c1 := (c.driveLevelLow n).move n .idle
  let c2 := if purge then c1.sendRouter (.purge n x.generation) else c1
  c2.answer p mark .ok (.disarmed x.status x.fired)

/-! ### Touching (section 3.5) -/

/-- A touch of WINDOW slot `n` RUNNING with deadline `d` (R65). Inside the window is R65's test: `d` less the window is due at now. A
slot armed with a deadline within window ticks of 2^47 behind now fails it and is EARLY, though R49 says that its window is open
(log entry 21, a DESIGN CHOICE). -/
def Calendar.checkIn (p : Port) (n : SlotNo) (d : Time) (mark : Nat) (c : Calendar) : Calendar :=
  let x := c.slot n
  if isDue (d - x.config.window.setWidth 48) c.now then
    let st := SlotStatus.running (after c.now x.period)
    (c.move n st).answer p mark .ok (.touched false st)
  else ((c.announceFire n .early c.now 1 none).move n .lapsed).answer p mark .ok (.touched true .lapsed)

/-- SLOT_TOUCH after the checks of R25 (R64 to R67). -/
def Calendar.touch (p : Port) (n : SlotNo) (mark : Nat) (c : Calendar) : Calendar :=
  let x := c.slot n
  let answered (c' : Calendar) : Calendar := c'.answer p mark .ok (.touched false (c'.slot n).status)
  match x.config.mode, x.status with
  | .window, .running d => c.checkIn p n d mark
  | .window, .lapsed => c.answer p mark .lapsed .empty
  | .retrigger, .waiting _ => answered (c.trigger n)
  | .retrigger, .running _ => answered (c.trigger n)
  | .count, .waiting (some left) => answered (c.countEdge n left)
  | _, _ => c.answer p mark .badState .empty

/-! ### Release, adoption, query (sections 2.8 to 2.10) -/

/-- SLOT_RELEASE after the checks of R25 (R35). -/
def Calendar.release (p : Port) (n : SlotNo) (mark : Nat) (c : Calendar) : Calendar :=
  (c.releaseSlot n).answer p mark .ok .empty

/-- SLOT_ADOPT after the checks of R25 (R37). -/
def Calendar.adopt (p : Port) (n : SlotNo) (mark : Nat) (c : Calendar) : Calendar :=
  if (c.slot n).owner = none then (c.setSlot n { c.slot n with owner := some p }).answer p mark .ok .empty
  else c.answer p mark .notOwner .empty

/-- SLOT_QUERY after the checks of R25 (R38). -/
def Calendar.query (p : Port) (n : SlotNo) (mark : Nat) (c : Calendar) : Calendar :=
  c.answer p mark .ok (.slot n (c.slot n) c.now)

/-! ### The commands -/

/-- SLOT_ALLOCATE: R26 to R29. -/
def execSlotAllocate (p : Port) (s : State) : Result :=
  s.serveCalendar p fun
    | .slotAllocate requested => some (Calendar.allocate p requested)
    | _ => none

/-- SLOT_CONFIGURE: R30 to R34. -/
def execSlotConfigure (p : Port) (s : State) : Result :=
  s.serveCalendar p fun
    | .slotConfigure h f => some (Calendar.withSlot p .modify h (Calendar.configure p f))
    | _ => none

/-- SLOT_ARM: R48 to R51. -/
def execSlotArm (p : Port) (s : State) : Result :=
  s.serveCalendar p fun
    | .slotArm h kind value startNow => some (Calendar.withSlot p .modify h (Calendar.arm p kind value startNow))
    | _ => none

/-- SLOT_DISARM: R52 to R54. -/
def execSlotDisarm (p : Port) (s : State) : Result :=
  s.serveCalendar p fun
    | .slotDisarm h purge => some (Calendar.withSlot p .modify h (Calendar.disarm p purge))
    | _ => none

/-- SLOT_TOUCH: R64 to R67. -/
def execSlotTouch (p : Port) (s : State) : Result :=
  s.serveCalendar p fun
    | .slotTouch h => some (Calendar.withSlot p .modify h (Calendar.touch p))
    | _ => none

/-- SLOT_RELEASE: R35, R36. -/
def execSlotRelease (p : Port) (s : State) : Result :=
  s.serveCalendar p fun
    | .slotRelease h => some (Calendar.withSlot p .modify h (Calendar.release p))
    | _ => none

/-- SLOT_ADOPT: R37. -/
def execSlotAdopt (p : Port) (s : State) : Result :=
  s.serveCalendar p fun
    | .slotAdopt h => some (Calendar.withSlot p .adopt h (Calendar.adopt p))
    | _ => none

/-- SLOT_QUERY: R38. -/
def execSlotQuery (p : Port) (s : State) : Result :=
  s.serveCalendar p fun
    | .slotQuery h => some (Calendar.withSlot p .query h (Calendar.query p))
    | _ => none

end Sys2Proof.Machine
end

