-- ==== Sys2Proof/Machine/CalendarEvents.lean ====
section
/-! DEFINITION. The events the Calendar takes from the Timebase, the Line Unit, the Notice Router and session ends (chapter 3,
R24, R39). -/

namespace Sys2Proof.Machine

/-! ### Deliveries (R55, R72, R73) -/

/-- The delivery at the head of the Timebase's path, and the Calendar once it has begun to act on it: begun now if the Calendar
is free, or before if fires of this delivery were taken as steps of their own. -/
def State.delivering (s : State) : Option (TimeDelivery × Calendar) :=
  match s.calendar.busy, s.timebase.toCalendar with
  | .free, d :: _ => some (d, s.calendar.beginDelivery d)
  | .delivering, d :: _ => some (d, s.calendar)
  | _, _ => none

/-- The delivery `d` is carried out to its end: every slot due fires, and the delivery leaves its path (R55) and is counted (log entry
24). -/
def State.finishDelivery (s : State) (d : TimeDelivery) (c : Calendar) : State :=
  { s with
    timebase := { s.timebase with toCalendar := s.timebase.toCalendar.tail },
    calendar := { c.fireAllDue d.value with busy := .free, deliveries := c.deliveries + 1 } }

/-- DELIVERED_TICK: R44, R55. -/
def execDeliveredTick (s : State) : Result :=
  match s.delivering with
  | some (.tick t, c) => .next (s.finishDelivery (.tick t) c)
  | _ => .next s

/-- TIME_STEP: R72, R73. -/
def execTimeStep (s : State) : Result :=
  match s.delivering with
  | some (.step old new delta, c) => .next (s.finishDelivery (.step old new delta) c)
  | _ => .next s

/-- FIRE: R55. The fire of slot `n` as a step of its own: `n` is the first due entry of the due list at the delivery the
Calendar is acting on. The Calendar takes nothing else until that delivery's DELIVERED_TICK or TIME_STEP ends it. -/
def execFire (n : SlotNo) (s : State) : Result :=
  match s.delivering with
  | some (d, c) =>
    if (c.dueAt d.value).head? = some n then
      .next { s with calendar := { c.fireIfRunning d.value n with busy := .delivering } }
    else .next s
  | none => .next s

/-! ### Edges and gates (R63, R68, R70) -/

/-- The edge arrival at the head of the Line Unit's path, and the first slot it has still to visit. -/
def State.edgeInHand (s : State) : Option (LineNo × Nat) :=
  match s.calendar.busy, s.lines.toCalendar with
  | .free, .edge e :: _ => some (e, 0)
  | .edge k, .edge e :: _ => some (e, k)
  | _, _ => none

/-- EDGE_ARRIVAL: R68. Something else may be taken since the gate report of its sample (R75; log entry 31, a DESIGN CHOICE). -/
def execEdgeArrival (s : State) : Result :=
  match s.edgeInHand with
  | some (e, k) =>
    .next { s with
      lines := { s.lines with toCalendar := s.lines.toCalendar.tail },
      calendar := { s.calendar.edgeVisit e k 64 with busy := .free } }
  | none => .next s

/-- One more edge completes the count of slot `n` (R63). -/
def Calendar.completesCount (c : Calendar) (n : SlotNo) : Bool :=
  match (c.slot n).config.mode, (c.slot n).status with
  | .count, .waiting (some left) => left.toNat ≤ 1
  | _, _ => false

/-- The slot that a SLOT_TOUCH of `p` at the head of its path would touch, if the Calendar would carry it out (R25, R136). -/
def State.touchInHand (s : State) (p : Port) : Option SlotNo :=
  match s.takeRequest .calendar p with
  | some k =>
    match k.request with
    | .slotTouch h =>
      match s.calendar.checkHandle p .modify h with
      | .ok n => if s.sessionIs p k.epoch then some n else none
      | .error _ => none
    | _ => none
  | none => none

/-- COUNT_FIRE: R63. The last edge of COUNT slot `n` is the edge arrival in hand, which then has visited the slots up to `n` and
goes on with EDGE_ARRIVAL; or it is the touch of port `p`, whose SLOT_TOUCH this is. -/
def execCountFire (n : SlotNo) (touchedBy : Option Port) (s : State) : Result :=
  match touchedBy with
  | some p =>
    if s.touchInHand p = some n && s.calendar.completesCount n then execSlotTouch p s else .next s
  | none =>
    match s.edgeInHand with
    | some (e, k) =>
      if k ≤ n.val && (s.calendar.slot n).config.line = some e && s.calendar.completesCount n then
        .next { s with calendar := { s.calendar.edgeVisit e k (n.val + 1) with busy := .edge (n.val + 1) } }
      else .next s
    | none => .next s

/-- GATE_REPORT: R47, R70, R71. Something else may be taken before the edge arrival of its sample (R75; log entry 31, a DESIGN CHOICE). -/
def execGateReport (s : State) : Result :=
  match s.calendar.busy, s.lines.toCalendar with
  | .free, .gate e enabled level :: rest =>
    .next { s with
      lines := { s.lines with toCalendar := rest },
      calendar := s.calendar.takeGate e { enabled := enabled, level := level } }
  | _, _ => .next s

/-! ### Reports and session ends -/

/-- SLOT_COUNT_REPORT: R24, R107. -/
def execSlotCountReport (s : State) : Result :=
  match s.calendar.busy, s.router.toCalendar with
  | .free, m :: rest =>
    .next { s with router := { s.router with toCalendar := rest }, calendar := s.calendar.count m }
  | _, _ => .next s

/-- CALENDAR_SESSION_END: R39, R40, and the completion of R142. The deliveries on their way are beside this session end: they could have
been taken first (R39; log entry 25, DEDUCED). -/
def execCalendarSessionEnd (p : Port) (s : State) : Result :=
  match s.calendar.busy, s.takeSessionEnd .calendar p with
  | .free, some s' =>
    .next { s' with calendar := (s'.calendar.endSession p s.timebase.toCalendar.length).send p .completion }
  | _, _ => .next s

end Sys2Proof.Machine
end

