-- ==== Sys2Proof/Machine/Flags.lean ====
section
/-! DEFINITION. The flags, port counters, alert line and status header of a Port Unit (sections 8.2, 8.6, 8.7). -/

namespace Sys2Proof.Machine

/-- A request is executing or a response waits: a frame that ends now is refused (R153). -/
def PortUnit.holdersBusy (u : PortUnit) : Bool := u.executing.isSome || u.response.isSome

/-- The level of ALERT(p) by the condition of R129 and R159. -/
def PortUnit.alertLevel (u : PortUnit) : Bool :=
  u.session = .opened && (u.alertReport.fetchable || (u.response.isSome && u.alertReport.alertOnResponse))

/-- The alert line is judged again (R130, R159). -/
def PortUnit.drive (u : PortUnit) : PortUnit := { u with alertLine := u.alertLevel }

/-- A frame is refused: REFUSED is set and the refused counter goes up (R153, R157). -/
def PortUnit.countRefused (u : PortUnit) : PortUnit := { u with refusedFlag := true, refused := satInc u.refused }

/-- A frame is answered BAD_FRAME: CHECK is left as it was (R154, R157, R158). -/
def PortUnit.countBadFrame (u : PortUnit) : PortUnit := { u with badFrames := satInc u.badFrames }

/-- A frame is answered CHECK_FAIL: CHECK is set (R154, R157). -/
def PortUnit.countCheckFail (u : PortUnit) : PortUnit := { u with checkFlag := true, checkFailures := satInc u.checkFailures }

/-- A lost-notice report counts and sets LOST (R157). -/
def PortUnit.countLost (u : PortUnit) : PortUnit := { u with lostFlag := true, lostNotices := satInc u.lostNotices }

/-- The clear flag of PORT_STATUS: the four counters and LOST (R141). -/
def PortUnit.clearCounters (u : PortUnit) : PortUnit :=
  { u with refused := 0, checkFailures := 0, badFrames := 0, lostNotices := 0, lostFlag := false }

/-- The Port Unit's own part of PORT_STATUS (R140). -/
def PortUnit.sessionPart (u : PortUnit) : SessionPart :=
  { isOpen := u.session = .opened, epoch := u.epoch, refused := u.refused, checkFailures := u.checkFailures,
    badFrames := u.badFrames, lostNotices := u.lostNotices, lostFlag := u.lostFlag }

/-- A byte with bit `i` set if `b`. -/
def bitIf (i : Nat) (b : Bool) : Byte := if b then BitVec.twoPow 8 i else 0

/-- Byte 0 of the status header (R149, R164). The text below R134 says that the header shows the epoch as well; the header laid out in
R149 and R164 has no place for it (log entry 27, a DESIGN CHOICE). -/
def PortUnit.headerByte0 (u : PortUnit) : Byte :=
  bitIf 0 (u.session = .opened) ||| bitIf 1 u.response.isSome ||| bitIf 2 u.executing.isSome ||| bitIf 3 u.refusedFlag |||
    bitIf 4 u.lostFlag ||| bitIf 5 u.checkFlag ||| bitIf 6 u.alertLine

/-- Byte 1 of the status header: queue length above stack depth (R149, R164). -/
def PortUnit.headerByte1 (u : PortUnit) : Byte :=
  BitVec.ofNat 8 (u.alertReport.queueLength * 8 + u.alertReport.stackDepth)

/-- The byte that PDO carries now, or none while PDO is not driven: nothing outside a transaction and while PRSTn is low, else the next
byte to be shifted out, 0x00 after the last (R147, R148, R156, R160). -/
def PortUnit.pdoByte (u : PortUnit) : Option Byte := if u.prstLow || u.link = .idle then none else some (u.out.headD 0)

/-- What PDO of `p` carries now; it is not driven during a device reset (R160). -/
def State.pdo (s : State) (p : Port) : Option Byte := if s.inReset then none else (s.port p).pdoByte

end Sys2Proof.Machine
end

