-- ==== Sys2Proof/Machine/Lines.lean ====
section
/-! DEFINITION. The Line Unit (sections 4.1 to 4.5): sampling, edges and the line commands. -/

namespace Sys2Proof.Machine

/-! ### Records and what is sent -/

/-- The record of line `e`. -/
def LineUnit.record (l : LineUnit) (e : LineNo) : LineRecord := l.records[e]

/-- The Line Unit with line record `e` replaced. -/
def LineUnit.setRecord (l : LineUnit) (e : LineNo) (x : LineRecord) : LineUnit := { l with records := setAt l.records e x }

/-- A gate report of line `e` as its record stands (R47, R75). -/
def LineUnit.report (l : LineUnit) (e : LineNo) : LineUnit :=
  { l with toCalendar := l.toCalendar ++ [.gate e (l.record e).enabled (l.record e).accepted] }

/-- A qualifying edge on an enabled line is delivered and counted (R76). -/
def LineUnit.deliverEdge (l : LineUnit) (e : LineNo) : LineUnit :=
  let x := l.record e
  let l' := l.setRecord e { x with edgeCount := x.edgeCount + 1 }
  { l' with toCalendar := l'.toCalendar ++ [.edge e] }

/-- A qualifying edge is delivered, or held if the line is disabled (R76). -/
def LineUnit.qualifyingEdge (l : LineUnit) (e : LineNo) : LineUnit :=
  if (l.record e).enabled then l.deliverEdge e else l.setRecord e { l.record e with held := true }

/-! ### Samples (R74 to R77) -/

/-- A change of accepted level to `level` qualifies under the sense (R75). -/
def Sense.qualifies (sense : Sense) (level : Bool) : Bool :=
  match sense with
  | .rise => level
  | .fall => !level
  | .both => true

/-- The sample of the record at `level` completes the filter run (R74). -/
def LineRecord.accepts (x : LineRecord) (level : Bool) : Bool :=
  level ≠ x.accepted && x.filter.toNat + 1 ≤ x.run.toNat + 1

/-- The accepted level of line `e` changes to `level`: gate report, then the edge if it qualifies (R75). -/
def LineUnit.changeLevel (l : LineUnit) (e : LineNo) (level : Bool) : LineUnit :=
  let l' := (l.setRecord e { l.record e with accepted := level, run := 0 }).report e
  if (l.record e).sense.qualifies level then l'.qualifyingEdge e else l'

/-- A sample of line `e` at `level` (R74). -/
def LineUnit.sample (l : LineUnit) (e : LineNo) (level : Bool) : LineUnit :=
  let x := l.record e
  if level = x.accepted then l.setRecord e { x with run := 0 }
  else if x.accepts level then l.changeLevel e level
  else l.setRecord e { x with run := x.run + 1 }

/-- The initial sample of line `e` (R77). -/
def LineUnit.initialSample (l : LineUnit) (e : LineNo) (level : Bool) : LineUnit :=
  (l.setRecord e { l.record e with accepted := level, run := 0 }).report e

/-- A sample of all twelve lines, in ascending order; the first after a reset is the initial sample (R74, R77). -/
def LineUnit.sampleAll (l : LineUnit) (levels : LineSet) : LineUnit :=
  if l.initialTaken then (List.finRange 12).foldl (fun l e => l.sample e (levels.getLsbD e.val)) l
  else
    (List.finRange 12).foldl (fun l e => l.initialSample e (levels.getLsbD e.val)) { l with initialTaken := true }

/-! ### Line commands (section 4.3) -/

/-- The checks of R78 up to ownership: the line a command goes on with, or the outcome that refuses it. -/
def LineUnit.checkLine (l : LineUnit) (p : Port) (modifies : Bool) (line : Byte) : Except OutcomeCode LineNo :=
  match indexOf 12 line with
  | none => .error .badField
  | some e => if modifies && (l.record e).owner ≠ some p then .error .notOwner else .ok e

/-- A line command: refused by R78, or carried out by `act` on the line. -/
def LineUnit.withLine (p : Port) (modifies : Bool) (line : Byte) (act : LineNo → LineUnit → LineUnit × Reply)
    (l : LineUnit) : LineUnit × Reply :=
  match l.checkLine p modifies line with
  | .error o => (l, Reply.bare o)
  | .ok e => act e l

/-- LINE_CLAIM after the checks of R78 (R79). -/
def LineUnit.claim (p : Port) (e : LineNo) (l : LineUnit) : LineUnit × Reply :=
  match (l.record e).owner with
  | none => (l.setRecord e { l.record e with owner := some p }, Reply.bare .ok)
  | some q => (l, Reply.bare (if q = p then .ok else .lineBusy))

/-- LINE_RELEASE after the checks of R78 (R80). -/
def LineUnit.release (e : LineNo) (l : LineUnit) : LineUnit × Reply :=
  (l.setRecord e { l.record e with owner := none }, Reply.bare .ok)

/-- LINE_CONFIG after the checks of R78 (R80). -/
def LineUnit.config (sense filter : Byte) (e : LineNo) (l : LineUnit) : LineUnit × Reply :=
  match Sense.ofCode sense with
  | none => (l, Reply.bare .badField)
  | some sn =>
    if filter.toNat ≤ 15 then
      let x := l.record e
      (l.setRecord e { x with sense := sn, filter := filter.setWidth 4, held := x.held && sn = x.sense }, Reply.bare .ok)
    else (l, Reply.bare .badField)

/-- LINE_ENABLE after the checks of R78 (R81). -/
def LineUnit.enable (discard : Bool) (e : LineNo) (l : LineUnit) : LineUnit × Reply :=
  let x := l.record e
  let reply : Reply := { outcome := .ok, payload := .lineEnabled x.held }
  if x.enabled then (l, reply)
  else
    let l' := (l.setRecord e { x with enabled := true, held := false }).report e
    (if x.held && !discard then l'.deliverEdge e else l', reply)

/-- LINE_DISABLE after the checks of R78 (R82). -/
def LineUnit.disable (e : LineNo) (l : LineUnit) : LineUnit × Reply :=
  if (l.record e).enabled then ((l.setRecord e { l.record e with enabled := false }).report e, Reply.bare .ok)
  else (l, Reply.bare .ok)

/-- LINE_PULSE after the checks of R78 (R83). -/
def LineUnit.pulse (e : LineNo) (l : LineUnit) : LineUnit × Reply :=
  (l.qualifyingEdge e, { outcome := .ok, payload := .linePulsed (l.record e).enabled })

/-- LINE_STATUS after the checks of R78 (R84). -/
def LineUnit.status (e : LineNo) (l : LineUnit) : LineUnit × Reply :=
  (l, { outcome := .ok, payload := .line e (l.record e) })

/-! ### Session end and reset -/

/-- The end of p's session at the Line Unit (R85). -/
def LineUnit.endSession (p : Port) (l : LineUnit) : LineUnit :=
  { l with
    records := tabulate 12 fun e =>
      let x := l.record e
      if x.owner = some p then { x with owner := none } else x }

/-- The set of lines owned by `p` (R140). -/
def LineUnit.ownedBy (l : LineUnit) (p : Port) : LineSet := lineSetOf fun e => (l.record e).owner = some p

/-! ### The commands -/

/-- LINE_CLAIM: R78, R79. -/
def execLineClaim (p : Port) (s : State) : Result :=
  s.serveLine p fun
    | .lineClaim line => some (LineUnit.withLine p false line (LineUnit.claim p))
    | _ => none

/-- LINE_RELEASE: R78, R80. -/
def execLineRelease (p : Port) (s : State) : Result :=
  s.serveLine p fun
    | .lineRelease line => some (LineUnit.withLine p true line LineUnit.release)
    | _ => none

/-- LINE_CONFIG: R78, R80. -/
def execLineConfig (p : Port) (s : State) : Result :=
  s.serveLine p fun
    | .lineConfig line sense filter => some (LineUnit.withLine p true line (LineUnit.config sense filter))
    | _ => none

/-- LINE_ENABLE: R78, R81. -/
def execLineEnable (p : Port) (s : State) : Result :=
  s.serveLine p fun
    | .lineEnable line discard => some (LineUnit.withLine p true line (LineUnit.enable discard))
    | _ => none

/-- LINE_DISABLE: R78, R82. -/
def execLineDisable (p : Port) (s : State) : Result :=
  s.serveLine p fun
    | .lineDisable line => some (LineUnit.withLine p true line LineUnit.disable)
    | _ => none

/-- LINE_PULSE: R78, R83. -/
def execLinePulse (p : Port) (s : State) : Result :=
  s.serveLine p fun
    | .linePulse line => some (LineUnit.withLine p true line LineUnit.pulse)
    | _ => none

/-- LINE_STATUS: R78, R84. -/
def execLineStatus (p : Port) (s : State) : Result :=
  s.serveLine p fun
    | .lineStatus line => some (LineUnit.withLine p false line LineUnit.status)
    | _ => none

/-- LINE_SAMPLE: R74, R77. No sample is taken during a device reset. -/
def execLineSample (levels : LineSet) (s : State) : Result :=
  if s.inReset then .next s else .next { s with lines := s.lines.sampleAll levels }

/-- CHANGE_OF_ACCEPTED_LEVEL: R74, R75. It is the sample of line `e` at `level` that completes the line's filter run; a sample
that does not complete it is no such event. -/
def execChangeOfAcceptedLevel (e : LineNo) (level : Bool) (s : State) : Result :=
  if !s.inReset && s.lines.initialTaken && (s.lines.record e).accepts level then
    .next { s with lines := s.lines.changeLevel e level }
  else .next s

/-- LINE_SESSION_END: R85, and the completion of R142. -/
def execLineSessionEnd (p : Port) (s : State) : Result :=
  match s.takeSessionEnd .line p with
  | none => .next s
  | some s' => .next { s' with lines := (s'.lines.endSession p).send p .completion }

end Sys2Proof.Machine
end

