-- ==== Sys2Proof/Machine/Router.lean ====
section
/-! DEFINITION. The Notice Router's shared operations (chapters 5 and 6): the pool, queues, stacks, placing, coalescing, re-offers,
the fetchable notice and alert reports. An operation that depends on eligibility gets `elig`, which says of each port whether
its session is OPEN now (R99). -/

namespace Sys2Proof.Machine

/-! ### Pool, queues, stacks -/

/-- The record with handle `h`, if it is in use. -/
def Router.notice (r : Router) (h : Handle) : Option Notice := r.pool[h]

/-- Record `h` in use with these fields, or free. -/
def Router.setNotice (r : Router) (h : Handle) (x : Option Notice) : Router := { r with pool := setAt r.pool h x }

/-- The queue of `p`, its front first (R96). -/
def Router.queue (r : Router) (p : Port) : List Handle := r.queues[p]

/-- The in-service stack of `p`, its top first (R116). -/
def Router.stack (r : Router) (p : Port) : List Handle := r.inService[p]

/-- The service settings of `p` (R114). -/
def Router.setting (r : Router) (p : Port) : ServiceSettings := r.settings[p]

/-- The queue of `p` replaced. -/
def Router.setQueue (r : Router) (p : Port) (l : List Handle) : Router := { r with queues := setAt r.queues p l }

/-- The stack of `p` replaced. -/
def Router.setStack (r : Router) (p : Port) (l : List Handle) : Router := { r with inService := setAt r.inService p l }

/-- The settings of `p` replaced. -/
def Router.setSetting (r : Router) (p : Port) (x : ServiceSettings) : Router := { r with settings := setAt r.settings p x }

/-- The holders of a record: the ports whose queues list it (R95). -/
def Router.holders (r : Router) (h : Handle) : PortSet := portSetOf fun p => h ∈ r.queue p

/-- The taker of a record: the port whose stack holds it (R92, R116). -/
def Router.taker (r : Router) (h : Handle) : Option Port := (List.finRange 4).find? fun p => h ∈ r.stack p

/-- Some port's queue lists the record. -/
def Router.isListed (r : Router) (h : Handle) : Bool := (List.finRange 4).any fun p => h ∈ r.queue p

/-- The lowest free handle (R94). -/
def Router.lowestFree (r : Router) : Option Handle := (List.finRange 64).find? fun h => (r.notice h).isNone

/-- The number of free records (R94). -/
def Router.freeCount (r : Router) : Nat := (List.finRange 64).countP fun h => (r.notice h).isNone

/-- The class of a record; a free record has none and counts as the least urgent. -/
def Router.classOf (r : Router) (h : Handle) : Nat :=
  match r.notice h with
  | some x => x.cls.val
  | none => 7

/-- The list with `h` entered: behind every entry of its own and of every more urgent class (R96). -/
def Router.enterList (r : Router) (h : Handle) : List Handle → List Handle
  | [] => [h]
  | k :: l => if r.classOf h < r.classOf k then h :: k :: l else k :: r.enterList h l

/-- Record `h` enters p's queue (R96). -/
def Router.enter (r : Router) (p : Port) (h : Handle) : Router := r.setQueue p (r.enterList h (r.queue p))

/-- The queue of `p` is full (R96). -/
def Router.queueFull (r : Router) (p : Port) : Bool := Config.queueCapacity ≤ (r.queue p).length

/-- The list without record `h`; the other entries keep their order. -/
def without (h : Handle) (l : List Handle) : List Handle := l.filter (fun k => k ≠ h)

/-- Record `h` leaves every queue that lists it (R109, R121). -/
def Router.withdrawAll (r : Router) (h : Handle) : Router :=
  { r with queues := tabulate 4 fun p => without h (r.queue p) }

/-- Record `h` is freed (R94). -/
def Router.freeRecord (r : Router) (h : Handle) : Router := r.setNotice h none

/-! ### Matching records and coalescing (R97, R100) -/

/-- The record is of slot `n`, generation `g` and kind `k`. -/
def Notice.isOf (x : Notice) (n : SlotNo) (g : BitVec 16) (k : NoticeKind) : Bool :=
  x.slot = n && x.generation = g && x.kind = k

/-- Record `h` is in use and is of slot `n`, generation `g` and kind `k`. -/
def Router.recordIs (r : Router) (n : SlotNo) (g : BitVec 16) (k : NoticeKind) (h : Handle) : Bool :=
  match r.notice h with
  | some x => x.isOf n g k
  | none => false

/-- The record of slot `n`, generation `g` and kind `k` that p's queue lists (R97). -/
def Router.matchIn (r : Router) (p : Port) (n : SlotNo) (g : BitVec 16) (k : NoticeKind) : Option Handle :=
  (r.queue p).find? (r.recordIs n g k)

/-- A fire of weight `w` at `t` is coalesced into record `h` (R100). -/
def Router.coalesce (r : Router) (h : Handle) (t : Time) (w : Nat) : Router :=
  match r.notice h with
  | some x => r.setNotice h (some { x with overrun := satAdd x.overrun w, lastFired := t })
  | none => r

/-- The record a fire request makes (R93, R102, R105). -/
def FireRequest.record (q : FireRequest) : Notice :=
  { slot := q.slot, generation := q.generation, kind := q.kind, cls := q.cls, tag := q.tag,
    offer := match q.delivery with
      | .broadcast => .broadcast
      | .claim => .claim q.targets 0,
    firstFired := q.fired, lastFired := q.fired, overrun := satAdd 0 (q.weight.toNat - 1), redelivered := false }

/-! ### Reports (R107, R108) -/

/-- A report to the Calendar (R107). -/
def Router.tellCalendar (r : Router) (m : CountReport) : Router := { r with toCalendar := r.toCalendar ++ [m] }

/-- The pool-exhausted counter goes up by 1 (R108). -/
def Router.countExhausted (r : Router) : Router := { r with poolExhausted := satInc r.poolExhausted }

/-- The BROADCAST copy of a fire request for `p` is lost (R107). -/
def Router.loseCopy (r : Router) (q : FireRequest) (p : Port) : Router :=
  (r.tellCalendar (.lost q.slot q.generation)).send p .lostNotice

/-! ### Fire requests of BROADCAST delivery (R101) -/

/-- The visit of a BROADCAST fire request to target `p`. `done` lists the records this request has been coalesced into. -/
def Router.broadcastTo (elig : Port → Bool) (q : FireRequest) (a : Router × List Handle) (p : Port) :
    Router × List Handle :=
  let (r, done) := a
  if !elig p then a
  else
    match r.matchIn p q.slot q.generation q.kind with
    | some h => if h ∈ done then a else (r.coalesce h q.fired q.weight.toNat, h :: done)
    | none =>
      if r.queueFull p then (r.loseCopy q p, done)
      else
        match r.lowestFree with
        | some h => ((r.setNotice h (some q.record)).enter p h, done)
        | none => ((r.loseCopy q p).countExhausted, done)

/-- A fire request of BROADCAST delivery: its targets in ascending order (R101). -/
def Router.broadcast (elig : Port → Bool) (r : Router) (q : FireRequest) : Router :=
  (((List.finRange 4).filter fun p => hasPort q.targets p).foldl (Router.broadcastTo elig q) (r, [])).1

/-! ### Fire requests of CLAIM delivery (R103 to R105) -/

/-- The record is of delivery CLAIM. -/
def Router.isClaim (r : Router) (h : Handle) : Bool :=
  match r.notice h with
  | some x => x.offer.delivery = .claim
  | none => false

/-- The untaken CLAIM record of a fire request's slot, generation and kind with the lowest handle (R103, case 1). -/
def Router.claimMatch (r : Router) (q : FireRequest) : Option Handle :=
  (List.finRange 64).find? fun h => r.isClaim h && r.recordIs q.slot q.generation q.kind h && r.isListed h

/-- The open targets whose queues list a record of the request's slot, generation and kind (R103, case 3). -/
def Router.served (elig : Port → Bool) (r : Router) (q : FireRequest) : List Port :=
  (List.finRange 4).filter fun p => hasPort q.targets p && elig p && (r.matchIn p q.slot q.generation q.kind).isSome

/-- The fire is coalesced into the record p's queue lists (R103, case 3). -/
def Router.coalesceAt (q : FireRequest) (r : Router) (p : Port) : Router :=
  match r.matchIn p q.slot q.generation q.kind with
  | some h => r.coalesce h q.fired q.weight.toNat
  | none => r

/-- The eligible set of a CLAIM fire request (R104), in ascending order. -/
def Router.eligibleSet (elig : Port → Bool) (r : Router) (q : FireRequest) : List Port :=
  (List.finRange 4).filter fun p =>
    hasPort q.targets p && elig p && !r.queueFull p && (r.matchIn p q.slot q.generation q.kind).isNone

/-- Record `h` enters the queues of the ports, in their order. -/
def Router.enterAll (r : Router) (h : Handle) (ports : List Port) : Router := ports.foldl (fun r p => r.enter p h) r

/-- A fire request of CLAIM delivery (R103, R104). -/
def Router.claim (elig : Port → Bool) (r : Router) (q : FireRequest) : Router :=
  match r.claimMatch q with
  | some h => r.coalesce h q.fired q.weight.toNat
  | none =>
    let served := r.served elig q
    let eligible := r.eligibleSet elig q
    let r' := served.foldl (Router.coalesceAt q) r
    if eligible.isEmpty then
      if served.isEmpty then r'.tellCalendar (.undelivered q.slot q.generation) else r'
    else
      match r'.lowestFree with
      | some h => (r'.setNotice h (some q.record)).enterAll h eligible
      | none => (r'.tellCalendar (.lost q.slot q.generation)).countExhausted

/-- A fire request is taken (R98). -/
def Router.takeFire (elig : Port → Bool) (r : Router) (q : FireRequest) : Router :=
  match q.delivery with
  | .broadcast => r.broadcast elig q
  | .claim => r.claim elig q

/-! ### Purge (R109) -/

/-- Record `h` is removed from every queue and freed, if it is listed and is of slot `n` and generation `g`. -/
def Router.purgeRecord (n : SlotNo) (g : BitVec 16) (r : Router) (h : Handle) : Router :=
  match r.notice h with
  | some x => if x.slot = n && x.generation = g && r.isListed h then (r.withdrawAll h).freeRecord h else r
  | none => r

/-- A purge request is taken (R109). -/
def Router.purge (r : Router) (n : SlotNo) (g : BitVec 16) : Router :=
  (List.finRange 64).foldl (Router.purgeRecord n g) r

/-! ### The fetchable notice (R117, R118) -/

/-- The first entry of p's queue whose class is not masked. -/
def Router.firstUnmasked (r : Router) (p : Port) : Option Handle :=
  (r.queue p).find? fun h => !(r.setting p).mask.getLsbD (r.classOf h)

/-- The record is strictly more urgent than the top of p's stack, or the stack is empty (R117). -/
def Router.aboveTop (r : Router) (p : Port) (h : Handle) : Bool :=
  match r.stack p with
  | [] => true
  | top :: _ => r.classOf h < r.classOf top

/-- p's stack can take one more notice, or does not need to (R117). -/
def Router.hasRoom (r : Router) (p : Port) : Bool :=
  (r.stack p).length < Config.stackCapacity || (r.setting p).autoDone

/-- The fetchable notice of `p`, or the reason why there is none (R117, R118). -/
def Router.fetchable (r : Router) (p : Port) : Except NoneReason Handle :=
  match r.queue p with
  | [] => .error .empty
  | _ :: _ =>
    match r.firstUnmasked p with
    | none => .error .masked
    | some h =>
      if !r.aboveTop p h then .error .blocked
      else if !r.hasRoom p then .error .full
      else .ok h

/-! ### Re-offers (R127) -/

/-- The ports a CLAIM record may be offered to again: its offered set less its declined set. -/
def Offer.candidate : Offer → Port → Bool
  | .broadcast, _ => false
  | .claim offered declined, p => hasPort offered p && !hasPort declined p

/-- The record as a decline or a session end of its taker leaves it: `p` is in its declined set, and it is redelivered (R126). -/
def Notice.declinedBy (x : Notice) (p : Port) : Notice :=
  { x with
    redelivered := true,
    offer := match x.offer with
      | .broadcast => .broadcast
      | .claim offered declined => .claim offered (addPort declined p) }

/-- Record `r` is folded into the matching record `m` (R127, case 1). -/
def Notice.absorb (m x : Notice) : Notice :=
  { m with overrun := satAdd m.overrun (x.overrun.toNat + 1), redelivered := true }

/-- CLAIM record `h`, listed nowhere and held nowhere, with fields `x`, is re-offered (R127). -/
def Router.reoffer (elig : Port → Bool) (r : Router) (h : Handle) (x : Notice) : Router × Reoffer :=
  let candidates := (List.finRange 4).filter fun p => x.offer.candidate p && elig p
  match candidates.findSome? fun p => r.matchIn p x.slot x.generation x.kind with
  | some m =>
    match r.notice m with
    | some y => ((r.setNotice m (some (y.absorb x))).freeRecord h, .folded m)
    | none => (r.freeRecord h, .folded m)
  | none =>
    let eligible := candidates.filter fun p => !r.queueFull p
    if eligible.isEmpty then
      ((r.freeRecord h).tellCalendar (.undelivered x.slot x.generation), .undelivered)
    else ((r.setNotice h (some x)).enterAll h eligible, .listed (portSetOf fun p => p ∈ eligible))

/-! ### Teardown (R131, R132) -/

/-- p's queue entry `h` is given up at the end of p's session; p's queue no longer lists it (R131). -/
def Router.abandonEntry (r : Router) (h : Handle) : Router :=
  match r.notice h with
  | some x =>
    match x.offer with
    | .broadcast => r.freeRecord h
    | .claim _ _ =>
      if r.isListed h then r else (r.freeRecord h).tellCalendar (.undelivered x.slot x.generation)
  | none => r

/-- p's stack entry `h` is given up at the end of p's session; p's stack no longer holds it (R132). -/
def Router.abandonService (elig : Port → Bool) (p : Port) (r : Router) (h : Handle) : Router :=
  match r.notice h with
  | some x =>
    match x.offer with
    | .broadcast => r.freeRecord h
    | .claim _ _ => (r.reoffer elig h (x.declinedBy p)).1
  | none => r

/-- p's queue and then p's stack are emptied, and p's settings return to their defaults (R131 to R133). -/
def Router.tearDown (elig : Port → Bool) (r : Router) (p : Port) : Router :=
  let r1 := (r.queue p).foldl Router.abandonEntry (r.setQueue p [])
  let r2 := (r1.stack p).foldl (Router.abandonService elig p) (r1.setStack p [])
  r2.setSetting p ServiceSettings.defaults

/-! ### Alert reports (R130, R159) -/

/-- The alert report of `p` as the Router stands. -/
def Router.alertOf (r : Router) (p : Port) : AlertReport :=
  { fetchable := (r.fetchable p).isOk, alertOnResponse := (r.setting p).alertOnResponse,
    queueLength := (r.queue p).length, stackDepth := (r.stack p).length }

/-- An event that took the Router from `old` to `r` changed p's queue, stack or settings (R130); or, where `folds` says that the
event may have folded a record into another, it changed a record that p's queue lists (R127, R133). -/
def Router.changedFor (folds : Bool) (old r : Router) (p : Port) : Bool :=
  old.queue p ≠ r.queue p || old.stack p ≠ r.stack p || old.setting p ≠ r.setting p ||
    (folds && (r.queue p).any fun h => old.notice h ≠ r.notice h)

/-- The alert report of `p` is sent. -/
def Router.sendAlert (r : Router) (p : Port) : Router := r.send p (.alert (r.alertOf p))

/-- At the end of an event that took the Router from `old` to `r`, the changed ports are reported, in ascending order (R130);
`always` is a port whose report is sent in any case (R133). -/
def Router.reportFrom (old : Router) (folds : Bool) (always : Option Port) (r : Router) : Router :=
  ((List.finRange 4).filter fun p => Router.changedFor folds old r p || always = some p).foldl Router.sendAlert r

/-- Device reset at the Router (R113, R146): the same as after power-on. -/
def Router.deviceReset (_ : Router) : Router := Router.initial

end Sys2Proof.Machine
end

