-- ==== Sys2Proof/Machine/PortUnit.lean ====
section
/-! DEFINITION. The Port Unit: what becomes of a request frame, sessions, and the messages it exchanges with the blocks
(chapter 7, sections 8.4 and 8.5). -/

namespace Sys2Proof.Machine

/-! ### Responses -/

/-- A response frame is formed and held, and the alert line judged (R151, R155, R159). -/
def PortUnit.respond (u : PortUnit) (code sequence : Byte) (reply : Reply) : PortUnit :=
  PortUnit.drive
    { u with
      executing := none,
      response := some { code := code, outcome := reply.outcome, sequence := sequence, payload := reply.payload.bytes } }

/-- The code field of the frame in the buffer. -/
def PortUnit.frameCode (u : PortUnit) : Byte := byteAt u.buffer 0

/-- The epoch field of the frame in the buffer. -/
def PortUnit.frameEpoch (u : PortUnit) : Byte := byteAt u.buffer 1

/-- The sequence field of the frame in the buffer; 0 if it was not delivered (R151). -/
def PortUnit.frameSequence (u : PortUnit) : Byte := byteAt u.buffer 2

/-- The payload of the frame in the buffer. -/
def PortUnit.framePayload (u : PortUnit) : List Byte := (u.buffer.drop 4).take (byteAt u.buffer 3).toNat

/-- The frame in the buffer is answered (R151). -/
def PortUnit.answer (u : PortUnit) (reply : Reply) : PortUnit := u.respond u.frameCode u.frameSequence reply

/-- The request in the buffer is held EXECUTING under a mark of its own (R155). -/
def PortUnit.hold (u : PortUnit) (work : Work) : PortUnit :=
  { u with
    executing := some { mark := u.nextMark, code := u.frameCode, sequence := u.frameSequence, work := work },
    nextMark := u.nextMark + 1 }

/-! ### Sessions (R134, R137 to R139, R142) -/

/-- A session opens with the next epoch, and the OPEN is answered (R134, R137). -/
def PortUnit.openNow (u : PortUnit) (code sequence : Byte) : PortUnit :=
  PortUnit.respond { u with session := .opened, epoch := nextNumber u.epoch } code sequence
    { outcome := .ok, payload := .epoch (nextNumber u.epoch) }

/-- The session ends by CLOSE or port reset: CLOSED, four teardowns pending, the session end sent on every path (R142). -/
def PortUnit.endSession (u : PortUnit) : PortUnit :=
  PortUnit.drive (PortUnit.sendAll { u with session := .closed, pendingTeardowns := 4 } (.sessionEnd u.epoch))

/-- OPEN (R137, R138). -/
def PortUnit.takeOpen (u : PortUnit) : PortUnit :=
  if u.session = .opened then u.answer { outcome := .alreadyOpen, payload := .epoch u.epoch }
  else if u.pendingTeardowns = 0 then u.openNow u.frameCode u.frameSequence
  else u.hold .waitingOpen

/-- CLOSE after the checks of R135 (R139). -/
def PortUnit.takeClose (u : PortUnit) : PortUnit := u.endSession.answer { outcome := .ok, payload := .epoch u.epoch }

/-- PORT_STATUS: the Port Unit's own part, the clear, and the four parts sent (R140, R141). -/
def PortUnit.takePortStatus (u : PortUnit) : PortUnit :=
  let u' := if flag0 (byteAt u.framePayload 0) then u.clearCounters else u
  (u'.hold (.gathering { session := u.sessionPart, authority := none, slots := none, lines := none, notices := none })).sendAll
    (.part u.nextMark)

/-- A request that passes every check is passed to the block that owns its subject (R135, R155). -/
def PortUnit.passOn (u : PortUnit) (b : Block) (r : Request) : PortUnit :=
  (u.hold .atBlock).send b (.request u.nextMark u.frameEpoch r)

/-! ### Frames (R152 to R154) -/

/-- How far the frame in a buffer has come (R152). -/
inductive FrameProgress where
  | growing | complete | overlong
  deriving DecidableEq, Repr

/-- The frame is complete at its (5 + L)-th byte, overlong at a length byte above 40 (R152). -/
def frameProgress (l : List Byte) : FrameProgress :=
  if l.length < 4 then .growing
  else if Config.maxRequestPayload < (byteAt l 3).toNat then .overlong
  else if l.length < 5 + (byteAt l 3).toNat then .growing
  else .complete

/-- The frame passes its check: the byte after the payload is the check byte of all before it (R150). -/
def passesCheck (l : List Byte) : Bool :=
  byteAt l (4 + (byteAt l 3).toNat) = checkByte (l.take (4 + (byteAt l 3).toNat))

/-- The checks of R154 on a frame that was taken: the command, or the outcome that answers the frame. -/
def PortUnit.linkVerdict (u : PortUnit) (whole : Bool) : Except OutcomeCode Command :=
  if !whole then .error .badFrame
  else if !passesCheck u.buffer then .error .checkFail
  else
    match Command.ofCode u.frameCode with
    | none => .error .unknownCommand
    | some c => if (byteAt u.buffer 3).toNat = c.payloadLength then .ok c else .error .badField

/-- The counters and the CHECK flag after the checks of R154. -/
def PortUnit.linkCount (u : PortUnit) (whole : Bool) : PortUnit :=
  if !whole then u.countBadFrame
  else if !passesCheck u.buffer then u.countCheckFail
  else { u with checkFlag := false }

/-- The session checks of R135: the outcome that refuses the command, if one does. -/
def PortUnit.sessionRefusal (u : PortUnit) (c : Command) : Option OutcomeCode :=
  match c with
  | .openSession | .portStatus => none
  | _ =>
    if u.session = .closed then some .notOpen
    else if u.frameEpoch ≠ u.epoch then some .staleSession
    else none

/-- A command that passed every check is carried out or passed on (R135). -/
def PortUnit.carryOut (u : PortUnit) (c : Command) : PortUnit :=
  match c with
  | .openSession => u.takeOpen
  | .closeSession => u.takeClose
  | .portStatus => u.takePortStatus
  | _ =>
    match c.request u.framePayload with
    | some (b, r) => u.passOn b r
    | none => u

/-- The judgement of a frame that ends: `whole` says that it ended complete (R153, R154, R135). -/
def PortUnit.judgeFrame (u : PortUnit) (whole : Bool) : PortUnit :=
  if u.holdersBusy then u.countRefused
  else
    let u' := PortUnit.linkCount { u with refusedFlag := false } whole
    match u.linkVerdict whole with
    | .error o => u'.answer (Reply.bare o)
    | .ok c =>
      match u.sessionRefusal c with
      | some o => u'.answer (Reply.bare o)
      | none => u'.carryOut c

/-- The frame in the buffer ends. Complete and overlong ends discard the rest of the transaction; a frame still growing ends
because PSELn rises (R152). -/
def PortUnit.endFrame (u : PortUnit) : PortUnit :=
  match frameProgress u.buffer with
  | .complete => { u.judgeFrame true with link := .discard }
  | .overlong => { u.judgeFrame false with link := .discard }
  | .growing => { u.judgeFrame false with link := .idle, buffer := [], out := [], shownReady := false }

/-- The command of the complete frame that waits to be judged, if the frame will be taken and passes the link checks. -/
def PortUnit.framedCommand (u : PortUnit) : Option Command :=
  if u.link = .request && frameProgress u.buffer = .complete && !u.holdersBusy then (u.linkVerdict true).toOption else none

/-! ### Messages from the blocks -/

/-- A block's outcome is the response if it answers the executing request, and is discarded otherwise (R143, R155). -/
def PortUnit.takeOutcome (u : PortUnit) (mark : Nat) (reply : Reply) : PortUnit :=
  match u.executing with
  | some x => if x.mark = mark && x.work = .atBlock then u.respond x.code x.sequence reply else u
  | none => u

/-- A returned part is added to those gathered (R140). -/
def Gathering.add (g : Gathering) : PartReport → Gathering
  | .authority a => { g with authority := some a }
  | .slots n => { g with slots := some n }
  | .lines l => { g with lines := some l }
  | .notices r => { g with notices := some r }

/-- The payload of PORT_STATUS once all four parts have returned (R140). -/
def Gathering.payload? (g : Gathering) : Option Payload :=
  match g.authority, g.slots, g.lines, g.notices with
  | some a, some n, some l, some r => some (.portStatus g.session a n l r)
  | _, _, _, _ => none

/-- A part of the executing PORT_STATUS returns; the last one makes the response READY (R140). -/
def PortUnit.takePartReturn (u : PortUnit) (mark : Nat) (report : PartReport) : PortUnit :=
  match u.executing with
  | some x =>
    match x.work with
    | .gathering g =>
      if x.mark = mark then
        match (g.add report).payload? with
        | some payload => u.respond x.code x.sequence { outcome := .ok, payload := payload }
        | none => { u with executing := some { x with work := .gathering (g.add report) } }
      else u
    | _ => u
  | none => u

/-- A teardown completion is taken; at 0 a waiting OPEN is carried out (R138, R142). -/
def PortUnit.takeCompletion (u : PortUnit) : PortUnit :=
  let u' := { u with pendingTeardowns := u.pendingTeardowns - 1 }
  if u'.pendingTeardowns = 0 then
    match u.executing with
    | some x => if x.work = .waitingOpen then u'.openNow x.code x.sequence else u'
    | none => u'
  else u'

/-- An alert report replaces the last one, and the line is judged again (R159). -/
def PortUnit.takeAlert (u : PortUnit) (report : AlertReport) : PortUnit := PortUnit.drive { u with alertReport := report }

/-! ### PORT_STATUS at the blocks (R140) -/

/-- The part that block `b` reports of port `p`. -/
def State.partOf (s : State) (b : Block) (p : Port) : PartReport :=
  match b with
  | .timebase => .authority (s.timebase.authority = some p)
  | .calendar => .slots (s.calendar.ownedBy p)
  | .line => .lines (s.lines.ownedBy p)
  | .router =>
    .notices
      { queueLength := (s.router.queue p).length, stackDepth := (s.router.stack p).length, settings := s.router.setting p,
        freeRecords := s.router.freeCount, poolExhausted := s.router.poolExhausted }

/-- Block `b` can take an event now: the Calendar takes none in the middle of another (R33). -/
def State.blockFree (s : State) : Block → Bool
  | .calendar => s.calendar.busy = .free
  | .timebase | .router | .line => true

/-! ### The commands -/

/-- The frame of p's current transaction ends and is judged, if its command is `c` and it passes the link checks. -/
def State.endFrameOf (s : State) (p : Port) (c : Command) : Result :=
  if (s.port p).framedCommand = some c then .next (s.setPort p (s.port p).endFrame) else .next s

/-- OPEN: R137, R138. The event that ends an OPEN frame. -/
def execOpenSession (p : Port) (s : State) : Result := s.endFrameOf p .openSession

/-- CLOSE: R139, R142. The event that ends a CLOSE frame. -/
def execCloseSession (p : Port) (s : State) : Result := s.endFrameOf p .closeSession

/-- PORT_STATUS: R140, R141. The event that ends a PORT_STATUS frame. -/
def execPortStatus (p : Port) (s : State) : Result := s.endFrameOf p .portStatus

/-- PORT_STATUS_PART: R140. Block `b` takes its part and reports its own state. -/
def execPortStatusPart (p : Port) (b : Block) (s : State) : Result :=
  if s.blockFree b then
    match s.takePart b p with
    | none => .next s
    | some (mark, s') => .next (s'.setBack b p (s'.back b p ++ [.part mark (s'.partOf b p)]))
  else .next s

/-- PORT_STATUS_PART_RETURN: R140. -/
def execPortStatusPartReturn (p : Port) (b : Block) (s : State) : Result :=
  match s.back b p with
  | .part mark report :: rest => .next ((s.setBack b p rest).setPort p ((s.port p).takePartReturn mark report))
  | _ => .next s

/-- COMPLETION: R138, R142. -/
def execCompletion (p : Port) (b : Block) (s : State) : Result :=
  match s.back b p with
  | .completion :: rest => .next ((s.setBack b p rest).setPort p (s.port p).takeCompletion)
  | _ => .next s

/-- BLOCK_OUTCOME: R143, R155. -/
def execBlockOutcome (p : Port) (b : Block) (s : State) : Result :=
  match s.back b p with
  | .outcome mark reply :: rest => .next ((s.setBack b p rest).setPort p ((s.port p).takeOutcome mark reply))
  | _ => .next s

/-- LOST_NOTICE_REPORT: R141, R157. -/
def execLostNoticeReport (p : Port) (s : State) : Result :=
  match s.back .router p with
  | .lostNotice :: rest => .next ((s.setBack .router p rest).setPort p (s.port p).countLost)
  | _ => .next s

/-- ALERT_REPORT: R130, R159. -/
def execAlertReport (p : Port) (s : State) : Result :=
  match s.back .router p with
  | .alert report :: rest => .next ((s.setBack .router p rest).setPort p ((s.port p).takeAlert report))
  | _ => .next s

end Sys2Proof.Machine
end

