-- ==== Sys2Proof/Machine/Link.lean ====
section
/-! DEFINITION. The port link (sections 8.1, 8.2, 8.4, 8.5): select edges, bytes, response reads. -/

namespace Sys2Proof.Machine

/-- PSELn falls: the header snapshot is taken (R148, R149). -/
def PortUnit.select (u : PortUnit) : PortUnit :=
  { u with link := .header, buffer := [], out := [u.headerByte0, u.headerByte1], shownReady := u.response.isSome }

/-- The frame a response read shifts out: the response frame if the header showed RESP_READY, else the empty frame (R156). -/
def PortUnit.frameToRead (u : PortUnit) : List Byte :=
  match u.shownReady, u.response with
  | true, some f => f.bytes
  | _, _ => emptyFrame

/-- A first byte of 0x00 is complete: a response read begins; byte 1 of the header and then the frame are shifted out (R148,
R156). -/
def PortUnit.beginRead (u : PortUnit) : PortUnit := { u with link := .read, out := u.out.tail ++ u.frameToRead }

/-- The response is consumed (R156). -/
def PortUnit.consume (u : PortUnit) : PortUnit :=
  PortUnit.drive { u with response := none, out := [], shownReady := false }

/-- A byte of a response read is complete; the last byte of a response frame consumes it (R156). -/
def PortUnit.shiftRead (u : PortUnit) : PortUnit :=
  if u.shownReady && u.out.length = 1 then u.consume else { u with out := u.out.tail }

/-- A byte shifted in is complete (R147, R148). A byte that comes after the frame's last, before the frame was judged, finds the
frame ended. -/
def PortUnit.receive (u : PortUnit) (b : Byte) : PortUnit :=
  match u.link with
  | .idle => u
  | .header => if b = 0 then u.beginRead else { u with link := .request, buffer := [b], out := u.out.tail }
  | .request =>
    match frameProgress u.buffer with
    | .growing => { u with buffer := u.buffer ++ [b], out := u.out.tail }
    | .complete | .overlong => { u.endFrame with out := u.out.tail }
  | .read => u.shiftRead
  | .discard => { u with out := u.out.tail }

/-- PSELn rises: a frame not yet judged ends, and the receive state returns to IDLE (R148, R152). -/
def PortUnit.deselect (u : PortUnit) : PortUnit :=
  let u' := if u.link = .request then u.endFrame else u
  { u' with link := .idle, buffer := [], out := [], shownReady := false }

/-! ### The commands -/

/-- STATUS_HEADER: R147 to R149. While PRSTn(p) or RSTn is low, the fall of PSELn is ignored (R146, R160). -/
def execStatusHeader (p : Port) (s : State) : Result :=
  if !s.inReset && !(s.port p).prstLow && (s.port p).link = .idle then .next (s.setPort p (s.port p).select)
  else .next s

/-- REQUEST_FRAME: R152 to R154, R135. -/
def execRequestFrame (p : Port) (s : State) : Result :=
  if (s.port p).link = .request then .next (s.setPort p (s.port p).endFrame) else .next s

/-- RESPONSE_READ: R148, R156. The first byte of the transaction is complete and is 0x00. -/
def execResponseRead (p : Port) (s : State) : Result :=
  if (s.port p).link = .header then .next (s.setPort p (s.port p).beginRead) else .next s

/-- RESPONSE_CONSUMED: R156. The last bit of the check byte of the response frame is sampled; the bytes of the read before it,
which change nothing else, are passed over. -/
def execResponseConsumed (p : Port) (s : State) : Result :=
  if (s.port p).link = .read && (s.port p).shownReady then .next (s.setPort p (s.port p).consume) else .next s

/-- TRANSACTION_END: R148, R152. -/
def execTransactionEnd (p : Port) (s : State) : Result := .next (s.setPort p (s.port p).deselect)

/-- REQUEST_BYTE_RECEIVED: R147, R148. -/
def execRequestByteReceived (p : Port) (byte : Byte) (s : State) : Result := .next (s.setPort p ((s.port p).receive byte))

end Sys2Proof.Machine
end

