-- ==== Sys2Proof/Machine/Pins.lean ====
section
/-! DEFINITION. The Pin Unit (sections 4.6 and 4.7). -/

namespace Sys2Proof.Machine

/-- The record of pin `o`. -/
def PinUnit.record (u : PinUnit) (o : PinNo) : PinRecord := u.records[o]

/-- The Pin Unit with pin record `o` replaced. -/
def PinUnit.setRecord (u : PinUnit) (o : PinNo) (x : PinRecord) : PinUnit := { u with records := setAt u.records o x }

/-- The pin is bound to a slot other than `n`. -/
def PinRecord.boundToOther (x : PinRecord) (n : SlotNo) : Bool :=
  match x.bound with
  | some m => m ≠ n
  | none => false

/-- The Pin Unit refuses a binding of the new pin to slot `n` (R87). -/
def PinUnit.refuses (u : PinUnit) (new : Option PinNo) (n : SlotNo) : Bool :=
  match new with
  | some o => (u.record o).boundToOther n
  | none => false

/-- The pin becomes unbound: low, no pulse, action PULSE (R87, R90). -/
def PinUnit.unbindPin (u : PinUnit) (o : PinNo) : PinUnit := u.setRecord o PinRecord.initial

/-- The old pin of a granted binding is unbound if it is not the new one (R87). -/
def PinUnit.dropOld (u : PinUnit) (old new : Option PinNo) : PinUnit :=
  match old with
  | some o => if new = some o then u else u.unbindPin o
  | none => u

/-- The new pin of a granted binding is bound, kept, or kept with its action replaced (R87). -/
def PinUnit.takeNew (u : PinUnit) (old new : Option PinNo) (action : PinAction) (n : SlotNo) : PinUnit :=
  match new with
  | none => u
  | some o =>
    let x := u.record o
    if old = some o then
      if x.action = action then u else u.setRecord o { x with action := action, level := false, pulseTime := none }
    else if x.bound = none then u.setRecord o { x with bound := some n, action := action }
    else u

/-- A granted binding request (R87). -/
def PinUnit.bind (u : PinUnit) (old new : Option PinNo) (action : PinAction) (n : SlotNo) : PinUnit :=
  (u.dropOld old new).takeNew old new action n

/-- A fire action (R88). -/
def PinUnit.fire (u : PinUnit) (o : PinNo) (action : PinAction) (t : Time) : PinUnit :=
  let x := u.record o
  match action with
  | .pulse => u.setRecord o { x with level := true, pulseTime := some t }
  | .toggle => u.setRecord o { x with level := !x.level }
  | .level => u.setRecord o { x with level := true }

/-- A drive-low (R90). -/
def PinUnit.lower (u : PinUnit) (o : PinNo) : PinUnit := u.setRecord o { u.record o with level := false }

/-- The pulse of the pin ends at a delivered tick carrying `t`: one is in progress, and its pulse time differs from `t` (R89). -/
def PinRecord.pulseEndsAt (x : PinRecord) (t : Time) : Bool :=
  match x.pulseTime with
  | some v => v ≠ t
  | none => false

/-- The pin after a delivered tick carrying `t` (R89). -/
def PinRecord.ticked (x : PinRecord) (t : Time) : PinRecord :=
  if x.pulseEndsAt t then { x with level := false, pulseTime := none } else x

/-- Every pulse that ends at the tick carrying `t` ends (R89). -/
def PinUnit.tick (u : PinUnit) (t : Time) : PinUnit :=
  { u with records := tabulate 4 fun o => (u.record o).ticked t }

/-! ### The commands -/

/-- The request at the head of the Calendar's path to the Pin Unit, and the state without it; none while the Pin Unit is part
way through a delivered tick. -/
def State.pinRequest (s : State) : Option (PinRequest × State) :=
  match s.pins.tickBegun, s.calendar.toPin with
  | false, m :: rest => some (m, { s with calendar := { s.calendar with toPin := rest } })
  | _, _ => none

/-- BINDING_REQUEST: R87, with the answer that the waiting Calendar takes (R33, R34). -/
def execBindingRequest (s : State) : Result :=
  match s.pinRequest with
  | some (.binding old new action n, s') =>
    if s'.pins.refuses new n then .next { s' with calendar := s'.calendar.takeAnswer false }
    else .next { s' with pins := s'.pins.bind old new action n, calendar := s'.calendar.takeAnswer true }
  | _ => .next s

/-- FIRE_ACTION: R88. It may be taken at any distance from the tick of its fired time, as the two paths are not ordered (log entry 29, a
DESIGN CHOICE). -/
def execFireAction (s : State) : Result :=
  match s.pinRequest with
  | some (.fire o action t, s') => .next { s' with pins := s'.pins.fire o action t }
  | _ => .next s

/-- DRIVE_LOW: R90. -/
def execDriveLow (s : State) : Result :=
  match s.pinRequest with
  | some (.driveLow o, s') => .next { s' with pins := s'.pins.lower o }
  | _ => .next s

/-- UNBIND: R90. -/
def execUnbind (s : State) : Result :=
  match s.pinRequest with
  | some (.unbind o, s') => .next { s' with pins := s'.pins.unbindPin o }
  | _ => .next s

/-- PIN_DELIVERED_TICK: R89. A pulse whose pulse time is not the value carried ends, also at a tick from before its fire that is taken
after the fire action (log entry 29, a DESIGN CHOICE). -/
def execPinDeliveredTick (s : State) : Result :=
  match s.timebase.toPin with
  | t :: rest =>
    .next { s with timebase := { s.timebase with toPin := rest }, pins := { s.pins.tick t with tickBegun := false } }
  | [] => .next s

/-- PULSE_END: R89. The end of the pulse on pin `o` as a step of its own, at the delivered tick at the head of the Timebase's
path; the Pin Unit takes nothing else until PIN_DELIVERED_TICK ends that tick. -/
def execPulseEnd (o : PinNo) (s : State) : Result :=
  match s.timebase.toPin with
  | t :: _ =>
    if (s.pins.record o).pulseEndsAt t then
      .next { s with pins := { s.pins.setRecord o ((s.pins.record o).ticked t) with tickBegun := true } }
    else .next s
  | [] => .next s

end Sys2Proof.Machine
end

