-- ==== Sys2Proof/Machine/Timebase.lean ====
section
/-! DEFINITION. The Timebase (chapter 1): ticks, slew, the time authority and the timebase writes. -/

namespace Sys2Proof.Machine

/-! ### Requests (sections 1.4 and 1.5) -/

/-- The snapshot of TIME_READ (R7): the direction reads GAIN while no slew is active. -/
def Timebase.snapshot (t : Timebase) : TimeSnapshot :=
  { time := t.time, divisor := t.divisor, valid := t.valid, authority := t.authority, pendingWrite := t.pendingWrite,
    slewRemaining := t.slewRemaining, slewDirection := if t.slewRemaining = 0 then .gain else t.slewDirection }

/-- TIME_READ (R7). -/
def Timebase.read (t : Timebase) : Timebase × Reply := (t, { outcome := .ok, payload := .time t.snapshot })

/-- TIME_CLAIM (R8). -/
def Timebase.claim (p : Port) (t : Timebase) : Timebase × Reply :=
  match t.authority with
  | none => ({ t with authority := some p }, Reply.bare .ok)
  | some q => (t, Reply.bare (if q = p then .ok else .heldByOther))

/-- TIME_RELEASE (R9). -/
def Timebase.release (p : Port) (t : Timebase) : Timebase × Reply :=
  if t.authority = some p then ({ t with authority := none }, Reply.bare .ok) else (t, Reply.bare .notAuthority)

/-- The fields of a write are in range (R11, R12, R13). -/
def Timebase.inRange (t : Timebase) : TimeWrite → Bool
  | .set v => (signedDiff v t.time).natAbs < 2 ^ 46
  | .adjust a sp => a.toInt.natAbs ≤ 65535 && 2 ≤ sp.toNat
  | .tick d => 1 ≤ d.toNat && d.toNat ≤ 65536

/-- A timebase write (R10): the three checks in order, then the write is recorded as pending. -/
def Timebase.accept (p : Port) (w : TimeWrite) (t : Timebase) : Timebase × Reply :=
  if t.authority ≠ some p then (t, Reply.bare .notAuthority)
  else if t.pendingWrite.isSome then (t, Reply.bare .busy)
  else if t.inRange w then ({ t with pendingWrite := some { write := w, issuer := p } }, Reply.bare .accepted)
  else (t, Reply.bare .badField)

/-- TIME_WITHDRAW (R14). -/
def Timebase.withdraw (p : Port) (t : Timebase) : Timebase × Reply :=
  if t.authority ≠ some p then (t, Reply.bare .notAuthority)
  else if t.pendingWrite.isSome then ({ t with pendingWrite := none }, Reply.bare .ok)
  else (t, Reply.bare .notPending)

/-! ### Ticks (sections 1.2, 1.5, 1.6) -/

/-- The Timebase delivers a tick carrying its time value to the Calendar and the Pin Unit (R5). -/
def Timebase.deliver (t : Timebase) : Timebase :=
  { t with toCalendar := t.toCalendar ++ [.tick t.time], toPin := t.toPin ++ [t.time] }

/-- The time value advances by `n` and the tick is delivered (R4, R5). -/
def Timebase.advance (t : Timebase) (n : Nat) : Timebase := Timebase.deliver { t with time := after t.time n }

/-- The next tick without a SET or ADJUST is a slew step: a slew is active and its countdown is about to reach 0 (R16). -/
def Timebase.slewStepNext (t : Timebase) : Bool := t.slewRemaining ≠ 0 && t.countdown.toNat ≤ 1

/-- A tick with no SET or ADJUST applied: ordinary, a slew tick that counts down, or a slew step (R4, R16). -/
def Timebase.plainTick (t : Timebase) : Timebase :=
  if t.slewRemaining = 0 then t.advance 1
  else if t.slewStepNext then
    let t' := { t with slewRemaining := t.slewRemaining - 1, countdown := t.slewSpacing }
    match t.slewDirection with
    | .gain => t'.advance 2
    | .lose => t'
  else Timebase.advance { t with countdown := t.countdown - 1 } 1

/-- A TIME_SET is applied (R11): the Calendar gets a time step with the step delta, the Pin Unit a delivered tick. -/
def Timebase.applySet (t : Timebase) (v : Time) : Timebase :=
  { t with
    time := v, valid := true, slewRemaining := 0, countdown := 0,
    toCalendar := t.toCalendar ++ [.step t.time v (v - (t.time + 1))], toPin := t.toPin ++ [v] }

/-- A TIME_ADJUST is applied (R12); the tick is delivered as an ordinary tick. -/
def Timebase.applyAdjust (t : Timebase) (a : BitVec 24) (sp : BitVec 16) : Timebase :=
  Timebase.advance
    (if a.toInt = 0 then { t with slewRemaining := 0 }
     else
      { t with
        slewRemaining := BitVec.ofNat 16 a.toInt.natAbs, slewDirection := if 0 < a.toInt then .gain else .lose,
        slewSpacing := sp, countdown := sp }) 1

/-- A tick arrival (R3, R4): the phase returns to 0, a pending write is applied and becomes absent. -/
def Timebase.arrive (t : Timebase) : Timebase :=
  let t' := { t with phase := 0, pendingWrite := none }
  match t.pendingWrite with
  | none => t'.plainTick
  | some w =>
    match w.write with
    | .set v => t'.applySet v
    | .adjust a sp => t'.applyAdjust a sp
    | .tick d => Timebase.plainTick { t' with divisor := d.setWidth 17 }

/-- One REFCLK period ends (R3). -/
def Timebase.refclk (t : Timebase) : Timebase :=
  if t.phase.toNat + 1 < t.divisor.toNat then { t with phase := t.phase + 1 } else t.arrive

/-- The next tick arrival is a slew step: no SET or ADJUST takes the tick instead (R17). -/
def Timebase.arrivesAsSlewStep (t : Timebase) : Bool :=
  t.slewStepNext &&
    match t.pendingWrite with
    | none => true
    | some w => match w.write with
      | .tick _ => true
      | .set _ | .adjust _ _ => false

/-- The end of p's session at the Timebase (R20). -/
def Timebase.endSession (p : Port) (t : Timebase) : Timebase :=
  if t.authority = some p then { t with authority := none } else t

/-- Device reset at the Timebase (R19, R146): the paths to the Calendar and the Pin Unit are kept, the paths back discarded. -/
def Timebase.deviceReset (t : Timebase) : Timebase :=
  { t with
    pendingWrite := none, slewRemaining := 0, slewDirection := .gain, countdown := 0, authority := none,
    back := Vector.replicate 4 [] }

/-! ### The commands -/

/-- TIME_READ: R7. -/
def execTimeRead (p : Port) (s : State) : Result :=
  s.serveTimebase p fun
    | .timeRead => some Timebase.read
    | _ => none

/-- TIME_CLAIM: R8. -/
def execTimeClaim (p : Port) (s : State) : Result :=
  s.serveTimebase p fun
    | .timeClaim => some (Timebase.claim p)
    | _ => none

/-- TIME_RELEASE: R9. -/
def execTimeRelease (p : Port) (s : State) : Result :=
  s.serveTimebase p fun
    | .timeRelease => some (Timebase.release p)
    | _ => none

/-- TIME_SET: R10, R11. -/
def execTimeSet (p : Port) (s : State) : Result :=
  s.serveTimebase p fun
    | .timeSet v => some (Timebase.accept p (.set v))
    | _ => none

/-- TIME_ADJUST: R10, R12. -/
def execTimeAdjust (p : Port) (s : State) : Result :=
  s.serveTimebase p fun
    | .timeAdjust a sp => some (Timebase.accept p (.adjust a sp))
    | _ => none

/-- TIME_TICK: R10, R13. -/
def execTimeTick (p : Port) (s : State) : Result :=
  s.serveTimebase p fun
    | .timeTick d => some (Timebase.accept p (.tick d))
    | _ => none

/-- TIME_WITHDRAW: R14. -/
def execTimeWithdraw (p : Port) (s : State) : Result :=
  s.serveTimebase p fun
    | .timeWithdraw => some (Timebase.withdraw p)
    | _ => none

/-- TICK_ARRIVAL: R3, R4, R5. The command stands for the end of the last REFCLK period of the tick, whatever the phase. -/
def execTickArrival (s : State) : Result := .next { s with timebase := s.timebase.arrive }

/-- SLEW_STEP: R16, R17. It is the tick arrival at which the countdown reaches 0; when the next arrival is not one, no such
event occurs. -/
def execSlewStep (s : State) : Result :=
  if s.timebase.arrivesAsSlewStep then .next { s with timebase := s.timebase.arrive } else .next s

/-- TIMEBASE_SESSION_END: R20, and the completion of R142. -/
def execTimebaseSessionEnd (p : Port) (s : State) : Result :=
  match s.takeSessionEnd .timebase p with
  | none => .next s
  | some s' => .next { s' with timebase := (s'.timebase.endSession p).send p .completion }

/-- One REFCLK period passes with no command taken (R3). -/
def State.refclkPeriod (s : State) : State := { s with timebase := s.timebase.refclk }

end Sys2Proof.Machine
end

