-- ==== Sys2Proof/Machine/Resets.lean ====
section
/-! DEFINITION. Power-on, device reset and port reset (sections 1.7, 2.12, 3.9, 4.5, 5.8, 7.6, 8.8). -/

namespace Sys2Proof.Machine

/-- What PRSTn going low clears, the session apart: holders, flags, counters, link and alert report; the alert line is judged
again (R144, R159, R160). -/
def PortUnit.clearPort (u : PortUnit) : PortUnit :=
  PortUnit.drive
    { u.clearCounters with
      executing := none, response := none, refusedFlag := false, checkFlag := false, link := .idle, buffer := [], out := [],
      shownReady := false, alertReport := AlertReport.quiet }

/-- PRSTn goes low (R144). -/
def PortUnit.portReset (u : PortUnit) : PortUnit :=
  { (if u.session = .opened then u.endSession else u).clearPort with prstLow := true }

/-- Device reset at a Port Unit (R146): all but the epoch (and the pin PRSTn, and the next mark) as after power-on. -/
def PortUnit.deviceReset (u : PortUnit) : PortUnit :=
  { PortUnit.initial with epoch := u.epoch, prstLow := u.prstLow, nextMark := u.nextMark }

/-- What each block does when a device reset begins (R19, R43, R86, R91, R113, R146). A delivery or a delivered tick of which a part
was taken as a step of its own (FIRE, PULSE_END) was taken before the reset, and leaves its path. -/
def State.deviceReset (s : State) : State :=
  { s with
    ports := tabulate 4 fun p => (s.port p).deviceReset,
    timebase :=
      { s.timebase.deviceReset with
        toCalendar := if s.calendar.busy = .delivering then s.timebase.toCalendar.tail else s.timebase.toCalendar,
        toPin := if s.pins.tickBegun then s.timebase.toPin.tail else s.timebase.toPin },
    calendar := s.calendar.deviceReset, router := s.router.deviceReset, lines := LineUnit.initial, pins := PinUnit.initial }

/-! ### The commands -/

/-- POWER_ON: R18, R42, R44 to R47, R86, R91, R112, R114, R134, R146, R161. -/
def execPowerOn (s : State) : Result := .next { State.reset with pending := s.pending }

/-- DEVICE_RESET: R145, R146. A sample finds RSTn low. The eighth in a row begins the device reset; fewer begin none; while the reset
is in progress a further one changes nothing (log entry 22, a DESIGN CHOICE: the seven before the eighth are this command too). -/
def execDeviceReset (s : State) : Result :=
  if s.inReset then .next s
  else
    let s' := { s with rstnLows := s.rstnLows + 1 }
    .next (if s'.inReset then s'.deviceReset else s')

/-- DEVICE_RESET_END: R145. A sample finds RSTn high: the count of low samples starts again, and a device reset in progress ends;
line sampling resumes with the initial sample (R77). -/
def execDeviceResetEnd (s : State) : Result := .next { s with rstnLows := 0 }

/-- PORT_RESET: R144. -/
def execPortReset (p : Port) (s : State) : Result :=
  if (s.port p).prstLow then .next s else .next (s.setPort p (s.port p).portReset)

/-- PORT_RESET_END: R144, R160. -/
def execPortResetEnd (p : Port) (s : State) : Result := .next (s.setPort p { s.port p with prstLow := false })

end Sys2Proof.Machine
end

