-- ==== Sys2Proof/Machine/Service.lean ====
section
/-! DEFINITION. The service commands and the Router's other events (chapters 5 and 6). -/

namespace Sys2Proof.Machine

/-! ### Service requests -/

/-- The Notice Router takes a request of `p` (R136): `act` says what the request does, or none if it is not the one commanded.
The alert reports of the event stand before its outcome on the path back. -/
def State.serveRouter (s : State) (p : Port) (act : Request → Option ((Port → Bool) → Router → Router × Reply)) : Result :=
  match s.takeRequest .router p with
  | none => .next s
  | some k =>
    match act k.request with
    | none => .next s
    | some f =>
      let (r, reply) :=
        if s.sessionIs p k.epoch then f s.isOpen k.rest.router else (k.rest.router, Reply.bare .staleSession)
      .next { k.rest with router := (Router.reportFrom k.rest.router true none r).send p (.outcome k.mark reply) }

/-- SERVICE_SET (R115). -/
def Router.serviceSet (p : Port) (mask autoDone alert : Byte) (_ : Port → Bool) (r : Router) : Router × Reply :=
  match boolOfCode autoDone, boolOfCode alert with
  | some a, some l =>
    if a && !(r.stack p).isEmpty then (r, Reply.bare .badState)
    else
      let x : ServiceSettings := { mask := mask, autoDone := a, alertOnResponse := l }
      (r.setSetting p x, { outcome := .ok, payload := .service x (r.queue p).length (r.stack p).length })
  | _, _ => (r, Reply.bare .badField)

/-- The reply when there is no fetchable notice (R118). -/
def Router.noNotice (r : Router) (p : Port) (reason : NoneReason) : Reply :=
  { outcome := .none, payload := .noNotice reason (r.queue p).length (r.stack p).length }

/-- The reply that reports notice `h` with fields `x` (R119, R123). -/
def Router.noticeReply (r : Router) (p : Port) (h : Handle) (x : Notice) : Reply :=
  { outcome := .ok, payload := .notice h x (r.queue p).length (r.stack p).length }

/-- Record `h` with fields `x` leaves p's queue, and every other holder's if it is of delivery CLAIM (R119, R121). -/
def Router.unqueue (r : Router) (p : Port) (h : Handle) (x : Notice) : Router :=
  match x.offer.delivery with
  | .broadcast => r.setQueue p (without h (r.queue p))
  | .claim => r.withdrawAll h

/-- FETCH (R119 to R121). -/
def Router.fetch (p : Port) (_ : Port → Bool) (r : Router) : Router × Reply :=
  match r.fetchable p with
  | .error reason => (r, r.noNotice p reason)
  | .ok h =>
    match r.notice h with
    | none => (r, r.noNotice p .empty)
    | some x =>
      let r1 := r.unqueue p h x
      let r2 := if (r.setting p).autoDone then r1.freeRecord h else r1.setStack p (h :: r1.stack p)
      (r2, r2.noticeReply p h x)

/-- PEEK (R123). -/
def Router.peek (p : Port) (_ : Port → Bool) (r : Router) : Router × Reply :=
  match r.fetchable p with
  | .error reason => (r, r.noNotice p reason)
  | .ok h =>
    match r.notice h with
    | none => (r, r.noNotice p .empty)
    | some x => (r, r.noticeReply p h x)

/-- The notice a DONE names: the top of p's stack, or the one with the handle, or the outcome that refuses it (R124, R125). -/
def Router.noticeToComplete (r : Router) (p : Port) (handle : Byte) : Except OutcomeCode Handle :=
  if handle = 0xFF then
    match r.stack p with
    | [] => .error .notInService
    | h :: _ => .ok h
  else
    match indexOf 64 handle with
    | none => .error .badField
    | some h => if h ∈ r.stack p then .ok h else .error .notInService

/-- DONE (R124, R125). -/
def Router.complete (p : Port) (handle : Byte) (_ : Port → Bool) (r : Router) : Router × Reply :=
  match r.noticeToComplete p handle with
  | .error o => (r, Reply.bare o)
  | .ok h =>
    match r.notice h with
    | none => (r, Reply.bare .notInService)
    | some x =>
      let r' := (r.setStack p (without h (r.stack p))).freeRecord h
      (r', { outcome := .ok, payload := .completed h x (r'.stack p).length })

/-- DECLINE (R126, R127). -/
def Router.decline (p : Port) (handle : Byte) (elig : Port → Bool) (r : Router) : Router × Reply :=
  match indexOf 64 handle with
  | none => (r, Reply.bare .badField)
  | some h =>
    if h ∈ r.stack p then
      match r.notice h with
      | none => (r, Reply.bare .notInService)
      | some x =>
        match x.offer.delivery with
        | .broadcast => (r, Reply.bare .badState)
        | .claim =>
          let (r', result) := (r.setStack p (without h (r.stack p))).reoffer elig h (x.declinedBy p)
          (r', { outcome := .ok, payload := .declined h (r'.stack p).length result })
    else (r, Reply.bare .notInService)

/-! ### The commands -/

/-- SERVICE_SET: R115. -/
def execServiceSet (p : Port) (s : State) : Result :=
  s.serveRouter p fun
    | .serviceSet mask autoDone alert => some (Router.serviceSet p mask autoDone alert)
    | _ => none

/-- FETCH: R119 to R121. -/
def execFetch (p : Port) (s : State) : Result :=
  s.serveRouter p fun
    | .fetch => some (Router.fetch p)
    | _ => none

/-- PEEK: R123. -/
def execPeek (p : Port) (s : State) : Result :=
  s.serveRouter p fun
    | .peek => some (Router.peek p)
    | _ => none

/-- DONE: R124, R125. -/
def execDone (p : Port) (s : State) : Result :=
  s.serveRouter p fun
    | .done handle => some (Router.complete p handle)
    | _ => none

/-- DECLINE: R126, R127. -/
def execDecline (p : Port) (s : State) : Result :=
  s.serveRouter p fun
    | .decline handle => some (Router.decline p handle)
    | _ => none

/-- Port `p` is eligible for the notices of fire request `q`: its session is OPEN as the Router takes the request (R99), and it is not
the port beside whose session end the request stands, which is closed to it, opened again or not (R39, R40, R133; log entry 24, a DESIGN
CHOICE). -/
def State.eligible (s : State) (q : FireRequest) (p : Port) : Bool := s.isOpen p && q.tie ≠ some (.ended p)

/-- FIRE_REQUEST: R98 to R105, R107, R108. -/
def execFireRequest (s : State) : Result :=
  match s.calendar.toRouter with
  | .fire q :: rest =>
    .next { s with
      calendar := { s.calendar with toRouter := rest },
      router := Router.reportFrom s.router false none (s.router.takeFire (s.eligible q) q) }
  | _ => .next s

/-- PURGE_REQUEST: R109. -/
def execPurgeRequest (s : State) : Result :=
  match s.calendar.toRouter with
  | .purge n g :: rest =>
    .next { s with
      calendar := { s.calendar with toRouter := rest },
      router := Router.reportFrom s.router false none (s.router.purge n g) }
  | _ => .next s

/-- TEARDOWN: R131 to R133, and the completion of R142, which stands behind the alert report. -/
def execTeardown (p : Port) (s : State) : Result :=
  match s.takeSessionEnd .router p with
  | none => .next s
  | some s' =>
    .next { s' with
      router := (Router.reportFrom s'.router true (some p) (s'.router.tearDown s'.isOpen p)).send p .completion }

end Sys2Proof.Machine
end

