-- ==== Sys2Proof/Machine/Dispatch.lean ====
section
/-! DEFINITION. One arm per command: the meaning of each row of spec/opcode_table.json. -/

namespace Sys2Proof.Machine

open Sys2Proof

/-- The effect of one command on everything but the queue of the commands that wait. -/
def exec (i : Instr) (s : State) : Host.Outcome State Fault Refusal :=
  match i with
  | .openSession p => Sys2Proof.Machine.execOpenSession p s
  | .closeSession p => Sys2Proof.Machine.execCloseSession p s
  | .portStatus p => Sys2Proof.Machine.execPortStatus p s
  | .serviceSet p => Sys2Proof.Machine.execServiceSet p s
  | .fetch p => Sys2Proof.Machine.execFetch p s
  | .peek p => Sys2Proof.Machine.execPeek p s
  | .done p => Sys2Proof.Machine.execDone p s
  | .decline p => Sys2Proof.Machine.execDecline p s
  | .slotAllocate p => Sys2Proof.Machine.execSlotAllocate p s
  | .slotConfigure p => Sys2Proof.Machine.execSlotConfigure p s
  | .slotArm p => Sys2Proof.Machine.execSlotArm p s
  | .slotDisarm p => Sys2Proof.Machine.execSlotDisarm p s
  | .slotTouch p => Sys2Proof.Machine.execSlotTouch p s
  | .slotRelease p => Sys2Proof.Machine.execSlotRelease p s
  | .slotAdopt p => Sys2Proof.Machine.execSlotAdopt p s
  | .slotQuery p => Sys2Proof.Machine.execSlotQuery p s
  | .timeRead p => Sys2Proof.Machine.execTimeRead p s
  | .timeClaim p => Sys2Proof.Machine.execTimeClaim p s
  | .timeRelease p => Sys2Proof.Machine.execTimeRelease p s
  | .timeSet p => Sys2Proof.Machine.execTimeSet p s
  | .timeAdjust p => Sys2Proof.Machine.execTimeAdjust p s
  | .timeTick p => Sys2Proof.Machine.execTimeTick p s
  | .timeWithdraw p => Sys2Proof.Machine.execTimeWithdraw p s
  | .lineClaim p => Sys2Proof.Machine.execLineClaim p s
  | .lineRelease p => Sys2Proof.Machine.execLineRelease p s
  | .lineConfig p => Sys2Proof.Machine.execLineConfig p s
  | .lineEnable p => Sys2Proof.Machine.execLineEnable p s
  | .lineDisable p => Sys2Proof.Machine.execLineDisable p s
  | .linePulse p => Sys2Proof.Machine.execLinePulse p s
  | .lineStatus p => Sys2Proof.Machine.execLineStatus p s
  | .powerOn => Sys2Proof.Machine.execPowerOn s
  | .deviceReset => Sys2Proof.Machine.execDeviceReset s
  | .deviceResetEnd => Sys2Proof.Machine.execDeviceResetEnd s
  | .portReset p => Sys2Proof.Machine.execPortReset p s
  | .portResetEnd p => Sys2Proof.Machine.execPortResetEnd p s
  | .tickArrival => Sys2Proof.Machine.execTickArrival s
  | .slewStep => Sys2Proof.Machine.execSlewStep s
  | .deliveredTick => Sys2Proof.Machine.execDeliveredTick s
  | .timeStep => Sys2Proof.Machine.execTimeStep s
  | .fire n => Sys2Proof.Machine.execFire n s
  | .countFire n touchedBy => Sys2Proof.Machine.execCountFire n touchedBy s
  | .edgeArrival => Sys2Proof.Machine.execEdgeArrival s
  | .gateReport => Sys2Proof.Machine.execGateReport s
  | .slotCountReport => Sys2Proof.Machine.execSlotCountReport s
  | .calendarSessionEnd p => Sys2Proof.Machine.execCalendarSessionEnd p s
  | .timebaseSessionEnd p => Sys2Proof.Machine.execTimebaseSessionEnd p s
  | .lineSessionEnd p => Sys2Proof.Machine.execLineSessionEnd p s
  | .teardown p => Sys2Proof.Machine.execTeardown p s
  | .lineSample levels => Sys2Proof.Machine.execLineSample levels s
  | .changeOfAcceptedLevel e level => Sys2Proof.Machine.execChangeOfAcceptedLevel e level s
  | .bindingRequest => Sys2Proof.Machine.execBindingRequest s
  | .fireAction => Sys2Proof.Machine.execFireAction s
  | .driveLow => Sys2Proof.Machine.execDriveLow s
  | .unbind => Sys2Proof.Machine.execUnbind s
  | .pinDeliveredTick => Sys2Proof.Machine.execPinDeliveredTick s
  | .pulseEnd o => Sys2Proof.Machine.execPulseEnd o s
  | .fireRequest => Sys2Proof.Machine.execFireRequest s
  | .purgeRequest => Sys2Proof.Machine.execPurgeRequest s
  | .portStatusPart p b => Sys2Proof.Machine.execPortStatusPart p b s
  | .portStatusPartReturn p b => Sys2Proof.Machine.execPortStatusPartReturn p b s
  | .completion p b => Sys2Proof.Machine.execCompletion p b s
  | .blockOutcome p b => Sys2Proof.Machine.execBlockOutcome p b s
  | .lostNoticeReport p => Sys2Proof.Machine.execLostNoticeReport p s
  | .alertReport p => Sys2Proof.Machine.execAlertReport p s
  | .statusHeader p => Sys2Proof.Machine.execStatusHeader p s
  | .requestFrame p => Sys2Proof.Machine.execRequestFrame p s
  | .responseRead p => Sys2Proof.Machine.execResponseRead p s
  | .responseConsumed p => Sys2Proof.Machine.execResponseConsumed p s
  | .transactionEnd p => Sys2Proof.Machine.execTransactionEnd p s
  | .requestByteReceived p byte => Sys2Proof.Machine.execRequestByteReceived p byte s

end Sys2Proof.Machine
end

