-- ==== Sys2Proof/Safety.lean ====
section
/-! DEFINITION. What a claim about this model is stated in: the commands that take a request, the effect a rule gives, the laws of
the part that every step keeps, and the execution in which a claim about a command sequence stands. -/

namespace Sys2Proof.Machine

/-! ### Requests and the commands that take them (R135, R136) -/

/-- The block that takes a request. -/
def Request.block : Request → Block
  | .serviceSet .. | .fetch | .peek | .done _ | .decline _ => .router
  | .slotAllocate _ | .slotConfigure .. | .slotArm .. | .slotDisarm .. | .slotTouch _ | .slotRelease _ | .slotAdopt _
  | .slotQuery _ => .calendar
  | .timeRead | .timeClaim | .timeRelease | .timeSet _ | .timeAdjust .. | .timeTick _ | .timeWithdraw => .timebase
  | .lineClaim _ | .lineRelease _ | .lineConfig .. | .lineEnable .. | .lineDisable _ | .linePulse _ | .lineStatus _ => .line

/-- The command by which the block takes a request of `p`. -/
def Request.command (p : Port) : Request → Instr
  | .serviceSet .. => .serviceSet p
  | .fetch => .fetch p
  | .peek => .peek p
  | .done _ => .done p
  | .decline _ => .decline p
  | .slotAllocate _ => .slotAllocate p
  | .slotConfigure .. => .slotConfigure p
  | .slotArm .. => .slotArm p
  | .slotDisarm .. => .slotDisarm p
  | .slotTouch _ => .slotTouch p
  | .slotRelease _ => .slotRelease p
  | .slotAdopt _ => .slotAdopt p
  | .slotQuery _ => .slotQuery p
  | .timeRead => .timeRead p
  | .timeClaim => .timeClaim p
  | .timeRelease => .timeRelease p
  | .timeSet _ => .timeSet p
  | .timeAdjust .. => .timeAdjust p
  | .timeTick _ => .timeTick p
  | .timeWithdraw => .timeWithdraw p
  | .lineClaim _ => .lineClaim p
  | .lineRelease _ => .lineRelease p
  | .lineConfig .. => .lineConfig p
  | .lineEnable .. => .lineEnable p
  | .lineDisable _ => .lineDisable p
  | .linePulse _ => .linePulse p
  | .lineStatus _ => .lineStatus p

/-- Request `r` of `p`, under mark `m` and epoch `e`, stands at the head of p's path to its block, and `rest` behind it. -/
def State.heads (s : State) (p : Port) (m : Nat) (e : Byte) (r : Request) (rest : List ToBlock) : Prop :=
  (s.port p).path r.block = .request m e r :: rest

/-- The state with p's path to block `b` replaced by what stood behind its head. -/
def State.afterTaking (s : State) (b : Block) (p : Port) (rest : List ToBlock) : State :=
  s.setPort p ((s.port p).setPath b rest)

/-- The outcome of the request marked `m`, sent behind what stood on the path back to `p`. -/
def answered (back : Vector (List FromBlock) 4) (p : Port) (m : Nat) (o : OutcomeCode) (f : Payload) :
    Vector (List FromBlock) 4 :=
  sendBack back p (.outcome m { outcome := o, payload := f })

/-- Request `r` of `p` stands at the head of its path, p's session is OPEN with the request's epoch, and its block can take it: the
Calendar, which alone can be in the middle of an event (R33), is in the middle of none if `r` is a slot request. -/
structure State.CanServe (s : State) (p : Port) (m : Nat) (e : Byte) (r : Request) (rest : List ToBlock) : Prop where
  head : s.heads p m e r rest
  session : s.sessionIs p e = true
  free : r.block = .calendar → s.calendar.busy = .free

/-- The timebase write that a request carries (R10). -/
def Request.write? : Request → Option TimeWrite
  | .timeSet v => some (.set v)
  | .timeAdjust a sp => some (.adjust a sp)
  | .timeTick d => some (.tick d)
  | _ => none

/-- The fields of a write are in range at the time value `now` (R11, R12, R13). -/
def TimeWrite.InRange (now : Time) : TimeWrite → Prop
  | .set v => (v - now).toInt.natAbs < 2 ^ 46
  | .adjust a sp => a.toInt.natAbs ≤ 65535 ∧ 2 ≤ sp.toNat ∧ sp.toNat ≤ 65535
  | .tick d => 1 ≤ d.toNat ∧ d.toNat ≤ 65536

/-- The slot handle that a request carries (R25). -/
def Request.handle? : Request → Option SlotHandle
  | .slotConfigure h _ | .slotArm h _ _ _ | .slotDisarm h _ | .slotTouch h | .slotRelease h | .slotAdopt h | .slotQuery h =>
    some h
  | _ => none

/-- The line number that a request carries (R78). -/
def Request.line? : Request → Option Byte
  | .lineClaim b | .lineRelease b | .lineConfig b _ _ | .lineEnable b _ | .lineDisable b | .linePulse b | .lineStatus b => some b
  | _ => none

/-- The block's only change is its refusal of the request at the head of p's path (R25, R78, R136). -/
def State.refuses (s : State) (b : Block) (p : Port) (m : Nat) (rest : List ToBlock) (o : OutcomeCode) : State :=
  (s.afterTaking b p rest).setBack b p (s.back b p ++ [.outcome m { outcome := o, payload := .empty }])

/-! ### Frames (R150 to R154) -/

/-- The bytes of a request frame. -/
def requestBytes (code epoch seq : Byte) (payload : List Byte) : List Byte :=
  withCheck ([code, epoch, seq, BitVec.ofNat 8 payload.length] ++ payload)

/-- The last byte of the frame has come, both holders are EMPTY, and the frame has not been judged. -/
structure PortUnit.Framed (u : PortUnit) (code epoch seq : Byte) (payload : List Byte) : Prop where
  link : u.link = .request
  buffer : u.buffer = requestBytes code epoch seq payload
  size : payload.length ≤ 40
  executing : u.executing = none
  response : u.response = none

/-- A frame whose bytes so far are `l` is still growing: its length byte has not come, or is at most 40 and calls for more (R152). -/
def FrameGrowing (l : List Byte) : Prop :=
  l.length < 4 ∨ ∃ n : Byte, l[3]? = some n ∧ n.toNat ≤ 40 ∧ l.length < 5 + n.toNat

/-- A frame whose bytes so far are `l` is overlong: its length byte is above 40 (R152). -/
def FrameOverlong (l : List Byte) : Prop := ∃ n : Byte, l[3]? = some n ∧ 40 < n.toNat

/-! ### The due list (R45) -/

/-- The due list lists each RUNNING slot once, and no other. -/
def Calendar.DueExact (c : Calendar) : Prop :=
  c.dueList.Nodup ∧ ∀ n, n ∈ c.dueList ↔ (c.slot n).status.isRunning = true

/-- The due list stands in the order of R45. -/
def Calendar.DueSorted (c : Calendar) : Prop := c.dueList.Pairwise fun m n => c.before m n = true

/-- The Calendar goes from `c` to `c'` by giving slot `n` the record `x`, sending `router` to the Notice Router and `pin` to the Pin
Unit, and answering as `back` stands. Nothing else changes; the due list follows (R45). -/
structure Calendar.Becomes (c c' : Calendar) (n : SlotNo) (x : Slot) (router : List RouterRequest) (pin : List PinRequest)
    (back : Vector (List FromBlock) 4) : Prop where
  slot : c'.slot n = x
  others : ∀ m, m ≠ n → c'.slot m = c.slot m
  dueExact : c.DueExact → c'.DueExact
  dueSorted : c.DueSorted → c.DueExact → c'.DueSorted
  dueOthers : unlist n c'.dueList = unlist n c.dueList
  deliveries : c'.deliveries = c.deliveries
  now : c'.now = c.now
  views : c'.views = c.views
  busy : c'.busy = c.busy
  toRouter : c'.toRouter = c.toRouter ++ router
  toPin : c'.toPin = c.toPin ++ pin
  back : c'.back = back

/-! ### Slots: handles, arming, firing -/

/-- Handle `h` names slot `n`, which is allocated under that generation to `p`. -/
structure Calendar.Owns (c : Calendar) (p : Port) (h : SlotHandle) (n : SlotNo) : Prop where
  number : h.slot.toNat = n.val
  generation : h.generation = (c.slot n).generation
  used : (c.slot n).status ≠ .free
  owner : (c.slot n).owner = some p

/-- A configuration within the ranges of R31 whose fields agree as R32 asks. -/
structure SlotConfig.Legal (c : SlotConfig) : Prop where
  period : 1 ≤ c.period.toNat
  windowPositive : 1 ≤ c.window.toNat
  windowWithin : c.window.toNat ≤ c.period.toNat
  count : 1 ≤ c.count.toNat
  gated : c.mode = .gated → c.line ≠ none
  claim : c.delivery = .claim → c.targets ≠ 0

/-- The fields of a SLOT_CONFIGURE name the configuration `c` (R30 to R32, by the codes of R163). -/
structure RawConfig.Means (r : RawConfig) (c : SlotConfig) : Prop where
  legal : c.Legal
  mode : r.mode = c.mode.code
  period : r.period = c.period
  window : r.window = c.window
  count : r.count = c.count
  line : r.line = codeOfOption c.line
  gate : r.gate = c.gate.code
  anchor : r.anchor = c.anchor.code
  pin : r.pin = codeOfOption c.pin
  action : r.action = c.action.code
  cls : r.cls.toNat = c.cls.val
  targets : r.targets.setWidth 4 = c.targets
  delivery : r.delivery = c.delivery.code
  policy : r.policy = c.policy.code
  tag : r.tag = c.tag

/-- Slot `n` starts at `d`: the start field of SLOT_ARM gives the deadline `d` (R48, R49). -/
inductive StartsAt (now : Time) : Byte → Time → Time → Prop where
  | relative (value : Time) : value.toNat ≤ 2 ^ 46 - 1 → StartsAt now 0 value (now + value)
  | due (d : Time) : (now - d).toNat < 2 ^ 47 → StartsAt now 1 d d
  | future (d : Time) : (d - now).toNat < 2 ^ 46 → StartsAt now 1 d d

/-- The gate of a slot is active by the line views (R47). -/
def Calendar.GateActive (c : Calendar) (n : SlotNo) : Prop :=
  ∃ e, (c.slot n).config.line = some e ∧ c.views[e].enabled = true ∧
    (c.views[e].level = true ↔ (c.slot n).config.gate = .high)

/-- Arming slot `n` gives it the state `st`: a row of the table of R49. -/
inductive Calendar.ArmsTo (c : Calendar) (n : SlotNo) (kind : Byte) (value : Time) (startNow : Bool) : SlotStatus → Prop where
  | timed (d : Time) : (c.slot n).config.mode ∈ [Mode.once, Mode.repeat, Mode.window] → StartsAt c.now kind value d →
      c.ArmsTo n kind value startNow (.running d)
  | retriggerWaits : (c.slot n).config.mode = .retrigger → startNow = false → c.ArmsTo n kind value startNow (.waiting none)
  | retriggerStarts : (c.slot n).config.mode = .retrigger → startNow = true →
      c.ArmsTo n kind value startNow (.running (c.now + (c.slot n).config.period.setWidth 48))
  | gatedRuns : (c.slot n).config.mode = .gated → c.GateActive n →
      c.ArmsTo n kind value startNow (.running (c.now + (c.slot n).config.period.setWidth 48))
  | gatedPauses : (c.slot n).config.mode = .gated → ¬ c.GateActive n →
      c.ArmsTo n kind value startNow (.paused ((c.slot n).config.period.setWidth 48))
  | counts : (c.slot n).config.mode = .count → c.ArmsTo n kind value startNow (.waiting (some (c.slot n).config.count))

/-- What the drive-low of an arming, restart or disarm of the slot sends (R48, R50, R52). -/
def Slot.driveLow (x : Slot) : List PinRequest :=
  match x.config.pin, x.config.action with
  | some o, .level => [.driveLow o]
  | _, _ => []

/-- What a fire of the slot at delivery number `k` hangs on (R39; log entry 24, a DESIGN CHOICE): the session of its owner, or, for an
orphan that fires at a delivery on its way when the Calendar took the session end that left it one, that ended session. -/
def Slot.deliveryTie (x : Slot) (k : Nat) : Option SessionTie :=
  match x.owner, x.left with
  | some p, _ => some (.owner p)
  | none, some (p, first) => if k < first then some (.ended p) else none
  | none, none => none

/-- What a fire of slot `n` sends the Router (R55, R56). -/
def Slot.fireRequests (x : Slot) (n : SlotNo) (kind : NoticeKind) (t : Time) (weight : BitVec 16) (tie : Option SessionTie) :
    List RouterRequest :=
  if x.config.targets = 0 then []
  else
    [.fire
      { slot := n, generation := x.generation, kind := kind, cls := x.config.cls, tag := x.config.tag,
        targets := x.config.targets, delivery := x.config.delivery, fired := t, weight := weight, tie := tie }]

/-- What a fire of the slot sends the Pin Unit (R57). -/
def Slot.fireActions (x : Slot) (t : Time) : List PinRequest :=
  match x.config.pin with
  | some o => [.fire o x.config.action t]
  | none => []

/-- The record of a slot that has fired and moved to `st` (R55). -/
def Slot.firedTo (x : Slot) (st : SlotStatus) : Slot := { x with fires := x.fires + 1, fired := true, status := st }

/-- The fire of a RUNNING slot with deadline `d` at `t`: kind, weight and the state it leaves (R58 to R62). For REPEAT, `k` is the
smallest number of periods of 1 or more that takes the deadline beyond `t` (R59). -/
inductive Slot.FiresTo (x : Slot) (d t : Time) : NoticeKind → BitVec 16 → SlotStatus → Prop where
  | once : x.config.mode = .once → x.FiresTo d t .expiry 1 .idle
  | repeat (k : Nat) : x.config.mode = .repeat → 1 ≤ k → (k - 1) * x.config.period.toNat ≤ (t - d).toNat →
      (t - d).toNat < k * x.config.period.toNat →
      x.FiresTo d t .expiry (BitVec.ofNat 16 (min k 65535)) (.running (d + BitVec.ofNat 48 (k * x.config.period.toNat)))
  | retrigger : x.config.mode = .retrigger → x.FiresTo d t .expiry 1 (.waiting none)
  | window : x.config.mode = .window → x.FiresTo d t .late 1 .lapsed
  | gated : x.config.mode = .gated → x.FiresTo d t .expiry 1 (.running (t + x.config.period.setWidth 48))

/-- What the freeing of the slot sends the Pin Unit (R35, R40). -/
def Slot.unbinds (x : Slot) : List PinRequest :=
  match x.config.pin with
  | some o => [.unbind o]
  | none => []

/-- Slot `n` is due at `t`: RUNNING with a deadline that is due (R2). -/
def Calendar.Due (c : Calendar) (t : Time) (n : SlotNo) : Prop :=
  ∃ d, (c.slot n).status = .running d ∧ (t - d).toNat < 2 ^ 47

/-- From `c`, in which now is `t`, every slot that is due fires as its mode requires and no other slot changes, which leaves `c'`
(R55, R58 to R62). The fire requests and the pin actions stand in due-list order, each slot's with the kind and weight of its fire
(R45, R55 to R57), and hang on the sessions that `Slot.deliveryTie` gives (R39). -/
structure Calendar.FiresDue (c c' : Calendar) (t : Time) : Prop where
  fired : ∀ n d, (c.slot n).status = .running d → (t - d).toNat < 2 ^ 47 →
    ∃ kind weight st, (c.slot n).FiresTo d t kind weight st ∧ c'.slot n = (c.slot n).firedTo st
  kept : ∀ n, ¬ c.Due t n → c'.slot n = c.slot n
  sent : ∀ (l : List SlotNo) (kind : SlotNo → NoticeKind) (weight : SlotNo → BitVec 16),
    (∀ n, n ∈ l ↔ c.Due t n) → l.Pairwise (fun m n => c.before m n = true) →
    (∀ n ∈ l, ∃ d st, (c.slot n).status = .running d ∧ (c.slot n).FiresTo d t (kind n) (weight n) st) →
    c'.toRouter = c.toRouter ++ l.flatMap (fun n =>
      (c.slot n).fireRequests n (kind n) t (weight n) ((c.slot n).deliveryTie c.deliveries)) ∧
    c'.toPin = c.toPin ++ l.flatMap (fun n => (c.slot n).fireActions t)

/-- The deadline `d` of the slot record `x` as a time step with step delta `delta` shifts it, or leaves it (R72, R73). -/
def Slot.shifted (x : Slot) (delta d : Time) : Time := if x.config.anchor = .relative then d + delta else d

/-- A time step to `new` with step delta `delta` takes the slot record `x` to this record (R72, R73); a deadline that it leaves beyond
the horizon is clamped to it (R2, R73). -/
inductive Slot.StepsTo (x : Slot) (new delta : Time) : Slot → Prop where
  | still : x.status.isRunning = false → x.StepsTo new delta x
  | moved (d : Time) : x.status = .running d →
      (new - x.shifted delta d).toNat < 2 ^ 47 ∨ (x.shifted delta d - new).toNat ≤ 2 ^ 46 - 1 →
      x.StepsTo new delta { x with status := .running (x.shifted delta d) }
  | clamped (d : Time) : x.status = .running d → 2 ^ 47 ≤ (new - x.shifted delta d).toNat →
      2 ^ 46 - 1 < (x.shifted delta d - new).toNat →
      x.StepsTo new delta { x with status := .running (new + BitVec.ofNat 48 (2 ^ 46 - 1)) }

/-- Slot `n` is a COUNT slot on line `i` that waits for its last edge (R63). -/
abbrev Calendar.LastEdge (c : Calendar) (i : LineNo) (n : SlotNo) : Prop :=
  (c.slot n).config.line = some i ∧ (c.slot n).config.mode = .count ∧ (c.slot n).status = .waiting (some 1)

/-- What a sample of line `i` at `v` sends the Calendar: nothing, or a gate report and, for a qualifying edge on an enabled line, an
edge arrival (R74, R75, R76). -/
def LineRecord.sampleSends (x : LineRecord) (i : LineNo) (v : Bool) : List LineMessage :=
  if v ≠ x.accepted ∧ x.filter.toNat ≤ x.run.toNat then
    .gate i x.enabled v ::
      (if x.enabled && (match x.sense with
          | .rise => v
          | .fall => !v
          | .both => true) then [.edge i] else [])
  else []

/-- Record `x` is of the slot, generation and kind of fire request `q` (R97). -/
def Notice.Matches (x : Notice) (q : FireRequest) : Prop :=
  x.slot = q.slot ∧ x.generation = q.generation ∧ x.kind = q.kind

/-- p's queue lists a record of the slot, generation and kind of `q` (R97). -/
def Router.ListsMatch (r : Router) (p : Port) (q : FireRequest) : Prop :=
  ∃ h x, h ∈ r.queue p ∧ r.notice h = some x ∧ x.Matches q

/-- The queue `old`, with `h` of class `c` entered, is `new` (R96): `h` stands behind every entry before it, none of which is less
urgent, and before the first entry that is less urgent. -/
def Router.Enters (r : Router) (c : Class) (h : Handle) (old new : List Handle) : Prop :=
  ∃ l₁ l₂, old = l₁ ++ l₂ ∧ new = l₁ ++ h :: l₂ ∧ (∀ k ∈ l₁, r.classOf k ≤ c.val) ∧
    ∀ k, l₂.head? = some k → c.val < r.classOf k

/-- `h` is the lowest free handle (R94). -/
def Router.LowestFree (r : Router) (h : Handle) : Prop := r.notice h = none ∧ ∀ k, k < h → r.notice k ≠ none

/-- Record `x` with fire request `q` coalesced into it (R100). -/
def Notice.coalesced (x : Notice) (q : FireRequest) : Notice :=
  { x with overrun := BitVec.ofNat 8 (min (x.overrun.toNat + q.weight.toNat) 255), lastFired := q.fired }

/-- Some queue lists `h`, a CLAIM record `x` of the slot, generation and kind of `q` (R103, case 1). -/
def Router.ListsClaim (r : Router) (q : FireRequest) (h : Handle) (x : Notice) : Prop :=
  r.notice h = some x ∧ x.Matches q ∧ x.offer ≠ .broadcast ∧ ∃ p, h ∈ r.queue p

/-- The visit of BROADCAST fire request `q` to target `p`: the five cases of R101, and the record that this request was already
coalesced into (R100). `isOpen` says which ports the request finds OPEN (R99); the lists are of the records coalesced into so far. -/
inductive Router.Visit (isOpen : Port → Bool) (q : FireRequest) (p : Port) (r : Router) (done : List Handle) :
    Router × List Handle → Prop where
  | skipped : isOpen p = false → Router.Visit isOpen q p r done (r, done)
  | coalesced (h : Handle) (x : Notice) : isOpen p = true → h ∈ r.queue p → r.notice h = some x → x.Matches q → h ∉ done →
      Router.Visit isOpen q p r done ({ r with pool := setAt r.pool h (some (x.coalesced q)) }, h :: done)
  | servedAlready (h : Handle) (x : Notice) : isOpen p = true → h ∈ r.queue p → r.notice h = some x → x.Matches q →
      h ∈ done → Router.Visit isOpen q p r done (r, done)
  | queueFull : isOpen p = true → ¬ r.ListsMatch p q → 16 ≤ (r.queue p).length →
      Router.Visit isOpen q p r done
        ({ r with
            toCalendar := r.toCalendar ++ [.lost q.slot q.generation],
            back := setAt r.back p (r.back[p] ++ [.lostNotice]) }, done)
  | made (h : Handle) (queue : List Handle) : isOpen p = true → ¬ r.ListsMatch p q → (r.queue p).length < 16 →
      r.LowestFree h → r.Enters q.cls h (r.queue p) queue →
      Router.Visit isOpen q p r done
        ({ r with
            pool := setAt r.pool h (some
              { slot := q.slot, generation := q.generation, kind := q.kind, cls := q.cls, tag := q.tag, offer := .broadcast,
                firstFired := q.fired, lastFired := q.fired, overrun := BitVec.ofNat 8 (min (q.weight.toNat - 1) 255),
                redelivered := false }),
            queues := setAt r.queues p queue }, done)
  | poolEmpty : isOpen p = true → ¬ r.ListsMatch p q → (r.queue p).length < 16 → (∀ h, r.notice h ≠ none) →
      Router.Visit isOpen q p r done
        ({ r with
            toCalendar := r.toCalendar ++ [.lost q.slot q.generation],
            poolExhausted := BitVec.ofNat 16 (min (r.poolExhausted.toNat + 1) 65535),
            back := setAt r.back p (r.back[p] ++ [.lostNotice]) }, done)

/-- The visits to the ports of a list, one after the other, each on what the visits before it left (R101). -/
inductive Router.Visits (isOpen : Port → Bool) (q : FireRequest) : List Port → Router × List Handle → Router × List Handle → Prop
    where
  | nil (a : Router × List Handle) : Router.Visits isOpen q [] a a
  | cons (p : Port) (l : List Port) (r : Router) (done : List Handle) (b c : Router × List Handle) :
      Router.Visit isOpen q p r done b → Router.Visits isOpen q l b c → Router.Visits isOpen q (p :: l) (r, done) c

/-- `R` takes `a` through the entries of the list, one after the other. -/
inductive Chain {α β : Type} (R : α → β → β → Prop) : List α → β → β → Prop where
  | nil (b : β) : Chain R [] b b
  | cons (a : α) (l : List α) (b c d : β) : R a b c → Chain R l c d → Chain R (a :: l) b d

/-- Port `p` is a candidate for a re-offer of the CLAIM record `x`: offered, not declined, and open (R127). -/
def Notice.Candidate (isOpen : Port → Bool) (x : Notice) (p : Port) : Prop :=
  ∃ offered declined, x.offer = .claim offered declined ∧ hasPort offered p = true ∧ hasPort declined p = false ∧
    isOpen p = true

/-- p's queue lists record `k`, whose fields are `y`, of the slot, generation and kind of `x` (R127). -/
def Router.ListsLike (r : Router) (p : Port) (x : Notice) (k : Handle) (y : Notice) : Prop :=
  k ∈ r.queue p ∧ r.notice k = some y ∧ y.slot = x.slot ∧ y.generation = x.generation ∧ y.kind = x.kind

/-- The record as a decline by `p`, or the end of p's session, leaves it for the re-offer (R126, R132). -/
def Notice.givenBackBy (x : Notice) (p : Port) (offered declined : PortSet) : Notice :=
  { x with redelivered := true, offer := .claim offered (addPort declined p) }

/-- The re-offer of CLAIM record `h` with fields `x`, which no queue and no stack of `r` has: the three cases of R127, each with
its result. -/
inductive Router.Reoffers (isOpen : Port → Bool) (h : Handle) (x : Notice) (r : Router) : Router → Reoffer → Prop where
  | folded (p : Port) (k : Handle) (y : Notice) : x.Candidate isOpen p → r.ListsLike p x k y →
      (∀ q, q < p → x.Candidate isOpen q → ∀ j z, ¬ r.ListsLike q x j z) →
      Router.Reoffers isOpen h x r
        { r with
          pool := setAt (setAt r.pool k (some
            { y with overrun := BitVec.ofNat 8 (min (y.overrun.toNat + (x.overrun.toNat + 1)) 255), redelivered := true })) h
            none }
        (.folded k)
  | listed (ports : PortSet) (queues : Vector (List Handle) 4) :
      (∀ q, x.Candidate isOpen q → ∀ j z, ¬ r.ListsLike q x j z) → ports ≠ 0 →
      (∀ q, hasPort ports q = true ↔ x.Candidate isOpen q ∧ (r.queue q).length < 16) →
      (∀ q : Port,
        (hasPort ports q = true → r.Enters x.cls h (r.queue q) queues[q]) ∧
        (hasPort ports q = false → queues[q] = r.queue q)) →
      Router.Reoffers isOpen h x r { r with pool := setAt r.pool h (some x), queues := queues } (.listed ports)
  | undelivered : (∀ q, x.Candidate isOpen q → ∀ j z, ¬ r.ListsLike q x j z) →
      (∀ q, x.Candidate isOpen q → 16 ≤ (r.queue q).length) →
      Router.Reoffers isOpen h x r
        { r with pool := setAt r.pool h none, toCalendar := r.toCalendar ++ [.undelivered x.slot x.generation] } .undelivered

/-- At the end of a session its queue entry `h`, which that queue no longer lists, is given up (R131). -/
inductive Router.GivesUp (h : Handle) (r : Router) : Router → Prop where
  | broadcast (x : Notice) : r.notice h = some x → x.offer = .broadcast →
      Router.GivesUp h r { r with pool := setAt r.pool h none }
  | stays (x : Notice) (q : Port) : r.notice h = some x → x.offer ≠ .broadcast → h ∈ r.queue q → Router.GivesUp h r r
  | undelivered (x : Notice) : r.notice h = some x → x.offer ≠ .broadcast → (∀ q, h ∉ r.queue q) →
      Router.GivesUp h r
        { r with pool := setAt r.pool h none, toCalendar := r.toCalendar ++ [.undelivered x.slot x.generation] }

/-- At the end of p's session its stack entry `h`, which p's stack no longer holds, is freed or re-offered (R132). -/
inductive Router.GivesBack (isOpen : Port → Bool) (p : Port) (h : Handle) (r : Router) : Router → Prop where
  | broadcast (x : Notice) : r.notice h = some x → x.offer = .broadcast →
      Router.GivesBack isOpen p h r { r with pool := setAt r.pool h none }
  | claim (x : Notice) (offered declined : PortSet) (r' : Router) (result : Reoffer) : r.notice h = some x →
      x.offer = .claim offered declined → r.Reoffers isOpen h (x.givenBackBy p offered declined) r' result →
      Router.GivesBack isOpen p h r r'

/-- The alert reports of port `q` at the end of a decline or teardown that took `r` to `r'`: one if q's queue changed, or a record
that it lists (R127, R130, R133). -/
def Router.reofferReports (r r' : Router) (q : Port) : List FromBlock :=
  if r'.queue q = r.queue q ∧ ∀ k ∈ r'.queue q, r'.notice k = r.notice k then [] else [.alert (r'.alertOf q)]

/-- The first unmasked entry of p's queue is `h`: the entries `l₁` before it are masked, `l₂` stand behind it. -/
structure Router.FirstUnmasked (r : Router) (p : Port) (l₁ : List Handle) (h : Handle) (l₂ : List Handle) : Prop where
  queue : r.queue p = l₁ ++ h :: l₂
  masked : ∀ k ∈ l₁, (r.setting p).mask.getLsbD (r.classOf k) = true
  unmasked : (r.setting p).mask.getLsbD (r.classOf h) = false

/-- `h` is p's fetchable notice (R117). -/
structure Router.Fetchable (r : Router) (p : Port) (l₁ : List Handle) (h : Handle) (l₂ : List Handle) : Prop
    extends r.FirstUnmasked p l₁ h l₂ where
  urgent : ∀ k, (r.stack p).head? = some k → r.classOf h < r.classOf k
  room : (r.stack p).length < 4 ∨ (r.setting p).autoDone = true

/-- p has no fetchable notice, for this reason (R118). -/
inductive Router.NotFetchable (r : Router) (p : Port) : NoneReason → Prop where
  | empty : r.queue p = [] → r.NotFetchable p .empty
  | masked : r.queue p ≠ [] → (∀ k ∈ r.queue p, (r.setting p).mask.getLsbD (r.classOf k) = true) → r.NotFetchable p .masked
  | blocked (l₁ : List Handle) (h : Handle) (l₂ : List Handle) (k : Handle) : r.FirstUnmasked p l₁ h l₂ →
      (r.stack p).head? = some k → r.classOf k ≤ r.classOf h → r.NotFetchable p .blocked
  | full (l₁ : List Handle) (h : Handle) (l₂ : List Handle) (k : Handle) : r.FirstUnmasked p l₁ h l₂ →
      (r.stack p).head? = some k → r.classOf h < r.classOf k → 4 ≤ (r.stack p).length →
      (r.setting p).autoDone = false → r.NotFetchable p .full

/-! ### The laws every step keeps -/

/-- ALERT(p) stands at the level R129 and R159 give. -/
def PortUnit.AlertLaw (u : PortUnit) : Prop :=
  u.alertLine = true ↔
    u.session = .opened ∧
      (u.alertReport.fetchable = true ∨ (u.response ≠ none ∧ u.alertReport.alertOnResponse = true))

/-- At most one of the two holders holds anything, at most four teardowns are pending, and an OPEN waits only on a CLOSED port
with a teardown pending (R134, R138, R155). -/
def PortUnit.HolderLaw (u : PortUnit) : Prop :=
  (u.executing = none ∨ u.response = none) ∧ u.pendingTeardowns ≤ 4 ∧
    ∀ x, u.executing = some x → x.work = .waitingOpen → u.session = .closed ∧ 0 < u.pendingTeardowns

/-- The session ends and completions of `p` on their way between its Port Unit and block `b` (R142). -/
def State.endsOnTheWay (s : State) (p : Port) (b : Block) : Nat :=
  ((s.port p).path b).countP (fun m => match m with | .sessionEnd _ => true | _ => false) +
    (s.back b p).countP (fun m => m = .completion)

/-- Block `b` may hold something for `p`: its session is OPEN, or the block has yet to take its end (R142). -/
def State.MayHold (s : State) (b : Block) (p : Port) : Prop :=
  (s.port p).session = .opened ∨ ∃ e, ToBlock.sessionEnd e ∈ (s.port p).path b

/-- Teardowns (R138, R142): what is pending is on its way, once between p and the Calendar, and nothing is while the session is OPEN; a
block that has taken the end of p's session holds nothing for p (R20, R39, R85, R131 to R133); and a fire request that hangs on p as
its slot's owner was made before the Calendar took the end of p's session (R39). -/
def State.TeardownLaw (s : State) : Prop :=
  ∀ p,
    (s.port p).pendingTeardowns =
        s.endsOnTheWay p .timebase + s.endsOnTheWay p .calendar + s.endsOnTheWay p .router + s.endsOnTheWay p .line ∧
      s.endsOnTheWay p .calendar ≤ 1 ∧
      ((s.port p).session = .opened → (s.port p).pendingTeardowns = 0) ∧
      (s.timebase.authority = some p → s.MayHold .timebase p) ∧
      (∀ n, (s.calendar.slot n).owner = some p → s.MayHold .calendar p) ∧
      (∀ i, (s.lines.record i).owner = some p → s.MayHold .line p) ∧
      (s.MayHold .router p ∨
        (s.router.queue p = [] ∧ s.router.stack p = [] ∧
          s.router.setting p = { mask := 0, autoDone := false, alertOnResponse := false })) ∧
      ∀ q, RouterRequest.fire q ∈ s.calendar.toRouter → q.tie = some (.owner p) → s.MayHold .calendar p

/-- While RSTn or PRSTn is low, the link of the port is idle (R160). -/
def State.ResetLinkLaw (s : State) : Prop :=
  ∀ p, s.inReset = true ∨ (s.port p).prstLow = true → (s.port p).link = .idle

/-- The Timebase's ranges: the divisor, the phase below it, the spacing, and a pending write whose fields lie in range (chapter 1,
R11 to R13). -/
def Timebase.RangeLaw (t : Timebase) : Prop :=
  1 ≤ t.divisor.toNat ∧ t.divisor.toNat ≤ 65536 ∧ t.phase.toNat < t.divisor.toNat ∧ 2 ≤ t.slewSpacing.toNat ∧
    (t.slewRemaining ≠ 0 → 1 ≤ t.countdown.toNat ∧ t.countdown.toNat ≤ t.slewSpacing.toNat) ∧
    ∀ w, t.pendingWrite = some w →
      match w.write with
      | .set _ => True
      | .adjust a sp => a.toInt.natAbs ≤ 65535 ∧ 2 ≤ sp.toNat
      | .tick d => 1 ≤ d.toNat ∧ d.toNat ≤ 65536

/-- The states a slot of each mode can stand in, with their timing fields: edges left and remaining are 1 or more (section 2.1, R21,
R49, R58 to R63, R71). -/
def Slot.ModeLaw (x : Slot) : Prop :=
  match x.status with
  | .free => x.owner = none ∧ x.config.pin = none
  | .idle => True
  | .running _ => x.config.mode ≠ .count
  | .waiting none => x.config.mode = .retrigger
  | .waiting (some k) => x.config.mode = .count ∧ k ≠ 0
  | .paused r => x.config.mode = .gated ∧ r ≠ 0
  | .lapsed => x.config.mode = .window

/-- The slots obey their modes, no allocated slot has generation 0 (R22), every configuration is legal (R31, R32), and a configure
that waits for the Pin Unit waits with an IDLE slot and a legal configuration (R30, R33). -/
def Calendar.SlotLaw (c : Calendar) : Prop :=
  (∀ n, (c.slot n).ModeLaw ∧ ((c.slot n).status ≠ .free → (c.slot n).generation ≠ 0) ∧ (c.slot n).config.Legal) ∧
    ∀ w, c.busy = .binding w → (c.slot w.slot).status = .idle ∧ w.config.Legal

/-- A GATED slot is RUNNING only while its gate is active, and PAUSED only while it is inactive (R47, R49, R70). -/
def Calendar.GateLaw (c : Calendar) : Prop :=
  ∀ n, (c.slot n).config.mode = .gated →
    ((c.slot n).status.isRunning = true → c.GateActive n) ∧
    (∀ r, (c.slot n).status = .paused r → ¬ c.GateActive n)

/-- A fire request on its way to the Router carries a weight of 1 or more; an ORPHANED one carries 1 and stands beside a session end;
one of another kind has a target (R40, R55, R59). -/
def Calendar.RequestLaw (c : Calendar) : Prop :=
  ∀ q, RouterRequest.fire q ∈ c.toRouter →
    q.weight ≠ 0 ∧ if q.kind = .orphaned then q.weight = 1 ∧ ∃ p, q.tie = some (.ended p) else q.targets ≠ 0

/-- The laws of the Calendar together. -/
def Calendar.Lawful (c : Calendar) : Prop := c.DueExact ∧ c.DueSorted ∧ c.SlotLaw ∧ c.GateLaw ∧ c.RequestLaw

/-- What the Timebase has sent the Calendar carries on from the time value `v` to `w` (R4, R5, R11, R16): a tick carries 1 or 2 more
than the value before it; a time step starts at that value, goes less than 2^46 from it, and carries its step delta. -/
def CarriesOn (v : Time) : List TimeDelivery → Time → Prop
  | [], w => v = w
  | .tick t :: l, w => (t = v + 1 ∨ t = v + 2) ∧ CarriesOn t l w
  | .step old new delta :: l, w =>
    old = v ∧ (new - old).toInt.natAbs < 2 ^ 46 ∧ delta = new - (old + 1) ∧ CarriesOn new l w

/-- The deliveries on their path lead from the Calendar's time to the Timebase's, and a pending SET lies in range of the latter. While
the Calendar is part way through a delivery, its time is already that delivery's (R5, R11, R44). -/
def State.TimeLaw (s : State) : Prop :=
  (s.calendar.busy ≠ .delivering → CarriesOn s.calendar.now s.timebase.toCalendar s.timebase.time) ∧
  (s.calendar.busy = .delivering → ∃ d rest, s.timebase.toCalendar = d :: rest ∧ d.value = s.calendar.now ∧
    CarriesOn s.calendar.now rest s.timebase.time) ∧
  ∀ v q, s.timebase.pendingWrite = some { write := .set v, issuer := q } → (v - s.timebase.time).toInt.natAbs < 2 ^ 46

/-- A RETRIGGER or GATED slot that is RUNNING has a deadline 1 to 2^46 - 1 ticks ahead of now, or is yet to fire in the delivery that
the Calendar is part way through; a PAUSED slot has 2^46 - 1 ticks remaining at most (section 2.1, R2, R71). -/
def Calendar.HorizonLaw (c : Calendar) : Prop :=
  ∀ n,
    (∀ d, (c.slot n).status = .running d → (c.slot n).config.mode ∈ [Mode.retrigger, Mode.gated] →
      (1 ≤ (d - c.now).toNat ∧ (d - c.now).toNat ≤ 2 ^ 46 - 1) ∨ (c.busy = .delivering ∧ (c.now - d).toNat < 2 ^ 47)) ∧
    ∀ r, (c.slot n).status = .paused r → r.toNat ≤ 2 ^ 46 - 1

/-- Sizes of queues and stacks, and the empty stack of an auto-done port (R96, R116). -/
def Router.SizeLaw (r : Router) : Prop :=
  ∀ p, (r.queue p).length ≤ 16 ∧ (r.stack p).length ≤ 4 ∧ ((r.setting p).autoDone = true → r.stack p = [])

/-- Every record in use is listed or held and no free record is; none is both; none is held twice; a BROADCAST record is listed
in one queue at most (R94, R95, R121). -/
def Router.PoolLaw (r : Router) : Prop :=
  (∀ p, (r.queue p).Nodup ∧ (r.stack p).Nodup) ∧
    ∀ h,
      (r.notice h ≠ none ↔ (∃ p, h ∈ r.queue p) ∨ ∃ p, h ∈ r.stack p) ∧
      (∀ p q, h ∈ r.queue p → h ∉ r.stack q) ∧
      (∀ p q, h ∈ r.stack p → h ∈ r.stack q → p = q) ∧
      (∀ x, r.notice h = some x → x.offer = .broadcast → ∀ p q, h ∈ r.queue p → h ∈ r.queue q → p = q)

/-- Queues stand most urgent first (R96), stacks strictly more urgent towards the top (R116), and no queue lists two records of
one slot, generation and kind (R97). -/
def Router.OrderLaw (r : Router) : Prop :=
  ∀ p,
    (r.queue p).Pairwise (fun h k => r.classOf h ≤ r.classOf k) ∧
    (r.stack p).Pairwise (fun h k => r.classOf h < r.classOf k) ∧
    (r.queue p).Pairwise fun h k => ∀ x y, r.notice h = some x → r.notice k = some y →
      ¬ (x.slot = y.slot ∧ x.generation = y.generation ∧ x.kind = y.kind)

/-- The laws of the Notice Router together. -/
def Router.Lawful (r : Router) : Prop := r.SizeLaw ∧ r.PoolLaw ∧ r.OrderLaw

/-- The sizes in an alert report are those of a queue and a stack (R96, R116, R159). -/
def AlertReport.Sized (a : AlertReport) : Prop := a.queueLength ≤ 16 ∧ a.stackDepth ≤ 4

/-- Every alert report that a Port Unit holds, or that is on its way to one, is sized. -/
def State.ReportLaw (s : State) : Prop :=
  ∀ p : Port, (s.port p).alertReport.Sized ∧ ∀ a, FromBlock.alert a ∈ s.router.back[p] → a.Sized

/-- A line that is enabled holds no edge (R76). -/
def LineRecord.HeldLaw (x : LineRecord) : Prop := x.enabled = true → x.held = false

/-! ### Runs -/

/-- `t` is reached from `s` by steps that each answer a next state. -/
inductive Reaches : State → State → Prop where
  | refl (s : State) : Reaches s s
  | step (s t u : State) : Reaches s t → Machine.step t = .next u → Reaches s u

end Sys2Proof.Machine
end

