-- ==== Sys2Proof/Certificates/Slice0/Obligations.lean ====
section
/-! DEFINITION. The statements for the provers. Each says of named commands what state they answer; its docstring names the rules
it formalises. Where a statement rests on a choice of the model, its docstring names the log entry. -/

open Sys2Proof Sys2Proof.Machine

/-! ### The step, and resets -/

/-- A step takes the command at the front of the queue, and its outcome is that of the command on the state with the queue's rest. -/
def Obligations.StepRunsFrontCommand : Prop :=
  ∀ (c : Instr) (rest : List Instr) (s : State),
    step { s with pending := c :: rest } = exec c { s with pending := rest }

/-- With an empty queue one REFCLK period passes (log entry 5, a DESIGN CHOICE): the phase goes up by 1, or a tick arrives (R3). -/
def Obligations.IdleStepIsOneRefclkPeriod : Prop :=
  ∀ s : State, s.pending = [] →
    (s.timebase.phase.toNat + 1 < s.timebase.divisor.toNat →
      step s = .next { s with timebase := { s.timebase with phase := s.timebase.phase + 1 } }) ∧
    (s.timebase.divisor.toNat ≤ s.timebase.phase.toNat + 1 → step s = exec .tickArrival s)

/-- No command stops the part, and none touches the queue of the commands that wait. (What a command answers that finds nothing to
take is log entry 1, a DESIGN CHOICE.) -/
def Obligations.EveryCommandAnswersNext : Prop :=
  ∀ (c : Instr) (s : State), ∃ t, exec c s = .next t ∧ t.pending = s.pending

/-- R42: the slot table after power-on. No slot command stands on any path, and no session is open. Of the
model's own field `left` nothing is said. -/
def Obligations.SlotsAtPowerOn : Prop :=
  ∀ s : State, ∃ t, exec .powerOn s = .next t ∧ t.calendar = State.reset.calendar ∧
    (∀ n, t.calendar.slot n =
      { status := .free, generation := 0, owner := none,
        config :=
          { mode := .once, period := 1, window := 1, count := 1, line := none, gate := .high, anchor := .relative,
            pin := none, action := .pulse, cls := 7, targets := 0, delivery := .broadcast, policy := .release, tag := 0 },
        fires := 0, lost := 0, undelivered := 0, fired := false, left := (t.calendar.slot n).left }) ∧
    t.calendar.dueList = [] ∧ ∀ p, t.isOpen p = false ∧ (t.port p).toCalendar = []

/-- R112: the Notice Router after power-on. No port is eligible, that is, open (R99). -/
def Obligations.RouterAtPowerOn : Prop :=
  ∀ s : State, ∃ t, exec .powerOn s = .next t ∧ t.router = State.reset.router ∧
    (∀ h, t.router.notice h = none) ∧
    (∀ p, t.router.queue p = [] ∧ t.router.stack p = [] ∧
      t.router.setting p = { mask := 0, autoDone := false, alertOnResponse := false } ∧ t.isOpen p = false) ∧
    t.router.poolExhausted = 0

/-- R18, R44, R46, R47, R86, R91, R134, R146, R161: the Timebase, the Calendar's time and line views, the lines, the pins and the
Port Units after power-on. PRSTn and RSTn are taken as high there (log entry 13, a DESIGN CHOICE), and the mark of the next request is
0 (log entry 11, a DESIGN CHOICE). -/
def Obligations.RestAtPowerOn : Prop :=
  State.reset.pending = [] ∧
  ∀ s : State, ∃ t, exec .powerOn s = .next t ∧ t = { State.reset with pending := s.pending } ∧ t.rstnLows = 0 ∧
    (t.timebase.time = 0 ∧ t.timebase.divisor = 1000 ∧ t.timebase.phase = 0 ∧ t.timebase.valid = false ∧
      t.timebase.authority = none ∧ t.timebase.pendingWrite = none ∧ t.timebase.slewRemaining = 0 ∧
      t.timebase.slewDirection = .gain ∧ t.timebase.slewSpacing = 2 ∧ t.timebase.countdown = 0) ∧
    (t.calendar.now = 0 ∧ ∀ e : LineNo, t.calendar.views[e] = { enabled := false, level := false }) ∧
    (∀ e, t.lines.record e =
      { owner := none, enabled := false, sense := .rise, filter := 0, accepted := false, run := 0, held := false,
        edgeCount := 0 }) ∧
    (∀ o, t.pins.record o = { bound := none, action := .pulse, level := false, pulseTime := none }) ∧
    ∀ p, (t.port p).session = .closed ∧ (t.port p).epoch = 0 ∧ (t.port p).pendingTeardowns = 0 ∧ (t.port p).link = .idle ∧
      (t.port p).buffer = [] ∧ (t.port p).executing = none ∧ (t.port p).response = none ∧
      (t.port p).refusedFlag = false ∧ (t.port p).checkFlag = false ∧ (t.port p).lostFlag = false ∧
      (t.port p).refused = 0 ∧ (t.port p).checkFailures = 0 ∧ (t.port p).badFrames = 0 ∧ (t.port p).lostNotices = 0 ∧
      (t.port p).alertReport = { fetchable := false, alertOnResponse := false, queueLength := 0, stackDepth := 0 } ∧
      (t.port p).alertLine = false ∧ (t.port p).prstLow = false

/-- R145: a sample that finds RSTn low, and is not the eighth in a row, is only counted; in a device reset a further one changes
nothing; a sample that finds RSTn high ends the device reset and the count. R19, R43, R44, R47, R86, R91, R113, R146: at the eighth in
a row, what each block keeps and loses. That every low sample is a DEVICE_RESET is log entry 22 (a DESIGN CHOICE), that request marks
are kept is log entry 11 (a DESIGN CHOICE), what stays on the Timebase's paths is log entry 16 (DEDUCED), and that a delivery begun
leaves its path is log entry 2 (a DESIGN CHOICE). -/
def Obligations.DeviceReset : Prop :=
  (∀ s : State, exec .deviceResetEnd s = .next { s with rstnLows := 0 }) ∧
  (∀ s : State, s.rstnLows < 7 → exec .deviceReset s = .next { s with rstnLows := s.rstnLows + 1 }) ∧
  (∀ s : State, 8 ≤ s.rstnLows → exec .deviceReset s = .next s) ∧
  ∀ s : State, s.rstnLows = 7 → ∃ t, exec .deviceReset s = .next t ∧ t.rstnLows = 8 ∧ t.pending = s.pending ∧
    t.timebase =
      { s.timebase with
        pendingWrite := none, slewRemaining := 0, slewDirection := .gain, countdown := 0, authority := none,
        toCalendar := if s.calendar.busy = .delivering then s.timebase.toCalendar.tail else s.timebase.toCalendar,
        toPin := if s.pins.tickBegun then s.timebase.toPin.tail else s.timebase.toPin,
        back := Vector.replicate 4 [] } ∧
    (∀ n, t.calendar.slot n = { (State.reset.calendar.slot n) with generation := (s.calendar.slot n).generation }) ∧
    (t.calendar.deliveries = 0 ∧ t.calendar.now = s.calendar.now ∧ t.calendar.dueList = [] ∧
      t.calendar.views = State.reset.calendar.views ∧ t.calendar.busy = .free ∧ t.calendar.toRouter = [] ∧ t.calendar.toPin = [] ∧
      t.calendar.back = Vector.replicate 4 []) ∧
    t.router = State.reset.router ∧ t.lines = State.reset.lines ∧ t.pins = State.reset.pins ∧
    ∀ p, t.port p =
      { (State.reset.port p) with
        epoch := (s.port p).epoch, prstLow := (s.port p).prstLow, nextMark := (s.port p).nextMark }

/-- R144, R142, R159, R160: PRSTn of `p` goes low, with its session OPEN or CLOSED, and rises again. That request marks are kept is log
entry 11 (a DESIGN CHOICE). -/
def Obligations.PortReset : Prop :=
  (∀ (s : State) (p : Port), exec (.portResetEnd p) s = .next (s.setPort p { s.port p with prstLow := false })) ∧
  ∀ (s : State) (p : Port) (sent : List ToBlock), (s.port p).prstLow = false →
    sent = (if (s.port p).session = .opened then [.sessionEnd (s.port p).epoch] else []) →
    exec (.portReset p) s =
      .next (s.setPort p
        { session := .closed, epoch := (s.port p).epoch,
          pendingTeardowns := if (s.port p).session = .opened then 4 else (s.port p).pendingTeardowns,
          link := .idle, buffer := [], out := [], shownReady := false, executing := none, nextMark := (s.port p).nextMark,
          response := none, refusedFlag := false, checkFlag := false, lostFlag := false, refused := 0, checkFailures := 0,
          badFrames := 0, lostNotices := 0,
          alertReport := { fetchable := false, alertOnResponse := false, queueLength := 0, stackDepth := 0 },
          alertLine := false, prstLow := true, toTimebase := (s.port p).toTimebase ++ sent,
          toCalendar := (s.port p).toCalendar ++ sent, toRouter := (s.port p).toRouter ++ sent,
          toLine := (s.port p).toLine ++ sent })

/-! ### Requests at the blocks -/

/-- R136: a request that a block takes when its port is not OPEN with the request's epoch is refused STALE_SESSION, and nothing else
changes at any block. -/
def Obligations.StaleRequestRefused : Prop :=
  ∀ (s : State) (p : Port) (m : Nat) (e : Byte) (r : Request) (rest : List ToBlock),
    s.heads p m e r rest → (r.block = .calendar → s.calendar.busy = .free) →
    ¬ ((s.port p).session = .opened ∧ (s.port p).epoch = e) →
    exec (r.command p) s = .next (s.refuses r.block p m rest .staleSession)

/-! ### The Timebase -/

/-- R8, R9: TIME_CLAIM and TIME_RELEASE. -/
def Obligations.TimeAuthority : Prop :=
  ∀ (s : State) (p : Port) (m : Nat) (e : Byte) (rest : List ToBlock),
    (s.CanServe p m e .timeClaim rest →
      (s.timebase.authority = none →
        exec (.timeClaim p) s = .next { s.afterTaking .timebase p rest with
          timebase := { s.timebase with authority := some p, back := answered s.timebase.back p m .ok .empty } }) ∧
      (s.timebase.authority = some p → exec (.timeClaim p) s = .next { s.afterTaking .timebase p rest with
          timebase := { s.timebase with back := answered s.timebase.back p m .ok .empty } }) ∧
      (∀ q, q ≠ p → s.timebase.authority = some q →
        exec (.timeClaim p) s = .next (s.refuses .timebase p m rest .heldByOther))) ∧
    (s.CanServe p m e .timeRelease rest →
      (s.timebase.authority = some p → exec (.timeRelease p) s = .next { s.afterTaking .timebase p rest with
          timebase := { s.timebase with authority := none, back := answered s.timebase.back p m .ok .empty } }) ∧
      (s.timebase.authority ≠ some p →
        exec (.timeRelease p) s = .next (s.refuses .timebase p m rest .notAuthority)))

/-- R7, R14: TIME_READ reports the Timebase's state and changes nothing in it; TIME_WITHDRAW discards the pending write. -/
def Obligations.TimeReadAndWithdraw : Prop :=
  ∀ (s : State) (p : Port) (m : Nat) (e : Byte) (rest : List ToBlock),
    (s.CanServe p m e .timeRead rest →
      exec (.timeRead p) s = .next { s.afterTaking .timebase p rest with
        timebase := { s.timebase with
          back := answered s.timebase.back p m .ok
            (.time { time := s.timebase.time, divisor := s.timebase.divisor, valid := s.timebase.valid,
                     authority := s.timebase.authority, pendingWrite := s.timebase.pendingWrite,
                     slewRemaining := s.timebase.slewRemaining,
                     slewDirection := if s.timebase.slewRemaining = 0 then .gain else s.timebase.slewDirection }) } }) ∧
    (s.CanServe p m e .timeWithdraw rest →
      (s.timebase.authority ≠ some p →
        exec (.timeWithdraw p) s = .next (s.refuses .timebase p m rest .notAuthority)) ∧
      (s.timebase.authority = some p → s.timebase.pendingWrite = none →
        exec (.timeWithdraw p) s = .next (s.refuses .timebase p m rest .notPending)) ∧
      (s.timebase.authority = some p → s.timebase.pendingWrite ≠ none →
        exec (.timeWithdraw p) s = .next { s.afterTaking .timebase p rest with
          timebase := { s.timebase with pendingWrite := none, back := answered s.timebase.back p m .ok .empty } }))

/-- R10 to R13: TIME_SET, TIME_ADJUST and TIME_TICK are checked for authority, for a pending write and for range in this order, and
recorded as pending. -/
def Obligations.TimeWrites : Prop :=
  ∀ (s : State) (p : Port) (m : Nat) (e : Byte) (rest : List ToBlock) (r : Request) (w : TimeWrite),
    r.write? = some w → s.CanServe p m e r rest →
    (s.timebase.authority ≠ some p → exec (r.command p) s = .next (s.refuses .timebase p m rest .notAuthority)) ∧
    (s.timebase.authority = some p → s.timebase.pendingWrite ≠ none →
      exec (r.command p) s = .next (s.refuses .timebase p m rest .busy)) ∧
    (s.timebase.authority = some p → s.timebase.pendingWrite = none → ¬ w.InRange s.timebase.time →
      exec (r.command p) s = .next (s.refuses .timebase p m rest .badField)) ∧
    (s.timebase.authority = some p → s.timebase.pendingWrite = none → w.InRange s.timebase.time →
      exec (r.command p) s = .next { s.afterTaking .timebase p rest with
        timebase := { s.timebase with
          pendingWrite := some { write := w, issuer := p }, back := answered s.timebase.back p m .accepted .empty } })

/-- R4, R5, R11, R12, R13: a tick arrival with no write pending and no slew, and one that applies each kind of write (TICK with no
slew). Where no slew is active the fields that no rule gives are left open (log entry 15). That TICK_ARRIVAL is taken at any phase,
and not only as the last REFCLK period of the tick ends (R3), is log entry 6 (a DESIGN CHOICE). -/
def Obligations.TickArrivals : Prop :=
  ∀ (s : State) (q : Port),
    (s.timebase.pendingWrite = none → s.timebase.slewRemaining = 0 →
      exec .tickArrival s = .next { s with
        timebase := { s.timebase with
          time := s.timebase.time + 1, phase := 0, toCalendar := s.timebase.toCalendar ++ [.tick (s.timebase.time + 1)],
          toPin := s.timebase.toPin ++ [s.timebase.time + 1] } }) ∧
    (∀ v, s.timebase.pendingWrite = some { write := .set v, issuer := q } →
      ∃ dir sp', exec .tickArrival s = .next { s with
        timebase := { s.timebase with
          time := v, phase := 0, valid := true, pendingWrite := none, slewRemaining := 0, slewDirection := dir,
          slewSpacing := sp', countdown := 0,
          toCalendar := s.timebase.toCalendar ++ [.step s.timebase.time v (v - (s.timebase.time + 1))],
          toPin := s.timebase.toPin ++ [v] } }) ∧
    (∀ a sp, s.timebase.pendingWrite = some { write := .adjust a sp, issuer := q } → a.toInt.natAbs ≤ 65535 →
      ∃ dir sp' cd, exec .tickArrival s = .next { s with
        timebase := { s.timebase with
          time := s.timebase.time + 1, phase := 0, pendingWrite := none,
          slewRemaining := BitVec.ofNat 16 a.toInt.natAbs, slewDirection := dir, slewSpacing := sp', countdown := cd,
          toCalendar := s.timebase.toCalendar ++ [.tick (s.timebase.time + 1)],
          toPin := s.timebase.toPin ++ [s.timebase.time + 1] } } ∧
        (a.toInt ≠ 0 → sp' = sp ∧ cd = sp ∧ (0 < a.toInt → dir = .gain) ∧ (a.toInt < 0 → dir = .lose))) ∧
    (∀ d, s.timebase.pendingWrite = some { write := .tick d, issuer := q } → s.timebase.slewRemaining = 0 →
      exec .tickArrival s = .next { s with
        timebase := { s.timebase with
          time := s.timebase.time + 1, phase := 0, pendingWrite := none, divisor := d.setWidth 17,
          toCalendar := s.timebase.toCalendar ++ [.tick (s.timebase.time + 1)],
          toPin := s.timebase.toPin ++ [s.timebase.time + 1] } })

/-- R16, R17: with a slew active and no SET or ADJUST pending, a tick counts down, or is a slew step that gains a tick or is
swallowed. SLEW_STEP is the tick arrival that is such a step (log entry 3, a DESIGN CHOICE). R13: a pending TICK is applied at the same
tick. That TICK_ARRIVAL and SLEW_STEP are taken at any phase is log entry 6 (a DESIGN CHOICE). -/
def Obligations.SlewTicks : Prop :=
  ∀ (s : State) (q : Port) (div : BitVec 17), s.timebase.slewRemaining ≠ 0 →
    ((s.timebase.pendingWrite = none ∧ div = s.timebase.divisor) ∨
      ∃ d, s.timebase.pendingWrite = some { write := .tick d, issuer := q } ∧ div = d.setWidth 17) →
    (2 ≤ s.timebase.countdown.toNat →
      exec .slewStep s = .next s ∧
      exec .tickArrival s = .next { s with
        timebase := { s.timebase with
          time := s.timebase.time + 1, phase := 0, pendingWrite := none, divisor := div,
          countdown := s.timebase.countdown - 1,
          toCalendar := s.timebase.toCalendar ++ [.tick (s.timebase.time + 1)],
          toPin := s.timebase.toPin ++ [s.timebase.time + 1] } }) ∧
    (s.timebase.countdown = 1 →
      exec .tickArrival s = exec .slewStep s ∧
      (s.timebase.slewDirection = .gain → exec .slewStep s = .next { s with
        timebase := { s.timebase with
          time := s.timebase.time + 2, phase := 0, pendingWrite := none, divisor := div,
          slewRemaining := s.timebase.slewRemaining - 1, countdown := s.timebase.slewSpacing,
          toCalendar := s.timebase.toCalendar ++ [.tick (s.timebase.time + 2)],
          toPin := s.timebase.toPin ++ [s.timebase.time + 2] } }) ∧
      (s.timebase.slewDirection = .lose → exec .slewStep s = .next { s with
        timebase := { s.timebase with
          phase := 0, pendingWrite := none, divisor := div, slewRemaining := s.timebase.slewRemaining - 1,
          countdown := s.timebase.slewSpacing } }))

/-- R20, R85, R142: the end of p's session at the Timebase and at the Line Unit, with the completion each sends. -/
def Obligations.SessionEndAtTimebaseAndLines : Prop :=
  ∀ (s : State) (p : Port) (e : Byte) (rest : List ToBlock),
    ((s.port p).toTimebase = .sessionEnd e :: rest →
      exec (.timebaseSessionEnd p) s = .next { s.afterTaking .timebase p rest with
        timebase := { s.timebase with
          authority := if s.timebase.authority = some p then none else s.timebase.authority,
          back := sendBack s.timebase.back p .completion } }) ∧
    ((s.port p).toLine = .sessionEnd e :: rest →
      ∃ records, exec (.lineSessionEnd p) s = .next { s.afterTaking .line p rest with
          lines := { s.lines with records := records, back := sendBack s.lines.back p .completion } } ∧
        ∀ i : LineNo, records[i] =
          { s.lines.record i with owner := if (s.lines.record i).owner = some p then none else (s.lines.record i).owner })

/-! ### Slot commands -/

/-- R22, R26, R27, R28, R46: SLOT_ALLOCATE takes the lowest FREE slot or the requested FREE slot; otherwise it is refused.
The record's `left` is the model's own (log entry 24, a DESIGN CHOICE). -/
def Obligations.SlotAllocate : Prop :=
  ∀ (s : State) (p : Port) (m : Nat) (e : Byte) (b : Byte) (rest : List ToBlock),
    s.CanServe p m e (.slotAllocate b) rest →
    (∀ n : SlotNo, (s.calendar.slot n).status = .free →
      (b = 0xFF ∧ (∀ k, k < n → (s.calendar.slot k).status ≠ .free)) ∨ b.toNat = n.val →
      ∀ g : BitVec 16,
      g = (if (s.calendar.slot n).generation = 65535 then 1 else (s.calendar.slot n).generation + 1) →
      ∃ c', exec (.slotAllocate p) s = .next { s.afterTaking .calendar p rest with calendar := c' } ∧
        s.calendar.Becomes c' n
          { status := .idle, generation := g, owner := some p,
            config :=
              { mode := .once, period := 1, window := 1, count := 1, line := none, gate := .high, anchor := .relative,
                pin := none, action := .pulse, cls := 7, targets := BitVec.twoPow 4 p.val, delivery := .broadcast,
                policy := .release, tag := 0 },
            fires := 0, lost := 0, undelivered := 0, fired := false, left := none }
          [] [] (answered s.calendar.back p m .ok (.allocated n g))) ∧
    ((b = 0xFF → ∀ n, (s.calendar.slot n).status ≠ .free) →
      (∀ n : SlotNo, b.toNat = n.val → (s.calendar.slot n).status ≠ .free) →
      exec (.slotAllocate p) s =
        .next (s.refuses .calendar p m rest (if 64 ≤ b.toNat ∧ b ≠ 0xFF then .badField else .noSlot)))

/-- R25: the checks of a slot handle, in order, for every slot command that carries one. A refusal changes nothing. -/
def Obligations.SlotHandleChecks : Prop :=
  ∀ (s : State) (p : Port) (m : Nat) (e : Byte) (r : Request) (h : SlotHandle) (rest : List ToBlock),
    r.handle? = some h → s.CanServe p m e r rest →
    (64 ≤ h.slot.toNat → exec (r.command p) s = .next (s.refuses .calendar p m rest .badField)) ∧
    (∀ n : SlotNo, h.slot.toNat = n.val → (r = .slotQuery h → h.generation ≠ 0) →
      ((s.calendar.slot n).status = .free ∨ (s.calendar.slot n).generation ≠ h.generation →
        exec (r.command p) s = .next (s.refuses .calendar p m rest .staleSlot)) ∧
      ((s.calendar.slot n).status ≠ .free → (s.calendar.slot n).generation = h.generation →
        (s.calendar.slot n).owner ≠ some p → r ≠ .slotAdopt h → r ≠ .slotQuery h →
        exec (r.command p) s = .next (s.refuses .calendar p m rest .notOwner)))

/-- R30, R31, R32, R34: SLOT_CONFIGURE of an IDLE slot with no pin before and none carried replaces every configuration field; a slot
that is not IDLE and fields that name no legal configuration are refused. -/
def Obligations.SlotConfigureWithoutPin : Prop :=
  ∀ (s : State) (p : Port) (m : Nat) (e : Byte) (h : SlotHandle) (f : RawConfig) (n : SlotNo) (rest : List ToBlock),
    s.CanServe p m e (.slotConfigure h f) rest → s.calendar.Owns p h n →
    ((s.calendar.slot n).status ≠ .idle →
      exec (.slotConfigure p) s = .next (s.refuses .calendar p m rest .badState)) ∧
    ((s.calendar.slot n).status = .idle → (¬ ∃ c, f.Means c) →
      exec (.slotConfigure p) s = .next (s.refuses .calendar p m rest .badField)) ∧
    (∀ c, (s.calendar.slot n).status = .idle → f.Means c → (s.calendar.slot n).config.pin = none → c.pin = none →
      ∃ c', exec (.slotConfigure p) s = .next { s.afterTaking .calendar p rest with calendar := c' } ∧
        s.calendar.Becomes c' n { s.calendar.slot n with config := c } [] [] (answered s.calendar.back p m .ok .empty))

/-- R33, R34, R87: SLOT_CONFIGURE with a pin before or after asks the Pin Unit, and the Calendar awaits the answer. The Pin Unit
refuses a binding whose new pin is bound to another slot, and touches no pin; it grants any other, and the configure that waits is
answered. The answer is taken in the same step (log entry 14, a DESIGN CHOICE). -/
def Obligations.SlotConfigureWithPin : Prop :=
  (∀ (s : State) (p : Port) (m : Nat) (e : Byte) (h : SlotHandle) (f : RawConfig) (n : SlotNo) (c : SlotConfig)
    (rest : List ToBlock),
    s.CanServe p m e (.slotConfigure h f) rest → s.calendar.Owns p h n → (s.calendar.slot n).status = .idle → f.Means c →
    (s.calendar.slot n).config.pin ≠ none ∨ c.pin ≠ none →
    exec (.slotConfigure p) s = .next { s.afterTaking .calendar p rest with
      calendar := { s.calendar with
        toPin := s.calendar.toPin ++ [.binding (s.calendar.slot n).config.pin c.pin c.action n],
        busy := .binding { port := p, mark := m, slot := n, config := c } } }) ∧
  ∀ (s : State) (w : WaitingConfigure) (old new : Option PinNo) (action : PinAction) (rest : List PinRequest),
    s.pins.tickBegun = false → s.calendar.busy = .binding w → s.calendar.toPin = .binding old new action w.slot :: rest →
    ((∃ o k, new = some o ∧ (s.pins.record o).bound = some k ∧ k ≠ w.slot) →
      exec .bindingRequest s = .next { s with
        calendar := { s.calendar with
          toPin := rest, busy := .free, back := answered s.calendar.back w.port w.mark .pinBusy .empty } }) ∧
    ((∀ o k, new = some o → (s.pins.record o).bound = some k → k = w.slot) →
      ∃ records, exec .bindingRequest s = .next { s with
          pins := { s.pins with records := records },
          calendar := { s.calendar with
            toPin := rest, busy := .free,
            slots := setAt s.calendar.slots w.slot { s.calendar.slot w.slot with config := w.config },
            back := answered s.calendar.back w.port w.mark .ok .empty } } ∧
        ∀ o : PinNo,
          (new ≠ some o → old = some o →
            records[o] = { bound := none, action := .pulse, level := false, pulseTime := none }) ∧
          (new ≠ some o → old ≠ some o → records[o] = s.pins.record o) ∧
          (new = some o → old = some o → (s.pins.record o).action = action → records[o] = s.pins.record o) ∧
          (new = some o → old = some o → (s.pins.record o).action ≠ action →
            records[o] = { s.pins.record o with action := action, level := false, pulseTime := none }) ∧
          (new = some o → old ≠ some o → (s.pins.record o).bound = none →
            records[o] = { s.pins.record o with bound := some w.slot, action := action }))

/-- R48, R49, R50: SLOT_ARM gives the state of the table of R49, clears the fired mark, drives a LEVEL pin low, and says whether it
was a restart; a start field outside R48 is refused. -/
def Obligations.SlotArm : Prop :=
  ∀ (s : State) (p : Port) (m : Nat) (e : Byte) (h : SlotHandle) (kind : Byte) (value : Time) (startNow : Bool) (n : SlotNo)
    (rest : List ToBlock),
    s.CanServe p m e (.slotArm h kind value startNow) rest → s.calendar.Owns p h n →
    (∀ st, s.calendar.ArmsTo n kind value startNow st →
      ∃ c', exec (.slotArm p) s = .next { s.afterTaking .calendar p rest with calendar := c' } ∧
        s.calendar.Becomes c' n { s.calendar.slot n with status := st, fired := false } []
          (s.calendar.slot n).driveLow
          (answered s.calendar.back p m .ok (.armed (decide ((s.calendar.slot n).status ≠ .idle)) st))) ∧
    ((¬ ∃ st, s.calendar.ArmsTo n kind value startNow st) →
      exec (.slotArm p) s = .next (s.refuses .calendar p m rest .badField))

/-- R52, R53: SLOT_DISARM returns the slot to IDLE, drives a LEVEL pin low, reports the state it found and the fired mark, and with
the purge flag sends a purge request. R35, R46: SLOT_RELEASE frees the slot in every state, unbinds its pin, and keeps its
generation, its other fields and its counters. -/
def Obligations.SlotDisarmAndRelease : Prop :=
  (∀ (s : State) (p : Port) (m : Nat) (e : Byte) (h : SlotHandle) (purge : Bool) (n : SlotNo) (rest : List ToBlock),
    s.CanServe p m e (.slotDisarm h purge) rest → s.calendar.Owns p h n →
    ∃ c', exec (.slotDisarm p) s = .next { s.afterTaking .calendar p rest with calendar := c' } ∧
      s.calendar.Becomes c' n { s.calendar.slot n with status := .idle }
        (if purge then [.purge n (s.calendar.slot n).generation] else []) (s.calendar.slot n).driveLow
        (answered s.calendar.back p m .ok (.disarmed (s.calendar.slot n).status (s.calendar.slot n).fired))) ∧
  ∀ (s : State) (p : Port) (m : Nat) (e : Byte) (h : SlotHandle) (n : SlotNo) (rest : List ToBlock),
    s.CanServe p m e (.slotRelease h) rest → s.calendar.Owns p h n →
    ∃ c', exec (.slotRelease p) s = .next { s.afterTaking .calendar p rest with calendar := c' } ∧
      s.calendar.Becomes c' n
        { s.calendar.slot n with
          status := .free, owner := none, fired := false, config := { (s.calendar.slot n).config with pin := none } }
        [] (s.calendar.slot n).unbinds
        (answered s.calendar.back p m .ok .empty)

/-- R64, R65: a touch of a WINDOW slot inside its window renews the deadline; before it, the slot fires EARLY and lapses; a lapsed
slot answers LAPSED. That a touch before a deadline armed within the window of 2^47 ticks behind now is EARLY too, though R49 calls
that window open, is log entry 21 (a DESIGN CHOICE). -/
def Obligations.WindowTouch : Prop :=
  ∀ (s : State) (p : Port) (m : Nat) (e : Byte) (h : SlotHandle) (n : SlotNo) (rest : List ToBlock),
    s.CanServe p m e (.slotTouch h) rest → s.calendar.Owns p h n → (s.calendar.slot n).config.mode = .window →
    (∀ d, (s.calendar.slot n).status = .running d →
      ((s.calendar.now - (d - (s.calendar.slot n).config.window.setWidth 48)).toNat < 2 ^ 47 →
        ∃ c', exec (.slotTouch p) s = .next { s.afterTaking .calendar p rest with calendar := c' } ∧
          s.calendar.Becomes c' n
            { s.calendar.slot n with status := .running (s.calendar.now + (s.calendar.slot n).config.period.setWidth 48) }
            [] [] (answered s.calendar.back p m .ok
              (.touched false (.running (s.calendar.now + (s.calendar.slot n).config.period.setWidth 48))))) ∧
      (2 ^ 47 ≤ (s.calendar.now - (d - (s.calendar.slot n).config.window.setWidth 48)).toNat →
        ∃ c', exec (.slotTouch p) s = .next { s.afterTaking .calendar p rest with calendar := c' } ∧
          s.calendar.Becomes c' n ((s.calendar.slot n).firedTo .lapsed)
            ((s.calendar.slot n).fireRequests n .early s.calendar.now 1 none)
            ((s.calendar.slot n).fireActions s.calendar.now)
            (answered s.calendar.back p m .ok (.touched true .lapsed)))) ∧
    ((s.calendar.slot n).status = .lapsed →
      exec (.slotTouch p) s = .next (s.refuses .calendar p m rest .lapsed))

/-- R63, R64, R67: a touch triggers a RETRIGGER slot; it is one edge for a COUNT slot, which fires and reloads at the last; in every
other case but a WINDOW slot it is refused BAD_STATE. COUNT_FIRE by a touch is that SLOT_TOUCH (log entry 3, a DESIGN CHOICE). -/
def Obligations.TriggerAndCountTouch : Prop :=
  ∀ (s : State) (p : Port) (m : Nat) (e : Byte) (h : SlotHandle) (n : SlotNo) (rest : List ToBlock),
    s.CanServe p m e (.slotTouch h) rest → s.calendar.Owns p h n →
    ((s.calendar.slot n).config.mode = .retrigger →
      (s.calendar.slot n).status = .waiting none ∨ (∃ d, (s.calendar.slot n).status = .running d) →
      ∃ c', exec (.slotTouch p) s = .next { s.afterTaking .calendar p rest with calendar := c' } ∧
        s.calendar.Becomes c' n
          { s.calendar.slot n with status := .running (s.calendar.now + (s.calendar.slot n).config.period.setWidth 48) }
          [] [] (answered s.calendar.back p m .ok
            (.touched false (.running (s.calendar.now + (s.calendar.slot n).config.period.setWidth 48))))) ∧
    (∀ k : BitVec 16, (s.calendar.slot n).config.mode = .count → (s.calendar.slot n).status = .waiting (some k) →
      (2 ≤ k.toNat →
        ∃ c', exec (.slotTouch p) s = .next { s.afterTaking .calendar p rest with calendar := c' } ∧
          s.calendar.Becomes c' n { s.calendar.slot n with status := .waiting (some (k - 1)) } [] []
            (answered s.calendar.back p m .ok (.touched false (.waiting (some (k - 1)))))) ∧
      (k = 1 →
        exec (.countFire n (some p)) s = exec (.slotTouch p) s ∧
        ∃ c', exec (.countFire n (some p)) s = .next { s.afterTaking .calendar p rest with calendar := c' } ∧
          s.calendar.Becomes c' n ((s.calendar.slot n).firedTo (.waiting (some (s.calendar.slot n).config.count)))
            ((s.calendar.slot n).fireRequests n .expiry s.calendar.now 1 none)
            ((s.calendar.slot n).fireActions s.calendar.now)
            (answered s.calendar.back p m .ok
              (.touched false (.waiting (some (s.calendar.slot n).config.count)))))) ∧
    ((s.calendar.slot n).status = .idle ∨ (s.calendar.slot n).config.mode ∈ [Mode.once, Mode.repeat, Mode.gated] →
      exec (.slotTouch p) s = .next (s.refuses .calendar p m rest .badState))

/-- R37, R38: SLOT_ADOPT gives an orphaned slot the requesting port as owner and is refused for an owned slot; SLOT_QUERY reports the
record and the Calendar's time, for any port, and with generation 0 for a FREE slot too. -/
def Obligations.SlotAdoptAndQuery : Prop :=
  ∀ (s : State) (p : Port) (m : Nat) (e : Byte) (h : SlotHandle) (n : SlotNo) (rest : List ToBlock), h.slot.toNat = n.val →
    (s.CanServe p m e (.slotAdopt h) rest → (s.calendar.slot n).status ≠ .free →
      h.generation = (s.calendar.slot n).generation →
      ((s.calendar.slot n).owner = none →
        ∃ c', exec (.slotAdopt p) s = .next { s.afterTaking .calendar p rest with calendar := c' } ∧
          s.calendar.Becomes c' n { s.calendar.slot n with owner := some p } [] []
            (answered s.calendar.back p m .ok .empty)) ∧
      ((s.calendar.slot n).owner ≠ none →
        exec (.slotAdopt p) s = .next (s.refuses .calendar p m rest .notOwner))) ∧
    (s.CanServe p m e (.slotQuery h) rest →
      h.generation = 0 ∨ ((s.calendar.slot n).status ≠ .free ∧ h.generation = (s.calendar.slot n).generation) →
      exec (.slotQuery p) s = .next { s.afterTaking .calendar p rest with
        calendar := { s.calendar with
          back := answered s.calendar.back p m .ok (.slot n (s.calendar.slot n) s.calendar.now) } })

/-! ### The Calendar's events -/

/-- R44, R55 to R62: a delivered tick sets now, and every RUNNING slot whose deadline is due at it fires as its mode requires, the fire
requests and pin actions sent in due-list order; every other slot is left as it is. Due is judged by R2 at the value delivered, a
deadline armed long before included (log entry 20, a DESIGN CHOICE). R39: what the
requests hang on, and that the delivery is counted, is log entry 24 (a DESIGN CHOICE). -/
def Obligations.DeliveredTickFiresWhatIsDue : Prop :=
  ∀ (s : State) (t : Time) (rest : List TimeDelivery),
    s.calendar.busy = .free → s.timebase.toCalendar = .tick t :: rest → s.calendar.DueExact → s.calendar.SlotLaw →
    ∃ c', exec .deliveredTick s = .next { s with timebase := { s.timebase with toCalendar := rest }, calendar := c' } ∧
      c'.deliveries = s.calendar.deliveries + 1 ∧ c'.now = t ∧ c'.busy = .free ∧ c'.views = s.calendar.views ∧
      c'.back = s.calendar.back ∧ c'.DueExact ∧ c'.DueSorted ∧
      Calendar.FiresDue { s.calendar with now := t } c' t

/-- R55 to R62: the fire of slot `n`, the first due entry of the due list, in its order at `t`, at a delivered tick carrying `t`: it is
counted and marked, its fire request and pin action are sent, and it moves to the state its mode gives. FIRE is this part of the
delivery as a step of its own (log entry 2, a DESIGN CHOICE). What the request hangs on is log entry 24 (a DESIGN CHOICE). -/
def Obligations.FireOfDueSlot : Prop :=
  ∀ (s : State) (t : Time) (ticks : List TimeDelivery) (c : Calendar) (l₁ l₂ : List SlotNo) (n : SlotNo) (d : Time)
    (kind : NoticeKind) (weight : BitVec 16) (st : SlotStatus),
    s.timebase.toCalendar = .tick t :: ticks →
    (s.calendar.busy = .free ∧ c = { s.calendar with now := t, busy := .delivering, dueList := l₁ ++ n :: l₂ } ∧
        c.dueList.Perm s.calendar.dueList ∧ c.DueSorted) ∨
      (s.calendar.busy = .delivering ∧ c = s.calendar ∧ c.dueList = l₁ ++ n :: l₂) →
    (∀ k ∈ l₁, ∀ d', (s.calendar.slot k).status = .running d' → 2 ^ 47 ≤ (t - d').toNat) →
    (s.calendar.slot n).status = .running d → (t - d).toNat < 2 ^ 47 → (s.calendar.slot n).FiresTo d t kind weight st →
    ∃ c', exec (.fire n) s = .next { s with calendar := c' } ∧
      c.Becomes c' n ((s.calendar.slot n).firedTo st)
        ((s.calendar.slot n).fireRequests n kind t weight ((s.calendar.slot n).deliveryTie s.calendar.deliveries))
        ((s.calendar.slot n).fireActions t) s.calendar.back

/-- R55: fires and counts taken as steps of their own before the end of their event change nothing in what the event does (log entry
2, a DESIGN CHOICE). -/
def Obligations.FiresBeforeTheEndOfTheirEvent : Prop :=
  ∀ (s t : State) (n : SlotNo), s.calendar.DueExact → s.calendar.SlotLaw →
    (exec (.fire n) s = .next t →
      (∀ v rest, s.timebase.toCalendar = .tick v :: rest → exec .deliveredTick t = exec .deliveredTick s) ∧
      ∀ old new delta rest, s.timebase.toCalendar = .step old new delta :: rest → exec .timeStep t = exec .timeStep s) ∧
    (exec (.countFire n none) s = .next t → exec .edgeArrival t = exec .edgeArrival s)

/-- R2, R44, R56, R57, R72, R73: a time step sets now to the new value, moves RELATIVE deadlines by the step delta, clamps what it leaves
beyond the horizon, and fires what is then due, the fire requests and pin actions sent in due-list order; a slot without a
deadline is left as it is. Due is judged by R2 at the new value (log entry 20, a DESIGN CHOICE), and a
RELATIVE deadline that the shift leaves beyond the horizon is clamped too (log entry 23, a DESIGN CHOICE). An ABSOLUTE deadline that is
due at the new value fires at a backward step too (log entry 28, a DESIGN CHOICE), and one armed due that is not due at the new value
does not (log entry 30, a DESIGN CHOICE). What the requests hang on, and that the step is counted, is log entry 24 (a DESIGN CHOICE). -/
def Obligations.TimeStepMovesAndFires : Prop :=
  ∀ (s : State) (old new delta : Time) (rest : List TimeDelivery),
    s.calendar.busy = .free → s.timebase.toCalendar = .step old new delta :: rest → s.calendar.DueExact →
    s.calendar.SlotLaw →
    ∃ c', exec .timeStep s = .next { s with timebase := { s.timebase with toCalendar := rest }, calendar := c' } ∧
      c'.deliveries = s.calendar.deliveries + 1 ∧ c'.now = new ∧ c'.busy = .free ∧ c'.views = s.calendar.views ∧
      c'.back = s.calendar.back ∧ c'.DueExact ∧ c'.DueSorted ∧
      ∀ slots : Vector Slot 64, (∀ n : SlotNo, (s.calendar.slot n).StepsTo new delta slots[n]) →
        Calendar.FiresDue { s.calendar with now := new, slots := slots } c' new

/-- R63, R67, R68: an edge arrival triggers every RETRIGGER slot on the line that waits or runs, takes one edge of every COUNT slot on
it that waits, and touches no other slot; the fire requests and pin actions of the counts it completes are sent in ascending slot
number. COUNT_FIRE of slot `n` is the visit of the arrival up to and including slot `n`, whose last edge it is (log entry 2, a DESIGN
CHOICE). -/
def Obligations.EdgeArrival : Prop :=
  (∀ (s : State) (i : LineNo) (rest : List LineMessage),
    s.calendar.busy = .free → s.lines.toCalendar = .edge i :: rest → s.calendar.SlotLaw →
    ∃ c', exec .edgeArrival s = .next { s with lines := { s.lines with toCalendar := rest }, calendar := c' } ∧
      c'.deliveries = s.calendar.deliveries ∧ c'.now = s.calendar.now ∧ c'.busy = .free ∧ c'.views = s.calendar.views ∧
      c'.back = s.calendar.back ∧ (s.calendar.DueExact → c'.DueExact) ∧
      (s.calendar.DueExact → s.calendar.DueSorted → c'.DueSorted) ∧
      c'.toRouter = s.calendar.toRouter ++ ((List.finRange 64).filter fun n => s.calendar.LastEdge i n).flatMap (fun n =>
        (s.calendar.slot n).fireRequests n .expiry s.calendar.now 1 none) ∧
      c'.toPin = s.calendar.toPin ++ ((List.finRange 64).filter fun n => s.calendar.LastEdge i n).flatMap (fun n =>
        (s.calendar.slot n).fireActions s.calendar.now) ∧
      ∀ n,
        ((s.calendar.slot n).config.line ≠ some i ∨
          (s.calendar.slot n).config.mode ∈ [Mode.once, Mode.repeat, Mode.window, Mode.gated] ∨
          (s.calendar.slot n).status ∈ [SlotStatus.free, .idle, .lapsed] →
            c'.slot n = s.calendar.slot n) ∧
        ((s.calendar.slot n).config.line = some i → (s.calendar.slot n).config.mode = .retrigger →
          (s.calendar.slot n).status = .waiting none ∨ (∃ d, (s.calendar.slot n).status = .running d) →
          c'.slot n =
            { s.calendar.slot n with status := .running (s.calendar.now + (s.calendar.slot n).config.period.setWidth 48) }) ∧
        ∀ k : BitVec 16, (s.calendar.slot n).config.line = some i → (s.calendar.slot n).config.mode = .count →
          (s.calendar.slot n).status = .waiting (some k) →
          (2 ≤ k.toNat → c'.slot n = { s.calendar.slot n with status := .waiting (some (k - 1)) }) ∧
          (k = 1 → c'.slot n = (s.calendar.slot n).firedTo (.waiting (some (s.calendar.slot n).config.count)))) ∧
  ∀ (s : State) (i : LineNo) (n : SlotNo) (rest : List LineMessage),
    s.calendar.busy = .free → s.lines.toCalendar = .edge i :: rest → s.calendar.SlotLaw → s.calendar.LastEdge i n →
    ∃ c', exec (.countFire n none) s = .next { s with calendar := c' } ∧
      c'.slot n = (s.calendar.slot n).firedTo (.waiting (some (s.calendar.slot n).config.count)) ∧
      (∀ k, n < k → c'.slot k = s.calendar.slot k) ∧ c'.deliveries = s.calendar.deliveries ∧
      c'.now = s.calendar.now ∧ c'.views = s.calendar.views ∧ c'.back = s.calendar.back ∧
      c'.toRouter = s.calendar.toRouter ++
        ((List.finRange 64).filter fun k => k ≤ n ∧ s.calendar.LastEdge i k).flatMap (fun k =>
          (s.calendar.slot k).fireRequests k .expiry s.calendar.now 1 none) ∧
      c'.toPin = s.calendar.toPin ++ ((List.finRange 64).filter fun k => k ≤ n ∧ s.calendar.LastEdge i k).flatMap (fun k =>
        (s.calendar.slot k).fireActions s.calendar.now)

/-- R47, R70, R71: a gate report replaces the line view; a RUNNING GATED slot whose gate becomes inactive pauses with the ticks it
still owes (after firing, if its deadline is due), a PAUSED one whose gate becomes active resumes, and no other slot changes. Pauses
and resumes send nothing; the fire requests and pin actions of the slots that fire first are sent in ascending slot number. -/
def Obligations.GateReport : Prop :=
  ∀ (s : State) (i : LineNo) (v : LineView) (rest : List LineMessage),
    s.calendar.busy = .free → s.lines.toCalendar = .gate i v.enabled v.level :: rest →
    ∃ c', exec .gateReport s = .next { s with lines := { s.lines with toCalendar := rest }, calendar := c' } ∧
      c'.views = setAt s.calendar.views i v ∧ c'.deliveries = s.calendar.deliveries ∧ c'.now = s.calendar.now ∧
      c'.busy = .free ∧ c'.back = s.calendar.back ∧
      (s.calendar.DueExact → c'.DueExact) ∧ (s.calendar.DueExact → s.calendar.DueSorted → c'.DueSorted) ∧
      (∀ l : List SlotNo, l.Pairwise (fun m n => m < n) →
        (∀ n, n ∈ l ↔ (s.calendar.slot n).config.line = some i ∧ (s.calendar.slot n).config.mode = .gated ∧
          s.calendar.GateActive n ∧ ¬ c'.GateActive n ∧ s.calendar.Due s.calendar.now n) →
        c'.toRouter = s.calendar.toRouter ++
          l.flatMap (fun n => (s.calendar.slot n).fireRequests n .expiry s.calendar.now 1 none) ∧
        c'.toPin = s.calendar.toPin ++ l.flatMap (fun n => (s.calendar.slot n).fireActions s.calendar.now)) ∧
      ∀ n,
        ((s.calendar.slot n).config.line ≠ some i ∨ (s.calendar.slot n).config.mode ≠ .gated ∨
          (c'.GateActive n ↔ s.calendar.GateActive n) ∨
          ((s.calendar.slot n).status.isRunning = false ∧ ∀ r, (s.calendar.slot n).status ≠ .paused r) →
            c'.slot n = s.calendar.slot n) ∧
        ∀ d, (s.calendar.slot n).config.line = some i → (s.calendar.slot n).config.mode = .gated →
          ((s.calendar.slot n).status = .running d → s.calendar.GateActive n → ¬ c'.GateActive n →
            (2 ^ 47 ≤ (s.calendar.now - d).toNat →
              c'.slot n = { s.calendar.slot n with status := .paused (d - s.calendar.now) }) ∧
            ((s.calendar.now - d).toNat < 2 ^ 47 →
              c'.slot n =
                (s.calendar.slot n).firedTo (.paused ((s.calendar.slot n).config.period.setWidth 48)))) ∧
          ((s.calendar.slot n).status = .paused d → ¬ s.calendar.GateActive n → c'.GateActive n →
            c'.slot n = { s.calendar.slot n with status := .running (s.calendar.now + d) })

/-- R24, R107: a lost or undelivered report counts for a slot of the reported generation, in whatever state, and is dropped for any
other. -/
def Obligations.SlotCountReport : Prop :=
  ∀ (s : State) (n : SlotNo) (g : BitVec 16) (m : CountReport) (rest : List CountReport),
    s.calendar.busy = .free → s.router.toCalendar = m :: rest → m = .lost n g ∨ m = .undelivered n g →
    ((s.calendar.slot n).generation ≠ g →
      exec .slotCountReport s = .next { s with router := { s.router with toCalendar := rest } }) ∧
    ((s.calendar.slot n).generation = g →
      exec .slotCountReport s = .next { s with
        router := { s.router with toCalendar := rest },
        calendar := { s.calendar with
          slots := setAt s.calendar.slots n
            (if m = .lost n g then
              { s.calendar.slot n with lost := BitVec.ofNat 16 (min ((s.calendar.slot n).lost.toNat + 1) 65535) }
            else
              { s.calendar.slot n with
                undelivered := BitVec.ofNat 16 (min ((s.calendar.slot n).undelivered.toNat + 1) 65535) }) } })

/-- R35, R39, R40, R142: the end of p's session at the Calendar applies to each slot p owns its orphan policy, sends the ORPHANED
requests and the unbinds of the slots it frees in ascending slot number, and touches no other slot. The fire requests of slots that
fired at a delivery under p's ownership, the ORPHANED requests, and a KEEP slot up to the last delivery on its way, hang on the ended
session from then on (log entry 24, a DESIGN CHOICE; log entry 25, DEDUCED). -/
def Obligations.CalendarSessionEnd : Prop :=
  ∀ (s : State) (p : Port) (e : Byte) (rest : List ToBlock),
    s.calendar.busy = .free → (s.port p).toCalendar = .sessionEnd e :: rest → s.calendar.SlotLaw →
    ∃ c', exec (.calendarSessionEnd p) s = .next { s.afterTaking .calendar p rest with calendar := c' } ∧
      c'.deliveries = s.calendar.deliveries ∧ c'.now = s.calendar.now ∧ c'.busy = .free ∧ c'.views = s.calendar.views ∧
      c'.back = sendBack s.calendar.back p .completion ∧ (s.calendar.DueExact → c'.DueExact) ∧
      c'.toRouter = s.calendar.toRouter.map (fun m =>
        match m with
        | .fire q => if q.tie = some (.owner p) then .fire { q with tie := some (.ended p) } else .fire q
        | .purge n g => .purge n g) ++ (List.finRange 64).flatMap (fun n =>
        if (s.calendar.slot n).owner = some p ∧ (s.calendar.slot n).config.policy = .announce then
          [.fire { slot := n, generation := (s.calendar.slot n).generation, kind := .orphaned,
                   cls := (s.calendar.slot n).config.cls, tag := (s.calendar.slot n).config.tag,
                   targets := (s.calendar.slot n).config.targets, delivery := (s.calendar.slot n).config.delivery,
                   fired := s.calendar.now, weight := 1, tie := some (.ended p) }]
        else []) ∧
      c'.toPin = s.calendar.toPin ++ (List.finRange 64).flatMap (fun n =>
        if (s.calendar.slot n).owner = some p ∧ (s.calendar.slot n).config.policy ≠ .keep then (s.calendar.slot n).unbinds
        else []) ∧
      ∀ n,
        ((s.calendar.slot n).owner ≠ some p → c'.slot n = s.calendar.slot n) ∧
        ((s.calendar.slot n).owner = some p → (s.calendar.slot n).config.policy = .keep →
          c'.slot n =
            { s.calendar.slot n with
              owner := none, left := some (p, s.calendar.deliveries + s.timebase.toCalendar.length) }) ∧
        ((s.calendar.slot n).owner = some p → (s.calendar.slot n).config.policy ≠ .keep →
          c'.slot n =
            { s.calendar.slot n with
              status := .free, owner := none, fired := false, config := { (s.calendar.slot n).config with pin := none } })

/-! ### Event lines -/

/-- R74, R75, R76: a sample resets or lengthens a line's filter run; the sample that completes it changes the accepted level, sends
the gate report, and delivers or holds the edge if it qualifies. CHANGE_OF_ACCEPTED_LEVEL is that sample of one line (log entry 3, a
DESIGN CHOICE). R77, R145: the initial sample sets every accepted level, with no edge, and is reported in ascending line number; no
sample is taken during a device reset. That a sample of all twelve lines is taken, and reported, in ascending line number is R77 for
the initial sample and log entry 7 (a DESIGN CHOICE) for every other. -/
def Obligations.LineSamples : Prop :=
  (∀ (s : State) (levels : LineSet), s.inReset = false → s.lines.initialTaken = true →
    (∃ records, exec (.lineSample levels) s = .next { s with
        lines := { s.lines with
          records := records,
          toCalendar := s.lines.toCalendar ++
            (List.finRange 12).flatMap fun i => (s.lines.record i).sampleSends i (levels.getLsbD i.val) } } ∧
      ∀ i : LineNo,
        (levels.getLsbD i.val = (s.lines.record i).accepted → records[i] = { s.lines.record i with run := 0 }) ∧
        (levels.getLsbD i.val ≠ (s.lines.record i).accepted → (s.lines.record i).run.toNat < (s.lines.record i).filter.toNat →
          records[i] = { s.lines.record i with run := (s.lines.record i).run + 1 }) ∧
        (levels.getLsbD i.val ≠ (s.lines.record i).accepted → (s.lines.record i).filter.toNat ≤ (s.lines.record i).run.toNat →
          ∀ t, exec (.changeOfAcceptedLevel i (levels.getLsbD i.val)) s = .next t → records[i] = t.lines.record i)) ∧
    ∀ (i : LineNo) (v q : Bool), v ≠ (s.lines.record i).accepted →
      (s.lines.record i).filter.toNat ≤ (s.lines.record i).run.toNat →
      (q = true ↔ (s.lines.record i).sense = .both ∨ ((s.lines.record i).sense = .rise ∧ v = true) ∨
        ((s.lines.record i).sense = .fall ∧ v = false)) →
      exec (.changeOfAcceptedLevel i v) s = .next { s with
        lines := { s.lines with
          records := setAt s.lines.records i
            { s.lines.record i with
              accepted := v, run := 0,
              held := (s.lines.record i).held || (q && !(s.lines.record i).enabled),
              edgeCount :=
                if q && (s.lines.record i).enabled then (s.lines.record i).edgeCount + 1 else (s.lines.record i).edgeCount },
          toCalendar := s.lines.toCalendar ++ .gate i (s.lines.record i).enabled v ::
            (if q && (s.lines.record i).enabled then [.edge i] else []) } }) ∧
  ∀ (s : State) (levels : LineSet),
    (s.inReset = true → exec (.lineSample levels) s = .next s) ∧
    (s.inReset = false → s.lines.initialTaken = false →
      ∃ records, exec (.lineSample levels) s = .next { s with
          lines := { s.lines with
            records := records, initialTaken := true,
            toCalendar := s.lines.toCalendar ++
              (List.finRange 12).map fun i => .gate i (s.lines.record i).enabled (levels.getLsbD i.val) } } ∧
        ∀ i : LineNo, records[i] = { s.lines.record i with accepted := levels.getLsbD i.val, run := 0 })

/-- R78, R79, R80, R84: LINE_CLAIM, LINE_RELEASE, LINE_CONFIG and LINE_STATUS of an existing line. -/
def Obligations.LineClaimReleaseConfigStatus : Prop :=
  ∀ (s : State) (p : Port) (m : Nat) (e : Byte) (i : LineNo) (b : Byte) (rest : List ToBlock), b.toNat = i.val →
    (s.CanServe p m e (.lineClaim b) rest →
      (∀ q, q ≠ p → (s.lines.record i).owner = some q →
        exec (.lineClaim p) s = .next (s.refuses .line p m rest .lineBusy)) ∧
      ((s.lines.record i).owner = none ∨ (s.lines.record i).owner = some p →
        exec (.lineClaim p) s = .next { s.afterTaking .line p rest with
          lines := { s.lines with
            records := setAt s.lines.records i { s.lines.record i with owner := some p },
            back := answered s.lines.back p m .ok .empty } })) ∧
    (s.CanServe p m e (.lineRelease b) rest → (s.lines.record i).owner = some p →
      exec (.lineRelease p) s = .next { s.afterTaking .line p rest with
        lines := { s.lines with
          records := setAt s.lines.records i { s.lines.record i with owner := none },
          back := answered s.lines.back p m .ok .empty } }) ∧
    (∀ (sense filter : Byte) (sn : Sense), s.CanServe p m e (.lineConfig b sense filter) rest →
      (s.lines.record i).owner = some p → sense = sn.code → filter.toNat ≤ 15 →
      exec (.lineConfig p) s = .next { s.afterTaking .line p rest with
        lines := { s.lines with
          records := setAt s.lines.records i
            { s.lines.record i with
              sense := sn, filter := filter.setWidth 4,
              held := if sn = (s.lines.record i).sense then (s.lines.record i).held else false },
          back := answered s.lines.back p m .ok .empty } }) ∧
    (s.CanServe p m e (.lineStatus b) rest →
      exec (.lineStatus p) s = .next { s.afterTaking .line p rest with
        lines := { s.lines with back := answered s.lines.back p m .ok (.line i (s.lines.record i)) } })

/-- R76, R81, R82, R83: LINE_ENABLE, LINE_DISABLE and LINE_PULSE by the line's owner. -/
def Obligations.LineEnableDisablePulse : Prop :=
  ∀ (s : State) (p : Port) (m : Nat) (e : Byte) (i : LineNo) (b : Byte) (rest : List ToBlock), b.toNat = i.val →
    (s.lines.record i).owner = some p →
    (∀ discard, s.CanServe p m e (.lineEnable b discard) rest →
      ((s.lines.record i).enabled = true → (s.lines.record i).held = false →
        exec (.lineEnable p) s = .next { s.afterTaking .line p rest with
          lines := { s.lines with back := answered s.lines.back p m .ok (.lineEnabled false) } }) ∧
      ((s.lines.record i).enabled = false →
        exec (.lineEnable p) s = .next { s.afterTaking .line p rest with
          lines := { s.lines with
            records := setAt s.lines.records i
              { s.lines.record i with
                enabled := true, held := false,
                edgeCount :=
                  if (s.lines.record i).held && !discard then (s.lines.record i).edgeCount + 1
                  else (s.lines.record i).edgeCount },
            toCalendar := s.lines.toCalendar ++ .gate i true (s.lines.record i).accepted ::
              (if (s.lines.record i).held && !discard then [.edge i] else []),
            back := answered s.lines.back p m .ok (.lineEnabled (s.lines.record i).held) } })) ∧
    (s.CanServe p m e (.lineDisable b) rest →
      ((s.lines.record i).enabled = false →
        exec (.lineDisable p) s = .next { s.afterTaking .line p rest with
          lines := { s.lines with back := answered s.lines.back p m .ok .empty } }) ∧
      ((s.lines.record i).enabled = true →
        exec (.lineDisable p) s = .next { s.afterTaking .line p rest with
          lines := { s.lines with
            records := setAt s.lines.records i { s.lines.record i with enabled := false },
            toCalendar := s.lines.toCalendar ++ [.gate i false (s.lines.record i).accepted],
            back := answered s.lines.back p m .ok .empty } })) ∧
    (s.CanServe p m e (.linePulse b) rest →
      ((s.lines.record i).enabled = true →
        exec (.linePulse p) s = .next { s.afterTaking .line p rest with
          lines := { s.lines with
            records := setAt s.lines.records i
              { s.lines.record i with edgeCount := (s.lines.record i).edgeCount + 1 },
            toCalendar := s.lines.toCalendar ++ [.edge i],
            back := answered s.lines.back p m .ok (.linePulsed true) } }) ∧
      ((s.lines.record i).enabled = false →
        exec (.linePulse p) s = .next { s.afterTaking .line p rest with
          lines := { s.lines with
            records := setAt s.lines.records i { s.lines.record i with held := true },
            back := answered s.lines.back p m .ok (.linePulsed false) } }))

/-- R78, R80: the checks of a line command, in order; a refusal changes nothing. -/
def Obligations.LineCommandChecks : Prop :=
  ∀ (s : State) (p : Port) (m : Nat) (e : Byte) (r : Request) (b : Byte) (rest : List ToBlock),
    r.line? = some b → s.CanServe p m e r rest →
    (12 ≤ b.toNat → exec (r.command p) s = .next (s.refuses .line p m rest .badField)) ∧
    ∀ i : LineNo, b.toNat = i.val →
      ((s.lines.record i).owner ≠ some p → r ≠ .lineClaim b → r ≠ .lineStatus b →
        exec (r.command p) s = .next (s.refuses .line p m rest .notOwner)) ∧
      (∀ sense filter : Byte, r = .lineConfig b sense filter → (s.lines.record i).owner = some p →
        3 ≤ sense.toNat ∨ 16 ≤ filter.toNat →
        exec (r.command p) s = .next (s.refuses .line p m rest .badField))

/-! ### Output pins -/

/-- R88, R90: a fire action drives the pin by the action carried, a drive-low lowers it, an unbind clears its record. R89: a
delivered tick ends every pulse whose pulse time differs from the value it carries. PULSE_END is the end of one such pulse as a step
of its own, and changes nothing in what the tick does (log entry 2, a DESIGN CHOICE). That a fire action is taken at any distance from the
tick of its fired time is log entry 29 (a DESIGN CHOICE). -/
def Obligations.PinRequestsAndTicks : Prop :=
  (∀ (s : State) (o : PinNo) (rest : List PinRequest), s.pins.tickBegun = false →
    (∀ action t, s.calendar.toPin = .fire o action t :: rest →
      exec .fireAction s = .next { s with
        calendar := { s.calendar with toPin := rest },
        pins := { s.pins with
          records := setAt s.pins.records o
            { s.pins.record o with
              level := if action = .toggle then !(s.pins.record o).level else true,
              pulseTime := if action = .pulse then some t else (s.pins.record o).pulseTime } } }) ∧
    (s.calendar.toPin = .driveLow o :: rest →
      exec .driveLow s = .next { s with
        calendar := { s.calendar with toPin := rest },
        pins := { s.pins with records := setAt s.pins.records o { s.pins.record o with level := false } } }) ∧
    (s.calendar.toPin = .unbind o :: rest →
      exec .unbind s = .next { s with
        calendar := { s.calendar with toPin := rest },
        pins := { s.pins with
          records := setAt s.pins.records o { bound := none, action := .pulse, level := false, pulseTime := none } } })) ∧
  ∀ (s : State) (t : Time) (rest : List Time), s.timebase.toPin = t :: rest →
    (∃ records, exec .pinDeliveredTick s = .next { s with
        timebase := { s.timebase with toPin := rest }, pins := { records := records, tickBegun := false } } ∧
      ∀ o : PinNo,
        ((s.pins.record o).pulseTime = none ∨ (s.pins.record o).pulseTime = some t → records[o] = s.pins.record o) ∧
        ∀ v, (s.pins.record o).pulseTime = some v → v ≠ t →
          records[o] = { s.pins.record o with level := false, pulseTime := none }) ∧
    ∀ (o : PinNo) (v : Time), (s.pins.record o).pulseTime = some v → v ≠ t →
      ∃ u, exec (.pulseEnd o) s = .next u ∧
        u = { s with
          pins := {
            records := setAt s.pins.records o { s.pins.record o with level := false, pulseTime := none },
            tickBegun := true } } ∧
        exec .pinDeliveredTick u = exec .pinDeliveredTick s

/-! ### Notices -/

/-- R99, R101: a fire request of delivery BROADCAST is the visits to its targets in ascending port number, each by the first of the five
cases that applies (`Router.Visit`); at its end every port whose queue it changed, and no other, is reported (R130; log entry 18,
DEDUCED). Sessions are judged as they stand (R99), but for the port beside whose session end the request stands, which is closed to it
(R39, R40, R133; log entry 24, a DESIGN CHOICE). -/
def Obligations.BroadcastFire : Prop :=
  ∀ (s : State) (q : FireRequest) (rest : List RouterRequest),
    s.calendar.toRouter = .fire q :: rest → q.delivery = .broadcast → s.router.PoolLaw →
    ∃ r' done back, Router.Visits (fun p => s.isOpen p && decide (q.tie ≠ some (.ended p))) q
        ((List.finRange 4).filter fun p => hasPort q.targets p) (s.router, []) (r', done) ∧
      exec .fireRequest s = .next { s with
        calendar := { s.calendar with toRouter := rest }, router := { r' with back := back } } ∧
      ∀ p : Port, back[p] = r'.back[p] ++ (if r'.queue p = s.router.queue p then [] else [.alert (r'.alertOf p)])

/-- R103, R104, R105: a fire request of delivery CLAIM. Case 1: it is coalesced into the lowest CLAIM record of its slot, generation
and kind that any queue lists. Otherwise it is coalesced into each such BROADCAST record that an open target's queue lists, and the
targets with room that list none are the eligible set: one record is listed for all of it, or lost, or undelivered. Which ports are
reported is log entry 18 (DEDUCED). Sessions are judged as they stand (R99), but for the port beside whose session end the request
stands, which is closed to it (R39, R40, R133; log entry 24, a DESIGN CHOICE). -/
def Obligations.ClaimFire : Prop :=
  ∀ (s base : State) (q : FireRequest) (rest : List RouterRequest),
    s.calendar.toRouter = .fire q :: rest → base = { s with calendar := { s.calendar with toRouter := rest } } →
    q.delivery = .claim → s.router.PoolLaw → s.router.OrderLaw →
    (∀ h x, s.router.ListsClaim q h x → (∀ k y, k < h → ¬ s.router.ListsClaim q k y) →
      exec .fireRequest s = .next { base with
        router := { s.router with pool := setAt s.router.pool h (some (x.coalesced q)) } }) ∧
    ((∀ h x, ¬ s.router.ListsClaim q h x) →
      ∀ (served eligible : Port → Prop) (pool : Vector (Option Notice) 64),
      (∀ p, served p ↔ hasPort q.targets p = true ∧ (s.port p).session = .opened ∧ q.tie ≠ some (.ended p) ∧
        s.router.ListsMatch p q) →
      (∀ p, eligible p ↔ hasPort q.targets p = true ∧ (s.port p).session = .opened ∧ q.tie ≠ some (.ended p) ∧
        (s.router.queue p).length < 16 ∧
        ¬ s.router.ListsMatch p q) →
      (∀ h : Handle,
        (∀ x, s.router.notice h = some x → x.Matches q → (∃ p, served p ∧ h ∈ s.router.queue p) →
          pool[h] = some (x.coalesced q)) ∧
        ((∀ x, s.router.notice h = some x → x.Matches q → ∀ p, served p → h ∉ s.router.queue p) →
          pool[h] = s.router.notice h)) →
      ((∀ p, ¬ eligible p) → (∃ p, served p) →
        exec .fireRequest s = .next { base with router := { s.router with pool := pool } }) ∧
      ((∀ p, ¬ eligible p) → (∀ p, ¬ served p) →
        exec .fireRequest s = .next { base with
          router := { s.router with toCalendar := s.router.toCalendar ++ [.undelivered q.slot q.generation] } }) ∧
      ((∃ p, eligible p) → (∀ h, s.router.notice h ≠ none) →
        exec .fireRequest s = .next { base with
          router := { s.router with
            pool := pool, toCalendar := s.router.toCalendar ++ [.lost q.slot q.generation],
            poolExhausted := BitVec.ofNat 16 (min (s.router.poolExhausted.toNat + 1) 65535) } }) ∧
      (∀ h, (∃ p, eligible p) → s.router.LowestFree h →
        ∃ queues back r', exec .fireRequest s = .next { base with router := r' } ∧
          r' = { s.router with
            pool := setAt pool h (some
              { slot := q.slot, generation := q.generation, kind := q.kind, cls := q.cls, tag := q.tag,
                offer := .claim q.targets 0, firstFired := q.fired, lastFired := q.fired,
                overrun := BitVec.ofNat 8 (min (q.weight.toNat - 1) 255), redelivered := false }),
            queues := queues, back := back } ∧
          ∀ p : Port,
            (eligible p → s.router.Enters q.cls h (s.router.queue p) (r'.queue p) ∧
              back[p] = s.router.back[p] ++ [.alert (r'.alertOf p)]) ∧
            (¬ eligible p → r'.queue p = s.router.queue p ∧ back[p] = s.router.back[p])))

/-- R109: a purge removes from every queue, and frees, every listed record of its slot and generation, and touches no stack, no
setting, no counter and no other record. Which ports are reported is log entry 18 (DEDUCED). -/
def Obligations.Purge : Prop :=
  ∀ (s : State) (n : SlotNo) (g : BitVec 16) (rest : List RouterRequest),
    s.calendar.toRouter = .purge n g :: rest →
    ∃ r', exec .purgeRequest s = .next { s with calendar := { s.calendar with toRouter := rest }, router := r' } ∧
      r'.inService = s.router.inService ∧ r'.settings = s.router.settings ∧
      r'.poolExhausted = s.router.poolExhausted ∧ r'.toCalendar = s.router.toCalendar ∧
      (∀ h,
        (∀ x p, s.router.notice h = some x → x.slot = n → x.generation = g → h ∈ s.router.queue p → r'.notice h = none) ∧
        ((∀ p, h ∉ s.router.queue p) ∨ (∀ x, s.router.notice h = some x → ¬ (x.slot = n ∧ x.generation = g)) →
          r'.notice h = s.router.notice h)) ∧
      ∀ p,
        r'.queue p = (s.router.queue p).filter (fun h =>
          match s.router.notice h with
          | some x => !(x.slot = n && x.generation = g)
          | none => true) ∧
        r'.back[p] =
          s.router.back[p] ++ (if r'.queue p = s.router.queue p then [] else [.alert (r'.alertOf p)])

/-- R117, R119, R120, R121: FETCH takes the fetchable notice out of p's queue, and a CLAIM notice out of every queue; it goes to the
top of p's stack, or is freed under auto-done. R118, R123: PEEK reports the notice that FETCH would take and changes nothing; with no
fetchable notice both answer NONE with its reason. R130: p, and each port whose queue changed, gets an alert report, and no other (log
entry 18, DEDUCED). The alert report stands before the outcome (log entry 9, a DESIGN CHOICE). -/
def Obligations.FetchAndPeek : Prop :=
  ∀ (s : State) (p : Port) (m : Nat) (e : Byte) (rest : List ToBlock),
    (∀ l₁ h l₂ x, s.CanServe p m e .fetch rest → s.router.PoolLaw → s.router.Fetchable p l₁ h l₂ →
      s.router.notice h = some x →
      ∃ r', exec (.fetch p) s = .next { s.afterTaking .router p rest with router := r' } ∧
        r'.settings = s.router.settings ∧ r'.poolExhausted = s.router.poolExhausted ∧
        r'.toCalendar = s.router.toCalendar ∧ r'.queue p = l₁ ++ l₂ ∧
        (∀ k, k ≠ h → r'.notice k = s.router.notice k) ∧
        ((s.router.setting p).autoDone = false → r'.notice h = some x ∧ r'.stack p = h :: s.router.stack p) ∧
        ((s.router.setting p).autoDone = true → r'.notice h = none ∧ r'.stack p = s.router.stack p) ∧
        r'.back[p] = s.router.back[p] ++ [.alert (r'.alertOf p),
          .outcome m { outcome := .ok, payload := .notice h x (r'.queue p).length (r'.stack p).length }] ∧
        ∀ k, k ≠ p →
          r'.stack k = s.router.stack k ∧
          (x.offer = .broadcast → r'.queue k = s.router.queue k) ∧
          (x.offer ≠ .broadcast → r'.queue k = (s.router.queue k).filter (fun j => j ≠ h)) ∧
          r'.back[k] = s.router.back[k] ++ (if r'.queue k = s.router.queue k then [] else [.alert (r'.alertOf k)])) ∧
    (∀ l₁ h l₂ x, s.CanServe p m e .peek rest → s.router.Fetchable p l₁ h l₂ → s.router.notice h = some x →
      exec (.peek p) s = .next { s.afterTaking .router p rest with
        router := { s.router with
          back := answered s.router.back p m .ok
            (.notice h x (s.router.queue p).length (s.router.stack p).length) } }) ∧
    ∀ reason r, r = Request.fetch ∨ r = Request.peek → s.CanServe p m e r rest → s.router.NotFetchable p reason →
      exec (r.command p) s = .next { s.afterTaking .router p rest with
        router := { s.router with
          back := answered s.router.back p m .none
            (.noNotice reason (s.router.queue p).length (s.router.stack p).length) } }

/-- R124, R125: DONE completes the top of p's stack, or the notice it names wherever it stands in the stack, and frees its record; a
handle that is not in the stack, or none at all, is refused. R130: p gets an alert report; that no other port gets one is log entry 18
(DEDUCED). The alert report stands before the outcome (log entry 9, a DESIGN CHOICE). -/
def Obligations.Done : Prop :=
  ∀ (s : State) (p : Port) (m : Nat) (e : Byte) (b : Byte) (rest : List ToBlock),
    s.CanServe p m e (.done b) rest →
    (∀ l₁ h l₂ x, s.router.PoolLaw → s.router.stack p = l₁ ++ h :: l₂ → (b = 0xFF ∧ l₁ = []) ∨ b.toNat = h.val →
      s.router.notice h = some x →
      ∃ r', exec (.done p) s = .next { s.afterTaking .router p rest with router := r' } ∧
        r' = { s.router with
          pool := setAt s.router.pool h none, inService := setAt s.router.inService p (l₁ ++ l₂),
          back := setAt s.router.back p (s.router.back[p] ++ [.alert (r'.alertOf p),
            .outcome m { outcome := .ok, payload := .completed h x (l₁ ++ l₂).length }]) }) ∧
    (64 ≤ b.toNat → b ≠ 0xFF → exec (.done p) s = .next (s.refuses .router p m rest .badField)) ∧
    ((b = 0xFF ∧ s.router.stack p = []) ∨ (∃ h : Handle, b.toNat = h.val ∧ h ∉ s.router.stack p) →
      exec (.done p) s = .next (s.refuses .router p m rest .notInService))

/-- R126, R127, R130: DECLINE of a CLAIM notice in p's stack re-offers it: it is folded into the match that the lowest open
candidate's queue lists, listed for every open candidate with room, or freed as undelivered (`Router.Reoffers`); p is reported, and
every port whose queue the record entered or that lists the record it was folded into, and no other. Refused cases, in order. The
alert report stands before the outcome (log entry 9, a DESIGN CHOICE), and no further port is reported (log entry 18, DEDUCED). -/
def Obligations.Decline : Prop :=
  ∀ (s : State) (p : Port) (m : Nat) (e : Byte) (b : Byte) (rest : List ToBlock),
    s.CanServe p m e (.decline b) rest →
    (64 ≤ b.toNat → exec (.decline p) s = .next (s.refuses .router p m rest .badField)) ∧
    ∀ h : Handle, b.toNat = h.val →
      (h ∉ s.router.stack p → exec (.decline p) s = .next (s.refuses .router p m rest .notInService)) ∧
      ∀ x, h ∈ s.router.stack p → s.router.notice h = some x →
        (x.offer = .broadcast → exec (.decline p) s = .next (s.refuses .router p m rest .badState)) ∧
        ∀ (offered declined : PortSet) (stack : List Handle), x.offer = .claim offered declined → s.router.PoolLaw →
          stack = (s.router.stack p).filter (fun k => k ≠ h) →
          ∃ r₁ result back r', Router.Reoffers s.isOpen h (x.givenBackBy p offered declined)
              { s.router with inService := setAt s.router.inService p stack } r₁ result ∧
            r' = { r₁ with back := back } ∧
            exec (.decline p) s = .next { s.afterTaking .router p rest with router := r' } ∧
            back[p] = s.router.back[p] ++ [.alert (r'.alertOf p),
              .outcome m { outcome := .ok, payload := .declined h stack.length result }] ∧
            ∀ q : Port, q ≠ p → back[q] = s.router.back[q] ++ s.router.reofferReports r' q

/-- R114, R115, R116: SERVICE_SET installs the three settings or none. R130: it sends p an alert report if it changed a setting; that it
sends none otherwise, and no other port one, is log entry 18 (DEDUCED). The alert report stands before the outcome (log entry 9, a
DESIGN CHOICE). -/
def Obligations.ServiceSet : Prop :=
  ∀ (s : State) (p : Port) (m : Nat) (e : Byte) (mask a l : Byte) (rest : List ToBlock),
    s.CanServe p m e (.serviceSet mask a l) rest →
    (2 ≤ a.toNat ∨ 2 ≤ l.toNat → exec (.serviceSet p) s = .next (s.refuses .router p m rest .badField)) ∧
    (a = 1 → l.toNat < 2 → s.router.stack p ≠ [] →
      exec (.serviceSet p) s = .next (s.refuses .router p m rest .badState)) ∧
    (a.toNat < 2 → l.toNat < 2 → a = 0 ∨ s.router.stack p = [] →
      ∃ x r', x = { mask := mask, autoDone := decide (a = 1), alertOnResponse := decide (l = 1) } ∧
        exec (.serviceSet p) s = .next { s.afterTaking .router p rest with router := r' } ∧
        r' = { s.router with
          settings := setAt s.router.settings p x,
          back := setAt s.router.back p (s.router.back[p] ++
            (if s.router.setting p = x then [] else [.alert (r'.alertOf p)]) ++
            [.outcome m
              { outcome := .ok,
                payload := .service x (s.router.queue p).length (s.router.stack p).length }]) })

/-- R95, R131, R132, R133, R142: the teardown gives up p's queue entries in queue order (`Router.GivesUp`), then frees or re-offers p's
stack entries from the top down (`Router.GivesBack`), then returns p's settings to their defaults; it reports to p before it
completes, and to every other port whose queue it changed or whose listed record took in another (log entry 18, DEDUCED, for no
further report). So p's queue and stack end empty, every BROADCAST record in them is freed, and no other port loses a record. -/
def Obligations.Teardown : Prop :=
  ∀ (s : State) (p : Port) (e : Byte) (rest : List ToBlock),
    (s.port p).toRouter = .sessionEnd e :: rest → (s.port p).session = .closed → s.router.PoolLaw →
    ∃ r₁ r₂ back r',
      Chain Router.GivesUp (s.router.queue p) { s.router with queues := setAt s.router.queues p [] } r₁ ∧
      Chain (Router.GivesBack s.isOpen p) (s.router.stack p) { r₁ with inService := setAt r₁.inService p [] } r₂ ∧
      r' =
        { r₂ with
          settings := setAt r₂.settings p { mask := 0, autoDone := false, alertOnResponse := false }, back := back } ∧
      exec (.teardown p) s = .next { s.afterTaking .router p rest with router := r' } ∧
      back[p] = s.router.back[p] ++
        [.alert { fetchable := false, alertOnResponse := false, queueLength := 0, stackDepth := 0 }, .completion] ∧
      (∀ q : Port, q ≠ p → back[q] = s.router.back[q] ++ s.router.reofferReports r' q) ∧
      r'.queue p = [] ∧ r'.stack p = [] ∧ r'.poolExhausted = s.router.poolExhausted ∧ r'.PoolLaw ∧
      (∀ h x, s.router.notice h = some x → x.offer = .broadcast → h ∈ s.router.queue p ∨ h ∈ s.router.stack p →
        r'.notice h = none) ∧
      ∀ q, q ≠ p → (s.router.queue q).Sublist (r'.queue q) ∧ r'.stack q = s.router.stack q ∧
        r'.setting q = s.router.setting q

/-! ### Sessions and port status -/

/-- R134, R137, R138, R155: an OPEN frame opens a CLOSED port with no teardown pending under its next epoch, is answered
ALREADY_OPEN by an OPEN one, and waits while teardowns are pending. R139, R142: a CLOSE frame with the epoch of an OPEN session ends
the session, sends its end on all four paths, and is answered. That OPEN and CLOSE are the end of the request frame is log entry 3 (a
DESIGN CHOICE), and the mark that a waiting OPEN takes is log entry 11 (a DESIGN CHOICE). -/
def Obligations.OpenAndClose : Prop :=
  (∀ (s : State) (p : Port) (e q : Byte), (s.port p).Framed 0x01 e q [] →
    exec (.requestFrame p) s = exec (.openSession p) s ∧
    ((s.port p).session = .opened →
      ∃ v, exec (.openSession p) s = .next (s.setPort p v) ∧
        v = { s.port p with
          link := .discard, refusedFlag := false, checkFlag := false,
          response := some { code := 0x01, outcome := .alreadyOpen, sequence := q, payload := [(s.port p).epoch] },
          alertLine := v.alertLine } ∧ v.AlertLaw) ∧
    (∀ e', (s.port p).session = .closed → (s.port p).pendingTeardowns = 0 →
      e' = (if (s.port p).epoch = 255 then 1 else (s.port p).epoch + 1) →
      ∃ v, exec (.openSession p) s = .next (s.setPort p v) ∧
        v = { s.port p with
          session := .opened, epoch := e', link := .discard, refusedFlag := false, checkFlag := false,
          response := some { code := 0x01, outcome := .ok, sequence := q, payload := [e'] },
          alertLine := v.alertLine } ∧ v.AlertLaw) ∧
    ((s.port p).session = .closed → 0 < (s.port p).pendingTeardowns →
      exec (.openSession p) s = .next (s.setPort p
        { s.port p with
          link := .discard, refusedFlag := false, checkFlag := false,
          executing := some { mark := (s.port p).nextMark, code := 0x01, sequence := q, work := .waitingOpen },
          nextMark := (s.port p).nextMark + 1 }))) ∧
  ∀ (s : State) (p : Port) (e q : Byte), (s.port p).Framed 0x02 e q [] → (s.port p).session = .opened →
    (s.port p).epoch = e →
    exec (.requestFrame p) s = exec (.closeSession p) s ∧
    exec (.closeSession p) s = .next (s.setPort p
      { s.port p with
        session := .closed, pendingTeardowns := 4, link := .discard, refusedFlag := false, checkFlag := false,
        response := some { code := 0x02, outcome := .ok, sequence := q, payload := [e] }, alertLine := false,
        toTimebase := (s.port p).toTimebase ++ [.sessionEnd e], toCalendar := (s.port p).toCalendar ++ [.sessionEnd e],
        toRouter := (s.port p).toRouter ++ [.sessionEnd e], toLine := (s.port p).toLine ++ [.sessionEnd e] })

/-- R140, R141: a PORT_STATUS frame takes the Port Unit's own part, clears the counters if asked, and sends the other parts. That
PORT_STATUS is the end of the request frame is log entry 3 (a DESIGN CHOICE), and the mark it takes is log entry 11 (a DESIGN CHOICE). -/
def Obligations.PortStatus : Prop :=
  ∀ (s : State) (p : Port) (e q flags : Byte), (s.port p).Framed 0x03 e q [flags] →
    exec (.requestFrame p) s = exec (.portStatus p) s ∧
    ∃ v, exec (.portStatus p) s = .next (s.setPort p v) ∧
      v = { s.port p with
        link := .discard, refusedFlag := false, checkFlag := false,
        refused := if flags.getLsbD 0 then 0 else (s.port p).refused,
        checkFailures := if flags.getLsbD 0 then 0 else (s.port p).checkFailures,
        badFrames := if flags.getLsbD 0 then 0 else (s.port p).badFrames,
        lostNotices := if flags.getLsbD 0 then 0 else (s.port p).lostNotices,
        lostFlag := if flags.getLsbD 0 then false else (s.port p).lostFlag,
        executing := some
          { mark := (s.port p).nextMark, code := 0x03, sequence := q,
            work := .gathering
              { session :=
                  { isOpen := decide ((s.port p).session = .opened), epoch := (s.port p).epoch, refused := (s.port p).refused,
                    checkFailures := (s.port p).checkFailures, badFrames := (s.port p).badFrames,
                    lostNotices := (s.port p).lostNotices, lostFlag := (s.port p).lostFlag },
                authority := none, slots := none, lines := none, notices := none } },
        nextMark := (s.port p).nextMark + 1,
        toTimebase := (s.port p).toTimebase ++ [.part (s.port p).nextMark],
        toCalendar := (s.port p).toCalendar ++ [.part (s.port p).nextMark],
        toRouter := (s.port p).toRouter ++ [.part (s.port p).nextMark],
        toLine := (s.port p).toLine ++ [.part (s.port p).nextMark] }

/-- R94, R108, R140: what each block reports as its part of p's PORT_STATUS, in either session state. R140, R143, R155: a returned
part of the PORT_STATUS that is executing is kept; the last of the four makes the response READY; a part of any other request is
discarded. -/
def Obligations.PortStatusParts : Prop :=
  (∀ (s : State) (p : Port) (b : Block) (m : Nat) (rest : List ToBlock),
    (s.port p).path b = .part m :: rest → (b = .calendar → s.calendar.busy = .free) →
    ∃ report, exec (.portStatusPart p b) s =
        .next ((s.afterTaking b p rest).setBack b p (s.back b p ++ [.part m report])) ∧
      (b = .timebase → report = .authority (decide (s.timebase.authority = some p))) ∧
      (b = .calendar → report = .slots
        ((List.finRange 64).filter fun n => decide ((s.calendar.slot n).owner = some p)).length) ∧
      (b = .line → ∃ set, report = .lines set ∧
        ∀ i : LineNo, set.getLsbD i.val = decide ((s.lines.record i).owner = some p)) ∧
      (b = .router → report = .notices
        { queueLength := (s.router.queue p).length, stackDepth := (s.router.stack p).length, settings := s.router.setting p,
          freeRecords := ((List.finRange 64).filter fun h => (s.router.notice h).isNone).length,
          poolExhausted := s.router.poolExhausted })) ∧
  ∀ (s : State) (p : Port) (b : Block) (m : Nat) (report : PartReport) (rest : List FromBlock),
    s.back b p = .part m report :: rest →
    ((∀ x, (s.port p).executing = some x → x.mark ≠ m) →
      exec (.portStatusPartReturn p b) s = .next (s.setBack b p rest)) ∧
    ∀ x g g', (s.port p).executing = some x → x.mark = m → x.work = .gathering g →
      g' = (match report with
        | .authority a => { g with authority := some a }
        | .slots n => { g with slots := some n }
        | .lines l => { g with lines := some l }
        | .notices r => { g with notices := some r }) →
      (g'.authority = none ∨ g'.slots = none ∨ g'.lines = none ∨ g'.notices = none →
        exec (.portStatusPartReturn p b) s = .next ((s.setBack b p rest).setPort p
          { s.port p with executing := some { x with work := .gathering g' } })) ∧
      ∀ a n l r, g'.authority = some a → g'.slots = some n → g'.lines = some l → g'.notices = some r →
        ∃ v, exec (.portStatusPartReturn p b) s = .next ((s.setBack b p rest).setPort p v) ∧
          v = { s.port p with
            executing := none,
            response := some
              { code := x.code, outcome := .ok, sequence := x.sequence,
                payload := (Payload.portStatus g.session a n l r).bytes },
            alertLine := v.alertLine } ∧ v.AlertLaw

/-- R138, R142, R143, R155, R157, R159: what a Port Unit does with a completion, an outcome, a lost-notice report and an alert report
at the head of a path back. -/
def Obligations.MessagesAtThePortUnit : Prop :=
  ∀ (s : State) (p : Port) (b : Block) (rest : List FromBlock),
    (s.back b p = .completion :: rest →
      (2 ≤ (s.port p).pendingTeardowns ∨ (∀ x, (s.port p).executing = some x → x.work ≠ .waitingOpen) →
        exec (.completion p b) s = .next ((s.setBack b p rest).setPort p
          { s.port p with pendingTeardowns := (s.port p).pendingTeardowns - 1 })) ∧
      ∀ x e', (s.port p).pendingTeardowns = 1 → (s.port p).executing = some x → x.work = .waitingOpen →
        e' = (if (s.port p).epoch = 255 then 1 else (s.port p).epoch + 1) →
        ∃ v, exec (.completion p b) s = .next ((s.setBack b p rest).setPort p v) ∧
          v = { s.port p with
            pendingTeardowns := 0, session := .opened, epoch := e', executing := none,
            response := some { code := x.code, outcome := .ok, sequence := x.sequence, payload := [e'] },
            alertLine := v.alertLine } ∧ v.AlertLaw) ∧
    (∀ m reply, s.back b p = .outcome m reply :: rest →
      ((∀ x, (s.port p).executing = some x → x.mark ≠ m ∨ x.work ≠ .atBlock) →
        exec (.blockOutcome p b) s = .next (s.setBack b p rest)) ∧
      ∀ x, (s.port p).executing = some x → x.mark = m → x.work = .atBlock →
        ∃ v, exec (.blockOutcome p b) s = .next ((s.setBack b p rest).setPort p v) ∧
          v = { s.port p with
            executing := none,
            response := some
              { code := x.code, outcome := reply.outcome, sequence := x.sequence, payload := reply.payload.bytes },
            alertLine := v.alertLine } ∧ v.AlertLaw) ∧
    (s.back .router p = .lostNotice :: rest →
      exec (.lostNoticeReport p) s = .next ((s.setBack .router p rest).setPort p
        { s.port p with
          lostFlag := true, lostNotices := BitVec.ofNat 16 (min ((s.port p).lostNotices.toNat + 1) 65535) })) ∧
    (∀ report, s.back .router p = .alert report :: rest →
      ∃ v, exec (.alertReport p) s = .next ((s.setBack .router p rest).setPort p v) ∧
        v = { s.port p with alertReport := report, alertLine := v.alertLine } ∧ v.AlertLaw)

/-! ### The link -/

/-- R147, R148, R156, R160: PDO is driven in a transaction outside resets, and carries the next byte to be shifted out, 0x00 after the
last. R148, R149, R164: the fall of PSELn takes the header snapshot, laid out bit by bit, with no epoch in it (log entry 27, a DESIGN
CHOICE). -/
def Obligations.StatusHeader : Prop :=
  (∀ (s : State) (p : Port),
    (s.inReset = true ∨ (s.port p).prstLow = true ∨ (s.port p).link = .idle → s.pdo p = none) ∧
    (s.inReset = false → (s.port p).prstLow = false → (s.port p).link ≠ .idle →
      ((s.port p).out = [] → s.pdo p = some 0) ∧ ∀ b l, (s.port p).out = b :: l → s.pdo p = some b)) ∧
  ∀ (s : State) (p : Port), s.inReset = false → (s.port p).prstLow = false → (s.port p).link = .idle →
    (s.port p).alertReport.queueLength ≤ 16 → (s.port p).alertReport.stackDepth ≤ 4 →
    ∃ b₀ b₁ : Byte, exec (.statusHeader p) s = .next (s.setPort p
        { s.port p with
          link := .header, buffer := [], out := [b₀, b₁], shownReady := (s.port p).response.isSome }) ∧
      b₀.getLsbD 0 = decide ((s.port p).session = .opened) ∧ b₀.getLsbD 1 = (s.port p).response.isSome ∧
      b₀.getLsbD 2 = (s.port p).executing.isSome ∧ b₀.getLsbD 3 = (s.port p).refusedFlag ∧
      b₀.getLsbD 4 = (s.port p).lostFlag ∧ b₀.getLsbD 5 = (s.port p).checkFlag ∧
      b₀.getLsbD 6 = (s.port p).alertLine ∧ b₀.getLsbD 7 = false ∧
      (b₁.extractLsb' 3 5).toNat = (s.port p).alertReport.queueLength ∧
      (b₁.extractLsb' 0 3).toNat = (s.port p).alertReport.stackDepth

/-- R147, R148, R151, R152, R156: bytes of a request frame are stored; a first byte of 0x00 begins a response read, which shifts out the
response that the header showed or else the empty frame; its last byte consumes the response; every other byte of a read, and every
byte after the end of a frame, is passed over. That RESPONSE_CONSUMED may be taken at any byte of a read, and passes over the bytes left,
is log entry 10 (a DESIGN CHOICE): R156 consumes at the last bit of the check byte. The end of a transaction ends a frame under way, as a REQUEST_FRAME would (log entry 10,
a DESIGN CHOICE, for a frame that was whole before), and returns the link to IDLE; a frame cut short is answered BAD_FRAME, or refused
while a holder is busy. -/
def Obligations.LinkTransaction : Prop :=
  ∀ (s : State) (p : Port) (b : Byte),
    ((s.port p).link = .header → b ≠ 0 →
      exec (.requestByteReceived p b) s = .next (s.setPort p
        { s.port p with link := .request, buffer := [b], out := (s.port p).out.tail })) ∧
    ((s.port p).link = .request →
      FrameGrowing (s.port p).buffer →
      exec (.requestByteReceived p b) s = .next (s.setPort p
        { s.port p with buffer := (s.port p).buffer ++ [b], out := (s.port p).out.tail })) ∧
    ((s.port p).link = .header →
      exec (.requestByteReceived p 0) s = exec (.responseRead p) s ∧
      exec (.responseRead p) s = .next (s.setPort p
        { s.port p with
          link := .read,
          out := (s.port p).out.tail ++ (match (s.port p).shownReady, (s.port p).response with
            | true, some f => f.bytes
            | _, _ => withCheck [0x00, 0x03, 0x00, 0x00]) })) ∧
    ((s.port p).link = .read → (s.port p).shownReady = true →
      ∃ v, exec (.responseConsumed p) s = .next (s.setPort p v) ∧
        v = { s.port p with response := none, out := [], shownReady := false, alertLine := v.alertLine } ∧ v.AlertLaw ∧
        ((s.port p).out.length = 1 → exec (.requestByteReceived p b) s = exec (.responseConsumed p) s)) ∧
    ((s.port p).link = .discard ∨
        ((s.port p).link = .read ∧ ((s.port p).shownReady = false ∨ (s.port p).out.length ≠ 1)) →
      exec (.requestByteReceived p b) s = .next (s.setPort p { s.port p with out := (s.port p).out.tail })) ∧
    ((s.port p).link ≠ .request →
      exec (.transactionEnd p) s = .next (s.setPort p
        { s.port p with link := .idle, buffer := [], out := [], shownReady := false })) ∧
    ((s.port p).link = .request →
      (∃ v, exec (.requestFrame p) s = .next (s.setPort p v) ∧
        exec (.transactionEnd p) s = .next (s.setPort p
          { v with link := .idle, buffer := [], out := [], shownReady := false })) ∧
      (FrameGrowing (s.port p).buffer → (s.port p).executing = none → (s.port p).response = none →
        ∃ v, exec (.transactionEnd p) s = .next (s.setPort p v) ∧
          v = { s.port p with
            link := .idle, buffer := [], out := [], shownReady := false, refusedFlag := false,
            badFrames := BitVec.ofNat 16 (min ((s.port p).badFrames.toNat + 1) 65535),
            response := some
              { code := ((s.port p).buffer[0]?).getD 0, outcome := .badFrame,
                sequence := ((s.port p).buffer[2]?).getD 0, payload := [] },
            alertLine := v.alertLine } ∧ v.AlertLaw) ∧
      (FrameGrowing (s.port p).buffer → (s.port p).executing ≠ none ∨ (s.port p).response ≠ none →
        exec (.transactionEnd p) s = .next (s.setPort p
          { s.port p with
            link := .idle, buffer := [], out := [], shownReady := false, refusedFlag := true,
            refused := BitVec.ofNat 16 (min ((s.port p).refused.toNat + 1) 65535) })))

/-- R152, R153, R154, R135, R136: the judgement of a request frame: refused while a holder is busy, answered by the link checks or
the session checks, or passed on. A frame that is whole or overlong leaves the link in DISCARD; one that ends still growing ends with
its transaction, which leaves it in IDLE. That REQUEST_FRAME is a step of its own after the frame's last byte is log entry 10 (a DESIGN
CHOICE), and the mark that a request passed on takes is log entry 11 (a DESIGN CHOICE). -/
def Obligations.RequestFrame : Prop :=
  ∀ (s : State) (p : Port),
    ((s.port p).link = .request → (s.port p).executing ≠ none ∨ (s.port p).response ≠ none →
      ∀ v, v = { s.port p with
          refusedFlag := true, refused := BitVec.ofNat 16 (min ((s.port p).refused.toNat + 1) 65535) } →
        (¬ FrameGrowing (s.port p).buffer →
          exec (.requestFrame p) s = .next (s.setPort p { v with link := .discard })) ∧
        (FrameGrowing (s.port p).buffer →
          exec (.requestFrame p) s = .next (s.setPort p
            { v with link := .idle, buffer := [], out := [], shownReady := false }))) ∧
    (∀ (link : LinkState) (buffer out : List Byte) (shown : Bool), (s.port p).link = .request →
      (s.port p).executing = none → (s.port p).response = none →
      (FrameOverlong (s.port p).buffer ∧ link = .discard ∧ buffer = (s.port p).buffer ∧ out = (s.port p).out ∧
          shown = (s.port p).shownReady) ∨
        (FrameGrowing (s.port p).buffer ∧ link = .idle ∧ buffer = [] ∧ out = [] ∧ shown = false) →
      ∃ v, exec (.requestFrame p) s = .next (s.setPort p v) ∧
        v = { s.port p with
          link := link, buffer := buffer, out := out, shownReady := shown, refusedFlag := false,
          badFrames := BitVec.ofNat 16 (min ((s.port p).badFrames.toNat + 1) 65535),
          response := some
            { code := ((s.port p).buffer[0]?).getD 0, outcome := .badFrame, sequence := ((s.port p).buffer[2]?).getD 0,
              payload := [] },
          alertLine := v.alertLine } ∧ v.AlertLaw) ∧
    (∀ (code e q check : Byte) (payload : List Byte), (s.port p).link = .request → (s.port p).executing = none →
      (s.port p).response = none → payload.length ≤ 40 →
      (s.port p).buffer = [code, e, q, BitVec.ofNat 8 payload.length] ++ payload ++ [check] →
      check ≠ checkByte ([code, e, q, BitVec.ofNat 8 payload.length] ++ payload) →
      ∃ v, exec (.requestFrame p) s = .next (s.setPort p v) ∧
        v = { s.port p with
          link := .discard, refusedFlag := false, checkFlag := true,
          checkFailures := BitVec.ofNat 16 (min ((s.port p).checkFailures.toNat + 1) 65535),
          response := some { code := code, outcome := .checkFail, sequence := q, payload := [] },
          alertLine := v.alertLine } ∧ v.AlertLaw) ∧
    (∀ (code e q : Byte) (payload : List Byte) (o : OutcomeCode), (s.port p).Framed code e q payload →
      (Command.ofCode code = none ∧ o = .unknownCommand) ∨
      (∃ c, Command.ofCode code = some c ∧ payload.length ≠ c.payloadLength ∧ o = .badField) ∨
      (∃ c, Command.ofCode code = some c ∧ payload.length = c.payloadLength ∧ c ≠ .openSession ∧ c ≠ .portStatus ∧
        (((s.port p).session = .closed ∧ o = .notOpen) ∨
          ((s.port p).session = .opened ∧ (s.port p).epoch ≠ e ∧ o = .staleSession))) →
      ∃ v, exec (.requestFrame p) s = .next (s.setPort p v) ∧
        v = { s.port p with
          link := .discard, refusedFlag := false, checkFlag := false,
          response := some { code := code, outcome := o, sequence := q, payload := [] }, alertLine := v.alertLine } ∧
        v.AlertLaw) ∧
    ∀ (code e q : Byte) (payload : List Byte) (c : Command) (b : Block) (r : Request), (s.port p).Framed code e q payload →
      Command.ofCode code = some c → payload.length = c.payloadLength → c.request payload = some (b, r) →
      (s.port p).session = .opened → (s.port p).epoch = e →
      exec (.requestFrame p) s = .next (s.setPort p (PortUnit.send
        { s.port p with
          link := .discard, refusedFlag := false, checkFlag := false,
          executing := some { mark := (s.port p).nextMark, code := code, sequence := q, work := .atBlock },
          nextMark := (s.port p).nextMark + 1 } b (.request (s.port p).nextMark e r)))

/-- R150: computed over a whole frame, its check byte included, the check is 0 exactly when the frame passes. -/
def Obligations.CheckOverWholeFrame : Prop :=
  ∀ (l : List Byte) (check : Byte), checkByte (l ++ [check]) = 0 ↔ check = checkByte l

/-- R163, R166, R167: the configuration bytes that a SLOT_QUERY response carries, sent behind any slot handle, are read back as the
same configuration. -/
def Obligations.ConfigurationRoundTrip : Prop :=
  ∀ (c : SlotConfig) (h₀ h₁ h₂ : Byte), c.Legal →
    (configFields ([h₀, h₁, h₂] ++ c.bytes)).Means c ∧ (configFields ([h₀, h₁, h₂] ++ c.bytes)).decode = some c

/-! ### Laws that every step keeps -/

/-- R129, R134, R138, R155, R159: for every port, ALERT stands as its condition says and the holders keep to their states, after every
step from a state in which they do. R39, R131 to R133, R138, R142: so is it with the teardowns: what blocks still hold for a port
whose session is CLOSED, the messages on their way, and that a fire request hangs on its slot's owner only until the Calendar takes the
end of that session (log entry 24, a DESIGN CHOICE).
R160: and with the links of ports in reset, which are idle. -/
def Obligations.StepKeepsPortLaws : Prop :=
  ∀ s t : State, (∀ p, (s.port p).AlertLaw ∧ (s.port p).HolderLaw) → step s = .next t →
    (∀ p, (t.port p).AlertLaw ∧ (t.port p).HolderLaw) ∧ (s.calendar.SlotLaw → s.TeardownLaw → t.TeardownLaw) ∧
      (s.ResetLinkLaw → t.ResetLinkLaw)

/-- R3, R11 to R13, R16, R76: every step keeps the Timebase in its ranges, and no enabled line holds an edge. -/
def Obligations.StepKeepsTimebaseAndLineLaws : Prop :=
  ∀ s t : State, s.timebase.RangeLaw → (∀ i, (s.lines.record i).HeldLaw) → step s = .next t →
    t.timebase.RangeLaw ∧ ∀ i, (t.lines.record i).HeldLaw

/-- R21, R22, R31, R32, R45, R47, R70: every step keeps the Calendar lawful: the due list lists exactly the RUNNING slots, in the order
of their deadlines relative to now; each slot stands in a state of its mode, with edges left or remaining of 1 or more; and a GATED
slot runs only under an active gate and is paused only under an inactive one. R40, R55, R59: fire requests on their way carry a
weight of 1 or more, a target if not ORPHANED, and 1 and an ended session if they are (log entry 24, a DESIGN CHOICE). -/
def Obligations.StepKeepsCalendarLaws : Prop :=
  ∀ s t : State, s.calendar.Lawful → step s = .next t → t.calendar.Lawful

/-- R2, R4, R5, R11, R16, R44, R71: from a lawful Calendar every step keeps the deliveries on their path in line between the
Timebase's time and the Calendar's, every RETRIGGER and GATED deadline 1 to 2^46 - 1 ticks ahead of now between deliveries, and
every PAUSED slot at 2^46 - 1 ticks remaining at most. -/
def Obligations.StepKeepsHorizonLaws : Prop :=
  ∀ s t : State, s.calendar.Lawful → s.TimeLaw → s.calendar.HorizonLaw → step s = .next t →
    t.TimeLaw ∧ t.calendar.HorizonLaw

/-- R94 to R97, R116, R159: every step keeps the Notice Router lawful: sizes, the pool (a record in use is listed or held and never
both), and the order of queues and stacks; and with it the sizes in every alert report that a Port Unit holds or that is on its way
to one. -/
def Obligations.StepKeepsRouterLaws : Prop :=
  ∀ s t : State, s.router.Lawful → step s = .next t → t.router.Lawful ∧ (s.ReportLaw → t.ReportLaw)

/-- The laws hold after power-on. -/
def Obligations.LawsHoldAtPowerOn : Prop :=
  (∀ p, (State.reset.port p).AlertLaw ∧ (State.reset.port p).HolderLaw) ∧ State.reset.TeardownLaw ∧ State.reset.ResetLinkLaw ∧
    State.reset.timebase.RangeLaw ∧
    (∀ i, (State.reset.lines.record i).HeldLaw) ∧ State.reset.calendar.Lawful ∧ State.reset.TimeLaw ∧ State.reset.calendar.HorizonLaw ∧
    State.reset.router.Lawful ∧ State.reset.ReportLaw
end

