-- ==== Sys2Proof/Laws/State.lean ====
section
/-! SUPPORT. One lemma per field per update of the state, its Port Units, paths, slots, records and tables. -/

namespace Sys2Proof.Machine

/-! ### Tables -/

@[simp] theorem fin_val_eq_iff {n : Nat} (i j : Fin n) : i.val = j.val ↔ i = j := Fin.ext_iff.symm

@[simp] theorem tabulate_getElem {α : Type} {n : Nat} (f : Fin n → α) (i : Nat) (h : i < n) :
    (tabulate n f)[i] = f ⟨i, h⟩ := by
  simp [tabulate]

@[simp] theorem setAt_getElem {α : Type} {n : Nat} (v : Vector α n) (i : Fin n) (x : α) (j : Nat) (h : j < n) :
    (setAt v i x)[j] = if j = i.val then x else v[j] := by
  simp [setAt, Vector.getElem_set, eq_comm]

theorem tabulate_get {α : Type} {n : Nat} (f : Fin n → α) (i : Fin n) : (tabulate n f)[i] = f i := by simp

theorem setAt_get {α : Type} {n : Nat} (v : Vector α n) (i j : Fin n) (x : α) :
    (setAt v i x)[j] = if j = i then x else v[j] := by simp

theorem vector_ext_fin {α : Type} {n : Nat} {v w : Vector α n} (h : ∀ i : Fin n, v[i] = w[i]) : v = w := by
  apply Vector.ext
  intro i hi
  exact h ⟨i, hi⟩

@[simp] theorem setAt_setAt {α : Type} {n : Nat} (v : Vector α n) (i : Fin n) (x y : α) :
    setAt (setAt v i x) i y = setAt v i y := by
  apply vector_ext_fin
  intro j
  by_cases h : j = i <;> simp [h]

@[simp] theorem setAt_get_self {α : Type} {n : Nat} (v : Vector α n) (i : Fin n) : setAt v i v[i.val] = v := by
  apply vector_ext_fin
  intro j
  by_cases h : j = i <;> simp [h]

theorem indexOf_eq_some {n : Nat} {b : Byte} {i : Fin n} (h : b.toNat = i.val) : indexOf n b = some i := by
  have hi := i.isLt
  rw [← h] at hi
  simp [indexOf, h]

theorem indexOf_eq_none {n : Nat} {b : Byte} (h : n ≤ b.toNat) : indexOf n b = none := by
  simp [indexOf, Nat.not_lt.mpr h]

/-! ### Port Units in the state -/

@[simp] theorem setPort_port (s : State) (p q : Port) (u : PortUnit) :
    (s.setPort p u).port q = if q = p then u else s.port q := by
  simp [State.setPort, State.port]

@[simp] theorem setPort_timebase (s : State) (p : Port) (u : PortUnit) : (s.setPort p u).timebase = s.timebase := rfl
@[simp] theorem setPort_calendar (s : State) (p : Port) (u : PortUnit) : (s.setPort p u).calendar = s.calendar := rfl
@[simp] theorem setPort_router (s : State) (p : Port) (u : PortUnit) : (s.setPort p u).router = s.router := rfl
@[simp] theorem setPort_lines (s : State) (p : Port) (u : PortUnit) : (s.setPort p u).lines = s.lines := rfl
@[simp] theorem setPort_pins (s : State) (p : Port) (u : PortUnit) : (s.setPort p u).pins = s.pins := rfl
@[simp] theorem setPort_rstnLows (s : State) (p : Port) (u : PortUnit) : (s.setPort p u).rstnLows = s.rstnLows := rfl
@[simp] theorem setPort_inReset (s : State) (p : Port) (u : PortUnit) : (s.setPort p u).inReset = s.inReset := rfl
@[simp] theorem setPort_pending (s : State) (p : Port) (u : PortUnit) : (s.setPort p u).pending = s.pending := rfl

@[simp] theorem setPort_setPort (s : State) (p : Port) (u v : PortUnit) : (s.setPort p u).setPort p v = s.setPort p v := by
  simp [State.setPort]

@[simp] theorem setPort_self (s : State) (p : Port) : s.setPort p (s.port p) = s := by
  cases s
  simp [State.setPort, State.port]

/-! ### Paths of a Port Unit -/

@[simp] theorem setPath_session (u : PortUnit) (b : Block) (l : List ToBlock) : (u.setPath b l).session = u.session := by
  cases b <;> rfl
@[simp] theorem setPath_epoch (u : PortUnit) (b : Block) (l : List ToBlock) : (u.setPath b l).epoch = u.epoch := by
  cases b <;> rfl
@[simp] theorem setPath_pendingTeardowns (u : PortUnit) (b : Block) (l : List ToBlock) :
    (u.setPath b l).pendingTeardowns = u.pendingTeardowns := by cases b <;> rfl
@[simp] theorem setPath_executing (u : PortUnit) (b : Block) (l : List ToBlock) : (u.setPath b l).executing = u.executing := by
  cases b <;> rfl
@[simp] theorem setPath_response (u : PortUnit) (b : Block) (l : List ToBlock) : (u.setPath b l).response = u.response := by
  cases b <;> rfl
@[simp] theorem setPath_alertReport (u : PortUnit) (b : Block) (l : List ToBlock) :
    (u.setPath b l).alertReport = u.alertReport := by cases b <;> rfl
@[simp] theorem setPath_alertLine (u : PortUnit) (b : Block) (l : List ToBlock) : (u.setPath b l).alertLine = u.alertLine := by
  cases b <;> rfl

@[simp] theorem setPath_path (u : PortUnit) (b c : Block) (l : List ToBlock) :
    (u.setPath b l).path c = if c = b then l else u.path c := by
  cases b <;> cases c <;> rfl

@[simp] theorem send_path (u : PortUnit) (b c : Block) (m : ToBlock) :
    (u.send b m).path c = if c = b then u.path b ++ [m] else u.path c := by
  simp [PortUnit.send]

/-- What `sendAll` does: the message stands at the end of all four paths. -/
theorem sendAll_eq (u : PortUnit) (m : ToBlock) :
    u.sendAll m =
      { u with
        toTimebase := u.toTimebase ++ [m], toCalendar := u.toCalendar ++ [m], toRouter := u.toRouter ++ [m],
        toLine := u.toLine ++ [m] } := rfl

/-! ### Paths back -/

@[simp] theorem setBack_back (s : State) (b c : Block) (p q : Port) (l : List FromBlock) :
    (s.setBack b p l).back c q = if c = b ∧ q = p then l else s.back c q := by
  cases b <;> cases c <;> simp [State.setBack, State.back]

@[simp] theorem setBack_port (s : State) (b : Block) (p q : Port) (l : List FromBlock) :
    (s.setBack b p l).port q = s.port q := by cases b <;> rfl
@[simp] theorem setBack_pins (s : State) (b : Block) (p : Port) (l : List FromBlock) : (s.setBack b p l).pins = s.pins := by
  cases b <;> rfl
@[simp] theorem setBack_rstnLows (s : State) (b : Block) (p : Port) (l : List FromBlock) :
    (s.setBack b p l).rstnLows = s.rstnLows := by cases b <;> rfl
@[simp] theorem setBack_inReset (s : State) (b : Block) (p : Port) (l : List FromBlock) :
    (s.setBack b p l).inReset = s.inReset := by simp [State.inReset]
@[simp] theorem setBack_pending (s : State) (b : Block) (p : Port) (l : List FromBlock) :
    (s.setBack b p l).pending = s.pending := by cases b <;> rfl

/-- A path back replaced leaves the Calendar's own state as it was. -/
theorem setBack_calendar (s : State) (b : Block) (p : Port) (l : List FromBlock) :
    (s.setBack b p l).calendar = { s.calendar with back := (s.setBack b p l).calendar.back } := by cases b <;> rfl

/-- A path back replaced leaves the Router's own state as it was. -/
theorem setBack_router (s : State) (b : Block) (p : Port) (l : List FromBlock) :
    (s.setBack b p l).router = { s.router with back := (s.setBack b p l).router.back } := by cases b <;> rfl

/-- A path back replaced leaves the Timebase's own state as it was. -/
theorem setBack_timebase (s : State) (b : Block) (p : Port) (l : List FromBlock) :
    (s.setBack b p l).timebase = { s.timebase with back := (s.setBack b p l).timebase.back } := by cases b <;> rfl

/-- A path back replaced leaves the Line Unit's own state as it was. -/
theorem setBack_lines (s : State) (b : Block) (p : Port) (l : List FromBlock) :
    (s.setBack b p l).lines = { s.lines with back := (s.setBack b p l).lines.back } := by cases b <;> rfl

@[simp] theorem sendBack_get (back : Vector (List FromBlock) 4) (p q : Port) (m : FromBlock) :
    (sendBack back p m)[q] = if q = p then back[p] ++ [m] else back[q] := by simp [sendBack]

/-! ### Records of the blocks -/

@[simp] theorem setSlot_slot (c : Calendar) (n m : SlotNo) (x : Slot) :
    (c.setSlot n x).slot m = if m = n then x else c.slot m := by simp [Calendar.setSlot, Calendar.slot]

@[simp] theorem setRecord_record (l : LineUnit) (e i : LineNo) (x : LineRecord) :
    (l.setRecord e x).record i = if i = e then x else l.record i := by simp [LineUnit.setRecord, LineUnit.record]

@[simp] theorem pin_setRecord_record (u : PinUnit) (o i : PinNo) (x : PinRecord) :
    (u.setRecord o x).record i = if i = o then x else u.record i := by simp [PinUnit.setRecord, PinUnit.record]

@[simp] theorem setNotice_notice (r : Router) (h k : Handle) (x : Option Notice) :
    (r.setNotice h x).notice k = if k = h then x else r.notice k := by simp [Router.setNotice, Router.notice]
@[simp] theorem setNotice_queue (r : Router) (h : Handle) (x : Option Notice) (p : Port) :
    (r.setNotice h x).queue p = r.queue p := rfl
@[simp] theorem setNotice_stack (r : Router) (h : Handle) (x : Option Notice) (p : Port) :
    (r.setNotice h x).stack p = r.stack p := rfl
@[simp] theorem setNotice_setting (r : Router) (h : Handle) (x : Option Notice) (p : Port) :
    (r.setNotice h x).setting p = r.setting p := rfl

@[simp] theorem setQueue_queue (r : Router) (p q : Port) (l : List Handle) :
    (r.setQueue p l).queue q = if q = p then l else r.queue q := by simp [Router.setQueue, Router.queue]
@[simp] theorem setQueue_notice (r : Router) (p : Port) (l : List Handle) (h : Handle) :
    (r.setQueue p l).notice h = r.notice h := rfl
@[simp] theorem setQueue_stack (r : Router) (p q : Port) (l : List Handle) : (r.setQueue p l).stack q = r.stack q := rfl
@[simp] theorem setQueue_setting (r : Router) (p q : Port) (l : List Handle) : (r.setQueue p l).setting q = r.setting q := rfl

@[simp] theorem setStack_stack (r : Router) (p q : Port) (l : List Handle) :
    (r.setStack p l).stack q = if q = p then l else r.stack q := by simp [Router.setStack, Router.stack]
@[simp] theorem setStack_notice (r : Router) (p : Port) (l : List Handle) (h : Handle) :
    (r.setStack p l).notice h = r.notice h := rfl
@[simp] theorem setStack_queue (r : Router) (p q : Port) (l : List Handle) : (r.setStack p l).queue q = r.queue q := rfl
@[simp] theorem setStack_setting (r : Router) (p q : Port) (l : List Handle) : (r.setStack p l).setting q = r.setting q := rfl

@[simp] theorem setSetting_setting (r : Router) (p q : Port) (x : ServiceSettings) :
    (r.setSetting p x).setting q = if q = p then x else r.setting q := by simp [Router.setSetting, Router.setting]
@[simp] theorem setSetting_notice (r : Router) (p : Port) (x : ServiceSettings) (h : Handle) :
    (r.setSetting p x).notice h = r.notice h := rfl
@[simp] theorem setSetting_queue (r : Router) (p q : Port) (x : ServiceSettings) :
    (r.setSetting p x).queue q = r.queue q := rfl
@[simp] theorem setSetting_stack (r : Router) (p q : Port) (x : ServiceSettings) :
    (r.setSetting p x).stack q = r.stack q := rfl

@[simp] theorem withdrawAll_queue (r : Router) (h : Handle) (p : Port) :
    (r.withdrawAll h).queue p = without h (r.queue p) := by simp [Router.withdrawAll, Router.queue]
@[simp] theorem withdrawAll_notice (r : Router) (h k : Handle) : (r.withdrawAll h).notice k = r.notice k := rfl
@[simp] theorem withdrawAll_stack (r : Router) (h : Handle) (p : Port) : (r.withdrawAll h).stack p = r.stack p := rfl

end Sys2Proof.Machine
end

