-- ==== Sys2Proof/Laws/Requests.lean ====
section
/-! SUPPORT. What taking a request, a session end or a part does: one lemma per shared operation. -/

namespace Sys2Proof.Machine

/-- A request at the head of its path is taken. -/
theorem takeRequest_of_heads {s : State} {p : Port} {m : Nat} {e : Byte} {r : Request} {rest : List ToBlock}
    (h : s.heads p m e r rest) :
    s.takeRequest r.block p = some { mark := m, epoch := e, request := r, rest := s.afterTaking r.block p rest } := by
  unfold State.heads at h
  simp [State.takeRequest, h, State.afterTaking]

theorem sessionIs_iff (s : State) (p : Port) (e : Byte) :
    s.sessionIs p e = true ↔ (s.port p).session = .opened ∧ (s.port p).epoch = e := by
  simp [State.sessionIs, State.isOpen]

/-- A request that is the one commanded is carried out by the Timebase if its session is OPEN with its epoch, and refused
otherwise. -/
theorem serveTimebase_of_heads {s : State} {p : Port} {m : Nat} {e : Byte} {r : Request} {rest : List ToBlock}
    (h : s.heads p m e r rest) (hb : r.block = .timebase) {act : Request → Option (Timebase → Timebase × Reply)}
    {f : Timebase → Timebase × Reply} (ha : act r = some f) :
    s.serveTimebase p act =
      if s.sessionIs p e then
        .next { s.afterTaking .timebase p rest with
          timebase := (f s.timebase).1.send p (.outcome m (f s.timebase).2) }
      else .next (s.refuses .timebase p m rest .staleSession) := by
  have ht := takeRequest_of_heads h
  rw [hb] at ht
  unfold State.serveTimebase
  by_cases hs : s.sessionIs p e = true
  · simp [ht, ha, hs, State.afterTaking]
  · simp [ht, ha, hs, State.refuses, State.afterTaking, State.setBack, State.back, Reply.bare, Timebase.send, sendBack]

/-- A request that is the one commanded is carried out by the Line Unit if its session is OPEN with its epoch, and refused
otherwise. -/
theorem serveLine_of_heads {s : State} {p : Port} {m : Nat} {e : Byte} {r : Request} {rest : List ToBlock}
    (h : s.heads p m e r rest) (hb : r.block = .line) {act : Request → Option (LineUnit → LineUnit × Reply)}
    {f : LineUnit → LineUnit × Reply} (ha : act r = some f) :
    s.serveLine p act =
      if s.sessionIs p e then
        .next { s.afterTaking .line p rest with lines := (f s.lines).1.send p (.outcome m (f s.lines).2) }
      else .next (s.refuses .line p m rest .staleSession) := by
  have ht := takeRequest_of_heads h
  rw [hb] at ht
  unfold State.serveLine
  by_cases hs : s.sessionIs p e = true
  · simp [ht, ha, hs, State.afterTaking]
  · simp [ht, ha, hs, State.refuses, State.afterTaking, State.setBack, State.back, Reply.bare, LineUnit.send, sendBack]

/-- A request that is the one commanded is carried out by the free Calendar if its session is OPEN with its epoch, and refused
otherwise. -/
theorem serveCalendar_of_heads {s : State} {p : Port} {m : Nat} {e : Byte} {r : Request} {rest : List ToBlock}
    (h : s.heads p m e r rest) (hb : r.block = .calendar) (hf : s.calendar.busy = .free)
    {act : Request → Option (Nat → Calendar → Calendar)} {f : Nat → Calendar → Calendar} (ha : act r = some f) :
    s.serveCalendar p act =
      if s.sessionIs p e then .next { s.afterTaking .calendar p rest with calendar := f m s.calendar }
      else .next (s.refuses .calendar p m rest .staleSession) := by
  have ht := takeRequest_of_heads h
  rw [hb] at ht
  unfold State.serveCalendar
  by_cases hs : s.sessionIs p e = true
  · simp [ht, ha, hs, hf, State.afterTaking]
  · simp [ht, ha, hs, hf, State.refuses, State.afterTaking, State.setBack, State.back, Reply.bare, Calendar.send, sendBack]

/-- An event that changes nothing changes nothing for any port. -/
theorem changedFor_self (folds : Bool) (r : Router) (p : Port) : Router.changedFor folds r r p = false := by
  have h : ((r.queue p).any fun _ => false) = false := by
    rw [List.any_eq_false]
    simp
  simp [Router.changedFor, h]

/-- When nothing of a port changed, no alert report is sent. -/
theorem reportFrom_self (r : Router) (folds : Bool) : Router.reportFrom r folds none r = r := by
  simp [Router.reportFrom, changedFor_self]

/-- A request that is the one commanded is carried out by the Notice Router if its session is OPEN with its epoch, with the alert
reports of the event before its outcome, and refused otherwise. -/
theorem serveRouter_of_heads {s : State} {p : Port} {m : Nat} {e : Byte} {r : Request} {rest : List ToBlock}
    (h : s.heads p m e r rest) (hb : r.block = .router)
    {act : Request → Option ((Port → Bool) → Router → Router × Reply)} {f : (Port → Bool) → Router → Router × Reply}
    (ha : act r = some f) :
    s.serveRouter p act =
      if s.sessionIs p e then
        .next { s.afterTaking .router p rest with
          router := (Router.reportFrom s.router true none (f s.isOpen s.router).1).send p
            (.outcome m (f s.isOpen s.router).2) }
      else .next (s.refuses .router p m rest .staleSession) := by
  have ht := takeRequest_of_heads h
  rw [hb] at ht
  unfold State.serveRouter
  by_cases hs : s.sessionIs p e = true
  · simp [ht, ha, hs, State.afterTaking]
  · simp [ht, ha, hs, State.refuses, State.afterTaking, State.setBack, State.back, Reply.bare, Router.send, sendBack,
      reportFrom_self]

/-- A session end at the head of its path is taken. -/
theorem takeSessionEnd_of_head {s : State} {b : Block} {p : Port} {e : Byte} {rest : List ToBlock}
    (h : (s.port p).path b = .sessionEnd e :: rest) : s.takeSessionEnd b p = some (s.afterTaking b p rest) := by
  simp [State.takeSessionEnd, h, State.afterTaking]

/-- A part of PORT_STATUS at the head of its path is taken. -/
theorem takePart_of_head {s : State} {b : Block} {p : Port} {m : Nat} {rest : List ToBlock}
    (h : (s.port p).path b = .part m :: rest) : s.takePart b p = some (m, s.afterTaking b p rest) := by
  simp [State.takePart, h, State.afterTaking]

end Sys2Proof.Machine
end

