-- ==== Sys2Proof/Laws/Calendar.lean ====
section
/-! SUPPORT. The Calendar's shared operations: what placing, moving and firing a slot do, each as one `Calendar.Becomes`. -/

namespace Sys2Proof.Machine

/-! ### The order of the due list -/

theorem before_iff (c : Calendar) (m n : SlotNo) :
    c.before m n = true ↔ c.position m < c.position n ∨ (c.position m = c.position n ∧ m.val < n.val) := by
  simp [Calendar.before]

theorem before_trans {c : Calendar} {l m n : SlotNo} (h : c.before l m = true) (k : c.before m n = true) :
    c.before l n = true := by
  rw [before_iff] at *
  omega

theorem before_of_not {c : Calendar} {m n : SlotNo} (hne : m ≠ n) (h : ¬ c.before m n = true) : c.before n m = true := by
  rw [before_iff] at *
  have : m.val ≠ n.val := fun hv => hne (Fin.ext hv)
  omega

/-- The position of a slot depends on its record and on now alone. -/
theorem position_congr {c c' : Calendar} {n : SlotNo} (hs : c'.slot n = c.slot n) (hn : c'.now = c.now) :
    c'.position n = c.position n := by
  simp [Calendar.position, hs, hn]

theorem before_congr {c c' : Calendar} {m n : SlotNo} (hm : c'.slot m = c.slot m) (hn : c'.slot n = c.slot n)
    (hnow : c'.now = c.now) : c'.before m n = c.before m n := by
  simp [Calendar.before, position_congr hm hnow, position_congr hn hnow]

/-! ### Placing -/

theorem mem_unlist {n m : SlotNo} {l : List SlotNo} : m ∈ unlist n l ↔ m ∈ l ∧ m ≠ n := by simp [unlist]

theorem unlist_of_not_mem {n : SlotNo} {l : List SlotNo} (h : n ∉ l) : unlist n l = l := by
  rw [unlist, List.filter_eq_self]
  intro m hm
  simp only [ne_eq, decide_not, Bool.not_eq_true', decide_eq_false_iff_not]
  rintro rfl
  exact h hm

theorem mem_place {c : Calendar} {n m : SlotNo} {l : List SlotNo} : m ∈ c.place n l ↔ m = n ∨ m ∈ l := by
  induction l with
  | nil => simp [Calendar.place]
  | cons k l ih =>
    unfold Calendar.place
    split
    · simp
    · simp only [List.mem_cons, ih]
      tauto

theorem nodup_place {c : Calendar} {n : SlotNo} {l : List SlotNo} (hn : n ∉ l) (hl : l.Nodup) : (c.place n l).Nodup := by
  induction l with
  | nil => simp [Calendar.place]
  | cons k l ih =>
    unfold Calendar.place
    simp only [List.mem_cons, not_or] at hn
    rw [List.nodup_cons] at hl
    split
    · simp [List.nodup_cons, hn, hl]
    · rw [List.nodup_cons, mem_place]
      exact ⟨fun h => h.elim (fun h => hn.1 h.symm) hl.1, ih hn.2 hl.2⟩

theorem unlist_place (c : Calendar) (n : SlotNo) (l : List SlotNo) : unlist n (c.place n l) = unlist n l := by
  induction l with
  | nil => simp [Calendar.place, unlist]
  | cons k l ih =>
    unfold Calendar.place
    split
    · simp [unlist]
    · simp only [unlist, List.filter_cons] at ih ⊢
      split
      · rw [ih]
      · exact ih

/-- A slot placed in a sorted list leaves it sorted. -/
theorem sorted_place {c : Calendar} {n : SlotNo} {l : List SlotNo} (hn : n ∉ l)
    (hl : l.Pairwise fun a b => c.before a b = true) : (c.place n l).Pairwise fun a b => c.before a b = true := by
  induction l with
  | nil => simp [Calendar.place]
  | cons k l ih =>
    unfold Calendar.place
    simp only [List.mem_cons, not_or] at hn
    rw [List.pairwise_cons] at hl
    split
    · rename_i hb
      rw [List.pairwise_cons, List.pairwise_cons]
      refine ⟨fun a ha => ?_, hl⟩
      rcases List.mem_cons.1 ha with rfl | ha
      · exact hb
      · exact before_trans hb (hl.1 a ha)
    · rename_i hb
      rw [List.pairwise_cons]
      refine ⟨fun a ha => ?_, ih hn.2 hl.2⟩
      rcases mem_place.1 ha with rfl | ha
      · exact before_of_not hn.1 hb
      · exact hl.1 a ha

/-! ### `Calendar.Becomes` of each operation -/

/-- A slot moves to a state with its timing field. -/
theorem becomes_move (c : Calendar) (n : SlotNo) (st : SlotStatus) :
    c.Becomes (c.move n st) n { c.slot n with status := st } [] [] c.back := by
  have hslot : ∀ m, (c.move n st).slot m = if m = n then { c.slot n with status := st } else c.slot m := by
    intro m
    exact setSlot_slot c n m _
  have hdue : (c.move n st).dueList =
      if st.isRunning then
        (c.setSlot n { c.slot n with status := st }).place n (unlist n c.dueList)
      else unlist n c.dueList := rfl
  have hmem : n ∉ unlist n c.dueList := by simp [mem_unlist]
  constructor
  · simp [hslot]
  · intro m hm
    simp [hslot, hm]
  · rintro ⟨hnd, hiff⟩
    have hnd' : (unlist n c.dueList).Nodup := hnd.filter _
    constructor
    · rw [hdue]
      split
      · exact nodup_place hmem hnd'
      · exact hnd'
    · intro m
      by_cases hm : m = n
      · subst hm
        rw [hslot, hdue]
        cases hr : st.isRunning
        · simp [mem_unlist, hr]
        · simp [mem_place, hr]
      · rw [hslot, hdue]
        cases hr : st.isRunning <;> simp [mem_place, mem_unlist, hm, hiff m]
  · intro hs _
    have hs' : (unlist n c.dueList).Pairwise fun a b => c.before a b = true := hs.filter _
    have hcongr : (unlist n c.dueList).Pairwise fun a b => (c.move n st).before a b = true := by
      refine hs'.imp_of_mem ?_
      intro a b ha hb hab
      rw [before_congr (c := c) (c' := c.move n st) (by simp [hslot, (mem_unlist.1 ha).2]) (by simp [hslot, (mem_unlist.1 hb).2])
        rfl]
      exact hab
    unfold Calendar.DueSorted
    rw [hdue]
    split
    · exact sorted_place (c := c.setSlot n { c.slot n with status := st }) hmem hcongr
    · exact hcongr
  · rw [hdue]
    split
    · rw [unlist_place]
      simp [unlist, List.filter_filter]
    · simp [unlist, List.filter_filter]
  · rfl
  · rfl
  · rfl
  · rfl
  · simp [Calendar.move, Calendar.setSlot]
  · simp [Calendar.move, Calendar.setSlot]
  · rfl

/-- A slot record is replaced by one in the same state. -/
theorem becomes_setSlot (c : Calendar) (n : SlotNo) (x : Slot) (hx : x.status = (c.slot n).status) :
    c.Becomes (c.setSlot n x) n x [] [] c.back := by
  have hst : ∀ m, ((c.setSlot n x).slot m).status = (c.slot m).status := by
    intro m
    rw [setSlot_slot]
    split
    · subst m
      exact hx
    · rfl
  have hb : ∀ a b, (c.setSlot n x).before a b = c.before a b := by
    intro a b
    have hp : ∀ m, (c.setSlot n x).position m = c.position m := by
      intro m
      simp only [Calendar.position, hst]
      rfl
    simp [Calendar.before, hp]
  constructor
  · simp
  · intro m hm
    simp [hm]
  · rintro ⟨hnd, hiff⟩
    exact ⟨hnd, fun m => by rw [hst]; exact hiff m⟩
  · intro hs _
    unfold Calendar.DueSorted
    simp only [hb]
    exact hs
  all_goals first | rfl | simp [Calendar.setSlot]

theorem becomes_refl (c : Calendar) (n : SlotNo) : c.Becomes c n (c.slot n) [] [] c.back where
  slot := rfl
  others _ _ := rfl
  dueExact h := h
  dueSorted h _ := h
  dueOthers := rfl
  deliveries := rfl
  now := rfl
  views := rfl
  busy := rfl
  toRouter := by simp
  toPin := by simp
  back := rfl

/-- Two changes of one slot, one after the other. -/
theorem Calendar.Becomes.trans {c c₁ c₂ : Calendar} {n : SlotNo} {x y : Slot} {r r' : List RouterRequest}
    {p p' : List PinRequest} {b b' : Vector (List FromBlock) 4} (h : c.Becomes c₁ n x r p b) (k : c₁.Becomes c₂ n y r' p' b') :
    c.Becomes c₂ n y (r ++ r') (p ++ p') b' where
  slot := k.slot
  others m hm := (k.others m hm).trans (h.others m hm)
  dueExact he := k.dueExact (h.dueExact he)
  dueSorted hs he := k.dueSorted (h.dueSorted hs he) (h.dueExact he)
  dueOthers := k.dueOthers.trans h.dueOthers
  deliveries := k.deliveries.trans h.deliveries
  now := k.now.trans h.now
  views := k.views.trans h.views
  busy := k.busy.trans h.busy
  toRouter := by rw [k.toRouter, h.toRouter, List.append_assoc]
  toPin := by rw [k.toPin, h.toPin, List.append_assoc]
  back := k.back

theorem becomes_sendRouter (c : Calendar) (n : SlotNo) (m : RouterRequest) :
    c.Becomes (c.sendRouter m) n (c.slot n) [m] [] c.back where
  slot := rfl
  others _ _ := rfl
  dueExact h := h
  dueSorted h _ := h
  dueOthers := rfl
  deliveries := rfl
  now := rfl
  views := rfl
  busy := rfl
  toRouter := rfl
  toPin := by simp [Calendar.sendRouter]
  back := rfl

theorem becomes_sendPin (c : Calendar) (n : SlotNo) (m : PinRequest) :
    c.Becomes (c.sendPin m) n (c.slot n) [] [m] c.back where
  slot := rfl
  others _ _ := rfl
  dueExact h := h
  dueSorted h _ := h
  dueOthers := rfl
  deliveries := rfl
  now := rfl
  views := rfl
  busy := rfl
  toRouter := by simp [Calendar.sendPin]
  toPin := rfl
  back := rfl

theorem becomes_answer (c : Calendar) (n : SlotNo) (p : Port) (m : Nat) (o : OutcomeCode) (f : Payload) :
    c.Becomes (c.answer p m o f) n (c.slot n) [] [] (answered c.back p m o f) where
  slot := rfl
  others _ _ := rfl
  dueExact h := h
  dueSorted h _ := h
  dueOthers := rfl
  deliveries := rfl
  now := rfl
  views := rfl
  busy := rfl
  toRouter := by simp [Calendar.answer, Calendar.send]
  toPin := by simp [Calendar.answer, Calendar.send]
  back := rfl

/-- The drive-low of an arming, restart or disarm. -/
theorem becomes_driveLevelLow (c : Calendar) (n : SlotNo) :
    c.Becomes (c.driveLevelLow n) n (c.slot n) [] (c.slot n).driveLow c.back := by
  unfold Calendar.driveLevelLow Slot.driveLow
  cases hp : (c.slot n).config.pin with
  | none => exact becomes_refl c n
  | some o =>
    cases ha : (c.slot n).config.action with
    | pulse => exact becomes_refl c n
    | toggle => exact becomes_refl c n
    | level => exact becomes_sendPin c n _

/-- A fire is counted and marked, and its fire request and pin action are sent. -/
theorem becomes_announceFire (c : Calendar) (n : SlotNo) (kind : NoticeKind) (t : Time) (w : BitVec 16)
    (tie : Option SessionTie) :
    c.Becomes (c.announceFire n kind t w tie) n { c.slot n with fires := (c.slot n).fires + 1, fired := true }
      ((c.slot n).fireRequests n kind t w tie) ((c.slot n).fireActions t) c.back := by
  have h1 := becomes_setSlot c n { c.slot n with fires := (c.slot n).fires + 1, fired := true } rfl
  unfold Calendar.announceFire Slot.fireRequests Slot.fireActions
  by_cases ht : (c.slot n).config.targets = 0
  · simp only [if_pos ht]
    cases (c.slot n).config.pin with
    | none => exact h1
    | some o =>
      have h2 := h1.trans (becomes_sendPin _ n (.fire o (c.slot n).config.action t))
      rw [h1.slot] at h2
      exact h2
  · simp only [if_neg ht]
    have h2 := h1.trans (becomes_sendRouter _ n (.fire (c.fireRequestOf n kind t w tie)))
    rw [h1.slot] at h2
    cases (c.slot n).config.pin with
    | none => exact h2
    | some o =>
      have h3 := h2.trans (becomes_sendPin _ n (.fire o (c.slot n).config.action t))
      rw [h2.slot] at h3
      exact h3

/-- A fire followed by the move to a state: the whole of a fire (R55). -/
theorem becomes_fire (c : Calendar) (n : SlotNo) (kind : NoticeKind) (t : Time) (w : BitVec 16) (tie : Option SessionTie)
    (st : SlotStatus) :
    c.Becomes ((c.announceFire n kind t w tie).move n st) n ((c.slot n).firedTo st)
      ((c.slot n).fireRequests n kind t w tie) ((c.slot n).fireActions t) c.back := by
  have h := becomes_announceFire c n kind t w tie
  have k := h.trans (becomes_move (c.announceFire n kind t w tie) n st)
  rw [h.slot, h.back] at k
  simpa [Slot.firedTo] using k

/-- A slot is freed, and its pin unbound (R35). -/
theorem becomes_releaseSlot (c : Calendar) (n : SlotNo) :
    c.Becomes (c.releaseSlot n) n
      { c.slot n with
        status := .free, owner := none, fired := false, config := { (c.slot n).config with pin := none } }
      [] (match (c.slot n).config.pin with
        | some o => [.unbind o]
        | none => []) c.back := by
  have h1 := becomes_setSlot c n
    { c.slot n with owner := none, fired := false, config := { (c.slot n).config with pin := none } } rfl
  unfold Calendar.releaseSlot
  cases hp : (c.slot n).config.pin with
  | none =>
    have h2 := h1.trans (becomes_move _ n .free)
    rw [h1.slot, h1.back] at h2
    simpa [hp] using h2
  | some o =>
    have h2 := h1.trans (becomes_sendPin _ n (.unbind o))
    rw [h1.slot, h1.back] at h2
    have h3 := h2.trans (becomes_move _ n .free)
    rw [h2.slot, h2.back] at h3
    simpa [hp] using h3

/-! ### The due list placed again -/

theorem foldl_place (c : Calendar) (l acc : List SlotNo) (hl : (l ++ acc).Nodup)
    (ha : acc.Pairwise fun a b => c.before a b = true) :
    (l.foldl (fun l n => c.place n l) acc).Perm (l ++ acc) ∧
      (l.foldl (fun l n => c.place n l) acc).Pairwise fun a b => c.before a b = true := by
  induction l generalizing acc with
  | nil => exact ⟨List.Perm.refl _, ha⟩
  | cons n l ih =>
    rw [List.cons_append, List.nodup_cons] at hl
    have hn : n ∉ acc := fun h => hl.1 (List.mem_append_right _ h)
    have hp : (c.place n acc).Perm (n :: acc) := by
      refine (List.perm_ext_iff_of_nodup (nodup_place hn (List.nodup_append.1 hl.2).2.1) ?_).2 fun m => ?_
      · exact List.nodup_cons.2 ⟨hn, (List.nodup_append.1 hl.2).2.1⟩
      · rw [mem_place, List.mem_cons]
    have hm : (l ++ c.place n acc).Perm (n :: (l ++ acc)) :=
      (hp.append_left l).trans List.perm_middle
    obtain ⟨h1, h2⟩ := ih (c.place n acc) (hm.nodup_iff.2 (List.nodup_cons.2 hl)) (sorted_place hn ha)
    exact ⟨h1.trans hm, h2⟩

/-- Placing the due list again keeps its entries and puts them in their order (R45). -/
theorem placeAll_spec (c : Calendar) (h : c.dueList.Nodup) :
    c.placeAll.dueList.Perm c.dueList ∧ c.placeAll.DueSorted := by
  have k := foldl_place c c.dueList [] (by simpa using h) List.Pairwise.nil
  rw [List.append_nil] at k
  exact k

theorem before_irrefl (c : Calendar) (n : SlotNo) : ¬ c.before n n = true := by
  rw [before_iff]
  omega

/-- Two lists in the order of R45 with the same entries are the same list. -/
theorem sorted_unique {c : Calendar} {l l' : List SlotNo} (h : ∀ n, n ∈ l ↔ n ∈ l')
    (hl : l.Pairwise fun a b => c.before a b = true) (hl' : l'.Pairwise fun a b => c.before a b = true) : l = l' := by
  have nd : ∀ {k : List SlotNo}, (k.Pairwise fun a b => c.before a b = true) → k.Nodup := fun hk =>
    by
    refine List.Pairwise.imp ?_ hk
    rintro a b hab rfl
    exact before_irrefl c a hab
  refine List.Perm.eq_of_pairwise (fun a b _ _ h1 h2 => ?_) hl hl' ((List.perm_ext_iff_of_nodup (nd hl) (nd hl')).2 h)
  exact absurd (before_trans h1 h2) (before_irrefl c _)

/-! ### The fires of a delivery (R55 to R62) -/

/-- The kind, weight and next state of a fire are determined by the slot, its deadline and the time. -/
theorem firesTo_unique {x : Slot} {d t : Time} {k k' : NoticeKind} {w w' : BitVec 16} {st st' : SlotStatus}
    (h : x.FiresTo d t k w st) (h' : x.FiresTo d t k' w' st') : k = k' ∧ w = w' ∧ st = st' := by
  rcases h with hm | ⟨a, hm, ha, hl, hu⟩ | hm | hm | hm <;> rcases h' with hm' | ⟨b, hm', hb, hl', hu'⟩ | hm' | hm' | hm' <;>
    first
    | exact ⟨rfl, rfl, rfl⟩
    | (rw [hm] at hm'; exact absurd hm' (by decide))
    | skip
  have : a = b := by
    have h1 : a - 1 < b := Nat.lt_of_mul_lt_mul_right (lt_of_le_of_lt hl hu')
    have h2 : b - 1 < a := Nat.lt_of_mul_lt_mul_right (lt_of_le_of_lt hl' hu)
    omega
  subst this
  exact ⟨rfl, rfl, rfl⟩

/-- What the request of a fire at a delivery hangs on is what R39 says (log entry 24). -/
theorem tieAt_eq (x : Slot) (k : Nat) : x.tieAt k = x.deliveryTie k := by
  unfold Slot.tieAt Slot.deliveryTie
  cases x.owner <;> cases x.left <;> rfl

/-- The fire of a due slot that is not of mode COUNT. -/
theorem fireSlot_spec (c : Calendar) (n : SlotNo) (d t : Time) (hm : (c.slot n).config.mode ≠ .count)
    (hp : 1 ≤ (c.slot n).config.period.toNat) :
    ∃ kind weight st, (c.slot n).FiresTo d t kind weight st ∧
      c.Becomes (c.fireSlot n d t) n ((c.slot n).firedTo st)
        ((c.slot n).fireRequests n kind t weight ((c.slot n).deliveryTie c.deliveries)) ((c.slot n).fireActions t) c.back := by
  rw [← tieAt_eq]
  cases hx : (c.slot n).config.mode
  · exact ⟨_, _, _, .once hx, by simp only [Calendar.fireSlot, hx]; exact becomes_fire c n _ _ _ _ _⟩
  · refine ⟨_, _, _, .repeat (repeatCount (c.slot n).period d t) hx ?_ ?_ ?_,
      by simp only [Calendar.fireSlot, hx]; exact becomes_fire c n _ _ _ _ _⟩
    · simp [repeatCount]
    · simp only [repeatCount, Nat.add_sub_cancel, Slot.period]
      exact Nat.div_mul_le_self _ _
    · simp only [repeatCount, Slot.period]
      exact Nat.lt_mul_of_div_lt (Nat.lt_succ_self _) hp
  · exact ⟨_, _, _, .retrigger hx, by simp only [Calendar.fireSlot, hx]; exact becomes_fire c n _ _ _ _ _⟩
  · exact ⟨_, _, _, .window hx, by simp only [Calendar.fireSlot, hx]; exact becomes_fire c n _ _ _ _ _⟩
  · refine ⟨_, _, _, .gated hx, ?_⟩
    have : after t (c.slot n).period = t + (c.slot n).config.period.setWidth 48 := by
      unfold after Slot.period
      rw [BitVec.ofNat_toNat]
    rw [← this]
    simp only [Calendar.fireSlot, hx]
    exact becomes_fire c n _ _ _ _ _
  · exact absurd hx hm

/-- Due slots that fire one after the other, none twice. -/
theorem foldl_fire (t : Time) (l : List SlotNo) (c : Calendar) (hl : l.Nodup)
    (hr : ∀ n ∈ l, (∃ d, (c.slot n).status = .running d) ∧ (c.slot n).config.mode ≠ .count ∧
      1 ≤ (c.slot n).config.period.toNat) :
    ∃ c', l.foldl (Calendar.fireIfRunning t) c = c' ∧
      (∀ n ∈ l, ∀ d, (c.slot n).status = .running d →
        ∃ kind weight st, (c.slot n).FiresTo d t kind weight st ∧ c'.slot n = (c.slot n).firedTo st) ∧
      (∀ n, n ∉ l → c'.slot n = c.slot n) ∧ (c.DueExact → c'.DueExact) ∧ (c.DueSorted → c.DueExact → c'.DueSorted) ∧
      c'.deliveries = c.deliveries ∧ c'.now = c.now ∧ c'.views = c.views ∧ c'.busy = c.busy ∧ c'.back = c.back ∧
      ∀ (kind : SlotNo → NoticeKind) (weight : SlotNo → BitVec 16),
        (∀ n ∈ l, ∃ d st, (c.slot n).status = .running d ∧ (c.slot n).FiresTo d t (kind n) (weight n) st) →
        c'.toRouter = c.toRouter ++ l.flatMap (fun n =>
          (c.slot n).fireRequests n (kind n) t (weight n) ((c.slot n).deliveryTie c.deliveries)) ∧
        c'.toPin = c.toPin ++ l.flatMap (fun n => (c.slot n).fireActions t) := by
  induction l generalizing c with
  | nil => exact ⟨c, rfl, by simp, by simp, id, fun h _ => h, rfl, rfl, rfl, rfl, rfl, by simp⟩
  | cons n l ih =>
    rw [List.nodup_cons] at hl
    obtain ⟨⟨d, hd⟩, hm, hp⟩ := hr n (by simp)
    obtain ⟨kind, weight, st, hf, hb⟩ := fireSlot_spec c n d t hm hp
    have he : Calendar.fireIfRunning t c n = c.fireSlot n d t := by simp [Calendar.fireIfRunning, hd, SlotStatus.deadline?]
    have hne : ∀ {k}, k ∈ l → k ≠ n := fun hk he => hl.1 (he ▸ hk)
    obtain ⟨c', hc, h1, h2, h3, h4, h0, h5, h6, h7, h8, h9⟩ := ih (c.fireSlot n d t) hl.2 (fun k hk => by
      rw [hb.others k (hne hk)]
      exact hr k (by simp [hk]))
    refine ⟨c', by rw [List.foldl_cons, he, hc], ?_, ?_, fun h => h3 (hb.dueExact h),
      fun h k => h4 (hb.dueSorted h k) (hb.dueExact k), h0.trans hb.deliveries, h5.trans hb.now, h6.trans hb.views, h7.trans hb.busy, h8.trans hb.back, ?_⟩
    · intro k hk d' hd'
      by_cases hkn : k = n
      · subst hkn
        rw [hd] at hd'
        cases hd'
        exact ⟨kind, weight, st, hf, by rw [h2 k hl.1, hb.slot]⟩
      · have := h1 k ((List.mem_cons.1 hk).resolve_left hkn) d' (by rw [hb.others k hkn]; exact hd')
        rw [hb.others k hkn] at this
        exact this
    · intro k hk
      rw [List.mem_cons, not_or] at hk
      rw [h2 k hk.2, hb.others k hk.1]
    · intro K W hK
      obtain ⟨d', st', hd', hf'⟩ := hK n (by simp)
      rw [hd] at hd'
      cases hd'
      obtain ⟨rfl, rfl, _⟩ := firesTo_unique hf hf'
      have := h9 K W (fun k hk => by
        rw [hb.others k (hne hk)]
        exact hK k (by simp [hk]))
      rw [hb.toRouter, hb.toPin, hb.deliveries] at this
      have hc1 : l.flatMap (fun k => ((c.fireSlot n d t).slot k).fireRequests k (K k) t (W k)
            (((c.fireSlot n d t).slot k).deliveryTie c.deliveries)) =
          l.flatMap (fun k => (c.slot k).fireRequests k (K k) t (W k) ((c.slot k).deliveryTie c.deliveries)) :=
        List.flatMap_congr fun k hk => by rw [hb.others k (hne hk)]
      have hc2 : l.flatMap (fun k => ((c.fireSlot n d t).slot k).fireActions t) =
          l.flatMap (fun k => (c.slot k).fireActions t) :=
        List.flatMap_congr fun k hk => by rw [hb.others k (hne hk)]
      rw [hc1, hc2] at this
      rw [this.1, this.2]
      simp [List.flatMap_cons, List.append_assoc]

/-- All that is due fires: the whole of a delivery once now, the deadlines and the due list stand (R55 to R62, R73). -/
theorem fireAllDue_spec (c : Calendar) (t : Time) (he : c.DueExact) (hs : c.DueSorted) (hl : c.SlotLaw) :
    c.FiresDue (c.fireAllDue t) t ∧ (c.fireAllDue t).DueExact ∧ (c.fireAllDue t).DueSorted ∧
      (c.fireAllDue t).deliveries = c.deliveries ∧ (c.fireAllDue t).now = c.now ∧
      (c.fireAllDue t).views = c.views ∧ (c.fireAllDue t).busy = c.busy ∧ (c.fireAllDue t).back = c.back := by
  have hmem : ∀ n, n ∈ c.dueAt t ↔ c.Due t n := by
    intro n
    simp only [Calendar.dueAt, List.mem_filter, he.2 n, Calendar.Due]
    cases (c.slot n).status <;> simp [SlotStatus.isRunning, SlotStatus.deadline?, isDue]
  have hsort : (c.dueAt t).Pairwise fun a b => c.before a b = true := hs.filter _
  obtain ⟨c', hc, h1, h2, h3, h4, h0, h5, h6, h7, h8, h9⟩ := foldl_fire t (c.dueAt t) c (he.1.filter _) (fun n hn => by
    obtain ⟨d, hd, _⟩ := (hmem n).1 hn
    have hm := (hl.1 n).1
    unfold Slot.ModeLaw at hm
    rw [hd] at hm
    exact ⟨⟨d, hd⟩, hm, (hl.1 n).2.2.period⟩)
  have hc' : c.fireAllDue t = c' := hc
  rw [hc']
  refine ⟨⟨fun n d hd hdue => h1 n ((hmem n).2 ⟨d, hd, hdue⟩) d hd, fun n hn => h2 n fun h => hn ((hmem n).1 h), ?_⟩, h3 he,
    h4 hs he, h0, h5, h6, h7, h8⟩
  intro l kind weight hl1 hl2 hl3
  have : l = c.dueAt t := sorted_unique (fun n => (hl1 n).trans (hmem n).symm) hl2 hsort
  subst this
  exact h9 kind weight hl3

/-! ### The handle check -/

/-- A handle that its owner holds passes the checks of R25. -/
theorem checkHandle_of_owns {c : Calendar} {p : Port} {h : SlotHandle} {n : SlotNo} (ho : c.Owns p h n) :
    c.checkHandle p .modify h = .ok n := by
  simp [Calendar.checkHandle, indexOf_eq_some ho.number, ho.used, ho.generation, ho.owner]

/-! ### Time steps and the beginning of a delivery (R55, R72, R73) -/

/-- What a time step makes of a slot is what R2, R72 and R73 say. -/
theorem stepsTo_stepped (x : Slot) (new delta : Time) : x.StepsTo new delta (x.stepped new delta) := by
  cases hs : x.status with
  | running d =>
    have he : x.stepped new delta = { x with status := .running (steppedDeadline x.config.anchor new delta d) } := by
      simp [Slot.stepped, hs]
    have hd : steppedDeadline x.config.anchor new delta d =
        if !isDue (x.shifted delta d) new && Config.horizon < ahead (x.shifted delta d) new then after new Config.horizon
        else x.shifted delta d := by
      unfold steppedDeadline Slot.shifted
      cases x.config.anchor <;> rfl
    rw [he, hd]
    unfold isDue ahead Config.horizon
    by_cases h1 : (new - x.shifted delta d).toNat < 2 ^ 47
    · simp only [decide_eq_true h1]
      exact .moved d hs (Or.inl h1)
    · by_cases h2 : 2 ^ 46 - 1 < (x.shifted delta d - new).toNat
      · simp only [decide_eq_false h1, decide_eq_true h2]
        exact .clamped d hs (not_lt.1 h1) h2
      · simp only [decide_eq_false h1, decide_eq_false h2]
        exact .moved d hs (Or.inr (not_lt.1 h2))
  | _ =>
    have he : x.stepped new delta = x := by simp [Slot.stepped, hs]
    rw [he]
    exact .still (by rw [hs]; rfl)

/-- A time step leaves one record of a slot. -/
theorem stepsTo_unique {x y z : Slot} {new delta : Time} (h : x.StepsTo new delta y) (k : x.StepsTo new delta z) : y = z := by
  rcases h with hs | ⟨d, hd, hn⟩ | ⟨d, hd, hn, hf⟩ <;>
    rcases k with hs' | ⟨d', hd', hn'⟩ | ⟨d', hd', hn', hf'⟩ <;>
    simp_all [SlotStatus.isRunning, SlotStatus.deadline?] <;> omega

/-- A time step leaves the same slots RUNNING. -/
theorem stepped_running (x : Slot) (new delta : Time) : (x.stepped new delta).status.isRunning = x.status.isRunning := by
  unfold Slot.stepped
  cases h : x.status <;> simp [SlotStatus.isRunning, SlotStatus.deadline?, h]

/-- A time step leaves a slot in a state of its mode. -/
theorem stepped_modeLaw {x : Slot} (new delta : Time) (h : x.ModeLaw) : (x.stepped new delta).ModeLaw := by
  unfold Slot.stepped
  cases hs : x.status <;> simp_all [Slot.ModeLaw]

/-- A time step changes the status alone. -/
theorem stepped_eq (x : Slot) (new delta : Time) :
    x.stepped new delta = { x with status := (x.stepped new delta).status } := by
  unfold Slot.stepped
  cases x.status <;> rfl

/-- A delivered tick begins with the due list in its order at the value delivered (R45, R55). -/
theorem beginTick_spec (c : Calendar) (t : Time) (he : c.DueExact) (hl : c.SlotLaw) :
    (c.beginDelivery (.tick t)).DueExact ∧ (c.beginDelivery (.tick t)).DueSorted ∧ (c.beginDelivery (.tick t)).SlotLaw := by
  have h := placeAll_spec { c with now := t } he.1
  exact ⟨⟨h.1.nodup_iff.2 he.1, fun n => h.1.mem_iff.trans (he.2 n)⟩, h.2, hl⟩

/-- A time step begins with every slot moved and the due list in its order at the new value (R45, R72, R73). -/
theorem beginStep_spec (c : Calendar) (old new delta : Time) (he : c.DueExact) (hl : c.SlotLaw)
    (hb : c.busy = .free) :
    (c.beginDelivery (.step old new delta)).DueExact ∧ (c.beginDelivery (.step old new delta)).DueSorted ∧
      (c.beginDelivery (.step old new delta)).SlotLaw ∧
      ∀ n, (c.beginDelivery (.step old new delta)).slot n = (c.slot n).stepped new delta := by
  have h := placeAll_spec { c with now := new, slots := tabulate 64 fun n => (c.slot n).stepped new delta } he.1
  have hs : ∀ n, (c.beginDelivery (.step old new delta)).slot n = (c.slot n).stepped new delta := fun n => tabulate_get _ n
  refine ⟨⟨h.1.nodup_iff.2 he.1, fun n => ?_⟩, h.2, ⟨fun n => ?_, fun w hw => ?_⟩, hs⟩
  · rw [hs, stepped_running, ← he.2 n]
    exact h.1.mem_iff
  · rw [hs]
    refine ⟨stepped_modeLaw _ _ (hl.1 n).1, ?_, ?_⟩
    · rw [stepped_eq]
      intro h
      apply (hl.1 n).2.1
      intro hf
      apply h
      simp [Slot.stepped, hf]
    · rw [stepped_eq]
      exact (hl.1 n).2.2
  · have : c.busy = .binding w := hw
    rw [hb] at this
    cases this

/-- R55's fires do not see the due list or what the Calendar is in the middle of. -/
theorem firesDue_congr {c c₂ c' c'₂ : Calendar} {t : Time} (h : c.FiresDue c' t) (h1 : ∀ n, c₂.slot n = c.slot n)
    (h0 : c₂.deliveries = c.deliveries) (h2 : c₂.now = c.now) (h3 : c₂.toRouter = c.toRouter) (h4 : c₂.toPin = c.toPin) (k1 : ∀ n, c'₂.slot n = c'.slot n)
    (k3 : c'₂.toRouter = c'.toRouter) (k4 : c'₂.toPin = c'.toPin) : c₂.FiresDue c'₂ t := by
  constructor
  · intro n d hd hdue
    rw [h1] at hd
    rw [h1, k1]
    exact h.fired n d hd hdue
  · intro n hn
    rw [h1, k1]
    refine h.kept n fun ⟨d, hd, hdue⟩ => hn ⟨d, ?_, hdue⟩
    rw [h1]
    exact hd
  · intro l kind weight a b e
    rw [h0, h3, h4, k3, k4]
    simp only [h1] at e ⊢
    refine h.sent l kind weight (fun n => (a n).trans ?_) ?_ e
    · unfold Calendar.Due
      rw [h1]
    · refine b.imp fun {m n} hmn => ?_
      rw [← hmn]
      exact (before_congr (h1 _) (h1 _) h2).symm

end Sys2Proof.Machine
end

