-- ==== Sys2Proof/Laws/Ports.lean ====
section
/-! SUPPORT. The Port Unit's shared operations, and the counters' arithmetic as the statements write it. -/

namespace Sys2Proof.Machine

/-! ### Counters -/

theorem satInc_eq {w : Nat} (v : BitVec w) : satInc v = BitVec.ofNat w (min (v.toNat + 1) (2 ^ w - 1)) := by
  have hv := v.isLt
  unfold satInc
  split
  · rename_i h
    apply BitVec.eq_of_toNat_eq
    subst h
    have : (BitVec.allOnes w).toNat = 2 ^ w - 1 := BitVec.toNat_allOnes
    rw [this]
    have h2 : 0 < 2 ^ w := Nat.two_pow_pos w
    rw [BitVec.toNat_ofNat, Nat.mod_eq_of_lt (by omega)]
    omega
  · rename_i h
    have hne : v.toNat ≠ 2 ^ w - 1 := by
      intro he
      exact h (BitVec.eq_of_toNat_eq (by rw [he, BitVec.toNat_allOnes]))
    apply BitVec.eq_of_toNat_eq
    rw [BitVec.toNat_ofNat, Nat.mod_eq_of_lt (by omega), BitVec.toNat_add]
    rcases Nat.eq_zero_or_pos w with rfl | hw
    · omega
    · have h1 : (1 : BitVec w).toNat = 1 := by
        rw [show (1 : BitVec w) = BitVec.ofNat w 1 from rfl, BitVec.toNat_ofNat]
        exact Nat.mod_eq_of_lt (Nat.one_lt_two_pow (by omega))
      rw [h1, Nat.mod_eq_of_lt (by omega)]
      omega

theorem nextNumber_epoch (e : Byte) : nextNumber e = if e = 255 then 1 else e + 1 := rfl

theorem nextNumber_generation (g : BitVec 16) : nextNumber g = if g = 65535 then 1 else g + 1 := rfl

/-! ### The alert line (R129, R159) -/

/-- Judging the alert line makes its law hold. -/
theorem alertLaw_drive (u : PortUnit) : u.drive.AlertLaw := by
  simp [PortUnit.drive, PortUnit.AlertLaw, PortUnit.alertLevel, Option.isSome_iff_ne_none]

/-- The law of the alert line depends on four fields alone. -/
theorem alertLaw_congr {u v : PortUnit} (hl : v.alertLine = u.alertLine) (hs : v.session = u.session)
    (hr : v.response = u.response) (ha : v.alertReport = u.alertReport) : v.AlertLaw ↔ u.AlertLaw := by
  simp [PortUnit.AlertLaw, hl, hs, hr, ha]

/-- A response formed is held, the request holder is emptied, and the alert line stands as it should. -/
theorem respond_spec (u : PortUnit) (code sequence : Byte) (reply : Reply) :
    u.respond code sequence reply =
      { u with
        executing := none,
        response := some
          { code := code, outcome := reply.outcome, sequence := sequence, payload := reply.payload.bytes },
        alertLine := (u.respond code sequence reply).alertLine } ∧
    (u.respond code sequence reply).AlertLaw :=
  ⟨rfl, alertLaw_drive _⟩

/-! ### Frames (R152) -/

/-- A whole frame in the buffer: its fields, and that it is complete and passes its check. -/
theorem framed_fields {u : PortUnit} {code e q : Byte} {payload : List Byte} (h : u.Framed code e q payload) :
    u.frameCode = code ∧ u.frameEpoch = e ∧ u.frameSequence = q ∧ u.framePayload = payload ∧
      byteAt u.buffer 3 = BitVec.ofNat 8 payload.length ∧ frameProgress u.buffer = .complete ∧
      passesCheck u.buffer = true := by
  have hs : (BitVec.ofNat 8 payload.length).toNat = payload.length := by
    rw [BitVec.toNat_ofNat]
    exact Nat.mod_eq_of_lt (by have := h.size; omega)
  have hb : u.buffer = code :: e :: q :: BitVec.ofNat 8 payload.length ::
      (payload ++ [checkByte ([code, e, q, BitVec.ofNat 8 payload.length] ++ payload)]) := by
    rw [h.buffer, requestBytes, withCheck]
    simp
  have h3 : byteAt u.buffer 3 = BitVec.ofNat 8 payload.length := by rw [hb]; rfl
  refine ⟨by rw [PortUnit.frameCode, hb]; rfl, by rw [PortUnit.frameEpoch, hb]; rfl,
    by rw [PortUnit.frameSequence, hb]; rfl, ?_, h3, ?_, ?_⟩
  · rw [PortUnit.framePayload, h3, hs, hb]
    simp
  · have := h.size
    have hm : ¬ Config.maxRequestPayload < payload.length := by
      simp only [Config.maxRequestPayload]
      omega
    unfold frameProgress
    rw [h3, hs, hb]
    simp only [List.length_cons, List.length_append, List.length_nil]
    rw [if_neg (by omega), if_neg hm, if_neg (by omega)]
  · unfold passesCheck
    rw [h3, hs, hb]
    have : 4 + payload.length = payload.length + 4 := by omega
    simp [byteAt, this]

end Sys2Proof.Machine
end

