-- ==== Sys2Proof/Laws/Router.lean ====
section
/-! SUPPORT. The Notice Router's shared operations: what searching, entering, removing and reporting do. -/

namespace Sys2Proof.Machine

/-! ### Searching -/

theorem recordIs_iff {r : Router} {n : SlotNo} {g : BitVec 16} {k : NoticeKind} {h : Handle} :
    r.recordIs n g k h = true ↔ ∃ x, r.notice h = some x ∧ x.slot = n ∧ x.generation = g ∧ x.kind = k := by
  unfold Router.recordIs Notice.isOf
  cases hx : r.notice h <;> simp [and_assoc]

/-- A match found stands in the queue and is of the slot, generation and kind asked for (R97). -/
theorem matchIn_eq_some {r : Router} {p : Port} {n : SlotNo} {g : BitVec 16} {k : NoticeKind} {h : Handle}
    (hm : r.matchIn p n g k = some h) :
    h ∈ r.queue p ∧ ∃ x, r.notice h = some x ∧ x.slot = n ∧ x.generation = g ∧ x.kind = k :=
  ⟨List.mem_of_find?_eq_some hm, recordIs_iff.1 (List.find?_some (p := r.recordIs n g k) hm)⟩

/-- No match is found exactly when the queue lists none (R97). -/
theorem matchIn_eq_none_iff {r : Router} {p : Port} {q : FireRequest} :
    r.matchIn p q.slot q.generation q.kind = none ↔ ¬ r.ListsMatch p q := by
  simp only [Router.matchIn, List.find?_eq_none, recordIs_iff, Router.ListsMatch, Notice.Matches]
  constructor
  · rintro h ⟨k, x, hk, hx, hm⟩
    exact h k hk ⟨x, hx, hm⟩
  · rintro h k hk ⟨x, hx, hm⟩
    exact h ⟨k, x, hk, hx, hm⟩

/-- In a lawful queue a listed match is the match that is found (R97). -/
theorem matchIn_of_mem {r : Router} {p : Port} {n : SlotNo} {g : BitVec 16} {k : NoticeKind} {h : Handle} {x : Notice}
    (ho : r.OrderLaw) (hm : h ∈ r.queue p) (hx : r.notice h = some x) (hs : x.slot = n) (hg : x.generation = g)
    (hk : x.kind = k) : r.matchIn p n g k = some h := by
  have hp := (ho p).2.2
  unfold Router.matchIn
  generalize r.queue p = l at hm hp
  induction l with
  | nil => simp at hm
  | cons a l ih =>
    rw [List.pairwise_cons] at hp
    rw [List.find?_cons]
    by_cases ha : r.recordIs n g k a = true
    · rw [ha]
      rcases List.mem_cons.1 hm with rfl | hm
      · rfl
      · obtain ⟨y, hy, h1, h2, h3⟩ := recordIs_iff.1 ha
        exact absurd ⟨by rw [h1, hs], by rw [h2, hg], by rw [h3, hk]⟩ (hp.1 h hm y x hy hx)
    · rw [Bool.not_eq_true] at ha
      rw [ha]
      rcases List.mem_cons.1 hm with rfl | hm
      · rw [← Bool.not_eq_true] at ha
        exact absurd (recordIs_iff.2 ⟨x, hx, hs, hg, hk⟩) ha
      · exact ih hm hp.2

/-- The lowest free handle is found (R94). -/
theorem lowestFree_eq_some {r : Router} {h : Handle} (hl : r.LowestFree h) : r.lowestFree = some h := by
  unfold Router.lowestFree
  rw [List.find?_eq_some_iff_getElem]
  refine ⟨by simp [hl.1], h.val, by simp, by simp, ?_⟩
  intro j hj
  have := hl.2 ⟨j, by omega⟩ hj
  simpa [Option.ne_none_iff_isSome] using this

theorem lowestFree_eq_none {r : Router} (hn : ∀ h, r.notice h ≠ none) : r.lowestFree = none := by
  simp only [Router.lowestFree, List.find?_eq_none]
  intro h _
  simpa using hn h

/-! ### Entering and leaving a queue -/

theorem classOf_eq {r : Router} {h : Handle} {x : Notice} (hx : r.notice h = some x) : r.classOf h = x.cls.val := by
  simp [Router.classOf, hx]

theorem classOf_congr {r r' : Router} {h : Handle} (hn : r'.notice h = r.notice h) : r'.classOf h = r.classOf h := by
  simp [Router.classOf, hn]

/-- A record enters a queue behind every entry of its own and of every more urgent class (R96). -/
theorem enters_enterList {r : Router} {h : Handle} {x : Notice} (hx : r.notice h = some x) (l : List Handle) :
    r.Enters x.cls h l (r.enterList h l) := by
  induction l with
  | nil => exact ⟨[], [], rfl, rfl, by simp, by simp⟩
  | cons k l ih =>
    unfold Router.enterList
    split
    · rename_i hlt
      refine ⟨[], k :: l, rfl, rfl, by simp, ?_⟩
      intro j hj
      simp only [List.head?_cons, Option.some.injEq] at hj
      subst hj
      rw [classOf_eq hx] at hlt
      exact hlt
    · rename_i hlt
      obtain ⟨l₁, l₂, hl, hn, h1, h2⟩ := ih
      refine ⟨k :: l₁, l₂, by rw [hl, List.cons_append], by rw [hn, List.cons_append], ?_, h2⟩
      intro j hj
      rcases List.mem_cons.1 hj with rfl | hj
      · rw [classOf_eq hx] at hlt
        omega
      · exact h1 j hj

theorem mem_without {h k : Handle} {l : List Handle} : k ∈ without h l ↔ k ∈ l ∧ k ≠ h := by simp [without]

theorem without_of_not_mem {h : Handle} {l : List Handle} (hn : h ∉ l) : without h l = l := by
  rw [without, List.filter_eq_self]
  intro k hk
  simp only [ne_eq, decide_not, Bool.not_eq_true', decide_eq_false_iff_not]
  rintro rfl
  exact hn hk

/-- A record taken out of a list that lists it once (R119, R125). -/
theorem without_append {h : Handle} {l₁ l₂ : List Handle} (hd : (l₁ ++ h :: l₂).Nodup) :
    without h (l₁ ++ h :: l₂) = l₁ ++ l₂ := by
  have h1 : h ∉ l₁ := fun hm => (List.nodup_append.1 hd).2.2 h hm h (by simp) rfl
  have h2 : h ∉ l₂ := fun hm => (List.nodup_cons.1 (List.nodup_append.1 hd).2.1).1 hm
  have e1 := without_of_not_mem h1
  have e2 := without_of_not_mem h2
  unfold without at e1 e2 ⊢
  rw [List.filter_append, List.filter_cons, e1, e2]
  simp

/-! ### The fetchable notice (R117) -/

/-- The fetchable notice is the one found. -/
theorem fetchable_eq_ok {r : Router} {p : Port} {l₁ l₂ : List Handle} {h : Handle} (hf : r.Fetchable p l₁ h l₂) :
    r.fetchable p = .ok h := by
  have hfind : r.firstUnmasked p = some h := by
    unfold Router.firstUnmasked
    rw [hf.queue, List.find?_append]
    have : l₁.find? (fun k => !(r.setting p).mask.getLsbD (r.classOf k)) = none := by
      simp only [List.find?_eq_none]
      intro k hk
      simp [hf.masked k hk]
    simp [this, hf.unmasked]
  have htop : r.aboveTop p h = true := by
    unfold Router.aboveTop
    cases hs : r.stack p with
    | nil => rfl
    | cons k l => simpa using hf.urgent k (by rw [hs]; rfl)
  have hroom : r.hasRoom p = true := by
    unfold Router.hasRoom
    rcases hf.room with hr | hr
    · rw [decide_eq_true (show (r.stack p).length < Config.stackCapacity from hr), Bool.true_or]
    · rw [hr, Bool.or_true]
  unfold Router.fetchable
  rw [hf.queue] at *
  cases l₁ <;> simp [hfind, htop, hroom]

/-! ### Alert reports (R130) -/

/-- An alert report does not depend on what stands on the paths back. -/
theorem alertOf_back (r : Router) (back : Vector (List FromBlock) 4) (p : Port) :
    { r with back := back }.alertOf p = r.alertOf p := rfl

/-- Alert reports sent to a list of ports, none twice: each of them gets one, and nothing else changes. -/
theorem foldl_sendAlert (l : List Port) (r : Router) (hl : l.Nodup) :
    ∃ back, l.foldl Router.sendAlert r = { r with back := back } ∧
      ∀ p : Port, back[p] = r.back[p] ++ (if p ∈ l then [.alert (r.alertOf p)] else []) := by
  induction l generalizing r with
  | nil => exact ⟨r.back, rfl, by simp⟩
  | cons q l ih =>
    rw [List.nodup_cons] at hl
    obtain ⟨back, he, hb⟩ := ih (r.sendAlert q) hl.2
    refine ⟨back, by rw [List.foldl_cons, he]; rfl, ?_⟩
    intro p
    rw [hb p]
    have hs : (r.sendAlert q).back[p] = if p = q then r.back[q] ++ [.alert (r.alertOf q)] else r.back[p] :=
      sendBack_get r.back q p _
    rw [hs]
    by_cases hp : p = q
    · subst hp
      simp [hl.1]
    · have : (r.sendAlert q).alertOf p = r.alertOf p := rfl
      simp [hp, this]

/-- At the end of an event each port that it changed gets one alert report, and nothing else changes (R130). -/
theorem reportFrom_spec (old r : Router) (folds : Bool) (always : Option Port) :
    ∃ back, Router.reportFrom old folds always r = { r with back := back } ∧
      ∀ p : Port, back[p] =
        r.back[p] ++ (if Router.changedFor folds old r p || always = some p then [.alert (r.alertOf p)] else []) := by
  obtain ⟨back, he, hb⟩ := foldl_sendAlert
    ((List.finRange 4).filter fun p => Router.changedFor folds old r p || always = some p) r
    ((List.nodup_finRange 4).filter _)
  refine ⟨back, he, fun p => ?_⟩
  rw [hb p]
  simp

/-! ### Re-offers (R127) -/

theorem matchIn_like {r : Router} {p : Port} {x : Notice} {k : Handle}
    (hm : r.matchIn p x.slot x.generation x.kind = some k) : ∃ y, r.ListsLike p x k y := by
  obtain ⟨hk, y, hy, h⟩ := matchIn_eq_some hm
  exact ⟨y, hk, hy, h⟩

theorem matchIn_none_like {r : Router} {p : Port} {x : Notice} (hm : r.matchIn p x.slot x.generation x.kind = none)
    (j : Handle) (z : Notice) : ¬ r.ListsLike p x j z := by
  rintro ⟨hj, hz, h⟩
  simp only [Router.matchIn, List.find?_eq_none] at hm
  exact hm j hj (recordIs_iff.2 ⟨z, hz, h⟩)

theorem enterList_congr {r r' : Router} {h : Handle} {l : List Handle} (hh : r'.notice h = r.notice h)
    (hl : ∀ k ∈ l, r'.notice k = r.notice k) : r'.enterList h l = r.enterList h l := by
  induction l with
  | nil => rfl
  | cons k l ih =>
    simp only [List.mem_cons, forall_eq_or_imp] at hl
    simp only [Router.enterList, classOf_congr hh, classOf_congr hl.1, ih hl.2]

theorem queueFull_iff {r : Router} {p : Port} : r.queueFull p = true ↔ 16 ≤ (r.queue p).length := decide_eq_true_iff

/-- Record `h` enters the queues of ports, none twice: only those queues change. -/
theorem enterAll_spec (h : Handle) (l : List Port) (r : Router) (hl : l.Nodup) :
    ∃ queues, r.enterAll h l = { r with queues := queues } ∧
      ∀ p : Port, queues[p] = if p ∈ l then r.enterList h (r.queue p) else r.queue p := by
  induction l generalizing r with
  | nil => exact ⟨r.queues, rfl, fun p => by simp [Router.queue]⟩
  | cons q l ih =>
    rw [List.nodup_cons] at hl
    obtain ⟨queues, he, hq⟩ := ih (r.enter q h) hl.2
    refine ⟨queues, by rw [Router.enterAll, List.foldl_cons]; exact he, fun p => ?_⟩
    have h1 : ∀ l, (r.enter q h).enterList h l = r.enterList h l := fun l => enterList_congr rfl fun _ _ => rfl
    have h2 : (r.enter q h).queue p = if p = q then r.enterList h (r.queue q) else r.queue p := by
      simp [Router.enter]
    rw [hq p, h1, h2]
    by_cases hp : p = q
    · subst hp
      simp [hl.1]
    · simp [hp]

theorem hasPort_portSetOf (f : Port → Bool) (p : Port) : hasPort (portSetOf f) p = f p := by
  have h : ∀ a b c d : Bool, ∀ p : Port,
      hasPort (portSetOf fun i => if i = 0 then a else if i = 1 then b else if i = 2 then c else d) p =
        (if p = 0 then a else if p = 1 then b else if p = 2 then c else d) := by decide
  have hf : f = fun i => if i = 0 then f 0 else if i = 1 then f 1 else if i = 2 then f 2 else f 3 := by
    funext i
    fin_cases i <;> rfl
  rw [hf]
  exact h (f 0) (f 1) (f 2) (f 3) p

theorem candidate_iff {x : Notice} {elig : Port → Bool} {p : Port} :
    (x.offer.candidate p && elig p) = true ↔ x.Candidate elig p := by
  unfold Notice.Candidate Offer.candidate
  cases hx : x.offer <;> simp [and_assoc]

/-- A re-offer of a record that no queue lists is one of the cases of R127. -/
theorem reoffer_spec (elig : Port → Bool) (r : Router) (h : Handle) (x : Notice) (hq : ∀ p, h ∉ r.queue p) :
    r.Reoffers elig h x (r.reoffer elig h x).1 (r.reoffer elig h x).2 := by
  have hmem : ∀ p, p ∈ (List.finRange 4).filter (fun p => x.offer.candidate p && elig p) ↔ x.Candidate elig p := by
    intro p
    rw [List.mem_filter, candidate_iff]
    simp
  have hsort : ((List.finRange 4).filter fun p => x.offer.candidate p && elig p).Pairwise (· < ·) :=
    (List.pairwise_lt_finRange 4).filter _
  unfold Router.reoffer
  simp only
  generalize (List.finRange 4).filter (fun p => x.offer.candidate p && elig p) = cand at hmem hsort
  cases hf : cand.findSome? fun p => r.matchIn p x.slot x.generation x.kind with
  | some k =>
    obtain ⟨l₁, p, l₂, hc, hk, hn⟩ := List.findSome?_eq_some_iff.1 hf
    obtain ⟨y, hy⟩ := matchIn_like hk
    simp only [hy.2.1]
    have e : satAdd y.overrun (x.overrun.toNat + 1) =
        BitVec.ofNat 8 (min (y.overrun.toNat + (x.overrun.toNat + 1)) 255) := rfl
    simp only [Notice.absorb, e]
    refine .folded p k y ((hmem p).1 (by rw [hc]; simp)) hy fun q hq' hcq => ?_
    have hq1 : q ∈ l₁ := by
      have := (hmem q).2 hcq
      rw [hc] at this hsort
      rw [List.pairwise_append] at hsort
      rcases List.mem_append.1 this with h1 | h1
      · exact h1
      · rcases List.mem_cons.1 h1 with rfl | h1
        · exact absurd hq' (lt_irrefl _)
        · exact absurd hq' (lt_asymm ((List.pairwise_cons.1 hsort.2.1).1 q h1))
    exact matchIn_none_like (hn q hq1)
  | none =>
    have hnone : ∀ q, x.Candidate elig q → ∀ j z, ¬ r.ListsLike q x j z := fun q hcq =>
      matchIn_none_like (List.findSome?_eq_none_iff.1 hf q ((hmem q).2 hcq))
    simp only
    by_cases he : (cand.filter fun p => !r.queueFull p).isEmpty = true
    · simp only [if_pos he]
      refine .undelivered hnone fun q hcq => ?_
      rw [List.isEmpty_iff, List.filter_eq_nil_iff] at he
      have := he q ((hmem q).2 hcq)
      simp only [Bool.not_eq_true', Bool.not_eq_false, queueFull_iff] at this
      exact this
    · simp only [if_neg he]
      have hnd : (cand.filter fun p => !r.queueFull p).Nodup := (hsort.imp fun h => ne_of_lt h).filter _
      obtain ⟨queues, hQ, hq'⟩ := enterAll_spec h _ (r.setNotice h (some x)) hnd
      have hin : ∀ q, q ∈ cand.filter (fun p => !r.queueFull p) ↔ x.Candidate elig q ∧ (r.queue q).length < 16 := by
        intro q
        rw [List.mem_filter, hmem]
        rw [Bool.not_eq_true', ← Bool.not_eq_true, queueFull_iff, not_le]
      rw [hQ]
      refine .listed _ queues hnone ?_ (fun q => ?_) (fun q => ⟨fun hp => ?_, fun hp => ?_⟩)
      · intro h0
        rw [List.isEmpty_iff] at he
        obtain ⟨q, hq1⟩ := List.exists_mem_of_ne_nil _ he
        have := hasPort_portSetOf (fun p => decide (p ∈ cand.filter fun p => !r.queueFull p)) q
        rw [h0] at this
        simp only [decide_eq_true hq1] at this
        simp [hasPort] at this
      · rw [hasPort_portSetOf, decide_eq_true_iff, hin]
      · rw [hasPort_portSetOf, decide_eq_true_iff] at hp
        have := hq' q
        rw [if_pos hp, setNotice_queue] at this
        rw [this]
        have hx : (r.setNotice h (some x)).notice h = some x := by simp
        have hE := enters_enterList hx (r.queue q)
        obtain ⟨l₁, l₂, h1, h2, h3, h4⟩ := hE
        have hc : ∀ k ∈ r.queue q, (r.setNotice h (some x)).classOf k = r.classOf k := fun k hk =>
          classOf_congr (by
            rw [setNotice_notice, if_neg]
            rintro rfl
            exact hq q hk)
        refine ⟨l₁, l₂, h1, h2, fun k hk => ?_, fun k hk => ?_⟩
        · rw [← hc k (by rw [h1]; exact List.mem_append_left _ hk)]
          exact h3 k hk
        · rw [← hc k (by rw [h1]; exact List.mem_append_right _ (List.mem_of_mem_head? hk))]
          exact h4 k hk
      · rw [hasPort_portSetOf, decide_eq_false_iff_not] at hp
        have := hq' q
        rw [if_neg hp, setNotice_queue] at this
        exact this

/-- A re-offer keeps stacks, settings, counter and what stands on the paths back. -/
theorem Router.Reoffers.keeps {isOpen : Port → Bool} {h : Handle} {x : Notice} {r r' : Router} {result : Reoffer}
    (k : r.Reoffers isOpen h x r' result) :
    r'.inService = r.inService ∧ r'.settings = r.settings ∧ r'.poolExhausted = r.poolExhausted ∧ r'.back = r.back := by
  cases k <;> exact ⟨rfl, rfl, rfl, rfl⟩

/-- After an event that may fold, a port whose stack and settings it left is reported as R127 and R133 say. -/
theorem changedFor_reports {old r : Router} {q : Port} (hs : r.stack q = old.stack q) (ht : r.setting q = old.setting q) :
    (if Router.changedFor true old r q = true then [FromBlock.alert (r.alertOf q)] else []) = old.reofferReports r q := by
  have key : Router.changedFor true old r q = true ↔
      ¬ (r.queue q = old.queue q ∧ ∀ k ∈ r.queue q, r.notice k = old.notice k) := by
    unfold Router.changedFor
    simp only [hs, ht, ne_eq, not_true_eq_false, decide_false, Bool.or_false, Bool.or_eq_true, decide_eq_true_eq,
      Bool.and_eq_true, List.any_eq_true, true_and, not_and_or, not_forall, exists_prop]
    exact ⟨fun o => o.imp (fun n e => n e.symm) fun ⟨k, hk, n⟩ => ⟨k, hk, fun e => n e.symm⟩,
      fun o => o.imp (fun n e => n e.symm) fun ⟨k, hk, n⟩ => ⟨k, hk, fun e => n e.symm⟩⟩
  unfold Router.reofferReports
  by_cases h : r.queue q = old.queue q ∧ ∀ k ∈ r.queue q, r.notice k = old.notice k
  · rw [if_pos h, if_neg (fun c => key.1 c h)]
  · rw [if_neg h, if_pos (key.2 h)]

end Sys2Proof.Machine
end

