-- ==== Sys2Proof/Laws/Served.lean ====
section
/-! SUPPORT. What each request command answers when its request can be carried out: one lemma per command. -/

namespace Sys2Proof.Machine

variable {s : State} {p : Port} {m : Nat} {e : Byte} {rest : List ToBlock}

/-! ### The Timebase -/

theorem exec_timeRead_of_canServe
    (hc : s.CanServe p m e .timeRead rest) :
    exec (.timeRead p) s = .next { s.afterTaking .timebase p rest with
      timebase :=
        (Timebase.read s.timebase).1.send p
          (.outcome m (Timebase.read s.timebase).2) } := by
  change execTimeRead p s = _
  unfold execTimeRead
  refine Eq.trans (serveTimebase_of_heads hc.head rfl ?_) (if_pos hc.session)
  rfl

theorem exec_timeClaim_of_canServe
    (hc : s.CanServe p m e .timeClaim rest) :
    exec (.timeClaim p) s = .next { s.afterTaking .timebase p rest with
      timebase :=
        (Timebase.claim p s.timebase).1.send p
          (.outcome m (Timebase.claim p s.timebase).2) } := by
  change execTimeClaim p s = _
  unfold execTimeClaim
  refine Eq.trans (serveTimebase_of_heads hc.head rfl ?_) (if_pos hc.session)
  rfl

theorem exec_timeRelease_of_canServe
    (hc : s.CanServe p m e .timeRelease rest) :
    exec (.timeRelease p) s = .next { s.afterTaking .timebase p rest with
      timebase :=
        (Timebase.release p s.timebase).1.send p
          (.outcome m (Timebase.release p s.timebase).2) } := by
  change execTimeRelease p s = _
  unfold execTimeRelease
  refine Eq.trans (serveTimebase_of_heads hc.head rfl ?_) (if_pos hc.session)
  rfl

theorem exec_timeSet_of_canServe {v : Time}
    (hc : s.CanServe p m e (.timeSet v) rest) :
    exec (.timeSet p) s = .next { s.afterTaking .timebase p rest with
      timebase :=
        (Timebase.accept p (.set v) s.timebase).1.send p
          (.outcome m (Timebase.accept p (.set v) s.timebase).2) } := by
  change execTimeSet p s = _
  unfold execTimeSet
  refine Eq.trans (serveTimebase_of_heads hc.head rfl ?_) (if_pos hc.session)
  rfl

theorem exec_timeAdjust_of_canServe {a : BitVec 24} {sp : BitVec 16}
    (hc : s.CanServe p m e (.timeAdjust a sp) rest) :
    exec (.timeAdjust p) s = .next { s.afterTaking .timebase p rest with
      timebase :=
        (Timebase.accept p (.adjust a sp) s.timebase).1.send p
          (.outcome m (Timebase.accept p (.adjust a sp) s.timebase).2) } := by
  change execTimeAdjust p s = _
  unfold execTimeAdjust
  refine Eq.trans (serveTimebase_of_heads hc.head rfl ?_) (if_pos hc.session)
  rfl

theorem exec_timeTick_of_canServe {d : BitVec 24}
    (hc : s.CanServe p m e (.timeTick d) rest) :
    exec (.timeTick p) s = .next { s.afterTaking .timebase p rest with
      timebase :=
        (Timebase.accept p (.tick d) s.timebase).1.send p
          (.outcome m (Timebase.accept p (.tick d) s.timebase).2) } := by
  change execTimeTick p s = _
  unfold execTimeTick
  refine Eq.trans (serveTimebase_of_heads hc.head rfl ?_) (if_pos hc.session)
  rfl

theorem exec_timeWithdraw_of_canServe
    (hc : s.CanServe p m e .timeWithdraw rest) :
    exec (.timeWithdraw p) s = .next { s.afterTaking .timebase p rest with
      timebase :=
        (Timebase.withdraw p s.timebase).1.send p
          (.outcome m (Timebase.withdraw p s.timebase).2) } := by
  change execTimeWithdraw p s = _
  unfold execTimeWithdraw
  refine Eq.trans (serveTimebase_of_heads hc.head rfl ?_) (if_pos hc.session)
  rfl

/-! ### The Calendar -/

theorem exec_slotAllocate_of_canServe {b : Byte}
    (hc : s.CanServe p m e (.slotAllocate b) rest) :
    exec (.slotAllocate p) s = .next { s.afterTaking .calendar p rest with
      calendar := Calendar.allocate p b m s.calendar } := by
  change execSlotAllocate p s = _
  unfold execSlotAllocate
  refine Eq.trans (serveCalendar_of_heads hc.head rfl (hc.free rfl) ?_) (if_pos hc.session)
  rfl

theorem exec_slotConfigure_of_canServe {h : SlotHandle} {f : RawConfig}
    (hc : s.CanServe p m e (.slotConfigure h f) rest) :
    exec (.slotConfigure p) s = .next { s.afterTaking .calendar p rest with
      calendar := Calendar.withSlot p .modify h (Calendar.configure p f) m s.calendar } := by
  change execSlotConfigure p s = _
  unfold execSlotConfigure
  refine Eq.trans (serveCalendar_of_heads hc.head rfl (hc.free rfl) ?_) (if_pos hc.session)
  rfl

theorem exec_slotArm_of_canServe {h : SlotHandle} {kind : Byte} {value : Time} {startNow : Bool}
    (hc : s.CanServe p m e (.slotArm h kind value startNow) rest) :
    exec (.slotArm p) s = .next { s.afterTaking .calendar p rest with
      calendar := Calendar.withSlot p .modify h (Calendar.arm p kind value startNow) m s.calendar } := by
  change execSlotArm p s = _
  unfold execSlotArm
  refine Eq.trans (serveCalendar_of_heads hc.head rfl (hc.free rfl) ?_) (if_pos hc.session)
  rfl

theorem exec_slotDisarm_of_canServe {h : SlotHandle} {purge : Bool}
    (hc : s.CanServe p m e (.slotDisarm h purge) rest) :
    exec (.slotDisarm p) s = .next { s.afterTaking .calendar p rest with
      calendar := Calendar.withSlot p .modify h (Calendar.disarm p purge) m s.calendar } := by
  change execSlotDisarm p s = _
  unfold execSlotDisarm
  refine Eq.trans (serveCalendar_of_heads hc.head rfl (hc.free rfl) ?_) (if_pos hc.session)
  rfl

theorem exec_slotTouch_of_canServe {h : SlotHandle}
    (hc : s.CanServe p m e (.slotTouch h) rest) :
    exec (.slotTouch p) s = .next { s.afterTaking .calendar p rest with
      calendar := Calendar.withSlot p .modify h (Calendar.touch p) m s.calendar } := by
  change execSlotTouch p s = _
  unfold execSlotTouch
  refine Eq.trans (serveCalendar_of_heads hc.head rfl (hc.free rfl) ?_) (if_pos hc.session)
  rfl

theorem exec_slotRelease_of_canServe {h : SlotHandle}
    (hc : s.CanServe p m e (.slotRelease h) rest) :
    exec (.slotRelease p) s = .next { s.afterTaking .calendar p rest with
      calendar := Calendar.withSlot p .modify h (Calendar.release p) m s.calendar } := by
  change execSlotRelease p s = _
  unfold execSlotRelease
  refine Eq.trans (serveCalendar_of_heads hc.head rfl (hc.free rfl) ?_) (if_pos hc.session)
  rfl

theorem exec_slotAdopt_of_canServe {h : SlotHandle}
    (hc : s.CanServe p m e (.slotAdopt h) rest) :
    exec (.slotAdopt p) s = .next { s.afterTaking .calendar p rest with
      calendar := Calendar.withSlot p .adopt h (Calendar.adopt p) m s.calendar } := by
  change execSlotAdopt p s = _
  unfold execSlotAdopt
  refine Eq.trans (serveCalendar_of_heads hc.head rfl (hc.free rfl) ?_) (if_pos hc.session)
  rfl

theorem exec_slotQuery_of_canServe {h : SlotHandle}
    (hc : s.CanServe p m e (.slotQuery h) rest) :
    exec (.slotQuery p) s = .next { s.afterTaking .calendar p rest with
      calendar := Calendar.withSlot p .query h (Calendar.query p) m s.calendar } := by
  change execSlotQuery p s = _
  unfold execSlotQuery
  refine Eq.trans (serveCalendar_of_heads hc.head rfl (hc.free rfl) ?_) (if_pos hc.session)
  rfl

/-! ### The Notice Router -/

theorem exec_serviceSet_of_canServe {mask a l : Byte}
    (hc : s.CanServe p m e (.serviceSet mask a l) rest) :
    exec (.serviceSet p) s = .next { s.afterTaking .router p rest with
      router :=
        (Router.reportFrom s.router true none (Router.serviceSet p mask a l s.isOpen s.router).1).send p
          (.outcome m (Router.serviceSet p mask a l s.isOpen s.router).2) } := by
  change execServiceSet p s = _
  unfold execServiceSet
  refine Eq.trans (serveRouter_of_heads hc.head rfl ?_) (if_pos hc.session)
  rfl

theorem exec_fetch_of_canServe
    (hc : s.CanServe p m e .fetch rest) :
    exec (.fetch p) s = .next { s.afterTaking .router p rest with
      router :=
        (Router.reportFrom s.router true none (Router.fetch p s.isOpen s.router).1).send p
          (.outcome m (Router.fetch p s.isOpen s.router).2) } := by
  change execFetch p s = _
  unfold execFetch
  refine Eq.trans (serveRouter_of_heads hc.head rfl ?_) (if_pos hc.session)
  rfl

theorem exec_peek_of_canServe
    (hc : s.CanServe p m e .peek rest) :
    exec (.peek p) s = .next { s.afterTaking .router p rest with
      router :=
        (Router.reportFrom s.router true none (Router.peek p s.isOpen s.router).1).send p
          (.outcome m (Router.peek p s.isOpen s.router).2) } := by
  change execPeek p s = _
  unfold execPeek
  refine Eq.trans (serveRouter_of_heads hc.head rfl ?_) (if_pos hc.session)
  rfl

theorem exec_done_of_canServe {b : Byte}
    (hc : s.CanServe p m e (.done b) rest) :
    exec (.done p) s = .next { s.afterTaking .router p rest with
      router :=
        (Router.reportFrom s.router true none (Router.complete p b s.isOpen s.router).1).send p
          (.outcome m (Router.complete p b s.isOpen s.router).2) } := by
  change execDone p s = _
  unfold execDone
  refine Eq.trans (serveRouter_of_heads hc.head rfl ?_) (if_pos hc.session)
  rfl

theorem exec_decline_of_canServe {b : Byte}
    (hc : s.CanServe p m e (.decline b) rest) :
    exec (.decline p) s = .next { s.afterTaking .router p rest with
      router :=
        (Router.reportFrom s.router true none (Router.decline p b s.isOpen s.router).1).send p
          (.outcome m (Router.decline p b s.isOpen s.router).2) } := by
  change execDecline p s = _
  unfold execDecline
  refine Eq.trans (serveRouter_of_heads hc.head rfl ?_) (if_pos hc.session)
  rfl

/-! ### The Line Unit -/

theorem exec_lineClaim_of_canServe {b : Byte}
    (hc : s.CanServe p m e (.lineClaim b) rest) :
    exec (.lineClaim p) s = .next { s.afterTaking .line p rest with
      lines :=
        (LineUnit.withLine p false b (LineUnit.claim p) s.lines).1.send p
          (.outcome m (LineUnit.withLine p false b (LineUnit.claim p) s.lines).2) } := by
  change execLineClaim p s = _
  unfold execLineClaim
  refine Eq.trans (serveLine_of_heads hc.head rfl ?_) (if_pos hc.session)
  rfl

theorem exec_lineRelease_of_canServe {b : Byte}
    (hc : s.CanServe p m e (.lineRelease b) rest) :
    exec (.lineRelease p) s = .next { s.afterTaking .line p rest with
      lines :=
        (LineUnit.withLine p true b LineUnit.release s.lines).1.send p
          (.outcome m (LineUnit.withLine p true b LineUnit.release s.lines).2) } := by
  change execLineRelease p s = _
  unfold execLineRelease
  refine Eq.trans (serveLine_of_heads hc.head rfl ?_) (if_pos hc.session)
  rfl

theorem exec_lineConfig_of_canServe {b sense filter : Byte}
    (hc : s.CanServe p m e (.lineConfig b sense filter) rest) :
    exec (.lineConfig p) s = .next { s.afterTaking .line p rest with
      lines :=
        (LineUnit.withLine p true b (LineUnit.config sense filter) s.lines).1.send p
          (.outcome m (LineUnit.withLine p true b (LineUnit.config sense filter) s.lines).2) } := by
  change execLineConfig p s = _
  unfold execLineConfig
  refine Eq.trans (serveLine_of_heads hc.head rfl ?_) (if_pos hc.session)
  rfl

theorem exec_lineEnable_of_canServe {b : Byte} {discard : Bool}
    (hc : s.CanServe p m e (.lineEnable b discard) rest) :
    exec (.lineEnable p) s = .next { s.afterTaking .line p rest with
      lines :=
        (LineUnit.withLine p true b (LineUnit.enable discard) s.lines).1.send p
          (.outcome m (LineUnit.withLine p true b (LineUnit.enable discard) s.lines).2) } := by
  change execLineEnable p s = _
  unfold execLineEnable
  refine Eq.trans (serveLine_of_heads hc.head rfl ?_) (if_pos hc.session)
  rfl

theorem exec_lineDisable_of_canServe {b : Byte}
    (hc : s.CanServe p m e (.lineDisable b) rest) :
    exec (.lineDisable p) s = .next { s.afterTaking .line p rest with
      lines :=
        (LineUnit.withLine p true b LineUnit.disable s.lines).1.send p
          (.outcome m (LineUnit.withLine p true b LineUnit.disable s.lines).2) } := by
  change execLineDisable p s = _
  unfold execLineDisable
  refine Eq.trans (serveLine_of_heads hc.head rfl ?_) (if_pos hc.session)
  rfl

theorem exec_linePulse_of_canServe {b : Byte}
    (hc : s.CanServe p m e (.linePulse b) rest) :
    exec (.linePulse p) s = .next { s.afterTaking .line p rest with
      lines :=
        (LineUnit.withLine p true b LineUnit.pulse s.lines).1.send p
          (.outcome m (LineUnit.withLine p true b LineUnit.pulse s.lines).2) } := by
  change execLinePulse p s = _
  unfold execLinePulse
  refine Eq.trans (serveLine_of_heads hc.head rfl ?_) (if_pos hc.session)
  rfl

theorem exec_lineStatus_of_canServe {b : Byte}
    (hc : s.CanServe p m e (.lineStatus b) rest) :
    exec (.lineStatus p) s = .next { s.afterTaking .line p rest with
      lines :=
        (LineUnit.withLine p false b LineUnit.status s.lines).1.send p
          (.outcome m (LineUnit.withLine p false b LineUnit.status s.lines).2) } := by
  change execLineStatus p s = _
  unfold execLineStatus
  refine Eq.trans (serveLine_of_heads hc.head rfl ?_) (if_pos hc.session)
  rfl

end Sys2Proof.Machine
end

