-- ==== Sys2Proof/WellFormed.lean ====
section
/-! DEFINITION. Which commands are well formed.
Every operand of a command is a port, slot, line, pin, block, byte, level or set of levels, and its type holds no other value
(`Fin`, `BitVec`, `Bool`, enumerations). So an ill-formed command cannot be written, and the check refuses none. Fields that
can be out of range arrive inside request frames, where the part itself judges them (R166): `Sys2Proof/Machine/Operands.lean`. -/

namespace Sys2Proof

/-- The check on one command, constructor family by constructor family: the numbers it names exist in the part. -/
def Instr.wellFormed : Instr → Bool
  | .fire n | .countFire n none => n.val < 64
  | .countFire n (some p) => n.val < 64 && p.val < 4
  | .changeOfAcceptedLevel e _ => e.val < 12
  | .pulseEnd o => o.val < 4
  | .openSession p | .closeSession p | .portStatus p | .serviceSet p | .fetch p | .peek p | .done p | .decline p
  | .slotAllocate p | .slotConfigure p | .slotArm p | .slotDisarm p | .slotTouch p | .slotRelease p | .slotAdopt p
  | .slotQuery p | .timeRead p | .timeClaim p | .timeRelease p | .timeSet p | .timeAdjust p | .timeTick p
  | .timeWithdraw p | .lineClaim p | .lineRelease p | .lineConfig p | .lineEnable p | .lineDisable p | .linePulse p
  | .lineStatus p | .portReset p | .portResetEnd p | .calendarSessionEnd p | .timebaseSessionEnd p | .lineSessionEnd p
  | .teardown p | .portStatusPart p _ | .portStatusPartReturn p _ | .completion p _ | .blockOutcome p _
  | .lostNoticeReport p | .alertReport p | .statusHeader p | .requestFrame p | .responseRead p | .responseConsumed p
  | .transactionEnd p | .requestByteReceived p _ => p.val < 4
  | .lineSample _ => true
  | .powerOn | .deviceReset | .deviceResetEnd | .tickArrival | .slewStep | .deliveredTick | .timeStep | .edgeArrival
  | .gateReport | .slotCountReport | .bindingRequest | .fireAction | .driveLow | .unbind | .pinDeliveredTick
  | .fireRequest | .purgeRequest => true

end Sys2Proof
end

