-- ==== Sys2Proof/Tests/Slice0.lean ====
section
/-! SUPPORT. Tests of the model: the check on commands, worked examples of the manual as single steps, and for every statement with
hypotheses a concrete state that meets them. -/

namespace Sys2Proof.Tests

open Sys2Proof Sys2Proof.Machine

-- One theorem after another: in parallel, those that wait for the kernel each hold a thread with its stack.
set_option Elab.async false

/-! ### Well-formedness and words -/

/-- No ill-formed command can be written: the check, which compares every number with its range, holds of all. -/
theorem test_every_command_is_wellFormed (c : Instr) : c.wellFormed = true := by
  cases c with
  | countFire n touchedBy => cases touchedBy <;> simp [Instr.wellFormed]
  | _ => simp [Instr.wellFormed]

/-- The opcode table gives no row any bits, so no word spells a command. -/
theorem test_no_word_spells_a_command (nbits w : Nat) : decodeTableWord nbits w = none := rfl

/-! ### Helper states -/

/-- Every port OPEN with epoch 1. -/
def opened : State :=
  { State.reset with ports := tabulate 4 fun _ => { PortUnit.initial with session := .opened, epoch := 1 } }

/-- Request `r` of `p` stands alone on its path, under mark 0 and epoch 1. -/
def asks (s : State) (p : Port) (r : Request) : State := s.setPort p ((s.port p).setPath r.block [.request 0 1 r])

/-- Port Unit `p` changed. -/
def onPort (s : State) (p : Port) (f : PortUnit → PortUnit) : State := s.setPort p (f (s.port p))

/-- The Timebase changed. -/
def onTime (s : State) (f : Timebase → Timebase) : State := { s with timebase := f s.timebase }

/-- The Calendar changed. -/
def onCal (s : State) (f : Calendar → Calendar) : State := { s with calendar := f s.calendar }

/-- The Line Unit changed. -/
def onLines (s : State) (f : LineUnit → LineUnit) : State := { s with lines := f s.lines }

/-- A configuration with targets P0. -/
def config (mode : Mode) : SlotConfig := { SlotConfig.defaults 1 with mode := mode, period := 10, window := 4, line := some 3 }

/-- A slot of P0 under generation 1. -/
def slotIn (st : SlotStatus) (f : SlotConfig) : Slot :=
  { Slot.initial with status := st, generation := 1, owner := some 0, config := f }

/-- The Calendar with slot 5 as given, and the due list that follows. -/
def cal5 (x : Slot) : Calendar :=
  { Calendar.initial.setSlot 5 x with now := 100, dueList := if x.status.isRunning then [5] else [] }

/-- Every port OPEN, and slot 5 as given. -/
def slot5 (x : Slot) : State := { opened with calendar := cal5 x }

/-- The handle of slot 5 under generation 1. -/
def h5 : SlotHandle := { slot := 5, generation := 1 }

/-- A BROADCAST record of slot 5, generation 1, and the same as a CLAIM record offered to all ports. -/
def record5 : Notice :=
  { slot := 5, generation := 1, kind := .expiry, cls := 3, tag := 44, offer := .broadcast, firstFired := 90, lastFired := 90,
    overrun := 0, redelivered := false }

def claim5 : Notice := { record5 with offer := .claim 15 0 }

/-- A Router with record 14 as given, listed for P0 or in service at P0. -/
def listed (x : Notice) : Router := (Router.initial.setNotice 14 (some x)).setQueue 0 [14]

def served (x : Notice) : Router := (Router.initial.setNotice 14 (some x)).setStack 0 [14]

/-- Every port OPEN, and the Router as given. -/
def routed (r : Router) : State := { opened with router := r }

/-- A fire request of slot 5, generation 1, for the ports of a set. -/
def fire5 (targets : PortSet) (d : Delivery) : FireRequest :=
  { slot := 5, generation := 1, kind := .expiry, cls := 3, tag := 44, targets := targets, delivery := d, fired := 100, weight := 1,
    tie := none }

/-- The state with request `q` at the head of the Calendar's path to the Router. -/
def firing (s : State) (q : FireRequest) : State := onCal s fun c => { c with toRouter := [.fire q] }

/-- A whole request frame of P0 waits to be judged. -/
def framed (s : State) (code e q : Byte) (payload : List Byte) : State :=
  onPort s 0 fun u => { u with link := .request, buffer := requestBytes code e q payload }

/-- The command answers a next state of which the test holds. -/
def gives (c : Instr) (s : State) (f : State → Bool) : Bool :=
  match exec c s with
  | .next t => f t
  | _ => false

theorem canServe_asks {s : State} {p : Port} {r : Request} (h : s.sessionIs p 1 = true)
    (hb : r.block = .calendar → s.calendar.busy = .free) :
    (asks s p r).CanServe p 0 1 r [] where
  head := by simp [State.heads, asks]
  session := by
    rw [sessionIs_iff] at *
    simpa [asks] using h
  free := hb

theorem opened_session (p : Port) : opened.sessionIs p 1 = true := by
  fin_cases p <;> rfl

theorem heads_asks (s : State) (p : Port) (r : Request) : (asks s p r).heads p 0 1 r [] := by simp [State.heads, asks]

theorem legal_initial : Slot.initial.config.Legal := by
  constructor <;> decide

theorem legal_config (mode : Mode) : (config mode).Legal := by
  constructor <;> simp [config, SlotConfig.defaults]

theorem cal5_slot (x : Slot) (n : SlotNo) : (cal5 x).slot n = if n = 5 then x else Slot.initial := by
  have h : Calendar.initial.slot n = Slot.initial := by simp [Calendar.slot, Calendar.initial]
  rw [← h]
  exact setSlot_slot Calendar.initial 5 n x

theorem dueSorted_cal5 (x : Slot) : (cal5 x).DueSorted := by
  show (if x.status.isRunning then [(5 : SlotNo)] else []).Pairwise _
  split <;> simp

theorem dueExact_cal5 (x : Slot) : (cal5 x).DueExact := by
  constructor
  · show (if x.status.isRunning then [(5 : SlotNo)] else []).Nodup
    split <;> simp
  · intro n
    rw [cal5_slot]
    show n ∈ (if x.status.isRunning then [(5 : SlotNo)] else []) ↔ _
    by_cases hn : n = 5
    · by_cases hx : x.status.isRunning = true <;> simp [hn, hx]
    · have hi : Slot.initial.status.isRunning = false := rfl
      by_cases hx : x.status.isRunning = true <;> simp [hn, hx, hi]

theorem slotLaw_cal5 {x : Slot} (hm : x.ModeLaw) (hg : x.generation ≠ 0) (hc : x.config.Legal) : (cal5 x).SlotLaw := by
  constructor
  · intro n
    rw [cal5_slot]
    by_cases hn : n = 5
    · simp only [hn, if_true]
      exact ⟨hm, fun _ => hg, hc⟩
    · simp only [hn, if_false]
      exact ⟨⟨rfl, rfl⟩, fun h => absurd rfl h, legal_initial⟩
  · intro w hw
    cases hw

theorem slotLaw_slotIn {st : SlotStatus} {mode : Mode} (hm : (slotIn st (config mode)).ModeLaw) :
    (cal5 (slotIn st (config mode))).SlotLaw := slotLaw_cal5 hm (show (1 : BitVec 16) ≠ 0 by decide) (legal_config mode)

theorem listed_notice (x : Notice) (h : Handle) : (listed x).notice h = if h = 14 then some x else none := by
  have : Router.initial.notice h = none := by simp [Router.notice, Router.initial]
  simp [listed, this]

theorem listed_queue (x : Notice) (p : Port) : (listed x).queue p = if p = 0 then [14] else [] := by
  have : Router.initial.queue p = [] := by simp [Router.queue, Router.initial]
  simp [listed, this]

theorem listed_stack (x : Notice) (p : Port) : (listed x).stack p = [] := by
  have : Router.initial.stack p = [] := by simp [Router.stack, Router.initial]
  simp [listed, this]

theorem served_notice (x : Notice) (h : Handle) : (served x).notice h = if h = 14 then some x else none := by
  have : Router.initial.notice h = none := by simp [Router.notice, Router.initial]
  simp [served, this]

theorem served_queue (x : Notice) (p : Port) : (served x).queue p = [] := by
  have : Router.initial.queue p = [] := by simp [Router.queue, Router.initial]
  simp [served, this]

theorem served_stack (x : Notice) (p : Port) : (served x).stack p = if p = 0 then [14] else [] := by
  have : Router.initial.stack p = [] := by simp [Router.stack, Router.initial]
  simp [served, this]

theorem poolLaw_listed (x : Notice) : (listed x).PoolLaw := by
  refine ⟨fun p => ⟨?_, ?_⟩, fun h => ⟨?_, ?_, ?_, ?_⟩⟩
  · rw [listed_queue]; split <;> simp
  · rw [listed_stack]; simp
  · simp only [listed_notice, listed_queue, listed_stack]
    by_cases hh : h = 14
    · simp only [hh, if_true, ne_eq, reduceCtorEq, not_false_eq_true, true_iff]
      exact Or.inl ⟨0, by simp⟩
    · simp only [hh, if_false, ne_eq, not_true_eq_false, false_iff, not_or, not_exists]
      refine ⟨fun p => ?_, by simp⟩
      split <;> simp [hh]
  · intro p q _
    rw [listed_stack]
    simp
  · intro p q hp
    rw [listed_stack] at hp
    simp at hp
  · intro y _ _ p q hp hq
    rw [listed_queue] at hp hq
    by_cases h0 : p = 0 <;> by_cases h1 : q = 0 <;> simp_all

theorem poolLaw_served (x : Notice) : (served x).PoolLaw := by
  refine ⟨fun p => ⟨?_, ?_⟩, fun h => ⟨?_, ?_, ?_, ?_⟩⟩
  · rw [served_queue]; simp
  · rw [served_stack]; split <;> simp
  · simp only [served_notice, served_queue, served_stack]
    by_cases hh : h = 14
    · simp only [hh, if_true, ne_eq, reduceCtorEq, not_false_eq_true, true_iff]
      exact Or.inr ⟨0, by simp⟩
    · simp only [hh, if_false, ne_eq, not_true_eq_false, false_iff, not_or, not_exists]
      refine ⟨by simp, fun p => ?_⟩
      split <;> simp [hh]
  · intro p q hp
    rw [served_queue] at hp
    simp at hp
  · intro p q hp hq
    rw [served_stack] at hp hq
    by_cases h0 : p = 0 <;> by_cases h1 : q = 0 <;> simp_all
  · intro y _ _ p q hp
    rw [served_queue] at hp
    simp at hp

theorem poolLaw_initial : Router.initial.PoolLaw := by
  have hn : ∀ h, Router.initial.notice h = none := fun h => by simp [Router.notice, Router.initial]
  have hq : ∀ p, Router.initial.queue p = [] := fun p => by simp [Router.queue, Router.initial]
  have hs : ∀ p, Router.initial.stack p = [] := fun p => by simp [Router.stack, Router.initial]
  refine ⟨fun p => by simp [hq, hs], fun h => ⟨by simp [hn, hq, hs], by simp [hq], by simp [hs], by simp [hn]⟩⟩

theorem orderLaw_listed (x : Notice) : (listed x).OrderLaw := by
  intro p
  rw [listed_queue, listed_stack]
  by_cases h : p = 0 <;> simp [h]

theorem orderLaw_served (x : Notice) : (served x).OrderLaw := by
  intro p
  rw [served_queue, served_stack]
  by_cases h : p = 0 <;> simp [h]

theorem orderLaw_initial : Router.initial.OrderLaw := by
  intro p
  simp [Router.queue, Router.stack, Router.initial]

/-! ### Worked examples of the manual, one step each -/

/-- The published check value of this CRC over the digits 1 to 9, without its final inversion. -/
theorem test_check_byte : checkByte [0x31, 0x32, 0x33, 0x34, 0x35, 0x36, 0x37, 0x38, 0x39] = 0x20 := by decide +kernel

/-- Section 9.6: the SLOT_ARM frame decodes to its request. -/
theorem test_example_frame : Command.ofCode 0x22 = some .slotArm ∧
    Command.slotArm.request [0x05, 0x00, 0x01, 0x00, 0x00, 0x00, 0x00, 0x00, 0x03, 0xE8, 0x00] =
      some (.calendar, .slotArm { slot := 5, generation := 1 } 0 1000 false) := by decide +kernel

/-- Section 9.6: the response payload of the arming. -/
theorem test_example_response :
    (Payload.armed false (.running 11000)).bytes = [0x00, 0x02, 0x01, 0x00, 0x00, 0x00, 0x00, 0x2A, 0xF8] := by decide +kernel

/-- Section 8.10, T1 and T2: an OPEN is carried out, and a frame that finds its response READY is refused. -/
theorem test_first_transactions :
    (gives (.requestFrame 1) (onPort State.reset 1 fun u => { u with epoch := 4, link := .request, buffer := requestBytes 1 0 1 [] })
      fun t => (t.port 1).session = .opened ∧ (t.port 1).epoch = 5 ∧
        (t.port 1).response = some { code := 1, outcome := .ok, sequence := 1, payload := [5] }) = true ∧
    (gives (.requestFrame 0) (onPort (framed opened 0x30 1 2 []) 0 fun u =>
        { u with response := some { code := 1, outcome := .ok, sequence := 1, payload := [1] } })
      fun t => (t.port 0).refusedFlag ∧ (t.port 0).refused = 1 ∧ (t.port 0).toTimebase = []) = true := by decide +kernel

/-- Section 1.6: the losing slew step at countdown 1. -/
theorem test_losing_slew_step :
    (gives .tickArrival (onTime State.reset fun b =>
        { b with time := 5002, slewRemaining := 3, slewDirection := .lose, slewSpacing := 2, countdown := 1 })
      fun t => t.timebase.time = 5002 ∧ t.timebase.slewRemaining = 2 ∧ t.timebase.countdown = 2 ∧
        t.timebase.toCalendar = []) = true := by decide +kernel

/-- Section 1.7: a SET of 10000 applied at time 7000 sends the step delta 2999. -/
theorem test_time_step :
    (gives .tickArrival (onTime State.reset fun b =>
        { b with time := 7000, pendingWrite := some { write := .set 10000, issuer := 1 } })
      fun t => t.timebase.time = 10000 ∧ t.timebase.valid ∧ t.timebase.toCalendar = [.step 7000 10000 2999]) = true := by
  decide +kernel

/-- Section 2.6: with S62 and S63 FREE, an allocation without a number takes S62 under its next generation. -/
theorem test_last_free_slots :
    (gives (.slotAllocate 0) (asks (onCal opened fun c =>
        { c with slots := tabulate 64 fun n =>
            if n.val < 62 then slotIn .idle (config .once) else { Slot.initial with generation := if n = 62 then 4 else 9 } })
        0 (.slotAllocate 0xFF))
      fun t => (t.calendar.slot 62).generation = 5 ∧ (t.calendar.slot 62).owner = some 0 ∧
        (t.calendar.slot 63).status = .free) = true := by decide +kernel

/-- Section 3.10: WINDOW slot S5 with period 1000 and window 200, RUNNING with the deadline given, at the time given. -/
def watch (now deadline : Time) : State :=
  onCal (slot5 (slotIn (.running deadline) { SlotConfig.defaults 5 with mode := .window, period := 1000, window := 200, cls := 1 }))
    fun c => { c with now := now }

/-- Section 3.10, steps 2 and 4: a touch inside the window, and an early one. -/
theorem test_window_touches :
    (gives (.slotTouch 0) (asks (watch 10850 11000) 0 (.slotTouch h5))
      fun t => (t.calendar.slot 5).status = .running 11850 ∧ t.calendar.toRouter = []) = true ∧
    (gives (.slotTouch 0) (asks (watch 12100 12700) 0 (.slotTouch h5))
      fun t => (t.calendar.slot 5).status = .lapsed ∧ (t.calendar.slot 5).fires = 1 ∧ t.calendar.dueList = [] ∧
        t.calendar.toRouter.length = 1) = true := by decide +kernel

/-- Section 3.10, step 8: the slot fires LATE at its deadline. -/
theorem test_window_lapses :
    (gives .deliveredTick (onTime (watch 14149 14150) fun b => { b with toCalendar := [.tick 14150] })
      fun t => (t.calendar.slot 5).status = .lapsed ∧ t.calendar.now = 14150 ∧ t.calendar.toRouter =
        [.fire { slot := 5, generation := 1, kind := .late, cls := 1, tag := 0, targets := 5, delivery := .broadcast,
                 fired := 14150, weight := 1, tie := some (.owner 0) }]) = true := by decide +kernel

/-- R59: a REPEAT slot of period 10 with deadline 100 that fires at 135 stands for four periods. -/
theorem test_repeat_fires_once_for_four_periods :
    (gives .deliveredTick (onTime (slot5 (slotIn (.running 100) (config .repeat))) fun b => { b with toCalendar := [.tick 135] })
      fun t => (t.calendar.slot 5).status = .running 140 ∧ t.calendar.dueList = [5] ∧ (t.calendar.slot 5).fires = 1) = true := by
  decide +kernel

/-- Line 3 of P0 as in the example of section 4.5, with the filter run given. -/
def line3 (run : BitVec 4) : State :=
  onLines opened fun l => { (l.setRecord 3
    { LineRecord.initial with owner := some 0, enabled := true, filter := 2, run := run, edgeCount := 40 }) with
      initialTaken := true }

/-- Section 4.5, samples 4 and 5: the run lengthens, then the level is accepted, reported and delivered as an edge. -/
theorem test_line_filter :
    (gives (.lineSample 8) (line3 1)
      fun t => (t.lines.record 3).run = 2 ∧ (t.lines.record 3).accepted = false ∧ t.lines.toCalendar = []) = true ∧
    (gives (.lineSample 8) (line3 2)
      fun t => (t.lines.record 3).run = 0 ∧ (t.lines.record 3).edgeCount = 41 ∧
        t.lines.toCalendar = [.gate 3 true true, .edge 3]) = true := by decide +kernel

/-- Section 6.9, step 1: a CLAIM fire request is listed behind class 1 at P1 and ahead of class 4 at P2. -/
theorem test_claim_listed :
    (gives .fireRequest (firing (routed
        ((((Router.initial.setNotice 0 (some { record5 with cls := 1, slot := 6 })).setQueue 1 [0]).setNotice 1
          (some { record5 with cls := 4, slot := 7 })).setQueue 2 [1])) (fire5 7 .claim))
      fun t => t.router.queue 0 = [2] ∧ t.router.queue 1 = [0, 2] ∧ t.router.queue 2 = [2, 1] ∧ t.router.queue 3 = []) = true := by
  decide +kernel

/-- P0 is CLOSED, its last completion has come from the Calendar, its next OPEN waits, and the ORPHANED request of its slot 5 is still on
its way. -/
def reopening : State :=
  onPort (onCal State.reset fun c =>
    { c with toRouter := [.fire { fire5 1 .claim with kind := .orphaned, tie := some (.ended 0) }],
             back := setAt c.back 0 [.completion] }) 0 fun u =>
    { u with pendingTeardowns := 1, executing := some { mark := 4, code := 1, sequence := 7, work := .waitingOpen } }

/-- R40, R133, R138: the last completion opens P0 at once, and the ORPHANED request of its ended session places nothing for it. -/
theorem test_reopened_port_gets_no_orphaned_notice :
    (gives (.completion 0 .calendar) reopening fun t => (t.port 0).session = .opened) = true ∧
    (gives .fireRequest { reopening with ports := opened.ports } fun t =>
      t.calendar.toRouter = [] ∧ t.router.queue 0 = [] ∧ t.router.toCalendar = [.undelivered 5 1]) = true ∧
    (gives .fireRequest (firing opened { fire5 1 .claim with tie := some (.owner 0) }) fun t => t.router.queue 0 = [0]) = true := by
  decide +kernel

/-- P0 is CLOSED, and its session end at the Calendar and the tick at which its KEEP slot, which has targets, is due both stand to be
taken. -/
def keeping : State :=
  onPort (onTime (slot5 (slotIn (.running 101) { config .once with policy := .keep, targets := 1 })) fun b =>
    { b with toCalendar := [.tick 101] }) 0 fun u => { u with session := .closed, toCalendar := [.sessionEnd 1] }

/-- R39, either order: the request of the KEEP slot's fire hangs on the ended session, whether the Calendar takes the session end first
or the tick; at a delivery not yet on its way it does not. -/
theorem test_keep_slot_fires_beside_session_end :
    (gives (.calendarSessionEnd 0) keeping fun t =>
      (t.calendar.slot 5).owner = none ∧ (t.calendar.slot 5).left = some (0, 1) ∧
      gives .deliveredTick t fun u =>
        u.calendar.deliveries = 1 ∧
        u.calendar.toRouter.all fun | .fire q => q.tie = some (.ended 0) | .purge _ _ => false) = true ∧
    (gives .deliveredTick keeping fun t =>
      t.calendar.toRouter.length = 1 ∧
      gives (.calendarSessionEnd 0) t fun u =>
        u.calendar.toRouter.all fun | .fire q => q.tie = some (.ended 0) | .purge _ _ => false) = true ∧
    Slot.tieAt { slotIn (.running 101) (config .once) with owner := none, left := some (0, 1) } 1 = none := by
  decide +kernel

/-- Section 6.9, steps 2 and 5: a FETCH withdraws the CLAIM record, and a DECLINE offers it to the other ports. -/
theorem test_claim_fetched_and_declined :
    (gives (.fetch 0) (asks (routed ((listed claim5).setQueue 1 [14])) 0 .fetch)
      fun t => t.router.queue 0 = [] ∧ t.router.queue 1 = [] ∧ t.router.stack 0 = [14]) = true ∧
    (gives (.decline 0) (asks (routed (served { claim5 with offer := .claim 7 0 })) 0 (.decline 14))
      fun t => t.router.queue 1 = [14] ∧ t.router.queue 2 = [14] ∧ t.router.queue 3 = [] ∧ t.router.stack 0 = []) = true := by
  decide +kernel

/-- R87 to R89: a fire action starts a pulse, and the first delivered tick of another value ends it. -/
theorem test_pulse :
    (gives .fireAction (onCal State.reset fun c => { c with toPin := [.fire 2 .pulse 9] })
      fun t => (t.pins.record 2).level ∧ (t.pins.record 2).pulseTime = some 9) = true ∧
    (gives .pinDeliveredTick { onTime State.reset (fun b => { b with toPin := [10] }) with
        pins := PinUnit.initial.setRecord 2 { PinRecord.initial with level := true, pulseTime := some 9 } }
      fun t => (t.pins.record 2) = PinRecord.initial) = true := by decide +kernel

/-! ### Witnesses: for each statement with hypotheses, states that meet them -/

theorem serves (r : Request) : (asks opened 0 r).CanServe 0 0 1 r [] := canServe_asks (opened_session 0) fun _ => rfl

theorem serves_onTime (f : Timebase → Timebase) (r : Request) : (asks (onTime opened f) 0 r).CanServe 0 0 1 r [] :=
  canServe_asks (s := onTime opened f) (opened_session 0) fun _ => rfl

/-- A request that is no slot request can be taken while the Calendar is in the middle of an event (R33). -/
theorem serves_busy (b : CalendarBusy) (r : Request) (hr : r.block ≠ .calendar) :
    (asks (onCal opened fun c => { c with busy := b }) 0 r).CanServe 0 0 1 r [] :=
  canServe_asks (s := onCal opened fun c => { c with busy := b }) (opened_session 0) fun h => absurd h hr

theorem serves_slot5 (x : Slot) (r : Request) : (asks (slot5 x) 0 r).CanServe 0 0 1 r [] :=
  canServe_asks (s := slot5 x) (opened_session 0) fun _ => rfl

theorem serves_onLines (f : LineUnit → LineUnit) (r : Request) : (asks (onLines opened f) 0 r).CanServe 0 0 1 r [] :=
  canServe_asks (s := onLines opened f) (opened_session 0) fun _ => rfl

theorem serves_routed (x : Router) (r : Request) : (asks (routed x) 0 r).CanServe 0 0 1 r [] :=
  canServe_asks (s := routed x) (opened_session 0) fun _ => rfl

theorem owns_slotIn {st : SlotStatus} {f : SlotConfig} (h : st ≠ .free) : (cal5 (slotIn st f)).Owns 0 h5 5 where
  number := rfl
  generation := by rw [cal5_slot]; rfl
  used := by rw [cal5_slot]; exact h
  owner := by rw [cal5_slot]; rfl

theorem test_witness_IdleStepIsOneRefclkPeriod :
    State.reset.pending = [] ∧ State.reset.timebase.phase.toNat + 1 < State.reset.timebase.divisor.toNat ∧
    (onTime State.reset fun b => { b with phase := 999 }).timebase.divisor.toNat ≤ 999 + 1 := by decide

/-- Six, seven and eight low samples of RSTn so far: the seventh is only counted, the eighth begins the reset, the ninth is nothing. -/
theorem test_witness_DeviceReset :
    ({ opened with rstnLows := 6 } : State).rstnLows < 7 ∧ ({ opened with rstnLows := 7 } : State).rstnLows = 7 ∧
    8 ≤ ({ opened with rstnLows := 8 } : State).rstnLows ∧
    (gives .deviceReset { opened with rstnLows := 6 } fun t => t.rstnLows = 7 ∧ (t.port 0).session = .opened) = true ∧
    (gives .deviceReset { opened with rstnLows := 7 } fun t => t.rstnLows = 8 ∧ (t.port 0).session = .closed) = true ∧
    (gives .deviceResetEnd { opened with rstnLows := 6 } fun t => t.rstnLows = 0 ∧ (t.port 0).session = .opened) = true := by
  decide +kernel

theorem test_witness_PortReset : (opened.port 0).prstLow = false ∧ (opened.port 0).session = .opened ∧
    (State.reset.port 0).prstLow = false ∧ (State.reset.port 0).session = .closed := by decide +kernel

theorem test_witness_StaleRequestRefused :
    ((asks State.reset 0 .fetch).heads 0 0 1 .fetch [] ∧ (asks State.reset 0 .fetch).calendar.busy = .free ∧
      ((asks State.reset 0 .fetch).port 0).session = .closed) ∧
    ((asks (onPort opened 0 fun u => { u with epoch := 2 }) 0 .fetch).heads 0 0 1 .fetch [] ∧
      ((asks (onPort opened 0 fun u => { u with epoch := 2 }) 0 .fetch).port 0).epoch ≠ 1) :=
  ⟨⟨heads_asks _ _ _, by decide +kernel⟩, heads_asks _ _ _, by decide +kernel⟩

/-- The authority held as given. -/
def held (a : Option Port) (b : Timebase) : Timebase := { b with authority := a }

theorem test_witness_TimeAuthority :
    (∀ a, (asks (onTime opened (held a)) 0 .timeClaim).CanServe 0 0 1 .timeClaim [] ∧
      (asks (onTime opened (held a)) 0 .timeClaim).timebase.authority = a) ∧
    (∀ a, (asks (onTime opened (held a)) 0 .timeRelease).CanServe 0 0 1 .timeRelease [] ∧
      (asks (onTime opened (held a)) 0 .timeRelease).timebase.authority = a) :=
  ⟨fun _ => ⟨serves_onTime _ _, rfl⟩, fun _ => ⟨serves_onTime _ _, rfl⟩⟩

/-- Authority and pending write as given. -/
def writing (a : Option Port) (w : Option PendingWrite) (b : Timebase) : Timebase := { b with authority := a, pendingWrite := w }

theorem test_witness_TimeReadAndWithdraw :
    (asks opened 0 .timeRead).CanServe 0 0 1 .timeRead [] ∧
    ∀ a w, (asks (onTime opened (writing a w)) 0 .timeWithdraw).CanServe 0 0 1 .timeWithdraw [] ∧
      (asks (onTime opened (writing a w)) 0 .timeWithdraw).timebase.authority = a ∧
      (asks (onTime opened (writing a w)) 0 .timeWithdraw).timebase.pendingWrite = w :=
  ⟨serves _, fun _ _ => ⟨serves_onTime _ _, rfl, rfl⟩⟩

theorem test_witness_TimeWrites :
    (∀ r a w, (asks (onTime opened (writing a w)) 0 r).CanServe 0 0 1 r [] ∧
      (asks (onTime opened (writing a w)) 0 r).timebase.authority = a ∧
      (asks (onTime opened (writing a w)) 0 r).timebase.pendingWrite = w ∧
      (asks (onTime opened (writing a w)) 0 r).timebase.time = 0) ∧
    ((Request.timeSet 7).write? = some (.set 7) ∧ (Request.timeAdjust 7 8).write? = some (.adjust 7 8) ∧
      (Request.timeTick 7).write? = some (.tick 7)) ∧
    (TimeWrite.InRange 0 (.set (2 ^ 46 - 1)) ∧ TimeWrite.InRange 0 (.adjust 65535 2) ∧ TimeWrite.InRange 0 (.adjust (-65535) 65535) ∧
      TimeWrite.InRange 0 (.tick 1) ∧ TimeWrite.InRange 0 (.tick 65536)) ∧
    ¬ TimeWrite.InRange 0 (.set (2 ^ 46)) ∧ ¬ TimeWrite.InRange 0 (.adjust 65536 2) ∧ ¬ TimeWrite.InRange 0 (.adjust 1 1) ∧
      ¬ TimeWrite.InRange 0 (.tick 0) ∧ ¬ TimeWrite.InRange 0 (.tick 65537) := by
  refine ⟨fun _ _ _ => ⟨?_, ?_, ?_, ?_⟩, ⟨rfl, rfl, rfl⟩, ?_⟩
  · exact serves_onTime _ _
  · simp [asks, onTime, writing]
  · simp [asks, onTime, writing]
  · simp [asks, onTime, writing, opened, State.reset, Timebase.initial]
  · unfold TimeWrite.InRange
    decide

theorem test_witness_TickArrivals :
    (State.reset.timebase.pendingWrite = none ∧ State.reset.timebase.slewRemaining = 0) ∧
    (∀ w, (onTime State.reset (writing none w)).timebase.pendingWrite = w ∧
      (onTime State.reset (writing none w)).timebase.slewRemaining = 0) ∧
    (65535 : BitVec 24).toInt.natAbs ≤ 65535 ∧ (-65535 : BitVec 24).toInt.natAbs ≤ 65535 ∧ (0 : BitVec 24).toInt.natAbs ≤ 65535 :=
  ⟨⟨rfl, rfl⟩, fun _ => ⟨rfl, rfl⟩, by decide⟩

/-- A slew under way. -/
def slewing (w : Option PendingWrite) (d : SlewDirection) (k : BitVec 16) : State :=
  onTime State.reset fun b => { b with pendingWrite := w, slewRemaining := 3, slewDirection := d, countdown := k }

theorem test_witness_SlewTicks (w : Option PendingWrite) (d : SlewDirection) (k : BitVec 16) :
    (slewing w d k).timebase.slewRemaining ≠ 0 ∧ (slewing w d k).timebase.pendingWrite = w ∧
    (slewing w d k).timebase.countdown = k ∧ (slewing w d k).timebase.slewDirection = d ∧ 2 ≤ (2 : BitVec 16).toNat :=
  ⟨show (3 : BitVec 16) ≠ 0 by decide, rfl, rfl, rfl, by decide⟩

theorem test_witness_SessionEndAtTimebaseAndLines :
    ((onPort opened 0 fun u => { u with toTimebase := [.sessionEnd 1] }).port 0).toTimebase = [.sessionEnd 1] ∧
    ((onPort opened 0 fun u => { u with toLine := [.sessionEnd 1] }).port 0).toLine = [.sessionEnd 1] := by decide +kernel

/-- No slot is FREE. -/
def full : State := onCal opened fun c => { c with slots := Vector.replicate 64 (slotIn .idle (config .once)) }

theorem test_witness_SlotAllocate :
    ((asks opened 0 (.slotAllocate 0xFF)).CanServe 0 0 1 (.slotAllocate 0xFF) [] ∧
      ((asks opened 0 (.slotAllocate 0xFF)).calendar.slot 0).status = .free ∧
      ((asks opened 0 (.slotAllocate 63)).calendar.slot 63).status = .free) ∧
    (∀ b, (asks full 0 (.slotAllocate b)).CanServe 0 0 1 (.slotAllocate b) []) ∧
    (∀ n, ((asks full 0 (.slotAllocate 0xFF)).calendar.slot n).status ≠ .free) ∧
    (∀ n : SlotNo, (64 : Byte).toNat ≠ n.val) :=
  ⟨⟨serves _, by decide +kernel⟩, fun _ => canServe_asks (s := full) (opened_session 0) fun _ => rfl, by decide +kernel, by decide⟩

theorem test_witness_SlotHandleChecks :
    (∀ x r, (asks (slot5 x) 0 r).CanServe 0 0 1 r [] ∧ (asks (slot5 x) 0 r).calendar = cal5 x) ∧
    (Request.slotTouch { slot := 64, generation := 1 }).handle? = some { slot := 64, generation := 1 } ∧
    (Request.slotQuery h5).handle? = some h5 ∧
    ((cal5 (slotIn .free (config .once))).slot 5).status = .free ∧
    ((cal5 { slotIn .idle (config .once) with generation := 2 }).slot 5).generation ≠ h5.generation ∧
    (((cal5 { slotIn .idle (config .once) with owner := some 1 }).slot 5).owner ≠ some 0 ∧
      ((cal5 { slotIn .idle (config .once) with owner := some 1 }).slot 5).generation = h5.generation) :=
  ⟨fun _ _ => ⟨serves_slot5 _ _, rfl⟩, rfl, rfl, by decide +kernel⟩

/-- The fields of a SLOT_CONFIGURE that ask for a configuration. -/
def rawOf (c : SlotConfig) : RawConfig := configFields ([0, 0, 0] ++ c.bytes)

theorem means_rawOf_config (pin : Option PinNo) : (rawOf { config .window with pin := pin }).Means { config .window with pin := pin } where
  legal := ⟨(legal_config .window).1, (legal_config .window).2, (legal_config .window).3, (legal_config .window).4,
    (legal_config .window).5, (legal_config .window).6⟩
  mode := by revert pin; decide +kernel
  period := by revert pin; decide +kernel
  window := by revert pin; decide +kernel
  count := by revert pin; decide +kernel
  line := by revert pin; decide +kernel
  gate := by revert pin; decide +kernel
  anchor := by revert pin; decide +kernel
  pin := by revert pin; decide +kernel
  action := by revert pin; decide +kernel
  cls := by revert pin; decide +kernel
  targets := by revert pin; decide +kernel
  delivery := by revert pin; decide +kernel
  policy := by revert pin; decide +kernel
  tag := by revert pin; decide +kernel

theorem test_witness_SlotConfigureWithoutPin :
    (∀ st f, st ≠ .free → (asks (slot5 (slotIn st (config .once))) 0 (.slotConfigure h5 f)).CanServe 0 0 1 (.slotConfigure h5 f) [] ∧
      (asks (slot5 (slotIn st (config .once))) 0 (.slotConfigure h5 f)).calendar.Owns 0 h5 5) ∧
    ((cal5 (slotIn (.running 0) (config .once))).slot 5).status ≠ .idle ∧
    ((cal5 (slotIn .idle (config .once))).slot 5).status = .idle ∧
    ((cal5 (slotIn .idle (config .once))).slot 5).config.pin = none ∧
    (rawOf { config .window with pin := none }).Means { config .window with pin := none } ∧
    ¬ ∃ c, ({ rawOf (config .window) with mode := 6 } : RawConfig).Means c := by
  refine ⟨fun _ _ h => ⟨serves_slot5 _ _, owns_slotIn h⟩, by decide +kernel, by decide +kernel, by decide +kernel,
    means_rawOf_config none, ?_⟩
  rintro ⟨c, h⟩
  have := h.mode
  revert this
  cases c.mode <;> decide

/-- The Calendar waits with a configure of slot 5, whose binding request stands at the head of its path. -/
def asking (old new : Option PinNo) (pins : PinUnit) : State :=
  { onCal opened (fun c => { c with
      toPin := [.binding old new .level 5],
      busy := .binding { port := 0, mark := 0, slot := 5, config := config .once } }) with pins := pins }

theorem test_witness_SlotConfigureWithPin :
    ((∀ f, (asks (slot5 (slotIn .idle (config .once))) 0 (.slotConfigure h5 f)).CanServe 0 0 1 (.slotConfigure h5 f) [] ∧
        (asks (slot5 (slotIn .idle (config .once))) 0 (.slotConfigure h5 f)).calendar.Owns 0 h5 5) ∧
      (rawOf { config .window with pin := some 2 }).Means { config .window with pin := some 2 }) ∧
    (∀ old new, (asking old new PinUnit.initial).pins.tickBegun = false ∧
      (asking old new PinUnit.initial).calendar.toPin = [.binding old new .level 5] ∧
      ∀ o, ((asking old new PinUnit.initial).pins.record o).bound = none) ∧
    (((asking none (some 2) (PinUnit.initial.setRecord 2 { PinRecord.initial with bound := some 6 })).pins.record 2).bound = some 6) ∧
    ((asking (some 1) (some 1) (PinUnit.initial.setRecord 1 { PinRecord.initial with bound := some 5 })).pins.record 1).action ≠ .level ∧
    ((asking (some 1) (some 1) (PinUnit.initial.setRecord 1 { PinRecord.initial with bound := some 5, action := .level })).pins.record
      1).action = .level := by
  refine ⟨⟨fun _ => ⟨serves_slot5 _ _, owns_slotIn (by decide)⟩, means_rawOf_config (some 2)⟩, ?_, ?_, ?_, ?_⟩ <;>
    decide +kernel

/-- What a start field that gives a deadline is like. -/
theorem startsAt_inv {now : Time} {k : Byte} {v d : Time} (h : StartsAt now k v d) :
    (k = 0 ∧ v.toNat ≤ 2 ^ 46 - 1) ∨ (k = 1 ∧ ((now - v).toNat < 2 ^ 47 ∨ (v - now).toNat < 2 ^ 46)) := by
  cases h with
  | relative _ h => exact Or.inl ⟨rfl, h⟩
  | due _ h => exact Or.inr ⟨rfl, Or.inl h⟩
  | future _ h => exact Or.inr ⟨rfl, Or.inr h⟩

theorem no_arming {x : Slot} {k : Byte} {v : Time} {b : Bool} (hm : x.config.mode ∈ [Mode.once, Mode.repeat, Mode.window])
    (hk : ¬ ((k = 0 ∧ v.toNat ≤ 2 ^ 46 - 1) ∨ (k = 1 ∧ ((100 - v).toNat < 2 ^ 47 ∨ (v - 100).toNat < 2 ^ 46)))) :
    ¬ ∃ st, (cal5 x).ArmsTo 5 k v b st := by
  have hx : (cal5 x).slot 5 = x := by rw [cal5_slot]; rfl
  rintro ⟨st, h⟩
  cases h with
  | timed d _ hd => exact hk (startsAt_inv hd)
  | retriggerWaits h _ => rw [hx] at h; simp [h] at hm
  | retriggerStarts h _ => rw [hx] at h; simp [h] at hm
  | gatedRuns h _ => rw [hx] at h; simp [h] at hm
  | gatedPauses h _ => rw [hx] at h; simp [h] at hm
  | counts h => rw [hx] at h; simp [h] at hm

theorem mode5 (st : SlotStatus) (m : Mode) : ((cal5 (slotIn st (config m))).slot 5).config.mode = m := by rw [cal5_slot]; rfl

/-- A Calendar whose view of line 3 is as given. -/
def viewing (v : LineView) (c : Calendar) : Calendar := { c with views := setAt c.views 3 v }

theorem gateActive_viewing (st : SlotStatus) : (viewing { enabled := true, level := true } (cal5 (slotIn st (config .gated)))).GateActive 5 := by
  refine ⟨3, ?_, ?_, ?_⟩
  · show ((cal5 (slotIn st (config .gated))).slot 5).config.line = some 3
    rw [cal5_slot]; rfl
  · simp [viewing]
  · show _ ↔ ((cal5 (slotIn st (config .gated))).slot 5).config.gate = .high
    rw [cal5_slot]
    simp [viewing, slotIn, config, SlotConfig.defaults]

theorem not_gateActive_cal5 (x : Slot) : ¬ (cal5 x).GateActive 5 := by
  rintro ⟨e, _, h, _⟩
  have : (cal5 x).views[e].enabled = false := by simp [cal5, Calendar.setSlot, Calendar.initial, LineView.initial]
  rw [this] at h
  cases h

theorem test_witness_SlotArm :
    (∀ m k v b, (asks (slot5 (slotIn .idle (config m))) 0 (.slotArm h5 k v b)).CanServe 0 0 1 (.slotArm h5 k v b) [] ∧
      (asks (slot5 (slotIn .idle (config m))) 0 (.slotArm h5 k v b)).calendar.Owns 0 h5 5) ∧
    (cal5 (slotIn .idle (config .once))).ArmsTo 5 0 (2 ^ 46 - 1) false (.running (100 + (2 ^ 46 - 1))) ∧
    (cal5 (slotIn .idle (config .repeat))).ArmsTo 5 1 100 false (.running 100) ∧
    (cal5 (slotIn .idle (config .window))).ArmsTo 5 1 (100 + (2 ^ 46 - 1)) false (.running (100 + (2 ^ 46 - 1))) ∧
    (cal5 (slotIn .idle (config .retrigger))).ArmsTo 5 0 0 false (.waiting none) ∧
    (cal5 (slotIn .idle (config .retrigger))).ArmsTo 5 0 0 true
      (.running (100 + ((cal5 (slotIn .idle (config .retrigger))).slot 5).config.period.setWidth 48)) ∧
    (viewing { enabled := true, level := true } (cal5 (slotIn .idle (config .gated)))).GateActive 5 ∧
    ¬ (cal5 (slotIn .idle (config .gated))).GateActive 5 ∧
    (cal5 (slotIn .idle (config .count))).ArmsTo 5 0 0 false
      (.waiting (some ((cal5 (slotIn .idle (config .count))).slot 5).config.count)) ∧
    (¬ ∃ st, (cal5 (slotIn .idle (config .once))).ArmsTo 5 0 (2 ^ 46) false st) ∧
    (¬ ∃ st, (cal5 (slotIn .idle (config .once))).ArmsTo 5 1 (100 + 2 ^ 46) false st) ∧
    ¬ ∃ st, (cal5 (slotIn .idle (config .once))).ArmsTo 5 2 0 false st := by
  refine ⟨fun _ _ _ _ => ⟨serves_slot5 _ _, owns_slotIn (by decide)⟩, .timed _ (by rw [mode5]; decide) (.relative _ (by decide)),
    .timed _ (by rw [mode5]; decide) (.due _ (by decide +kernel)), .timed _ (by rw [mode5]; decide) (.future _ (by decide +kernel)),
    .retriggerWaits (mode5 _ _) rfl, .retriggerStarts (mode5 _ _) rfl, gateActive_viewing _, not_gateActive_cal5 _,
    .counts (mode5 _ _), no_arming (by decide) (by decide), no_arming (by decide) (by decide), no_arming (by decide) (by decide)⟩

theorem test_witness_SlotDisarmAndRelease (st : SlotStatus) (h : st ≠ .free) (r : Request) :
    (asks (slot5 (slotIn st (config .window))) 0 r).CanServe 0 0 1 r [] ∧
    (asks (slot5 (slotIn st (config .window))) 0 r).calendar.Owns 0 h5 5 := ⟨serves_slot5 _ _, owns_slotIn h⟩

/-- At time 100 the window of 4 ticks of deadline 104 has just opened, and that of 105 has not. -/
theorem test_witness_WindowTouch :
    (∀ st, st ≠ .free → (asks (slot5 (slotIn st (config .window))) 0 (.slotTouch h5)).CanServe 0 0 1 (.slotTouch h5) [] ∧
      (cal5 (slotIn st (config .window))).Owns 0 h5 5 ∧ ((cal5 (slotIn st (config .window))).slot 5).config.mode = .window) ∧
    (100 - (104 - (config .window).window.setWidth 48)).toNat < 2 ^ 47 ∧
    2 ^ 47 ≤ (100 - (105 - (config .window).window.setWidth 48)).toNat :=
  ⟨fun _ h => ⟨serves_slot5 _ _, owns_slotIn h, mode5 _ _⟩, by decide, by decide⟩

theorem test_witness_TriggerAndCountTouch (st : SlotStatus) (h : st ≠ .free) (m : Mode) :
    (asks (slot5 (slotIn st (config m))) 0 (.slotTouch h5)).CanServe 0 0 1 (.slotTouch h5) [] ∧
    (cal5 (slotIn st (config m))).Owns 0 h5 5 ∧ ((cal5 (slotIn st (config m))).slot 5).config.mode = m ∧
    ((cal5 (slotIn st (config m))).slot 5).status = st :=
  ⟨serves_slot5 _ _, owns_slotIn h, mode5 _ _, by rw [cal5_slot]; rfl⟩

theorem test_witness_SlotAdoptAndQuery :
    h5.slot.toNat = (5 : SlotNo).val ∧
    (∀ x r, (asks (slot5 x) 0 r).CanServe 0 0 1 r []) ∧
    (∀ o, ((cal5 { slotIn .idle (config .once) with owner := o }).slot 5).status ≠ .free ∧
      h5.generation = ((cal5 { slotIn .idle (config .once) with owner := o }).slot 5).generation ∧
      ((cal5 { slotIn .idle (config .once) with owner := o }).slot 5).owner = o) :=
  ⟨rfl, fun _ _ => serves_slot5 _ _, fun o => ⟨by rw [cal5_slot]; exact show SlotStatus.idle ≠ .free by decide, by rw [cal5_slot]; rfl, by rw [cal5_slot]; rfl⟩⟩

/-- The delivery at the head of the Timebase's path to the Calendar. -/
def delivering (s : State) (d : TimeDelivery) : State := onTime s fun b => { b with toCalendar := [d] }

theorem due_cal5 (n : SlotNo) : n ∈ [(5 : SlotNo)] ↔ (cal5 (slotIn (.running 100) (config .once))).Due 100 n := by
  unfold Calendar.Due
  rw [cal5_slot]
  by_cases h : n = 5
  · simp [h, slotIn]
  · simp [h, Slot.initial]

/-- Section 3.11: the forward step fires S2 with weight 4 before S3, and leaves S1 RUNNING first in the due list. -/
theorem test_forward_step_fires_in_due_list_order :
    (gives .timeStep (delivering (onCal opened fun c =>
        { (((c.setSlot 1 (slotIn (.running 5050) { SlotConfig.defaults 1 with mode := .repeat, period := 100 })).setSlot 2
            (slotIn (.running 5050) { SlotConfig.defaults 1 with mode := .repeat, period := 100, anchor := .absolute })).setSlot 3
            (slotIn (.running 5300) { SlotConfig.defaults 1 with anchor := .absolute })) with
          now := 5000, dueList := [1, 2, 3] }) (.step 5000 5400 399))
      fun t => t.calendar.dueList = [1, 2] ∧ (t.calendar.slot 1).status = .running 5449 ∧
        (t.calendar.slot 2).status = .running 5450 ∧ (t.calendar.slot 3).status = .idle ∧
        t.calendar.toRouter.map (fun
          | .fire q => (q.slot, q.weight)
          | .purge n _ => (n, 0)) = [(2, 4), (3, 1)]) = true := by decide +kernel

/-- Deadlines 100 and 101 at the tick carrying 100: the first is due and the second is not. -/
theorem test_witness_DeliveredTickFiresWhatIsDue (d : Time) :
    (delivering (slot5 (slotIn (.running d) (config .repeat))) (.tick 100)).calendar.busy = .free ∧
    (delivering (slot5 (slotIn (.running d) (config .repeat))) (.tick 100)).timebase.toCalendar = [.tick 100] ∧
    (cal5 (slotIn (.running d) (config .repeat))).DueExact ∧ (cal5 (slotIn (.running d) (config .repeat))).SlotLaw ∧
    ((cal5 (slotIn (.running d) (config .repeat))).slot 5).status = .running d ∧
    ((100 : Time) - 100).toNat < 2 ^ 47 ∧ 2 ^ 47 ≤ ((100 : Time) - 101).toNat ∧
    ∀ n, n ∈ [(5 : SlotNo)] ↔ (cal5 (slotIn (.running 100) (config .once))).Due 100 n :=
  ⟨rfl, rfl, dueExact_cal5 _, slotLaw_slotIn (show Mode.repeat ≠ Mode.count by decide), by rw [cal5_slot]; rfl, by decide, by decide,
    due_cal5⟩

theorem test_witness_FireOfDueSlot (m : Mode) :
    (delivering (slot5 (slotIn (.running 100) (config m))) (.tick 105)).calendar.busy = .free ∧
    (delivering (slot5 (slotIn (.running 100) (config m))) (.tick 105)).timebase.toCalendar = [.tick 105] ∧
    (onCal (slot5 (slotIn (.running 100) (config m))) fun c => { c with busy := .delivering }).calendar.busy = .delivering ∧
    (cal5 (slotIn (.running 100) (config m))).dueList = [] ++ 5 :: [] ∧
    { cal5 (slotIn (.running 100) (config m)) with now := 105, busy := .delivering }.DueSorted ∧ ((105 : Time) - 100).toNat < 2 ^ 47 ∧
    (slotIn (.running 100) (config .once)).FiresTo 100 105 .expiry 1 .idle ∧
    (slotIn (.running 100) (config .repeat)).FiresTo 100 105 .expiry 1 (.running (100 + BitVec.ofNat 48 (1 * 10))) ∧
    (slotIn (.running 100) (config .window)).FiresTo 100 105 .late 1 .lapsed ∧
    (slotIn (.running 100) (config .retrigger)).FiresTo 100 105 .expiry 1 (.waiting none) :=
  ⟨rfl, rfl, rfl, rfl, List.pairwise_singleton _ 5, by decide, .once rfl, .repeat 1 rfl (by decide) (by decide) (by decide), .window rfl, .retrigger rfl⟩

theorem test_witness_FiresBeforeTheEndOfTheirEvent :
    ((cal5 (slotIn (.running 100) (config .gated))).DueExact ∧ (cal5 (slotIn (.running 100) (config .gated))).SlotLaw) ∧
    (gives (.fire 5) (delivering (slot5 (slotIn (.running 100) (config .gated))) (.tick 100)) fun t =>
      (t.calendar.slot 5).fires = 1 ∧ t.calendar.busy = .delivering) = true ∧
    (gives (.fire 5) (delivering (slot5 (slotIn (.running 100) (config .once))) (.step 0 100 0)) fun t =>
      (t.calendar.slot 5).fires = 1 ∧ t.calendar.busy = .delivering) = true ∧
    (gives (.countFire 5 none) (onLines (slot5 (slotIn (.waiting (some 1)) (config .count))) fun l =>
        { l with toCalendar := [.edge 3] }) fun t => (t.calendar.slot 5).fires = 1 ∧ t.calendar.busy = .edge 6) = true :=
  ⟨⟨dueExact_cal5 _, slotLaw_slotIn (show Mode.gated ≠ Mode.count by decide)⟩, by decide +kernel⟩

/-- A step from 100 to 50 with delta -51: a RELATIVE deadline moves with it; an ABSOLUTE one stays, the horizon included. -/
theorem test_witness_TimeStepMovesAndFires (st : SlotStatus) (h : (slotIn st (config .once)).ModeLaw) :
    (delivering (slot5 (slotIn st (config .once))) (.step 100 50 (-51))).calendar.busy = .free ∧
    (delivering (slot5 (slotIn st (config .once))) (.step 100 50 (-51))).timebase.toCalendar = [.step 100 50 (-51)] ∧
    (cal5 (slotIn st (config .once))).DueExact ∧ (cal5 (slotIn st (config .once))).SlotLaw ∧
    (config .once).anchor = .relative ∧ ((50 : Time) - 50).toNat < 2 ^ 47 ∧ 2 ^ 47 ≤ ((50 : Time) - 51).toNat ∧
    ((50 + (2 ^ 46 - 1) : Time) - 50).toNat ≤ 2 ^ 46 - 1 ∧ ¬ ((50 + 2 ^ 46 : Time) - 50).toNat ≤ 2 ^ 46 - 1 ∧
    ∃ slots : Vector Slot 64, ∀ n : SlotNo, ((cal5 (slotIn st (config .once))).slot n).StepsTo 50 (-51) slots[n] := by
  refine ⟨rfl, rfl, dueExact_cal5 _, slotLaw_slotIn h, rfl, by decide, by decide, by decide, by decide, ?_⟩
  refine ⟨tabulate 64 fun n => ((cal5 (slotIn st (config .once))).slot n).stepped 50 (-51), fun n => ?_⟩
  rw [tabulate_get, cal5_slot]
  split <;> exact stepsTo_stepped _ _ _

/-- What the Line Unit sends stands at the head of its path to the Calendar. -/
def lineSends (s : State) (m : LineMessage) : State := onLines s fun l => { l with toCalendar := [m] }

theorem test_witness_EdgeArrival (st : SlotStatus) (m : Mode) (e : LineNo) (h : (slotIn st (config m)).ModeLaw) :
    (lineSends (slot5 (slotIn st (config m))) (.edge e)).calendar.busy = .free ∧
    (lineSends (slot5 (slotIn st (config m))) (.edge e)).lines.toCalendar = [.edge e] ∧
    (cal5 (slotIn st (config m))).DueExact ∧ ((cal5 (slotIn st (config m))).slot 5).config.line = some 3 ∧
    ((cal5 (slotIn st (config m))).slot 5).config.mode = m ∧ ((cal5 (slotIn st (config m))).slot 5).status = st ∧
    (cal5 (slotIn st (config m))).DueSorted ∧ (cal5 (slotIn st (config m))).SlotLaw ∧
    (cal5 (slotIn (.waiting (some 1)) (config .count))).SlotLaw ∧
    (cal5 (slotIn (.waiting (some 1)) (config .count))).LastEdge 3 5 :=
  ⟨rfl, rfl, dueExact_cal5 _, by rw [cal5_slot]; rfl, mode5 _ _, by rw [cal5_slot]; rfl, dueSorted_cal5 _, slotLaw_slotIn h,
    slotLaw_slotIn ⟨rfl, by decide⟩, by decide +kernel⟩

/-- An active gate with deadlines 100 and 101 at time 100, which a report of a disabled line ends; and an inactive one. -/
theorem test_witness_GateReport (st : SlotStatus) :
    (lineSends (slot5 (slotIn st (config .gated))) (.gate 3 false false)).calendar.busy = .free ∧
    (lineSends (slot5 (slotIn st (config .gated))) (.gate 3 false false)).lines.toCalendar = [.gate 3 false false] ∧
    (viewing { enabled := true, level := true } (cal5 (slotIn st (config .gated)))).GateActive 5 ∧
    ¬ (cal5 (slotIn st (config .gated))).GateActive 5 ∧ ((cal5 (slotIn st (config .gated))).slot 5).status = st ∧
    ((cal5 (slotIn st (config .gated))).slot 5).config.line = some 3 ∧ (cal5 (slotIn st (config .gated))).DueExact ∧
    (cal5 (slotIn st (config .gated))).DueSorted ∧ [(5 : SlotNo)].Pairwise (fun m n => m < n) ∧
    (cal5 (slotIn (.running 100) (config .gated))).Due 100 5 ∧ ¬ (cal5 (slotIn (.running 101) (config .gated))).Due 100 5 ∧
    ((100 : Time) - 100).toNat < 2 ^ 47 ∧ 2 ^ 47 ≤ ((100 : Time) - 101).toNat := by
  refine ⟨rfl, rfl, gateActive_viewing _, not_gateActive_cal5 _, by rw [cal5_slot]; rfl, by rw [cal5_slot]; rfl, dueExact_cal5 _,
    dueSorted_cal5 _, by simp, ⟨100, by rw [cal5_slot]; rfl, by decide⟩, ?_, by decide, by decide⟩
  rintro ⟨d, hd, hd'⟩
  rw [cal5_slot] at hd
  cases hd
  revert hd'
  decide

theorem test_witness_SlotCountReport (m : CountReport) :
    (routed { Router.initial with toCalendar := [m] }).calendar.busy = .free ∧
    (routed { Router.initial with toCalendar := [m] }).router.toCalendar = [m] ∧
    ((cal5 (slotIn .idle (config .once))).slot 5).generation = 1 ∧
    ((cal5 (slotIn .idle (config .once))).slot 5).generation ≠ 2 := ⟨rfl, rfl, by decide +kernel, by decide +kernel⟩

/-- The end of p's session stands at the head of each of its paths. -/
def ending (s : State) (p : Port) : State :=
  onPort s p fun u => { u with
    session := .closed, toTimebase := [.sessionEnd 1], toCalendar := [.sessionEnd 1], toRouter := [.sessionEnd 1],
    toLine := [.sessionEnd 1] }

theorem test_witness_CalendarSessionEnd (policy : Policy) :
    (ending (slot5 (slotIn (.running 100) { config .once with policy := policy })) 0).calendar.busy = .free ∧
    ((ending (slot5 (slotIn (.running 100) { config .once with policy := policy })) 0).port 0).toCalendar = [.sessionEnd 1] ∧
    (cal5 (slotIn (.running 100) { config .once with policy := policy })).SlotLaw ∧
    (cal5 (slotIn (.running 100) { config .once with policy := policy })).DueExact ∧
    ((cal5 (slotIn (.running 100) { config .once with policy := policy })).slot 5).owner = some 0 ∧
    ((cal5 (slotIn (.running 100) { config .once with policy := policy })).slot 5).config.policy = policy ∧
    ((cal5 (slotIn (.running 100) { config .once with policy := policy })).slot 6).owner ≠ some 0 := by
  refine ⟨rfl, by simp [ending, onPort], slotLaw_cal5 (show Mode.once ≠ Mode.count by decide) (show (1 : BitVec 16) ≠ 0 by decide) ?_,
    dueExact_cal5 _, by rw [cal5_slot]; rfl, by rw [cal5_slot]; rfl,
    by rw [cal5_slot, if_neg (by decide)]; decide⟩
  constructor <;> simp [slotIn, config, SlotConfig.defaults]

/-- Line 3 with the filter run below its filter and at it, and the initial sample still to be taken. -/
theorem test_witness_LineSamples :
    ((line3 1).inReset = false ∧ (line3 1).lines.initialTaken = true ∧ ((line3 1).lines.record 3).accepted = false ∧
      ((line3 1).lines.record 3).run.toNat < ((line3 1).lines.record 3).filter.toNat ∧
      ((line3 2).lines.record 3).filter.toNat ≤ ((line3 2).lines.record 3).run.toNat ∧
      ((line3 2).lines.record 3).sense = .rise) ∧
    (opened.inReset = false ∧ opened.lines.initialTaken = false) ∧ ({ opened with rstnLows := 8 } : State).inReset = true := by
  decide +kernel

/-- Line 3 with a record as given. -/
def lineIs (x : LineRecord) (l : LineUnit) : LineUnit := l.setRecord 3 x

theorem lineIs_record (x : LineRecord) (r : Request) : (asks (onLines opened (lineIs x)) 0 r).lines.record 3 = x := by
  show (opened.lines.setRecord 3 x).record 3 = x
  simp

theorem test_witness_LineClaimReleaseConfigStatus (o : Option Port) (r : Request) :
    (3 : Byte).toNat = (3 : LineNo).val ∧
    (asks (onLines opened (lineIs { LineRecord.initial with owner := o })) 0 r).CanServe 0 0 1 r [] ∧
    ((asks (onLines opened (lineIs { LineRecord.initial with owner := o })) 0 r).lines.record 3).owner = o ∧
    (0 : Byte) = Sense.rise.code ∧ (2 : Byte) = Sense.both.code ∧ (15 : Byte).toNat ≤ 15 :=
  ⟨rfl, serves_onLines _ _, by rw [lineIs_record], rfl, rfl, by decide⟩

theorem test_witness_LineEnableDisablePulse (enabled held : Bool) (r : Request) :
    (asks (onLines opened (lineIs { LineRecord.initial with owner := some 0, enabled := enabled, held := held })) 0 r).CanServe 0 0 1
      r [] ∧
    (asks (onLines opened (lineIs { LineRecord.initial with owner := some 0, enabled := enabled, held := held })) 0 r).lines.record 3 =
      { LineRecord.initial with owner := some 0, enabled := enabled, held := held } :=
  ⟨serves_onLines _ _, lineIs_record _ _⟩

theorem test_witness_LineCommandChecks (r : Request) :
    (asks opened 0 r).CanServe 0 0 1 r [] ∧ (Request.linePulse 12).line? = some 12 ∧ 12 ≤ (12 : Byte).toNat ∧
    (Request.lineConfig 11 3 0).line? = some 11 ∧ ((asks opened 0 r).lines.record 11).owner ≠ some 0 ∧
    ((asks (onLines opened (lineIs { LineRecord.initial with owner := some 0 })) 0 r).CanServe 0 0 1 r [] ∧
      ((asks (onLines opened (lineIs { LineRecord.initial with owner := some 0 })) 0 r).lines.record 3).owner = some 0) ∧
    3 ≤ (3 : Byte).toNat ∧ 16 ≤ (16 : Byte).toNat :=
  ⟨serves _, rfl, by decide, rfl, by show (opened.lines.record 11).owner ≠ some 0; decide +kernel,
    ⟨serves_onLines _ _, by rw [lineIs_record]⟩, by decide, by decide⟩

theorem test_witness_PinRequestsAndTicks (m : PinRequest) :
    ((onCal State.reset fun c => { c with toPin := [m] }).pins.tickBegun = false ∧
      (onCal State.reset fun c => { c with toPin := [m] }).calendar.toPin = [m]) ∧
    (onTime State.reset fun b => { b with toPin := [10] }).timebase.toPin = [10] ∧
    ((PinUnit.initial.setRecord 2 { PinRecord.initial with pulseTime := some 9 }).record 2).pulseTime = some 9 ∧
    ((PinUnit.initial.setRecord 2 { PinRecord.initial with pulseTime := some 10 }).record 2).pulseTime = some 10 :=
  ⟨⟨rfl, rfl⟩, rfl, by decide +kernel⟩

theorem test_witness_BroadcastFire (t : PortSet) :
    (firing (routed (listed record5)) (fire5 t .broadcast)).calendar.toRouter = [.fire (fire5 t .broadcast)] ∧
    (fire5 t .broadcast).delivery = .broadcast ∧ (firing (routed (listed record5)) (fire5 t .broadcast)).router.PoolLaw :=
  ⟨rfl, rfl, poolLaw_listed _⟩

theorem not_listsMatch_initial (p : Port) (q : FireRequest) : ¬ Router.initial.ListsMatch p q := by
  rintro ⟨h, x, hm, _⟩
  simp [Router.queue, Router.initial] at hm

theorem listsMatch_listed (x : Notice) (t : PortSet) (d : Delivery) (hx : x.Matches (fire5 t d)) :
    (listed x).ListsMatch 0 (fire5 t d) :=
  ⟨14, x, by rw [listed_queue]; simp, by rw [listed_notice]; simp, hx⟩

/-- Every record of the pool in use (listed for no port) or free. -/
def pool (x : Option Notice) : Router := { Router.initial with pool := Vector.replicate 64 x }

/-- Case 1 (a listed CLAIM record), case 3 (a listed BROADCAST record of a target), and case 2 with every target open. -/
theorem test_witness_ClaimFire :
    ((firing (routed (listed claim5)) (fire5 1 .claim)).calendar.toRouter = [.fire (fire5 1 .claim)] ∧
      (listed claim5).PoolLaw ∧ (listed claim5).OrderLaw ∧ (listed claim5).ListsClaim (fire5 1 .claim) 14 claim5) ∧
    ((listed record5).PoolLaw ∧ (listed record5).OrderLaw ∧ (∀ h x, ¬ (listed record5).ListsClaim (fire5 3 .claim) h x) ∧
      (listed record5).ListsMatch 0 (fire5 3 .claim) ∧ hasPort (fire5 3 .claim).targets 0 = true ∧
      hasPort (fire5 3 .claim).targets 1 = true ∧ (∀ p, p ≠ 0 → (listed record5).queue p = [])) ∧
    (Router.initial.PoolLaw ∧ Router.initial.OrderLaw ∧ (∀ h x, ¬ Router.initial.ListsClaim (fire5 15 .claim) h x) ∧
      (∀ p, ¬ Router.initial.ListsMatch p (fire5 15 .claim)) ∧ (∀ p, hasPort (fire5 15 .claim).targets p = true) ∧
      (opened.port 3).session = .opened ∧ Router.initial.LowestFree 0) := by
  refine ⟨⟨rfl, poolLaw_listed _, orderLaw_listed _, by rw [listed_notice]; rfl, ⟨rfl, rfl, rfl⟩, by decide, 0, ?_⟩,
    ⟨poolLaw_listed _, orderLaw_listed _, ?_, listsMatch_listed _ _ _ ⟨rfl, rfl, rfl⟩, by decide, by decide, ?_⟩,
    poolLaw_initial, orderLaw_initial, ?_, fun p => not_listsMatch_initial p _, by decide, by decide +kernel, ?_⟩
  · rw [listed_queue]; simp
  · rintro h x ⟨hx, _, ho, _⟩
    rw [listed_notice] at hx
    split at hx
    · cases hx
      exact ho rfl
    · cases hx
  · intro p hp
    rw [listed_queue, if_neg hp]
  · rintro h x ⟨hx, _⟩
    simp [Router.notice, Router.initial] at hx
  · exact ⟨by simp [Router.notice, Router.initial], by simp⟩

theorem test_witness_Purge :
    (onCal (routed (listed record5)) fun c => { c with toRouter := [.purge 5 1] }).calendar.toRouter = [.purge 5 1] ∧
    (listed record5).notice 14 = some record5 ∧ 14 ∈ (listed record5).queue 0 ∧ (∀ p, 14 ∉ (served record5).queue p) :=
  ⟨rfl, by rw [listed_notice]; rfl, by rw [listed_queue]; simp, fun p => by rw [served_queue]; simp⟩

theorem listed_setting (x : Notice) (p : Port) : (listed x).setting p = ServiceSettings.defaults := by
  show Router.initial.setting p = _
  simp [Router.setting, Router.initial]

theorem fetchable_listed (x : Notice) : (listed x).Fetchable 0 [] 14 [] where
  queue := by rw [listed_queue]; rfl
  masked := by simp
  unmasked := by rw [listed_setting]; simp [ServiceSettings.defaults]
  urgent := by rw [listed_stack]; simp
  room := by rw [listed_stack]; simp

theorem test_witness_FetchAndPeek :
    (∀ x r, (asks (routed (listed x)) 0 r).CanServe 0 0 1 r [] ∧ (listed x).PoolLaw ∧ (listed x).Fetchable 0 [] 14 [] ∧
      (listed x).notice 14 = some x) ∧
    (∀ r, (asks (routed Router.initial) 0 r).CanServe 0 0 1 r []) ∧ Router.initial.NotFetchable 0 .empty ∧
    ((listed record5).setSetting 0 { ServiceSettings.defaults with mask := 8 }).NotFetchable 0 .masked ∧
    ((listed record5).setStack 0 [14]).NotFetchable 0 .blocked ∧
    ((((listed record5).setNotice 0 (some { record5 with cls := 4 })).setStack 0 [0, 0, 0, 0]).NotFetchable 0 .full) := by
  refine ⟨fun x r => ⟨serves_routed _ _, poolLaw_listed _, fetchable_listed _, by rw [listed_notice]; rfl⟩,
    fun r => serves_routed _ _, .empty (by simp [Router.queue, Router.initial]), .masked ?_ ?_, .blocked [] 14 [] 14 ⟨?_, ?_, ?_⟩ ?_ ?_,
    .full [] 14 [] 0 ⟨?_, ?_, ?_⟩ ?_ ?_ ?_ ?_⟩ <;> decide +kernel

theorem test_witness_Done (x : Notice) (b : Byte) :
    (asks (routed (served x)) 0 (.done b)).CanServe 0 0 1 (.done b) [] ∧ (served x).PoolLaw ∧
    (served x).stack 0 = [] ++ 14 :: [] ∧ (14 : Byte).toNat = (14 : Handle).val ∧ (served x).notice 14 = some x ∧
    (63 : Byte).toNat = (63 : Handle).val ∧ 63 ∉ (served x).stack 0 ∧ 64 ≤ (64 : Byte).toNat ∧ 64 ≤ (254 : Byte).toNat ∧
    ((asks (routed (listed x)) 0 (.done b)).CanServe 0 0 1 (.done b) [] ∧ (listed x).stack 0 = []) :=
  ⟨serves_routed _ _, poolLaw_served _, by rw [served_stack]; rfl, rfl, by rw [served_notice]; rfl, rfl,
    by rw [served_stack]; decide, by decide, by decide, serves_routed _ _, listed_stack _ _⟩

/-- Record 14 in service at P0 and a match listed for P1, which is a candidate and open; and the same with no match. -/
theorem test_witness_Decline :
    (∀ r b, (asks (routed r) 0 (.decline b)).CanServe 0 0 1 (.decline b) []) ∧ 64 ≤ (64 : Byte).toNat ∧
    (63 : Byte).toNat = (63 : Handle).val ∧ 63 ∉ (served claim5).stack 0 ∧
    (14 ∈ (served record5).stack 0 ∧ (served record5).notice 14 = some record5) ∧
    (14 ∈ (served claim5).stack 0 ∧ (served claim5).notice 14 = some claim5 ∧ (served claim5).PoolLaw ∧ (served claim5).OrderLaw) ∧
    (hasPort 15 1 = true ∧ hasPort 0 1 = false ∧ (opened.port 1).session = .opened ∧ ((served claim5).queue 1).length < 16) ∧
    (15 ∈ (((served claim5).setNotice 15 (some record5)).setQueue 1 [15]).queue 1 ∧
      (((served claim5).setNotice 15 (some record5)).setQueue 1 [15]).notice 15 = some record5) ∧
    ∀ q, hasPort 1 q = true → q = 0 := by
  refine ⟨fun r b => serves_routed _ _, by decide, rfl, by rw [served_stack]; decide, ⟨by rw [served_stack]; decide,
    by rw [served_notice]; rfl⟩, ⟨by rw [served_stack]; decide, by rw [served_notice]; rfl, poolLaw_served _, orderLaw_served _⟩,
    ⟨by decide, by decide, by decide +kernel, by rw [served_queue]; decide⟩, by decide +kernel, by decide⟩

theorem test_witness_ServiceSet (x : Router) (mask a l : Byte) :
    (asks (routed x) 0 (.serviceSet mask a l)).CanServe 0 0 1 (.serviceSet mask a l) [] ∧ 2 ≤ (2 : Byte).toNat ∧
    (1 : Byte).toNat < 2 ∧ (served record5).stack 0 ≠ [] ∧ (listed record5).stack 0 = [] :=
  ⟨serves_routed _ _, by decide, by decide, by rw [served_stack]; decide, listed_stack _ _⟩

theorem test_witness_Teardown (x : Notice) :
    ((ending (routed (listed x)) 0).port 0).toRouter = [.sessionEnd 1] ∧ ((ending (routed (listed x)) 0).port 0).session = .closed ∧
    (listed x).PoolLaw ∧ (listed x).notice 14 = some x ∧ 14 ∈ (listed x).queue 0 ∧ (∀ q, q ≠ 0 → 14 ∉ (listed x).queue q) ∧
    (served x).PoolLaw ∧ 14 ∈ (served x).stack 0 := by
  refine ⟨by simp [ending, onPort], by simp [ending, onPort], poolLaw_listed _, by rw [listed_notice]; rfl, by rw [listed_queue]; simp,
    fun q hq => by rw [listed_queue, if_neg hq]; simp, poolLaw_served _, by rw [served_stack]; simp⟩

theorem framed_framed (s : State) (code e q : Byte) (payload : List Byte) (hl : payload.length ≤ 40)
    (hx : (s.port 0).executing = none) (hr : (s.port 0).response = none) :
    ((framed s code e q payload).port 0).Framed code e q payload := by
  constructor <;> simp [framed, onPort, hl, hx, hr]

theorem test_witness_OpenAndClose :
    (((framed opened 1 0 7 []).port 0).Framed 1 0 7 [] ∧ ((framed opened 1 0 7 []).port 0).session = .opened) ∧
    (((framed State.reset 1 0 7 []).port 0).Framed 1 0 7 [] ∧ ((framed State.reset 1 0 7 []).port 0).session = .closed ∧
      ((framed State.reset 1 0 7 []).port 0).pendingTeardowns = 0) ∧
    (∀ k, ((framed (onPort State.reset 0 fun u => { u with pendingTeardowns := k }) 1 0 7 []).port 0).Framed 1 0 7 [] ∧
      ((framed (onPort State.reset 0 fun u => { u with pendingTeardowns := k }) 1 0 7 []).port 0).pendingTeardowns = k) ∧
    (((framed opened 2 1 7 []).port 0).Framed 2 1 7 [] ∧ ((framed opened 2 1 7 []).port 0).epoch = 1) := by
  refine ⟨⟨framed_framed _ _ _ _ _ (by decide) (by decide +kernel) (by decide +kernel), by decide +kernel⟩,
    ⟨framed_framed _ _ _ _ _ (by decide) (by decide +kernel) (by decide +kernel), by decide +kernel⟩,
    fun k => ⟨framed_framed _ _ _ _ _ (by decide) ?_ ?_, ?_⟩,
    framed_framed _ _ _ _ _ (by decide) (by decide +kernel) (by decide +kernel), by decide +kernel⟩
  · rw [onPort, setPort_port, if_pos rfl]; simp [State.reset, State.port, PortUnit.initial]
  · rw [onPort, setPort_port, if_pos rfl]; simp [State.reset, State.port, PortUnit.initial]
  · simp [framed, onPort]

theorem test_witness_PortStatus (f : Byte) : ((framed opened 3 1 7 [f]).port 0).Framed 3 1 7 [f] ∧
    ((framed State.reset 3 1 7 [f]).port 0).Framed 3 1 7 [f] :=
  ⟨framed_framed _ _ _ _ _ (by simp) (by decide +kernel) (by decide +kernel),
    framed_framed _ _ _ _ _ (by simp) (by decide +kernel) (by decide +kernel)⟩

/-- P0 executes a request under mark 4 that waits for `w`, and message `m` stands at the head of the path back from block `b`. -/
def awaiting (w : Work) (b : Block) (m : FromBlock) : State :=
  (onPort opened 0 fun u => { u with executing := some { mark := 4, code := 3, sequence := 7, work := w } }).setBack b 0 [m]

theorem awaiting_back (w : Work) (b : Block) (m : FromBlock) : (awaiting w b m).back b 0 = [m] := by simp [awaiting]

theorem awaiting_executing (w : Work) (b : Block) (m : FromBlock) :
    ((awaiting w b m).port 0).executing = some { mark := 4, code := 3, sequence := 7, work := w } := by simp [awaiting, onPort]

/-- The parts gathered: none yet, and all but the one that returns. -/
def gathered (a : Option Bool) (n : Option Nat) (l : Option LineSet) : Gathering :=
  { session := { isOpen := true, epoch := 1, refused := 0, checkFailures := 0, badFrames := 0, lostNotices := 0, lostFlag := false },
    authority := a, slots := n, lines := l, notices := none }

theorem test_witness_PortStatusParts :
    (∀ b, ((onPort opened 0 fun u => u.setPath b [.part 4]).port 0).path b = [.part 4] ∧
      (onPort opened 0 fun u => u.setPath b [.part 4]).calendar.busy = .free) ∧
    (∀ g b r m, (awaiting (.gathering g) b (.part m r)).back b 0 = [.part m r] ∧
      ((awaiting (.gathering g) b (.part m r)).port 0).executing = some { mark := 4, code := 3, sequence := 7, work := .gathering g }) ∧
    (gathered none none none).authority = none ∧
    (gathered (some true) (some 0) (some 0)).lines = some 0 := by
  refine ⟨fun b => ⟨?_, rfl⟩, fun g b r m => ⟨awaiting_back _ _ _, awaiting_executing _ _ _⟩, rfl, rfl⟩
  simp [onPort]

theorem test_witness_MessagesAtThePortUnit :
    (∀ w b m, (awaiting w b m).back b 0 = [m] ∧
      ((awaiting w b m).port 0).executing = some { mark := 4, code := 3, sequence := 7, work := w }) ∧
    (∀ b k, ((onPort (awaiting .waitingOpen b .completion) 0 fun u => { u with pendingTeardowns := k }).back b 0 = [.completion]) ∧
      ((onPort (awaiting .waitingOpen b .completion) 0 fun u => { u with pendingTeardowns := k }).port 0).pendingTeardowns = k) := by
  refine ⟨fun w b m => ⟨awaiting_back _ _ _, awaiting_executing _ _ _⟩, fun b k => ⟨?_, by simp [onPort]⟩⟩
  have h := awaiting_back .waitingOpen b .completion
  cases b <;> exact h

/-- R2: a RELATIVE deadline that a time step leaves 2^47 ticks ahead is clamped to the horizon. -/
theorem test_relative_clamped :
    (Slot.stepped 50 (-51) (slotIn (.running (100 - (2 ^ 47 - 1))) (config .once))).status =
      .running (50 + (2 ^ 46 - 1)) := by decide +kernel

/-- PDO: not driven outside a transaction, the next byte in one, 0x00 after the last, and not driven in a reset. -/
theorem test_witness_pdo :
    (opened.pdo 0 = none) ∧
    ((onPort opened 0 fun u => { u with link := .header, out := [65, 0] }).pdo 0 = some 65) ∧
    ((onPort opened 0 fun u => { u with link := .discard }).pdo 0 = some 0) ∧
    ((onPort opened 0 fun u => { u with prstLow := true }).pdo 0 = none) ∧
    { opened with rstnLows := 8 }.pdo 0 = none := by decide +kernel

theorem test_witness_StatusHeader :
    opened.inReset = false ∧ (opened.port 0).prstLow = false ∧ (opened.port 0).link = .idle ∧
    (opened.port 0).alertReport.queueLength ≤ 16 ∧ (opened.port 0).alertReport.stackDepth ≤ 4 := by decide +kernel

/-- P0's link as given. -/
def linked (l : LinkState) (buffer out : List Byte) (shown : Bool) : State :=
  onPort opened 0 fun u => { u with
    link := l, buffer := buffer, out := out, shownReady := shown,
    response := some { code := 0, outcome := .ok, sequence := 0, payload := [] } }

theorem test_witness_LinkTransaction :
    (FrameGrowing [] ∧ FrameGrowing [1, 2, 3] ∧ FrameGrowing ([1, 2, 3, 40] ++ List.replicate 40 0) ∧
      ¬ FrameGrowing ([1, 2, 3, 40] ++ List.replicate 41 0)) ∧
    (∀ b, ((onPort opened 0 fun u => { u with link := .request, buffer := b }).port 0).executing = none ∧
      ((onPort opened 0 fun u => { u with link := .request, buffer := b }).port 0).response = none) ∧
    (∀ l b o h, ((linked l b o h).port 0).link = l ∧ ((linked l b o h).port 0).buffer = b ∧ ((linked l b o h).port 0).out = o ∧
      ((linked l b o h).port 0).shownReady = h) ∧
    ([9] : List Byte).length = 1 ∧ ([9, 9] : List Byte).length ≠ 1 := by
  refine ⟨⟨Or.inl (by decide), Or.inl (by decide), Or.inr ⟨40, rfl, by decide, by decide⟩, ?_⟩, fun b => ?_, fun l b o h => ?_,
    by decide⟩
  · rintro (h | ⟨n, hn, _, h⟩)
    · exact absurd h (by decide)
    · cases hn
      exact absurd h (by decide)
  · have h : opened.port 0 = { PortUnit.initial with session := .opened, epoch := 1 } := by simp [State.port, opened]
    simp [onPort, h, PortUnit.initial]
  · simp [linked, onPort]

theorem test_witness_RequestFrame :
    (∀ b, ((linked .request b [] false).port 0).link = .request ∧ ((linked .request b [] false).port 0).response ≠ none) ∧
    (∀ b, ((onPort opened 0 fun u => { u with link := .request, buffer := b }).port 0).buffer = b) ∧
    (((onPort opened 0 fun u => { u with link := .request }).port 0).executing = none ∧
      ((onPort opened 0 fun u => { u with link := .request }).port 0).response = none) ∧
    (FrameOverlong [1, 2, 3, 41] ∧ ¬ FrameGrowing [1, 2, 3, 41] ∧ FrameGrowing [1, 2, 3, 0]) ∧
    (0 : Byte) ≠ checkByte ([1, 1, 7, BitVec.ofNat 8 0] ++ []) ∧
    (∀ code e, ((framed opened code e 7 []).port 0).Framed code e 7 [] ∧ ((framed State.reset code e 7 []).port 0).Framed code e 7 []) ∧
    Command.ofCode 0 = none ∧ (Command.ofCode 0x11 = some .fetch ∧ Command.fetch.payloadLength = 0 ∧
      Command.fetch.request [] = some (.router, .fetch)) ∧
    (Command.ofCode 0x10 = some .serviceSet ∧ Command.serviceSet.payloadLength ≠ 0) := by
  refine ⟨fun b => ?_, fun b => ?_, by decide +kernel, ⟨⟨41, rfl, by decide⟩, ?_, Or.inr ⟨0, rfl, by decide, by decide⟩⟩,
    by decide +kernel,
    fun code e => ⟨framed_framed _ _ _ _ _ (by decide) (by decide +kernel) (by decide +kernel),
      framed_framed _ _ _ _ _ (by decide) (by decide +kernel) (by decide +kernel)⟩, by decide +kernel⟩
  · simp [linked, onPort]
  · simp [onPort]
  · rintro (h | ⟨n, hn, h, _⟩)
    · exact absurd h (by decide)
    · cases hn
      exact absurd h (by decide)

theorem test_witness_ConfigurationRoundTrip : (config .gated).Legal := legal_config _

/-- Sessions OPEN, and a session that ends with an OPEN waiting and an ORPHANED request on its way. -/
theorem test_witness_StepKeepsPortLaws :
    (∀ p, (opened.port p).AlertLaw ∧ (opened.port p).HolderLaw) ∧ step opened = .next opened.refclkPeriod ∧
    (∀ p, (reopening.port p).AlertLaw ∧ (reopening.port p).HolderLaw) ∧ reopening.calendar.SlotLaw ∧ reopening.TeardownLaw ∧
    reopening.ResetLinkLaw ∧ step reopening = .next reopening.refclkPeriod := by
  have ho : ∀ p, opened.port p = { PortUnit.initial with session := .opened, epoch := 1 } := fun p => by simp [State.port, opened]
  have hc : ∀ n, reopening.calendar.slot n = Slot.initial := fun n => by
    simp [Calendar.slot, reopening, onPort, onCal, State.setPort, State.reset, Calendar.initial]
  have hl : ∀ i, reopening.lines.record i = LineRecord.initial := fun i => by
    simp [LineUnit.record, reopening, onPort, onCal, State.setPort, State.reset, LineUnit.initial]
  refine ⟨fun p => ?_, rfl, ?_, ⟨fun n => ?_, fun w hw => ?_⟩, fun p => ⟨?_, ?_, ?_, ?_, ?_, ?_, Or.inr ?_, ?_⟩, ?_, rfl⟩
  · rw [ho]
    exact ⟨by simp [PortUnit.AlertLaw, PortUnit.initial, AlertReport.quiet], Or.inl rfl, by decide, by simp [PortUnit.initial]⟩
  · unfold PortUnit.AlertLaw PortUnit.HolderLaw
    intro p
    by_cases hp : p = 0
    · subst hp
      refine ⟨by decide +kernel, by decide +kernel, by decide +kernel, fun x hx hw => by decide +kernel⟩
    · have hr : reopening.port p = PortUnit.initial := by
        simp [reopening, onPort, onCal, State.port, State.setPort, State.reset, hp]
      rw [hr]
      exact ⟨by simp [PortUnit.initial, AlertReport.quiet], Or.inl rfl, by decide, by simp [PortUnit.initial]⟩
  · rw [hc]
    exact ⟨⟨rfl, rfl⟩, fun h => absurd rfl h, legal_initial⟩
  · cases hw
  · revert p
    decide +kernel
  · revert p
    decide +kernel
  · revert p
    decide +kernel
  · intro h
    cases h
  · intro n h
    rw [hc] at h
    cases h
  · intro i h
    rw [hl] at h
    cases h
  · revert p
    decide +kernel
  · intro q hq ht
    obtain rfl : q = { fire5 1 .claim with kind := .orphaned, tie := some (.ended 0) } := by
      have h : RouterRequest.fire q = .fire { fire5 1 .claim with kind := .orphaned, tie := some (.ended 0) } :=
        List.mem_singleton.1 hq
      injection h
    cases ht
  · unfold State.ResetLinkLaw
    decide +kernel

theorem test_witness_StepKeepsTimebaseAndLineLaws :
    (slewing (some { write := .tick 65536, issuer := 0 }) .lose 2).timebase.RangeLaw ∧
    (∀ i, ((line3 0).lines.record i).HeldLaw) ∧ step (slewing none .gain 2) = .next (slewing none .gain 2).refclkPeriod := by
  refine ⟨⟨by decide, by decide, by decide, by decide, fun _ => by decide, ?_⟩, ?_, rfl⟩
  · intro w hw
    cases hw
    decide
  · unfold LineRecord.HeldLaw
    decide +kernel

theorem test_witness_StepKeepsCalendarLaws :
    (slot5 (slotIn (.running 100) (config .repeat))).calendar.Lawful ∧
    step (slot5 (slotIn (.running 100) (config .repeat))) = .next (slot5 (slotIn (.running 100) (config .repeat))).refclkPeriod := by
  refine ⟨⟨dueExact_cal5 _, dueSorted_cal5 _, slotLaw_slotIn (show Mode.repeat ≠ Mode.count by decide), ?_,
    fun _ h => absurd h List.not_mem_nil⟩, rfl⟩
  intro n hm
  have : ((cal5 (slotIn (.running 100) (config .repeat))).slot n).config.mode = .gated := hm
  rw [cal5_slot] at this
  split at this <;> cases this

/-- A RETRIGGER slot 10 ticks before its deadline, with the ticks 101 and 103 and a step back to 60 on their way to the Calendar. -/
def onTheWay : State :=
  onTime (slot5 (slotIn (.running 110) (config .retrigger))) fun b =>
    { b with time := 60, toCalendar := [.tick 101, .tick 103, .step 103 60 (-44)],
             pendingWrite := some { write := .set 61, issuer := 0 } }

theorem test_witness_StepKeepsHorizonLaws :
    onTheWay.calendar.Lawful ∧ onTheWay.TimeLaw ∧ onTheWay.calendar.HorizonLaw ∧ step onTheWay = .next onTheWay.refclkPeriod := by
  refine ⟨⟨dueExact_cal5 _, dueSorted_cal5 _, slotLaw_slotIn (show Mode.retrigger ≠ Mode.count by decide), ?_,
    fun _ h => absurd h List.not_mem_nil⟩, ⟨fun _ => ?_, ?_, ?_⟩, fun n => ?_, rfl⟩
  · intro n hm
    have : ((cal5 (slotIn (.running 110) (config .retrigger))).slot n).config.mode = .gated := hm
    rw [cal5_slot] at this
    split at this <;> cases this
  · exact ⟨Or.inl rfl, Or.inr rfl, rfl, by decide, by decide, rfl⟩
  · intro h
    cases h
  · intro v q h
    cases h
    decide
  · show (∀ d, ((cal5 (slotIn (.running 110) (config .retrigger))).slot n).status = .running d → _ → _) ∧
      ∀ r, ((cal5 (slotIn (.running 110) (config .retrigger))).slot n).status = .paused r → _
    rw [cal5_slot]
    split
    · refine ⟨fun d hd _ => ?_, fun r hr => ?_⟩
      · cases hd
        exact Or.inl (by decide +kernel)
      · cases hr
    · exact ⟨fun d (hd : SlotStatus.free = _) _ => (nomatch hd), fun r (hr : SlotStatus.free = _) => (nomatch hr)⟩

theorem test_witness_StepKeepsRouterLaws (x : Notice) :
    (routed (listed x)).router.Lawful ∧ (routed (listed x)).ReportLaw ∧
    step (routed (listed x)) = .next (routed (listed x)).refclkPeriod := by
  refine ⟨⟨fun p => ?_, poolLaw_listed _, orderLaw_listed _⟩, fun p => ⟨?_, fun a ha => ?_⟩, rfl⟩
  on_goal 2 => simp [routed, opened, State.port, PortUnit.initial, AlertReport.quiet, AlertReport.Sized]
  on_goal 2 =>
    have hb : (routed (listed x)).router.back[p] = [] := by
      simp [routed, listed, Router.setQueue, Router.setNotice, Router.initial]
    rw [hb] at ha
    cases ha
  show ((listed x).queue p).length ≤ 16 ∧ ((listed x).stack p).length ≤ 4 ∧ (((listed x).setting p).autoDone = true → (listed x).stack p = [])
  rw [listed_queue, listed_stack]
  split <;> simp

end Sys2Proof.Tests
end

section
/-! PROOFS. TIME_READ, TIME_CLAIM, TIME_RELEASE and TIME_WITHDRAW (R7, R8, R9, R14): the Timebase's answer case by case, and the
statements assembled from the answers. -/

namespace Sys2Proof.Machine

/-! ### How the Timebase answers -/

theorem timebase_send_outcome (t : Timebase) (p : Port) (m : Nat) (o : OutcomeCode) (f : Payload) :
    t.send p (.outcome m { outcome := o, payload := f }) = { t with back := answered t.back p m o f } := rfl

theorem timebase_send_bare (t : Timebase) (p : Port) (m : Nat) (o : OutcomeCode) :
    t.send p (.outcome m (Reply.bare o)) = { t with back := answered t.back p m o .empty } := rfl

/-- A refusal is the bare outcome sent from the Timebase as it stands. -/
theorem refuses_timebase (s : State) (p : Port) (m : Nat) (rest : List ToBlock) (o : OutcomeCode) :
    s.refuses .timebase p m rest o =
      { s.afterTaking .timebase p rest with timebase := s.timebase.send p (.outcome m (Reply.bare o)) } := rfl

/-! ### The requests at the Timebase, one equation per case -/

theorem claim_of_free {t : Timebase} (p : Port) (ha : t.authority = none) :
    t.claim p = ({ t with authority := some p }, Reply.bare .ok) := by
  simp only [Timebase.claim, ha]

theorem claim_of_holder {t : Timebase} {p : Port} (ha : t.authority = some p) : t.claim p = (t, Reply.bare .ok) := by
  simp only [Timebase.claim, ha, if_true]

theorem claim_of_other_holder {t : Timebase} {p q : Port} (hq : q ≠ p) (ha : t.authority = some q) :
    t.claim p = (t, Reply.bare .heldByOther) := by
  simp only [Timebase.claim, ha, if_neg hq]

theorem release_of_holder {t : Timebase} {p : Port} (ha : t.authority = some p) :
    t.release p = ({ t with authority := none }, Reply.bare .ok) := if_pos ha

theorem release_of_not_holder {t : Timebase} {p : Port} (ha : t.authority ≠ some p) :
    t.release p = (t, Reply.bare .notAuthority) := if_neg ha

theorem withdraw_of_not_holder {t : Timebase} {p : Port} (ha : t.authority ≠ some p) :
    t.withdraw p = (t, Reply.bare .notAuthority) := if_pos ha

theorem withdraw_of_not_pending {t : Timebase} {p : Port} (ha : t.authority = some p) (hw : t.pendingWrite = none) :
    t.withdraw p = (t, Reply.bare .notPending) := by
  simp [Timebase.withdraw, ha, hw]

theorem withdraw_of_pending {t : Timebase} {p : Port} (ha : t.authority = some p) (hw : t.pendingWrite ≠ none) :
    t.withdraw p = ({ t with pendingWrite := none }, Reply.bare .ok) := by
  simp [Timebase.withdraw, ha, Option.isSome_iff_ne_none.mpr hw]

/-! ### The statements -/

section
variable {s : State} {p : Port} {m : Nat} {e : Byte} {rest : List ToBlock}

/-- R8: a free authority goes to the claiming port. -/
theorem exec_timeClaim_of_free (hc : s.CanServe p m e .timeClaim rest) (ha : s.timebase.authority = none) :
    exec (.timeClaim p) s = .next { s.afterTaking .timebase p rest with
      timebase := { s.timebase with authority := some p, back := answered s.timebase.back p m .ok .empty } } := by
  rw [exec_timeClaim_of_canServe hc, claim_of_free p ha, timebase_send_bare]

/-- R8: the holder's own claim is OK and moves nothing. -/
theorem exec_timeClaim_of_holder (hc : s.CanServe p m e .timeClaim rest) (ha : s.timebase.authority = some p) :
    exec (.timeClaim p) s = .next { s.afterTaking .timebase p rest with
      timebase := { s.timebase with back := answered s.timebase.back p m .ok .empty } } := by
  rw [exec_timeClaim_of_canServe hc, claim_of_holder ha, timebase_send_bare]

/-- R8: a claim is refused while another port holds the authority. -/
theorem exec_timeClaim_of_other_holder {q : Port} (hc : s.CanServe p m e .timeClaim rest) (hq : q ≠ p)
    (ha : s.timebase.authority = some q) :
    exec (.timeClaim p) s = .next (s.refuses .timebase p m rest .heldByOther) := by
  rw [exec_timeClaim_of_canServe hc, claim_of_other_holder hq ha, refuses_timebase]

/-- R9: the holder's release frees the authority. -/
theorem exec_timeRelease_of_holder (hc : s.CanServe p m e .timeRelease rest) (ha : s.timebase.authority = some p) :
    exec (.timeRelease p) s = .next { s.afterTaking .timebase p rest with
      timebase := { s.timebase with authority := none, back := answered s.timebase.back p m .ok .empty } } := by
  rw [exec_timeRelease_of_canServe hc, release_of_holder ha, timebase_send_bare]

/-- R9: any other port's release is refused. -/
theorem exec_timeRelease_of_not_holder (hc : s.CanServe p m e .timeRelease rest) (ha : s.timebase.authority ≠ some p) :
    exec (.timeRelease p) s = .next (s.refuses .timebase p m rest .notAuthority) := by
  rw [exec_timeRelease_of_canServe hc, release_of_not_holder ha, refuses_timebase]

/-- R7: the snapshot is answered, and the Timebase stands as it was. -/
theorem exec_timeRead_answers_snapshot (hc : s.CanServe p m e .timeRead rest) :
    exec (.timeRead p) s = .next { s.afterTaking .timebase p rest with
      timebase := { s.timebase with back := answered s.timebase.back p m .ok (.time s.timebase.snapshot) } } := by
  rw [exec_timeRead_of_canServe hc, Timebase.read, timebase_send_outcome]

/-- R14: a withdrawal by a port without the authority is refused. -/
theorem exec_timeWithdraw_of_not_holder (hc : s.CanServe p m e .timeWithdraw rest) (ha : s.timebase.authority ≠ some p) :
    exec (.timeWithdraw p) s = .next (s.refuses .timebase p m rest .notAuthority) := by
  rw [exec_timeWithdraw_of_canServe hc, withdraw_of_not_holder ha, refuses_timebase]

/-- R14: the holder's withdrawal is refused when no write is pending. -/
theorem exec_timeWithdraw_of_not_pending (hc : s.CanServe p m e .timeWithdraw rest) (ha : s.timebase.authority = some p)
    (hw : s.timebase.pendingWrite = none) :
    exec (.timeWithdraw p) s = .next (s.refuses .timebase p m rest .notPending) := by
  rw [exec_timeWithdraw_of_canServe hc, withdraw_of_not_pending ha hw, refuses_timebase]

/-- R14: the holder's withdrawal discards the pending write. -/
theorem exec_timeWithdraw_of_pending (hc : s.CanServe p m e .timeWithdraw rest) (ha : s.timebase.authority = some p)
    (hw : s.timebase.pendingWrite ≠ none) :
    exec (.timeWithdraw p) s = .next { s.afterTaking .timebase p rest with
      timebase := { s.timebase with pendingWrite := none, back := answered s.timebase.back p m .ok .empty } } := by
  rw [exec_timeWithdraw_of_canServe hc, withdraw_of_pending ha hw, timebase_send_bare]

end

/-- Settles O10, case by case on who holds the authority. -/
theorem timeAuthority : Obligations.TimeAuthority := by
  intro s p m e rest
  refine ⟨fun hc => ⟨?free, ?held, ?other⟩, fun hc => ⟨?holder, ?notHolder⟩⟩
  case free => exact exec_timeClaim_of_free hc
  case held => exact exec_timeClaim_of_holder hc
  case other => exact fun q => exec_timeClaim_of_other_holder hc
  case holder => exact exec_timeRelease_of_holder hc
  case notHolder => exact exec_timeRelease_of_not_holder hc

/-- Settles O11, case by case on the authority and the pending write. -/
theorem timeReadAndWithdraw : Obligations.TimeReadAndWithdraw := by
  intro s p m e rest
  refine ⟨fun hc => ?read, fun hc => ⟨?notHolder, ?notPending, ?pending⟩⟩
  case read => exact exec_timeRead_answers_snapshot hc
  case notHolder => exact exec_timeWithdraw_of_not_holder hc
  case notPending => exact exec_timeWithdraw_of_not_pending hc
  case pending => exact exec_timeWithdraw_of_pending hc

end Sys2Proof.Machine
end

section
/-! PROOFS. The slot table after POWER_ON (R42): what the state after power-on holds, part by part, and the statement read off it. -/

namespace Sys2Proof.Machine

/-- POWER_ON answers the state after power-on, with the commands that wait. -/
theorem exec_powerOn (s : State) : exec .powerOn s = .next { State.reset with pending := s.pending } := rfl

/-! ### The state after power-on, part by part -/

/-- R42: the table holds the initial record at every slot. -/
theorem initial_slot (n : SlotNo) : Calendar.initial.slot n = Slot.initial := Vector.getElem_replicate n.isLt

/-- R134, R146: the four Port Units are alike. Stated over the queue of commands, which POWER_ON keeps. -/
theorem reset_port (l : List Instr) (p : Port) : { State.reset with pending := l }.port p = PortUnit.initial :=
  Vector.getElem_replicate p.isLt

/-- R134: no session is open. -/
theorem reset_not_isOpen (l : List Instr) (p : Port) : { State.reset with pending := l }.isOpen p = false := by
  rw [State.isOpen, reset_port]
  rfl

/-- R42: the initial record is that of a FREE slot, with the allocation defaults (R22) but no targets. -/
theorem slot_initial_eq :
    Slot.initial =
      { status := .free, generation := 0, owner := none,
        config :=
          { mode := .once, period := 1, window := 1, count := 1, line := none, gate := .high, anchor := .relative,
            pin := none, action := .pulse, cls := 7, targets := 0, delivery := .broadcast, policy := .release, tag := 0 },
        fires := 0, lost := 0, undelivered := 0, fired := false, left := Slot.initial.left } := rfl

/-! ### The statement -/

/-- Settles O4: POWER_ON's answer, read slot by slot and port by port. -/
theorem slotsAtPowerOn : Obligations.SlotsAtPowerOn := by
  intro s
  refine ⟨_, exec_powerOn s, rfl, fun n => ?slot, rfl, fun p => ⟨reset_not_isOpen _ p, ?path⟩⟩
  case slot => exact initial_slot n ▸ slot_initial_eq
  case path => rw [reset_port]; rfl

end Sys2Proof.Machine
end

section
/-! PROOFS. The Notice Router after POWER_ON (R112): what each table of the Router holds then, and the statement read off it. -/

namespace Sys2Proof.Machine

/-! ### The tables of the Router after power-on -/

/-- R112: every record of the pool is free. -/
@[simp] theorem initial_notice (h : Handle) : Router.initial.notice h = none := Vector.getElem_replicate h.isLt

/-- R112: every queue is empty. -/
@[simp] theorem initial_queue (p : Port) : Router.initial.queue p = [] := Vector.getElem_replicate p.isLt

/-- R112: every in-service stack is empty. -/
@[simp] theorem initial_stack (p : Port) : Router.initial.stack p = [] := Vector.getElem_replicate p.isLt

/-- R112, R114: every port has the default settings. -/
@[simp] theorem initial_setting (p : Port) : Router.initial.setting p = ServiceSettings.defaults :=
  Vector.getElem_replicate p.isLt

/-! ### The statement -/

/-- Settles O5: POWER_ON's answer, read record by record and port by port; R114's defaults are those written out there. -/
theorem routerAtPowerOn : Obligations.RouterAtPowerOn := by
  intro s
  refine ⟨_, exec_powerOn s, rfl, initial_notice, fun p => ⟨?queue, ?stack, ?setting, ?session⟩, rfl⟩
  case queue => exact initial_queue p
  case stack => exact initial_stack p
  case setting => exact initial_setting p
  case session => exact reset_not_isOpen s.pending p

end Sys2Proof.Machine
end

section
/-! PROOFS. What a command can do: every command answers a next state that stands to the state before it in one of the ways of
`Effect`. The invariants of the part are proved by cases on these ways. -/

namespace Sys2Proof.Machine

/-! ### What a block does with a request -/

/-- What the Timebase does with a request of `p` that is its own (R7 to R14). -/
def Request.onTimebase (p : Port) : Request → Timebase → Timebase × Reply
  | .timeRead => Timebase.read
  | .timeClaim => Timebase.claim p
  | .timeRelease => Timebase.release p
  | .timeSet v => Timebase.accept p (.set v)
  | .timeAdjust a sp => Timebase.accept p (.adjust a sp)
  | .timeTick d => Timebase.accept p (.tick d)
  | .timeWithdraw => Timebase.withdraw p
  | _ => fun t => (t, Reply.bare .none)

/-- What the Calendar does with a request of `p` that is its own (chapters 2 and 3). -/
def Request.onCalendar (p : Port) : Request → Nat → Calendar → Calendar
  | .slotAllocate b => Calendar.allocate p b
  | .slotConfigure h f => Calendar.withSlot p .modify h (Calendar.configure p f)
  | .slotArm h kind value startNow => Calendar.withSlot p .modify h (Calendar.arm p kind value startNow)
  | .slotDisarm h purge => Calendar.withSlot p .modify h (Calendar.disarm p purge)
  | .slotTouch h => Calendar.withSlot p .modify h (Calendar.touch p)
  | .slotRelease h => Calendar.withSlot p .modify h (Calendar.release p)
  | .slotAdopt h => Calendar.withSlot p .adopt h (Calendar.adopt p)
  | .slotQuery h => Calendar.withSlot p .query h (Calendar.query p)
  | _ => fun _ c => c

/-- What the Notice Router does with a request of `p` that is its own (chapter 6). -/
def Request.onRouter (p : Port) : Request → (Port → Bool) → Router → Router × Reply
  | .serviceSet mask a l => Router.serviceSet p mask a l
  | .fetch => Router.fetch p
  | .peek => Router.peek p
  | .done h => Router.complete p h
  | .decline h => Router.decline p h
  | _ => fun _ r => (r, Reply.bare .none)

/-- What the Line Unit does with a request of `p` that is its own (section 4.3). -/
def Request.onLine (p : Port) : Request → LineUnit → LineUnit × Reply
  | .lineClaim b => LineUnit.withLine p false b (LineUnit.claim p)
  | .lineRelease b => LineUnit.withLine p true b LineUnit.release
  | .lineConfig b sense filter => LineUnit.withLine p true b (LineUnit.config sense filter)
  | .lineEnable b discard => LineUnit.withLine p true b (LineUnit.enable discard)
  | .lineDisable b => LineUnit.withLine p true b LineUnit.disable
  | .linePulse b => LineUnit.withLine p true b LineUnit.pulse
  | .lineStatus b => LineUnit.withLine p false b LineUnit.status
  | _ => fun l => (l, Reply.bare .none)

section
variable {s : State} {p : Port} {m : Nat} {e : Byte} {r : Request} {rest : List ToBlock}

/-- The command of a request at the head of the path to the Timebase carries it out or refuses it (R136). -/
theorem exec_command_timebase (h : s.heads p m e r rest) (hb : r.block = .timebase) :
    exec (r.command p) s =
      if s.sessionIs p e then
        .next { s.afterTaking .timebase p rest with
          timebase := (r.onTimebase p s.timebase).1.send p (.outcome m (r.onTimebase p s.timebase).2) }
      else .next (s.refuses .timebase p m rest .staleSession) := by
  cases r
  all_goals first
    | simp only [Request.command, exec, execTimeRead, execTimeClaim, execTimeRelease, execTimeSet, execTimeAdjust, execTimeTick, execTimeWithdraw]
      exact serveTimebase_of_heads h rfl rfl
    | cases hb

/-- The command of a request at the head of the path to the free Calendar carries it out or refuses it (R136). -/
theorem exec_command_calendar (h : s.heads p m e r rest) (hb : r.block = .calendar) (hf : s.calendar.busy = .free) :
    exec (r.command p) s =
      if s.sessionIs p e then .next { s.afterTaking .calendar p rest with calendar := r.onCalendar p m s.calendar }
      else .next (s.refuses .calendar p m rest .staleSession) := by
  cases r
  all_goals first
    | simp only [Request.command, exec, execSlotAllocate, execSlotConfigure, execSlotArm, execSlotDisarm, execSlotTouch, execSlotRelease, execSlotAdopt,
      execSlotQuery]
      exact serveCalendar_of_heads h rfl hf rfl
    | cases hb

/-- The command of a request at the head of the path to the Notice Router carries it out or refuses it (R136). -/
theorem exec_command_router (h : s.heads p m e r rest) (hb : r.block = .router) :
    exec (r.command p) s =
      if s.sessionIs p e then
        .next { s.afterTaking .router p rest with
          router := (Router.reportFrom s.router true none (r.onRouter p s.isOpen s.router).1).send p
            (.outcome m (r.onRouter p s.isOpen s.router).2) }
      else .next (s.refuses .router p m rest .staleSession) := by
  cases r
  all_goals first
    | simp only [Request.command, exec, execServiceSet, execFetch, execPeek, execDone, execDecline]
      exact serveRouter_of_heads h rfl rfl
    | cases hb

/-- The command of a request at the head of the path to the Line Unit carries it out or refuses it (R136). -/
theorem exec_command_line (h : s.heads p m e r rest) (hb : r.block = .line) :
    exec (r.command p) s =
      if s.sessionIs p e then
        .next { s.afterTaking .line p rest with
          lines := (r.onLine p s.lines).1.send p (.outcome m (r.onLine p s.lines).2) }
      else .next (s.refuses .line p m rest .staleSession) := by
  cases r
  all_goals first
    | simp only [Request.command, exec, execLineClaim, execLineRelease, execLineConfig, execLineEnable, execLineDisable, execLinePulse, execLineStatus]
      exact serveLine_of_heads h rfl rfl
    | cases hb

end

/-! ### The effects of a command -/

/-- What an event at its pins, or a frame that ends, makes of the Port Unit `u` (R144, R148, R152, R156, R160). -/
inductive PortUnit.Event (inReset : Bool) (u : PortUnit) : PortUnit → Prop where
  | select : inReset = false → u.prstLow = false → u.link = .idle → u.Event inReset u.select
  | endFrame : u.link = .request → u.Event inReset u.endFrame
  | beginRead : u.link = .header → u.Event inReset u.beginRead
  | consume : u.link = .read → u.shownReady = true → u.Event inReset u.consume
  | deselect : u.Event inReset u.deselect
  | receive (b : Byte) : u.Event inReset (u.receive b)
  | reset : u.prstLow = false → u.Event inReset u.portReset
  | resetEnd : u.Event inReset { u with prstLow := false }

/-- What a message from a block makes of the Port Unit (R138, R140, R143, R157, R159). -/
def PortUnit.take (u : PortUnit) : FromBlock → PortUnit
  | .outcome m reply => u.takeOutcome m reply
  | .part m report => u.takePartReturn m report
  | .completion => u.takeCompletion
  | .lostNotice => u.countLost
  | .alert report => u.takeAlert report

/-- The ways in which a command takes the state `s` to the state it answers. -/
inductive Effect (s : State) : State → Prop where
  | nothing : Effect s s
  | powerOn : Effect s { State.reset with pending := s.pending }
  | lowSample : s.rstnLows + 1 < 8 → Effect s { s with rstnLows := s.rstnLows + 1 }
  | deviceReset : s.rstnLows = 7 → Effect s { s with rstnLows := s.rstnLows + 1 }.deviceReset
  | highSample : Effect s { s with rstnLows := 0 }
  | atPort (p : Port) (u : PortUnit) : (s.port p).Event s.inReset u → Effect s (s.setPort p u)
  | message (b : Block) (p : Port) (m : FromBlock) (rest : List FromBlock) : s.back b p = m :: rest →
      ((∃ a, m = .alert a) → b = .router) →
      Effect s ((s.setBack b p rest).setPort p ((s.port p).take m))
  | part (b : Block) (p : Port) (m : Nat) (rest : List ToBlock) : (s.port p).path b = .part m :: rest →
      Effect s ((s.afterTaking b p rest).setBack b p (s.back b p ++ [.part m (s.partOf b p)]))
  | stale (b : Block) (p : Port) (m : Nat) (e : Byte) (r : Request) (rest : List ToBlock) :
      (s.port p).path b = .request m e r :: rest → Effect s (s.refuses b p m rest .staleSession)
  | atTimebase (p : Port) (m : Nat) (e : Byte) (r : Request) (rest : List ToBlock) : s.CanServe p m e r rest →
      r.block = .timebase →
      Effect s { s.afterTaking .timebase p rest with
        timebase := (r.onTimebase p s.timebase).1.send p (.outcome m (r.onTimebase p s.timebase).2) }
  | atCalendar (p : Port) (m : Nat) (e : Byte) (r : Request) (rest : List ToBlock) : s.CanServe p m e r rest →
      r.block = .calendar →
      Effect s { s.afterTaking .calendar p rest with calendar := r.onCalendar p m s.calendar }
  | atRouter (p : Port) (m : Nat) (e : Byte) (r : Request) (rest : List ToBlock) : s.CanServe p m e r rest →
      r.block = .router →
      Effect s { s.afterTaking .router p rest with
        router := (Router.reportFrom s.router true none (r.onRouter p s.isOpen s.router).1).send p
          (.outcome m (r.onRouter p s.isOpen s.router).2) }
  | atLine (p : Port) (m : Nat) (e : Byte) (r : Request) (rest : List ToBlock) : s.CanServe p m e r rest →
      r.block = .line →
      Effect s { s.afterTaking .line p rest with
        lines := (r.onLine p s.lines).1.send p (.outcome m (r.onLine p s.lines).2) }
  | timebaseEnd (p : Port) (e : Byte) (rest : List ToBlock) : (s.port p).path .timebase = .sessionEnd e :: rest →
      Effect s { s.afterTaking .timebase p rest with timebase := (s.timebase.endSession p).send p .completion }
  | calendarEnd (p : Port) (e : Byte) (rest : List ToBlock) : s.calendar.busy = .free →
      (s.port p).path .calendar = .sessionEnd e :: rest →
      Effect s { s.afterTaking .calendar p rest with
        calendar := (s.calendar.endSession p s.timebase.toCalendar.length).send p .completion }
  | routerEnd (p : Port) (e : Byte) (rest : List ToBlock) (u : State) : (s.port p).path .router = .sessionEnd e :: rest →
      u = s.afterTaking .router p rest →
      Effect s { u with
        router := (Router.reportFrom s.router true (some p) (s.router.tearDown u.isOpen p)).send p .completion }
  | lineEnd (p : Port) (e : Byte) (rest : List ToBlock) : (s.port p).path .line = .sessionEnd e :: rest →
      Effect s { s.afterTaking .line p rest with lines := (s.lines.endSession p).send p .completion }
  | tick : Effect s { s with timebase := s.timebase.arrive }
  | delivery (d : TimeDelivery) (c : Calendar) : s.delivering = some (d, c) → Effect s (s.finishDelivery d c)
  | fire (n : SlotNo) (d : TimeDelivery) (c : Calendar) : s.delivering = some (d, c) →
      (c.dueAt d.value).head? = some n →
      Effect s { s with calendar := { c.fireIfRunning d.value n with busy := .delivering } }
  | edge (e : LineNo) (k : Nat) : s.edgeInHand = some (e, k) →
      Effect s { s with
        lines := { s.lines with toCalendar := s.lines.toCalendar.tail },
        calendar := { s.calendar.edgeVisit e k 64 with busy := .free } }
  | edgePart (e : LineNo) (k : Nat) (n : SlotNo) : s.edgeInHand = some (e, k) →
      Effect s { s with calendar := { s.calendar.edgeVisit e k (n.val + 1) with busy := .edge (n.val + 1) } }
  | gate (e : LineNo) (v : LineView) (rest : List LineMessage) : s.calendar.busy = .free →
      s.lines.toCalendar = .gate e v.enabled v.level :: rest →
      Effect s { s with lines := { s.lines with toCalendar := rest }, calendar := s.calendar.takeGate e v }
  | count (m : CountReport) (rest : List CountReport) : s.calendar.busy = .free → s.router.toCalendar = m :: rest →
      Effect s { s with router := { s.router with toCalendar := rest }, calendar := s.calendar.count m }
  | sample (levels : LineSet) : s.inReset = false → Effect s { s with lines := s.lines.sampleAll levels }
  | changeLevel (e : LineNo) (level : Bool) : Effect s { s with lines := s.lines.changeLevel e level }
  | binding (granted : Bool) (pins : PinUnit) (m : PinRequest) (rest : List PinRequest) : s.calendar.toPin = m :: rest →
      Effect s { s with calendar := { s.calendar with toPin := rest }.takeAnswer granted, pins := pins }
  | pinRequest (pins : PinUnit) (m : PinRequest) (rest : List PinRequest) : s.calendar.toPin = m :: rest →
      Effect s { s with calendar := { s.calendar with toPin := rest }, pins := pins }
  | pinTick (l : List Time) (pins : PinUnit) : Effect s { s with timebase := { s.timebase with toPin := l }, pins := pins }
  | fireRequest (q : FireRequest) (rest : List RouterRequest) : s.calendar.toRouter = .fire q :: rest →
      Effect s { s with
        calendar := { s.calendar with toRouter := rest },
        router := Router.reportFrom s.router false none (s.router.takeFire (s.eligible q) q) }
  | purgeRequest (n : SlotNo) (g : BitVec 16) (rest : List RouterRequest) : s.calendar.toRouter = .purge n g :: rest →
      Effect s { s with
        calendar := { s.calendar with toRouter := rest },
        router := Router.reportFrom s.router false none (s.router.purge n g) }

/-- The answer is a next state that the command's effect allows. -/
def Answers (s : State) (a : Result) : Prop := ∃ t, a = .next t ∧ Effect s t

theorem answers_same (s : State) : Answers s (.next s) := ⟨s, rfl, .nothing⟩

theorem Effect.answers {s t : State} (h : Effect s t) : Answers s (.next t) := ⟨t, rfl, h⟩

theorem answers_ite {s : State} {c : Prop} [Decidable c] {a b : Result} (ha : c → Answers s a) (hb : ¬ c → Answers s b) :
    Answers s (if c then a else b) := by
  split
  · exact ha ‹_›
  · exact hb ‹_›

/-! ### Requests -/

section
variable {s : State} {p : Port}

/-- A request that can be taken stands at the head of its path. -/
theorem takeRequest_eq_some {b : Block} {k : Taken} (h : s.takeRequest b p = some k) :
    ∃ rest, (s.port p).path b = .request k.mark k.epoch k.request :: rest := by
  unfold State.takeRequest at h
  split at h
  · cases h
    exact ⟨_, ‹_›⟩
  · cases h

theorem serveTimebase_answers {act : Request → Option (Timebase → Timebase × Reply)}
    (ha : ∀ r f, act r = some f → r.block = .timebase ∧ f = r.onTimebase p) : Answers s (s.serveTimebase p act) := by
  cases hk : s.takeRequest .timebase p with
  | none => simpa only [State.serveTimebase, hk] using answers_same s
  | some k =>
    cases hf : act k.request with
    | none => simpa only [State.serveTimebase, hk, hf] using answers_same s
    | some f =>
      obtain ⟨hb, rfl⟩ := ha _ _ hf
      obtain ⟨rest, hp⟩ := takeRequest_eq_some hk
      have hh : s.heads p k.mark k.epoch k.request rest := by rw [State.heads, hb, hp]
      rw [serveTimebase_of_heads hh hb hf]
      exact answers_ite
        (fun hs => (Effect.atTimebase p _ _ _ rest ⟨hh, hs, fun h => absurd (hb.symm.trans h) nofun⟩ hb).answers)
        fun _ => (Effect.stale _ p _ _ _ _ hp).answers

theorem serveLine_answers {act : Request → Option (LineUnit → LineUnit × Reply)}
    (ha : ∀ r f, act r = some f → r.block = .line ∧ f = r.onLine p) : Answers s (s.serveLine p act) := by
  cases hk : s.takeRequest .line p with
  | none => simpa only [State.serveLine, hk] using answers_same s
  | some k =>
    cases hf : act k.request with
    | none => simpa only [State.serveLine, hk, hf] using answers_same s
    | some f =>
      obtain ⟨hb, rfl⟩ := ha _ _ hf
      obtain ⟨rest, hp⟩ := takeRequest_eq_some hk
      have hh : s.heads p k.mark k.epoch k.request rest := by rw [State.heads, hb, hp]
      rw [serveLine_of_heads hh hb hf]
      exact answers_ite
        (fun hs => (Effect.atLine p _ _ _ rest ⟨hh, hs, fun h => absurd (hb.symm.trans h) nofun⟩ hb).answers)
        fun _ => (Effect.stale _ p _ _ _ _ hp).answers

theorem serveRouter_answers {act : Request → Option ((Port → Bool) → Router → Router × Reply)}
    (ha : ∀ r f, act r = some f → r.block = .router ∧ f = r.onRouter p) : Answers s (s.serveRouter p act) := by
  cases hk : s.takeRequest .router p with
  | none => simpa only [State.serveRouter, hk] using answers_same s
  | some k =>
    cases hf : act k.request with
    | none => simpa only [State.serveRouter, hk, hf] using answers_same s
    | some f =>
      obtain ⟨hb, rfl⟩ := ha _ _ hf
      obtain ⟨rest, hp⟩ := takeRequest_eq_some hk
      have hh : s.heads p k.mark k.epoch k.request rest := by rw [State.heads, hb, hp]
      rw [serveRouter_of_heads hh hb hf]
      exact answers_ite
        (fun hs => (Effect.atRouter p _ _ _ rest ⟨hh, hs, fun h => absurd (hb.symm.trans h) nofun⟩ hb).answers)
        fun _ => (Effect.stale _ p _ _ _ _ hp).answers

theorem serveCalendar_answers {act : Request → Option (Nat → Calendar → Calendar)}
    (ha : ∀ r f, act r = some f → r.block = .calendar ∧ f = r.onCalendar p) : Answers s (s.serveCalendar p act) := by
  by_cases hfree : s.calendar.busy = .free
  case neg =>
    have : s.serveCalendar p act = .next s := by
      unfold State.serveCalendar
      split
      · exact absurd ‹_› hfree
      · rfl
    exact this ▸ answers_same s
  cases hk : s.takeRequest .calendar p with
  | none => simpa only [State.serveCalendar, hfree, hk] using answers_same s
  | some k =>
    cases hf : act k.request with
    | none => simpa only [State.serveCalendar, hfree, hk, hf] using answers_same s
    | some f =>
      obtain ⟨hb, rfl⟩ := ha _ _ hf
      obtain ⟨rest, hp⟩ := takeRequest_eq_some hk
      have hh : s.heads p k.mark k.epoch k.request rest := by rw [State.heads, hb, hp]
      rw [serveCalendar_of_heads hh hb hfree hf]
      exact answers_ite (fun hs => (Effect.atCalendar p _ _ _ rest ⟨hh, hs, fun _ => hfree⟩ hb).answers)
        fun _ => (Effect.stale _ p _ _ _ _ hp).answers

/-- A touch is a request as any other. -/
theorem execSlotTouch_answers (p : Port) (s : State) : Answers s (execSlotTouch p s) :=
  serveCalendar_answers fun r f h => by split at h <;> cases h; exact ⟨rfl, rfl⟩

/-! ### Session ends and parts -/

/-- A session end that can be taken stands at the head of its path. -/
theorem takeSessionEnd_eq_some {b : Block} {t : State} (h : s.takeSessionEnd b p = some t) :
    ∃ e rest, (s.port p).path b = .sessionEnd e :: rest ∧ t = s.afterTaking b p rest := by
  unfold State.takeSessionEnd at h
  split at h
  · cases h
    exact ⟨_, _, ‹_›, rfl⟩
  · cases h

theorem takePart_eq_some {b : Block} {m : Nat} {t : State} (h : s.takePart b p = some (m, t)) :
    ∃ rest, (s.port p).path b = .part m :: rest ∧ t = s.afterTaking b p rest := by
  unfold State.takePart at h
  split at h
  · cases h
    exact ⟨_, ‹_›, rfl⟩
  · cases h

theorem execTimebaseSessionEnd_answers (p : Port) (s : State) : Answers s (execTimebaseSessionEnd p s) := by
  cases h : s.takeSessionEnd .timebase p with
  | none => simpa only [execTimebaseSessionEnd, h] using answers_same s
  | some t =>
    obtain ⟨e, rest, hp, rfl⟩ := takeSessionEnd_eq_some h
    simp only [execTimebaseSessionEnd, h]
    exact (Effect.timebaseEnd p e rest hp).answers

theorem execLineSessionEnd_answers (p : Port) (s : State) : Answers s (execLineSessionEnd p s) := by
  cases h : s.takeSessionEnd .line p with
  | none => simpa only [execLineSessionEnd, h] using answers_same s
  | some t =>
    obtain ⟨e, rest, hp, rfl⟩ := takeSessionEnd_eq_some h
    simp only [execLineSessionEnd, h]
    exact (Effect.lineEnd p e rest hp).answers

theorem execTeardown_answers (p : Port) (s : State) : Answers s (execTeardown p s) := by
  cases h : s.takeSessionEnd .router p with
  | none => simpa only [execTeardown, h] using answers_same s
  | some t =>
    obtain ⟨e, rest, hp, rfl⟩ := takeSessionEnd_eq_some h
    simp only [execTeardown, h]
    exact (Effect.routerEnd p e rest _ hp rfl).answers

theorem execCalendarSessionEnd_answers (p : Port) (s : State) : Answers s (execCalendarSessionEnd p s) := by
  unfold execCalendarSessionEnd
  split
  case h_1 hfree h =>
    obtain ⟨e, rest, hp, rfl⟩ := takeSessionEnd_eq_some h
    exact (Effect.calendarEnd p e rest hfree hp).answers
  case h_2 => exact answers_same s

theorem execPortStatusPart_answers (p : Port) (b : Block) (s : State) : Answers s (execPortStatusPart p b s) := by
  refine answers_ite (fun _ => ?_) fun _ => answers_same s
  cases h : s.takePart b p with
  | none => exact answers_same s
  | some mt =>
    obtain ⟨m, t⟩ := mt
    obtain ⟨rest, hp, rfl⟩ := takePart_eq_some h
    have hback : (s.afterTaking b p rest).back b p = s.back b p := by cases b <;> rfl
    have hpart : (s.afterTaking b p rest).partOf b p = s.partOf b p := by cases b <;> rfl
    simpa only [hback, hpart] using (Effect.part b p m rest hp).answers

end

/-! ### Messages to a Port Unit, and events at its pins -/

section
variable (s : State) (p : Port) (b : Block)

theorem execCompletion_answers : Answers s (execCompletion p b s) := by
  unfold execCompletion
  split
  · exact (Effect.message b p _ _ ‹_› (by simp)).answers
  · exact answers_same s

theorem execPortStatusPartReturn_answers : Answers s (execPortStatusPartReturn p b s) := by
  unfold execPortStatusPartReturn
  split
  · exact (Effect.message b p _ _ ‹_› (by simp)).answers
  · exact answers_same s

theorem execBlockOutcome_answers : Answers s (execBlockOutcome p b s) := by
  unfold execBlockOutcome
  split
  · exact (Effect.message b p _ _ ‹_› (by simp)).answers
  · exact answers_same s

theorem execLostNoticeReport_answers : Answers s (execLostNoticeReport p s) := by
  unfold execLostNoticeReport
  split
  · exact (Effect.message .router p _ _ ‹_› fun _ => rfl).answers
  · exact answers_same s

theorem execAlertReport_answers : Answers s (execAlertReport p s) := by
  unfold execAlertReport
  split
  · exact (Effect.message .router p _ _ ‹_› fun _ => rfl).answers
  · exact answers_same s

/-- OPEN, CLOSE and PORT_STATUS are the end of a frame. -/
theorem endFrameOf_answers (c : Command) : Answers s (s.endFrameOf p c) := by
  refine answers_ite (fun h => ?_) fun _ => answers_same s
  have hl : (s.port p).link = .request := by
    unfold PortUnit.framedCommand at h
    split at h
    · rename_i hc
      simp only [Bool.and_eq_true, decide_eq_true_eq] at hc
      exact hc.1.1
    · cases h
  exact (Effect.atPort p _ (.endFrame hl)).answers

theorem execStatusHeader_answers : Answers s (execStatusHeader p s) := by
  refine answers_ite (fun h => ?_) fun _ => answers_same s
  simp only [Bool.and_eq_true, Bool.not_eq_true', decide_eq_true_eq] at h
  exact (Effect.atPort p _ (.select h.1.1 h.1.2 h.2)).answers

theorem execResponseConsumed_answers : Answers s (execResponseConsumed p s) := by
  refine answers_ite (fun h => ?_) fun _ => answers_same s
  simp only [Bool.and_eq_true, decide_eq_true_eq] at h
  exact (Effect.atPort p _ (.consume h.1 h.2)).answers

theorem execPortReset_answers : Answers s (execPortReset p s) :=
  answers_ite (fun _ => answers_same s) fun h => (Effect.atPort p _ (.reset (by simpa using h))).answers

/-! ### Resets -/

theorem inReset_iff {s : State} : s.inReset = true ↔ 8 ≤ s.rstnLows := decide_eq_true_iff

theorem execDeviceReset_answers : Answers s (execDeviceReset s) := by
  refine answers_ite (fun _ => answers_same s) fun h => ?_
  have hlow : s.rstnLows < 8 := not_le.1 fun hle => h (inReset_iff.2 hle)
  dsimp only
  split
  case isTrue h' => exact (Effect.deviceReset (by have := inReset_iff.1 h'; simp only at this; omega)).answers
  case isFalse h' => exact (Effect.lowSample (not_le.1 fun hle => h' (inReset_iff.2 hle))).answers

/-! ### Events of the Calendar -/

theorem execDeliveredTick_answers : Answers s (execDeliveredTick s) := by
  unfold execDeliveredTick
  split
  · exact (Effect.delivery _ _ ‹_›).answers
  · exact answers_same s

theorem execTimeStep_answers : Answers s (execTimeStep s) := by
  unfold execTimeStep
  split
  · exact (Effect.delivery _ _ ‹_›).answers
  · exact answers_same s

theorem execFire_answers (n : SlotNo) : Answers s (execFire n s) := by
  unfold execFire
  split
  · exact answers_ite (fun h => (Effect.fire n _ _ ‹_› h).answers) fun _ => answers_same s
  · exact answers_same s

theorem execEdgeArrival_answers : Answers s (execEdgeArrival s) := by
  unfold execEdgeArrival
  split
  · exact (Effect.edge _ _ ‹_›).answers
  · exact answers_same s

theorem execCountFire_answers (n : SlotNo) (touchedBy : Option Port) : Answers s (execCountFire n touchedBy s) := by
  cases touchedBy with
  | some q => exact answers_ite (fun _ => execSlotTouch_answers q s) fun _ => answers_same s
  | none =>
    unfold execCountFire
    simp only
    split
    · exact answers_ite (fun _ => (Effect.edgePart _ _ n ‹_›).answers) fun _ => answers_same s
    · exact answers_same s

theorem execGateReport_answers : Answers s (execGateReport s) := by
  unfold execGateReport
  split
  · exact (Effect.gate _ ⟨_, _⟩ _ ‹_› ‹_›).answers
  · exact answers_same s

theorem execSlotCountReport_answers : Answers s (execSlotCountReport s) := by
  unfold execSlotCountReport
  split
  · exact (Effect.count _ _ ‹_› ‹_›).answers
  · exact answers_same s

/-! ### Lines and pins -/

theorem execLineSample_answers (levels : LineSet) : Answers s (execLineSample levels s) :=
  answers_ite (fun _ => answers_same s) fun h => (Effect.sample levels (by simpa using h)).answers

theorem execChangeOfAcceptedLevel_answers (e : LineNo) (level : Bool) : Answers s (execChangeOfAcceptedLevel e level s) :=
  answers_ite (fun _ => (Effect.changeLevel e level).answers) fun _ => answers_same s

/-- A request that the Pin Unit can take stands at the head of the Calendar's path. -/
theorem pinRequest_eq_some {s t : State} {m : PinRequest} (h : s.pinRequest = some (m, t)) :
    s.pins.tickBegun = false ∧ ∃ rest, s.calendar.toPin = m :: rest ∧
      t = { s with calendar := { s.calendar with toPin := rest } } := by
  unfold State.pinRequest at h
  split at h
  · cases h
    exact ⟨‹_›, _, ‹_›, rfl⟩
  · cases h

theorem execBindingRequest_answers : Answers s (execBindingRequest s) := by
  unfold execBindingRequest
  split
  case h_1 h =>
    obtain ⟨-, rest, hp, rfl⟩ := pinRequest_eq_some h
    exact answers_ite (fun _ => (Effect.binding false _ _ _ hp).answers) fun _ => (Effect.binding true _ _ _ hp).answers
  case h_2 => exact answers_same s

theorem execFireAction_answers : Answers s (execFireAction s) := by
  unfold execFireAction
  split
  case h_1 h =>
    obtain ⟨-, rest, hp, rfl⟩ := pinRequest_eq_some h
    exact (Effect.pinRequest _ _ _ hp).answers
  case h_2 => exact answers_same s

theorem execDriveLow_answers : Answers s (execDriveLow s) := by
  unfold execDriveLow
  split
  case h_1 h =>
    obtain ⟨-, rest, hp, rfl⟩ := pinRequest_eq_some h
    exact (Effect.pinRequest _ _ _ hp).answers
  case h_2 => exact answers_same s

theorem execUnbind_answers : Answers s (execUnbind s) := by
  unfold execUnbind
  split
  case h_1 h =>
    obtain ⟨-, rest, hp, rfl⟩ := pinRequest_eq_some h
    exact (Effect.pinRequest _ _ _ hp).answers
  case h_2 => exact answers_same s

theorem execPinDeliveredTick_answers : Answers s (execPinDeliveredTick s) := by
  unfold execPinDeliveredTick
  split
  · exact (Effect.pinTick _ _).answers
  · exact answers_same s

theorem execPulseEnd_answers (o : PinNo) : Answers s (execPulseEnd o s) := by
  unfold execPulseEnd
  split
  · exact answers_ite (fun _ => (Effect.pinTick s.timebase.toPin _).answers) fun _ => answers_same s
  · exact answers_same s

/-! ### What the Calendar sends the Notice Router -/

theorem execFireRequest_answers : Answers s (execFireRequest s) := by
  unfold execFireRequest
  split
  · exact (Effect.fireRequest _ _ ‹_›).answers
  · exact answers_same s

theorem execPurgeRequest_answers : Answers s (execPurgeRequest s) := by
  unfold execPurgeRequest
  split
  · exact (Effect.purgeRequest _ _ _ ‹_›).answers
  · exact answers_same s

end

/-! ### Every command -/

/-- Every command answers a next state, in one of the ways of `Effect`. -/
theorem exec_answers (c : Instr) (s : State) : Answers s (exec c s) := by
  cases c with
  | openSession p | closeSession p | portStatus p => exact endFrameOf_answers s p _
  | serviceSet p | fetch p | peek p | done p | decline p =>
    simp only [exec, execServiceSet, execFetch, execPeek, execDone, execDecline]
    exact serveRouter_answers fun r f h => by split at h <;> cases h; exact ⟨rfl, rfl⟩
  | slotAllocate p | slotConfigure p | slotArm p | slotDisarm p | slotTouch p | slotRelease p | slotAdopt p | slotQuery p =>
    simp only [exec, execSlotAllocate, execSlotConfigure, execSlotArm, execSlotDisarm, execSlotTouch, execSlotRelease, execSlotAdopt,
      execSlotQuery]
    exact serveCalendar_answers fun r f h => by split at h <;> cases h; exact ⟨rfl, rfl⟩
  | timeRead p | timeClaim p | timeRelease p | timeSet p | timeAdjust p | timeTick p | timeWithdraw p =>
    simp only [exec, execTimeRead, execTimeClaim, execTimeRelease, execTimeSet, execTimeAdjust, execTimeTick, execTimeWithdraw]
    exact serveTimebase_answers fun r f h => by split at h <;> cases h; exact ⟨rfl, rfl⟩
  | lineClaim p | lineRelease p | lineConfig p | lineEnable p | lineDisable p | linePulse p | lineStatus p =>
    simp only [exec, execLineClaim, execLineRelease, execLineConfig, execLineEnable, execLineDisable, execLinePulse, execLineStatus]
    exact serveLine_answers fun r f h => by split at h <;> cases h; exact ⟨rfl, rfl⟩
  | powerOn => exact Effect.powerOn.answers
  | deviceReset => exact execDeviceReset_answers s
  | deviceResetEnd => exact Effect.highSample.answers
  | portReset p => exact execPortReset_answers s p
  | portResetEnd p => exact (Effect.atPort p _ .resetEnd).answers
  | tickArrival => exact Effect.tick.answers
  | slewStep => exact answers_ite (fun _ => Effect.tick.answers) fun _ => answers_same s
  | deliveredTick => exact execDeliveredTick_answers s
  | timeStep => exact execTimeStep_answers s
  | fire n => exact execFire_answers s n
  | countFire n q => exact execCountFire_answers s n q
  | edgeArrival => exact execEdgeArrival_answers s
  | gateReport => exact execGateReport_answers s
  | slotCountReport => exact execSlotCountReport_answers s
  | calendarSessionEnd p => exact execCalendarSessionEnd_answers p s
  | timebaseSessionEnd p => exact execTimebaseSessionEnd_answers p s
  | lineSessionEnd p => exact execLineSessionEnd_answers p s
  | teardown p => exact execTeardown_answers p s
  | lineSample levels => exact execLineSample_answers s levels
  | changeOfAcceptedLevel e level => exact execChangeOfAcceptedLevel_answers s e level
  | bindingRequest => exact execBindingRequest_answers s
  | fireAction => exact execFireAction_answers s
  | driveLow => exact execDriveLow_answers s
  | unbind => exact execUnbind_answers s
  | pinDeliveredTick => exact execPinDeliveredTick_answers s
  | pulseEnd o => exact execPulseEnd_answers s o
  | fireRequest => exact execFireRequest_answers s
  | purgeRequest => exact execPurgeRequest_answers s
  | portStatusPart p b => exact execPortStatusPart_answers p b s
  | portStatusPartReturn p b => exact execPortStatusPartReturn_answers s p b
  | completion p b => exact execCompletion_answers s p b
  | blockOutcome p b => exact execBlockOutcome_answers s p b
  | lostNoticeReport p => exact execLostNoticeReport_answers s p
  | alertReport p => exact execAlertReport_answers s p
  | statusHeader p => exact execStatusHeader_answers s p
  | requestFrame p => exact answers_ite (fun h => (Effect.atPort p _ (.endFrame h)).answers) fun _ => answers_same s
  | responseRead p => exact answers_ite (fun h => (Effect.atPort p _ (.beginRead h)).answers) fun _ => answers_same s
  | responseConsumed p => exact execResponseConsumed_answers s p
  | transactionEnd p => exact (Effect.atPort p _ .deselect).answers
  | requestByteReceived p b => exact (Effect.atPort p _ (.receive b)).answers

/-- No effect touches the queue of the commands that wait. -/
theorem Effect.pending {s t : State} (h : Effect s t) : t.pending = s.pending := by
  cases h with
  | message b p m rest _ => exact setBack_pending s b p rest
  | part b p m rest _ => exact setBack_pending (s.afterTaking b p rest) b p _
  | stale b p m e r rest _ => exact setBack_pending (s.afterTaking b p rest) b p _
  | routerEnd p e rest u _ hu => subst hu; rfl
  | _ => rfl

/-- Settles O3: the answer of every command, and that no effect touches the queue. -/
theorem everyCommandAnswersNext : Obligations.EveryCommandAnswersNext := by
  intro c s
  obtain ⟨t, ht, he⟩ := exec_answers c s
  exact ⟨t, ht, he.pending⟩

/-! ### Steps -/

/-- A step is one REFCLK period, or the effect of a command on the state with the rest of the queue. -/
theorem step_cases {s t : State} (h : step s = .next t) :
    t = s.refclkPeriod ∨ ∃ rest, Effect { s with pending := rest } t := by
  unfold step at h
  split at h
  · cases h
    exact .inl rfl
  · rename_i c rest _
    obtain ⟨u, hu, he⟩ := exec_answers c { s with pending := rest }
    rw [hu] at h
    cases h
    exact .inr ⟨rest, he⟩

/-- The path of the Timebase is judged by the divisor: a REFCLK period counts, or is a tick arrival (R3). -/
theorem refclk_cases (t : Timebase) :
    (t.phase.toNat + 1 < t.divisor.toNat ∧ t.refclk = { t with phase := t.phase + 1 }) ∨
      (t.divisor.toNat ≤ t.phase.toNat + 1 ∧ t.refclk = t.arrive) := by
  unfold Timebase.refclk
  split
  · exact .inl ⟨‹_›, rfl⟩
  · exact .inr ⟨Nat.le_of_not_lt ‹_›, rfl⟩

/-- Settles O1: a step is the command at the front of the queue, by the definition of `step`. -/
theorem stepRunsFrontCommand : Obligations.StepRunsFrontCommand := fun _ _ _ => rfl

/-- Settles O2, by the two cases of a REFCLK period. -/
theorem idleStepIsOneRefclkPeriod : Obligations.IdleStepIsOneRefclkPeriod := by
  intro s hq
  have hstep : step s = .next { s with timebase := s.timebase.refclk } := by simp only [step, hq, State.refclkPeriod]
  obtain ⟨hlt, he⟩ | ⟨hle, he⟩ := refclk_cases s.timebase
  · exact ⟨fun _ => by rw [hstep, he], fun h => absurd h (by omega)⟩
  · exact ⟨fun h => absurd h (by omega), fun _ => by rw [hstep, he]; rfl⟩

end Sys2Proof.Machine
end

section
/-! PROOFS. The ranges of the Timebase and the held edges of enabled lines: what each operation of the two blocks keeps, and that
every step does (R3, R11 to R13, R16, R76). -/

namespace Sys2Proof.Machine

/-! ### The Timebase -/

section
variable {t : Timebase} {p : Port}

/-- The power-on values lie in their ranges. -/
theorem rangeLaw_initial : Timebase.initial.RangeLaw := by
  refine ⟨by decide, by decide, by decide, by decide, fun h => absurd rfl h, nofun⟩

/-- A Timebase without a pending write and without a slew need only keep the first four ranges. -/
theorem rangeLaw_deviceReset (h : t.RangeLaw) : t.deviceReset.RangeLaw := by
  obtain ⟨hd, hd', hph, hsp, -, -⟩ := h
  exact ⟨hd, hd', hph, hsp, fun h => absurd rfl h, nofun⟩

/-- A Timebase that differs in its pending write alone, now absent. -/
theorem rangeLaw_withdrawn (h : t.RangeLaw) : { t with pendingWrite := none }.RangeLaw := by
  obtain ⟨hd, hd', hph, hsp, hcd, -⟩ := h
  exact ⟨hd, hd', hph, hsp, hcd, nofun⟩

/-- A write recorded as pending lies in range if it was checked (R11 to R13). -/
theorem rangeLaw_pending (w : TimeWrite) (h : t.RangeLaw) (hr : t.inRange w = true) :
    { t with pendingWrite := some { write := w, issuer := p } }.RangeLaw := by
  obtain ⟨hd, hd', hph, hsp, hcd, -⟩ := h
  refine ⟨hd, hd', hph, hsp, hcd, fun w' hw' => ?_⟩
  obtain rfl := Option.some.inj hw'
  cases w with
  | set v => exact True.intro
  | adjust a sp => simpa [Timebase.inRange] using hr
  | tick d => simpa [Timebase.inRange] using hr

theorem rangeLaw_accept (w : TimeWrite) (h : t.RangeLaw) : (t.accept p w).1.RangeLaw := by
  unfold Timebase.accept
  split_ifs with ha hp hr
  · exact h
  · exact h
  · exact rangeLaw_pending w h hr
  · exact h

/-- A request keeps the ranges: only a timebase write and a withdrawal touch what they speak of. -/
theorem rangeLaw_onTimebase (r : Request) (h : t.RangeLaw) : (r.onTimebase p t).1.RangeLaw := by
  cases r with
  | timeClaim =>
    change (t.claim p).1.RangeLaw
    unfold Timebase.claim
    split <;> exact h
  | timeRelease =>
    change (t.release p).1.RangeLaw
    unfold Timebase.release
    split <;> exact h
  | timeSet v => exact rangeLaw_accept (.set v) h
  | timeAdjust a sp => exact rangeLaw_accept (.adjust a sp) h
  | timeTick d => exact rangeLaw_accept (.tick d) h
  | timeWithdraw =>
    change (t.withdraw p).1.RangeLaw
    unfold Timebase.withdraw
    split_ifs
    · exact h
    · exact rangeLaw_withdrawn h
    · exact h
  | _ => exact h

/-- A tick without SET or ADJUST counts the slew down within its spacing, or starts the countdown again (R16). -/
theorem rangeLaw_plainTick (h : t.RangeLaw) : t.plainTick.RangeLaw := by
  obtain ⟨hd, hd', hph, hsp, hcd, hw⟩ := h
  unfold Timebase.plainTick
  split
  case isTrue hz => exact ⟨hd, hd', hph, hsp, fun h => absurd hz h, hw⟩
  case isFalse hs =>
    obtain ⟨hc, hc'⟩ := hcd hs
    split
    case isTrue =>
      have hcount : 1 ≤ t.slewSpacing.toNat ∧ t.slewSpacing.toNat ≤ t.slewSpacing.toNat := ⟨by omega, le_rfl⟩
      dsimp only
      split <;> exact ⟨hd, hd', hph, hsp, fun _ => hcount, hw⟩
    case isFalse hn =>
      have h2 : 2 ≤ t.countdown.toNat := by
        simp only [Timebase.slewStepNext, Bool.and_eq_true, decide_eq_true_eq, not_and] at hn
        have := hn hs
        omega
      have hsub : (t.countdown - 1).toNat = t.countdown.toNat - 1 := by
        rw [BitVec.toNat_sub_of_le (by rw [BitVec.le_def]; exact hc)]
        rfl
      exact ⟨hd, hd', hph, hsp, fun _ => ⟨by simp only [Timebase.advance, Timebase.deliver]; omega,
        by simp only [Timebase.advance, Timebase.deliver]; omega⟩, hw⟩

/-- A tick arrival keeps the ranges: a divisor and a spacing come from a write that lay in range (R11 to R13). -/
theorem rangeLaw_arrive (h : t.RangeLaw) : t.arrive.RangeLaw := by
  obtain ⟨hd, hd', hph, hsp, hcd, hw⟩ := h
  have hph' : (0 : BitVec 17).toNat < t.divisor.toNat := hd
  unfold Timebase.arrive
  split
  case h_1 => exact rangeLaw_plainTick ⟨hd, hd', hph', hsp, hcd, nofun⟩
  case h_2 w hpw =>
    have hr := hw w hpw
    split
    case h_1 => exact ⟨hd, hd', hph', hsp, fun h => absurd rfl h, nofun⟩
    case h_2 a sp hws =>
      rw [hws] at hr
      unfold Timebase.applyAdjust
      split
      · exact ⟨hd, hd', hph', hsp, fun h => absurd rfl h, nofun⟩
      · exact ⟨hd, hd', hph', hr.2, fun _ => ⟨by have := hr.2; simp only [Timebase.advance, Timebase.deliver]; omega, le_rfl⟩,
          nofun⟩
    case h_3 d hws =>
      rw [hws] at hr
      have hdiv : (d.setWidth 17).toNat = d.toNat := by
        rw [BitVec.toNat_setWidth]
        exact Nat.mod_eq_of_lt (by omega)
      refine rangeLaw_plainTick ⟨?_, ?_, ?_, hsp, hcd, nofun⟩ <;> simp only [hdiv]
      · exact hr.1
      · exact hr.2
      · exact hr.1

/-- One REFCLK period keeps the ranges (R3). -/
theorem rangeLaw_refclk (h : t.RangeLaw) : t.refclk.RangeLaw := by
  obtain ⟨hlt, he⟩ | ⟨-, he⟩ := refclk_cases t <;> rw [he]
  · obtain ⟨hd, hd', hph, hsp, hcd, hw⟩ := h
    refine ⟨hd, hd', ?_, hsp, hcd, hw⟩
    have : (t.phase + 1).toNat = t.phase.toNat + 1 := by
      rw [BitVec.toNat_add]
      exact Nat.mod_eq_of_lt (by have := t.divisor.isLt; simpa using by omega)
    simp only [this]
    exact hlt
  · exact rangeLaw_arrive h

theorem rangeLaw_endSession (h : t.RangeLaw) : (t.endSession p).RangeLaw := by
  unfold Timebase.endSession
  split <;> exact h

end

/-! ### The lines -/

/-- No enabled line holds an edge (R76). -/
def LineUnit.HeldLaw (l : LineUnit) : Prop := ∀ i, (l.record i).HeldLaw

section
variable {l : LineUnit} {e : LineNo}

theorem heldLaw_initial : LineUnit.initial.HeldLaw := by
  intro i
  have : LineUnit.initial.record i = LineRecord.initial := Vector.getElem_replicate i.isLt
  rw [this]
  exact fun _ => rfl

theorem heldLaw_setRecord {x : LineRecord} (h : l.HeldLaw) (hx : x.HeldLaw) : (l.setRecord e x).HeldLaw := by
  intro i
  rw [setRecord_record]
  split
  · exact hx
  · exact h i

/-- The law speaks of the records alone, so a gate report keeps it. -/
theorem heldLaw_report (h : l.HeldLaw) : (l.report e).HeldLaw := h

theorem heldLaw_deliverEdge (h : l.HeldLaw) : (l.deliverEdge e).HeldLaw :=
  heldLaw_setRecord (x := { l.record e with edgeCount := (l.record e).edgeCount + 1 }) h (h e)

/-- An edge is held only on a line that is not enabled (R76). -/
theorem heldLaw_qualifyingEdge (h : l.HeldLaw) : (l.qualifyingEdge e).HeldLaw := by
  unfold LineUnit.qualifyingEdge
  split
  case isTrue => exact heldLaw_deliverEdge h
  case isFalse hd => exact heldLaw_setRecord h fun he => absurd he hd

theorem heldLaw_changeLevel (level : Bool) (h : l.HeldLaw) : (l.changeLevel e level).HeldLaw := by
  have h' : ((l.setRecord e { l.record e with accepted := level, run := 0 }).report e).HeldLaw :=
    heldLaw_report (heldLaw_setRecord h (h e))
  unfold LineUnit.changeLevel
  dsimp only
  split
  · exact heldLaw_qualifyingEdge h'
  · exact h'

theorem heldLaw_sample (level : Bool) (h : l.HeldLaw) : (l.sample e level).HeldLaw := by
  unfold LineUnit.sample
  dsimp only
  split
  · exact heldLaw_setRecord h (h e)
  · split
    · exact heldLaw_changeLevel level h
    · exact heldLaw_setRecord h (h e)

/-- A property of the Line Unit that each visit keeps holds after the visits to all lines. -/
theorem foldl_keeps {α β : Type} {P : α → Prop} {f : α → β → α} (hf : ∀ a b, P a → P (f a b)) (l : List β) {a : α} (h : P a) :
    P (l.foldl f a) := by
  induction l generalizing a with
  | nil => exact h
  | cons b l ih => exact ih (hf a b h)

theorem heldLaw_initialSample (level : Bool) (h : l.HeldLaw) : (l.initialSample e level).HeldLaw :=
  heldLaw_report (heldLaw_setRecord (x := { l.record e with accepted := level, run := 0 }) h (h e))

theorem heldLaw_sampleAll (levels : LineSet) (h : l.HeldLaw) : (l.sampleAll levels).HeldLaw := by
  unfold LineUnit.sampleAll
  split
  · exact foldl_keeps (fun _ _ => heldLaw_sample _) _ h
  · have h' : { l with initialTaken := true }.HeldLaw := h
    exact foldl_keeps (fun _ _ => heldLaw_initialSample _) _ h'

theorem heldLaw_endSession (p : Port) (h : l.HeldLaw) : (l.endSession p).HeldLaw := by
  intro i
  have : (l.endSession p).record i =
      if (l.record i).owner = some p then { l.record i with owner := none } else l.record i := tabulate_get _ i
  rw [this]
  split <;> exact h i

/-! The line commands, after the checks of R78. -/

theorem heldLaw_claim (p : Port) (h : l.HeldLaw) : (l.claim p e).1.HeldLaw := by
  unfold LineUnit.claim
  split
  · exact heldLaw_setRecord h (h e)
  · exact h

/-- LINE_CONFIG keeps a held edge or clears it. -/
theorem heldLaw_config (sense filter : Byte) (h : l.HeldLaw) : (l.config sense filter e).1.HeldLaw := by
  unfold LineUnit.config
  split
  · exact h
  · split
    · exact heldLaw_setRecord h fun he => by simp [h e he]
    · exact h

/-- LINE_ENABLE clears the held edge as it enables the line (R81). -/
theorem heldLaw_enable (discard : Bool) (h : l.HeldLaw) : (l.enable discard e).1.HeldLaw := by
  unfold LineUnit.enable
  dsimp only
  split
  · exact h
  · have h' : ((l.setRecord e { l.record e with enabled := true, held := false }).report e).HeldLaw :=
      heldLaw_report (heldLaw_setRecord h fun _ => rfl)
    split
    · exact heldLaw_deliverEdge h'
    · exact h'

theorem heldLaw_disable (h : l.HeldLaw) : (l.disable e).1.HeldLaw := by
  unfold LineUnit.disable
  split
  · exact heldLaw_report (heldLaw_setRecord h nofun)
  · exact h

/-- A line command that its checks refuse changes nothing. -/
theorem heldLaw_withLine (p : Port) (modifies : Bool) (b : Byte) {act : LineNo → LineUnit → LineUnit × Reply} (h : l.HeldLaw)
    (ha : ∀ e, (act e l).1.HeldLaw) : (l.withLine p modifies b act).1.HeldLaw := by
  unfold LineUnit.withLine
  split
  · exact h
  · exact ha _

theorem heldLaw_onLine (p : Port) (r : Request) (h : l.HeldLaw) : (r.onLine p l).1.HeldLaw := by
  unfold Request.onLine
  split
  case h_1 => exact heldLaw_withLine _ _ _ h fun _ => heldLaw_claim p h
  case h_2 => exact heldLaw_withLine _ _ _ h fun e => heldLaw_setRecord h (h e)
  case h_3 => exact heldLaw_withLine _ _ _ h fun _ => heldLaw_config _ _ h
  case h_4 => exact heldLaw_withLine _ _ _ h fun _ => heldLaw_enable _ h
  case h_5 => exact heldLaw_withLine _ _ _ h fun _ => heldLaw_disable h
  case h_6 => exact heldLaw_withLine _ _ _ h fun _ => heldLaw_qualifyingEdge h
  case h_7 => exact heldLaw_withLine _ _ _ h fun _ => h
  case h_8 => exact h

end

/-! ### Every step -/

section
variable {s t : State}

/-- The Timebase's ranges do not speak of what stands on its paths. -/
theorem Effect.rangeLaw (h : Effect s t) (hr : s.timebase.RangeLaw) : t.timebase.RangeLaw := by
  cases h with
  | powerOn => exact rangeLaw_initial
  | deviceReset => exact rangeLaw_deviceReset (t := s.timebase) hr
  | message b => cases b <;> exact hr
  | part b => cases b <;> exact hr
  | stale b => cases b <;> exact hr
  | atTimebase p m e r => exact rangeLaw_onTimebase (p := p) r hr
  | timebaseEnd p => exact rangeLaw_endSession (p := p) hr
  | routerEnd _ _ _ _ _ hu => subst hu; exact hr
  | tick => exact rangeLaw_arrive hr
  | _ => exact hr

theorem Effect.heldLaw (h : Effect s t) (hl : s.lines.HeldLaw) : t.lines.HeldLaw := by
  cases h with
  | powerOn => exact heldLaw_initial
  | deviceReset => exact heldLaw_initial
  | message b => cases b <;> exact hl
  | part b => cases b <;> exact hl
  | stale b => cases b <;> exact hl
  | atLine p m e r => exact heldLaw_onLine p r hl
  | lineEnd p => exact heldLaw_endSession p hl
  | routerEnd _ _ _ _ _ hu => subst hu; exact hl
  | sample levels => exact heldLaw_sampleAll levels hl
  | changeLevel e level => exact heldLaw_changeLevel level hl
  | _ => exact hl

end

/-- Settles O56, effect by effect. -/
theorem stepKeepsTimebaseAndLineLaws : Obligations.StepKeepsTimebaseAndLineLaws := by
  intro s t hr hl h
  obtain rfl | ⟨rest, he⟩ := step_cases h
  · exact ⟨rangeLaw_refclk hr, hl⟩
  · exact ⟨he.rangeLaw hr, he.heldLaw hl⟩

end Sys2Proof.Machine
end

section
/-! PROOFS. What the Calendar does with each slot command: the codes of its fields, the table of arming, and one `Calendar.Becomes`
per command that goes through (chapters 2 and 3). -/

namespace Sys2Proof.Machine

/-! ### Codes of request fields (R163) -/

theorem mode_ofCode_iff {b : Byte} {m : Mode} : Mode.ofCode b = some m ↔ b = m.code := by
  constructor
  · intro h
    unfold Mode.ofCode at h
    split at h <;> cases h <;> exact BitVec.eq_of_toNat_eq ‹_›
  · rintro rfl
    cases m <;> rfl

theorem polarity_ofCode_iff {b : Byte} {m : Polarity} : Polarity.ofCode b = some m ↔ b = m.code := by
  constructor
  · intro h
    unfold Polarity.ofCode at h
    split at h <;> cases h <;> exact BitVec.eq_of_toNat_eq ‹_›
  · rintro rfl
    cases m <;> rfl

theorem anchor_ofCode_iff {b : Byte} {m : Anchor} : Anchor.ofCode b = some m ↔ b = m.code := by
  constructor
  · intro h
    unfold Anchor.ofCode at h
    split at h <;> cases h <;> exact BitVec.eq_of_toNat_eq ‹_›
  · rintro rfl
    cases m <;> rfl

theorem pinAction_ofCode_iff {b : Byte} {m : PinAction} : PinAction.ofCode b = some m ↔ b = m.code := by
  constructor
  · intro h
    unfold PinAction.ofCode at h
    split at h <;> cases h <;> exact BitVec.eq_of_toNat_eq ‹_›
  · rintro rfl
    cases m <;> rfl

theorem delivery_ofCode_iff {b : Byte} {m : Delivery} : Delivery.ofCode b = some m ↔ b = m.code := by
  constructor
  · intro h
    unfold Delivery.ofCode at h
    split at h <;> cases h <;> exact BitVec.eq_of_toNat_eq ‹_›
  · rintro rfl
    cases m <;> rfl

theorem policy_ofCode_iff {b : Byte} {m : Policy} : Policy.ofCode b = some m ↔ b = m.code := by
  constructor
  · intro h
    unfold Policy.ofCode at h
    split at h <;> cases h <;> exact BitVec.eq_of_toNat_eq ‹_›
  · rintro rfl
    cases m <;> rfl

theorem indexOf_eq_some_iff {n : Nat} {b : Byte} {i : Fin n} : indexOf n b = some i ↔ b.toNat = i.val := by
  constructor
  · intro h
    unfold indexOf at h
    split at h
    · cases h
      rfl
    · cases h
  · exact indexOf_eq_some

/-- An optional record number is read as it is written, if the table is small enough to leave 0xFF free. -/
theorem optionOfCode_iff {n : Nat} (hn : n ≤ 255) {b : Byte} {o : Option (Fin n)} :
    optionOfCode n b = some o ↔ b = codeOfOption o := by
  have hcode : ∀ i : Fin n, (BitVec.ofNat 8 i.val).toNat = i.val := fun i => by
    rw [BitVec.toNat_ofNat]
    exact Nat.mod_eq_of_lt (by have := i.isLt; omega)
  unfold optionOfCode
  by_cases hb : b = 0xFF
  · subst hb
    cases o with
    | none => simp [codeOfOption]
    | some i =>
      simp only [if_true, Option.some.injEq, codeOfOption]
      refine ⟨nofun, fun h => ?_⟩
      have := congrArg BitVec.toNat h
      rw [hcode] at this
      have hi := i.isLt
      simp only [BitVec.reduceToNat] at this
      omega
  · rw [if_neg hb, Option.map_eq_some_iff]
    cases o with
    | none =>
      refine ⟨?_, fun h => absurd h hb⟩
      rintro ⟨i, -, h⟩
      cases h
    | some i =>
      simp only [Option.some.injEq, exists_eq_right, indexOf_eq_some_iff, codeOfOption]
      refine ⟨fun h => BitVec.eq_of_toNat_eq (h.trans (hcode i).symm), ?_⟩
      rintro rfl
      exact hcode i

/-- The fields agree with one another as R32 asks. -/
theorem consistent_iff {c : SlotConfig} :
    c.consistent = true ↔ (c.mode = .gated → c.line ≠ none) ∧ (c.delivery = .claim → c.targets ≠ 0) := by
  simp [SlotConfig.consistent, Option.isSome_iff_ne_none, imp_iff_not_or]

/-- The fields of a SLOT_CONFIGURE mean a configuration exactly when they decode to it and it is consistent (R31, R32). -/
theorem means_iff {r : RawConfig} {c : SlotConfig} : r.Means c ↔ r.decode = some c ∧ c.consistent = true := by
  rw [consistent_iff]
  constructor
  · rintro ⟨⟨hp, hw, hwp, hn, hg, hc⟩, h1, h2, h3, h4, h5, h6, h7, h8, h9, h10, h11, h12, h13, h14⟩
    refine ⟨?_, hg, hc⟩
    have hperiod : ¬ c.period = 0#32 := fun h => by simp [h] at hp
    have hwindow : ¬ c.window = 0#32 := fun h => by simp [h] at hw
    have hcount : ¬ c.count = 0#16 := fun h => by simp [h] at hn
    simp [RawConfig.decode, mode_ofCode_iff.2 h1, (optionOfCode_iff (by decide)).2 h5, polarity_ofCode_iff.2 h6,
      anchor_ofCode_iff.2 h7, (optionOfCode_iff (by decide)).2 h8, pinAction_ofCode_iff.2 h9, indexOf_eq_some_iff.2 h10,
      delivery_ofCode_iff.2 h12, policy_ofCode_iff.2 h13, h2, h3, h4, h11, h14, hperiod, hwindow, hcount, hwp]
  · rintro ⟨h, hg, hc⟩
    unfold RawConfig.decode at h
    split at h
    case h_2 => cases h
    case h_1 h1 h5 h6 h7 h8 h9 h10 h12 h13 =>
      split at h
      case isFalse => cases h
      case isTrue hr =>
        cases h
        simp only [ne_eq, decide_not, Bool.and_eq_true, Bool.not_eq_true', decide_eq_false_iff_not, decide_eq_true_eq] at hr
        obtain ⟨⟨⟨hp, hw⟩, hwp⟩, hn⟩ := hr
        have pos : ∀ {w : Nat} {v : BitVec w}, ¬ v = 0#w → 1 ≤ v.toNat := fun {w v} hv =>
          Nat.one_le_iff_ne_zero.2 fun h0 => hv (BitVec.eq_of_toNat_eq h0)
        exact ⟨⟨pos hp, pos hw, hwp, pos hn, hg, hc⟩, mode_ofCode_iff.1 h1, rfl, rfl, rfl,
          (optionOfCode_iff (by decide)).1 h5, polarity_ofCode_iff.1 h6, anchor_ofCode_iff.1 h7,
          (optionOfCode_iff (by decide)).1 h8, pinAction_ofCode_iff.1 h9, indexOf_eq_some_iff.1 h10, rfl,
          delivery_ofCode_iff.1 h12, policy_ofCode_iff.1 h13, rfl⟩

/-! ### One change of a slot after another -/

section
variable {c c' : Calendar} {n : SlotNo} {x : Slot} {r : List RouterRequest} {q : List PinRequest}
  {b : Vector (List FromBlock) 4}

theorem Calendar.Becomes.answer (h : c.Becomes c' n x r q b) (p : Port) (m : Nat) (o : OutcomeCode) (f : Payload) :
    c.Becomes (c'.answer p m o f) n x r q (answered b p m o f) := by
  have k := h.trans (becomes_answer c' n p m o f)
  rwa [h.slot, h.back, List.append_nil, List.append_nil] at k

theorem Calendar.Becomes.move (h : c.Becomes c' n x r q b) (st : SlotStatus) :
    c.Becomes (c'.move n st) n { x with status := st } r q b := by
  have k := h.trans (becomes_move c' n st)
  rwa [h.slot, h.back, List.append_nil, List.append_nil] at k

theorem Calendar.Becomes.sendRouter (h : c.Becomes c' n x r q b) (m : RouterRequest) :
    c.Becomes (c'.sendRouter m) n x (r ++ [m]) q b := by
  have k := h.trans (becomes_sendRouter c' n m)
  rwa [h.slot, h.back, List.append_nil] at k

theorem Calendar.Becomes.setSlot (h : c.Becomes c' n x r q b) (y : Slot) (hy : y.status = x.status) :
    c.Becomes (c'.setSlot n y) n y r q b := by
  have k := h.trans (becomes_setSlot c' n y (by rw [hy, h.slot]))
  rwa [h.back, List.append_nil, List.append_nil] at k

/-- The position of a slot depends on its deadline and on now alone, so a slot record replaced by one with the same deadline, or
with none as before, leaves the due list as it should be. -/
theorem becomes_setSlot_deadline (c : Calendar) (n : SlotNo) (x : Slot)
    (hx : x.status.deadline? = (c.slot n).status.deadline?) : c.Becomes (c.setSlot n x) n x [] [] c.back := by
  have hdeadline : ∀ m, ((c.setSlot n x).slot m).status.deadline? = (c.slot m).status.deadline? := fun m => by
    rw [setSlot_slot]
    split
    · subst m
      exact hx
    · rfl
  have hbefore : ∀ a b, (c.setSlot n x).before a b = c.before a b := fun a b => by
    have hpos : ∀ m, (c.setSlot n x).position m = c.position m := fun m => by
      simp only [Calendar.position, hdeadline]
      rfl
    simp [Calendar.before, hpos]
  exact
    { slot := by simp
      others := fun m hm => by simp [hm]
      dueExact := fun ⟨hnd, hiff⟩ => ⟨hnd, fun m => by rw [SlotStatus.isRunning, hdeadline]; exact hiff m⟩
      dueSorted := fun hs _ => by
        unfold Calendar.DueSorted
        simp only [hbefore]
        exact hs
      dueOthers := rfl
      deliveries := rfl
      now := rfl
      views := rfl
      busy := rfl
      toRouter := by simp [Calendar.setSlot]
      toPin := by simp [Calendar.setSlot]
      back := rfl }

end

/-- A period of a slot after now, as the statements write it. -/
theorem after_period (t : Time) (x : Slot) : after t x.period = t + x.config.period.setWidth 48 := by
  unfold after Slot.period
  rw [BitVec.ofNat_toNat]

/-! ### The handle check and its outcomes (R25) -/

section
variable {c : Calendar} {p : Port} {h : SlotHandle} {n : SlotNo} {m : Nat}

/-- A slot that a command other than a query goes on with is allocated, and owned by the port if the command modifies it. -/
theorem checkHandle_ok {access : SlotAccess} (hk : c.checkHandle p access h = .ok n) (ha : access ≠ .query) :
    (c.slot n).status ≠ .free ∧ (access = .modify → (c.slot n).owner = some p) := by
  unfold Calendar.checkHandle at hk
  split at hk
  · cases hk
  · dsimp only at hk
    split_ifs at hk with h1 h2 h3
    · simp [ha] at h1
    · cases hk
      simp only [Bool.or_eq_true, decide_eq_true_eq, not_or] at h2
      simp only [Bool.and_eq_true, decide_eq_true_eq, not_and, ne_eq, decide_not, Bool.not_eq_true', decide_eq_false_iff_not,
        not_not] at h3
      exact ⟨h2.1, h3⟩

theorem withSlot_of_owns (ho : c.Owns p h n) (act : SlotNo → Nat → Calendar → Calendar) :
    c.withSlot p .modify h act m = act n m c := by
  simp only [Calendar.withSlot, checkHandle_of_owns ho]

/-! ### Allocation (R22, R26 to R28) -/

/-- The slot that an allocation takes is FREE. -/
theorem slotToAllocate_free {b : Byte} (hs : c.slotToAllocate b = .ok n) : (c.slot n).status = .free := by
  unfold Calendar.slotToAllocate at hs
  split at hs
  · split at hs
    · cases hs
      simpa using List.find?_some (p := fun k => decide ((c.slot k).status = .free)) ‹_›
    · cases hs
  · split at hs
    · cases hs
    · split at hs
      · cases hs
        assumption
      · cases hs

theorem becomes_allocate {b : Byte} (hs : c.slotToAllocate b = .ok n) :
    c.Becomes (c.allocate p b m) n ((c.slot n).allocated p) [] []
      (answered c.back p m .ok (.allocated n (nextNumber (c.slot n).generation))) := by
  have k := becomes_setSlot_deadline c n ((c.slot n).allocated p) (by rw [slotToAllocate_free hs]; rfl)
  simp only [Calendar.allocate, hs]
  exact k.answer p m .ok _

/-! ### Configuration (R30 to R34) -/

theorem configure_of_not_idle {f : RawConfig} (hs : (c.slot n).status ≠ .idle) :
    c.configure p f n m = c.answer p m .badState .empty := if_pos hs

theorem configure_of_not_means {f : RawConfig} (hs : (c.slot n).status = .idle) (hf : ¬ ∃ g, f.Means g) :
    c.configure p f n m = c.answer p m .badField .empty := by
  unfold Calendar.configure
  simp only [hs, ne_eq, not_true_eq_false, if_false]
  split
  · rfl
  · rename_i g hg
    have : g.consistent = false := by
      by_contra hc
      exact hf ⟨g, means_iff.2 ⟨hg, by simpa using hc⟩⟩
    simp [this]

/-- Without a pin before or after, the configuration is replaced at once. -/
theorem configure_installs {f : RawConfig} {g : SlotConfig} (hs : (c.slot n).status = .idle) (hf : f.Means g)
    (hp : (c.slot n).config.pin = none) (hg : g.pin = none) :
    c.configure p f n m = (c.installConfig n g).answer p m .ok .empty := by
  obtain ⟨hd, hc⟩ := means_iff.1 hf
  simp [Calendar.configure, hs, hd, hc, hp, hg]

/-- With a pin before or after, the Pin Unit is asked and the Calendar waits. -/
theorem configure_asks {f : RawConfig} {g : SlotConfig} (hs : (c.slot n).status = .idle) (hf : f.Means g)
    (hp : (c.slot n).config.pin ≠ none ∨ g.pin ≠ none) :
    c.configure p f n m =
      { c.sendPin (.binding (c.slot n).config.pin g.pin g.action n) with
        busy := .binding { port := p, mark := m, slot := n, config := g } } := by
  obtain ⟨hd, hc⟩ := means_iff.1 hf
  have hpin : ((c.slot n).config.pin.isNone && g.pin.isNone) = false := by
    rw [← Bool.not_eq_true, Bool.and_eq_true, Option.isNone_iff_eq_none, Option.isNone_iff_eq_none, not_and_or]
    exact hp
  simp only [Calendar.configure, hs, hd, hc, hpin, ne_eq, not_true_eq_false, if_false, Bool.not_true, Bool.false_eq_true]

theorem becomes_installConfig (g : SlotConfig) :
    c.Becomes (c.installConfig n g) n { c.slot n with config := g } [] [] c.back := becomes_setSlot c n _ rfl

/-! ### Arming and disarming (R48 to R53) -/

theorem isDue_iff {d t : Time} : isDue d t = true ↔ (t - d).toNat < 2 ^ 47 := decide_eq_true_iff

theorem startDeadline_iff {now value d : Time} {kind : Byte} :
    startDeadline now kind value = some d ↔ StartsAt now kind value d := by
  unfold startDeadline
  constructor
  · intro h
    split at h
    case h_1 hk =>
      obtain rfl := anchor_ofCode_iff.1 hk
      split at h
      · cases h
        exact .relative value ‹_›
      · cases h
    case h_2 hk =>
      obtain rfl := anchor_ofCode_iff.1 hk
      split at h
      case isTrue hd =>
        cases h
        rw [Bool.or_eq_true, isDue_iff, decide_eq_true_iff] at hd
        exact hd.elim (StartsAt.due _) (StartsAt.future _)
      case isFalse => cases h
    case h_3 => cases h
  · intro h
    cases h with
    | relative _ hv => exact if_pos hv
    | due _ hd => exact if_pos (Bool.or_eq_true_iff.2 (.inl (isDue_iff.2 hd)))
    | future _ hd => exact if_pos (Bool.or_eq_true_iff.2 (.inr (decide_eq_true_iff.2 hd)))

/-- The gate of a slot as the model judges it is the gate of R47. -/
theorem gateActive_iff (v : LineView) (pol : Polarity) :
    gateActive v pol = true ↔ v.enabled = true ∧ (v.level = true ↔ pol = .high) := by
  cases pol <;> cases hl : v.level <;> simp [gateActive, hl]

theorem gateOf_iff : c.gateOf n = true ↔ c.GateActive n := by
  unfold Calendar.gateOf Calendar.GateActive
  cases (c.slot n).config.line with
  | none => simp
  | some e =>
    simp only [Option.some.injEq, exists_eq_left']
    exact gateActive_iff _ _

/-- The state that arming gives is that of the table of R49. -/
theorem armedStatus_iff {kind : Byte} {value : Time} {startNow : Bool} {st : SlotStatus} :
    c.armedStatus n kind value startNow = some st ↔ c.ArmsTo n kind value startNow st := by
  constructor
  · intro h
    have timed : ∀ {mode : Mode}, (c.slot n).config.mode = mode → mode ∈ [Mode.once, Mode.repeat, Mode.window] →
        (startDeadline c.now kind value).map SlotStatus.running = some st → c.ArmsTo n kind value startNow st := by
      rintro mode rfl hm h
      obtain ⟨d, hd, rfl⟩ := Option.map_eq_some_iff.1 h
      exact .timed d hm (startDeadline_iff.1 hd)
    unfold Calendar.armedStatus at h
    dsimp only at h
    split at h
    case h_1 hm => exact timed hm (by decide) h
    case h_2 hm => exact timed hm (by decide) h
    case h_3 hm => exact timed hm (by decide) h
    case h_4 hm =>
      cases h
      cases hn : startNow
      · exact .retriggerWaits hm rfl
      · simp only [if_true, after_period]
        exact .retriggerStarts hm rfl
    case h_5 hm =>
      cases h
      split
      case isTrue hg => exact after_period _ _ ▸ .gatedRuns hm (gateOf_iff.1 hg)
      case isFalse hg =>
        rw [Slot.period, BitVec.ofNat_toNat]
        exact .gatedPauses hm fun h => hg (gateOf_iff.2 h)
    case h_6 hm =>
      cases h
      exact .counts hm
  · intro h
    cases h with
    | timed d hm hd =>
      simp only [List.mem_cons, List.not_mem_nil, or_false] at hm
      obtain hm | hm | hm := hm <;> simp [Calendar.armedStatus, hm, startDeadline_iff.2 hd]
    | retriggerWaits hm hn => simp [Calendar.armedStatus, hm, hn]
    | retriggerStarts hm hn => simp [Calendar.armedStatus, hm, hn, after_period]
    | gatedRuns hm hg => simp [Calendar.armedStatus, hm, gateOf_iff.2 hg, after_period]
    | gatedPauses hm hg =>
      have : c.gateOf n = false := by simpa using fun h => hg (gateOf_iff.1 h)
      simp [Calendar.armedStatus, hm, this, Slot.period, BitVec.ofNat_toNat]
    | counts hm => simp [Calendar.armedStatus, hm]

theorem becomes_arm {kind : Byte} {value : Time} {startNow : Bool} {st : SlotStatus}
    (ha : c.armedStatus n kind value startNow = some st) :
    c.Becomes (c.arm p kind value startNow n m) n { c.slot n with status := st, fired := false } [] (c.slot n).driveLow
      (answered c.back p m .ok (.armed (decide ((c.slot n).status ≠ .idle)) st)) := by
  have k := becomes_driveLevelLow c n
  have k2 := ((k.setSlot { (c.driveLevelLow n).slot n with fired := false } (by rw [k.slot])).move st).answer p m .ok
    (.armed (decide ((c.slot n).status ≠ .idle)) st)
  rw [k.slot] at k2
  have he : c.arm p kind value startNow n m =
      ((((c.driveLevelLow n).setSlot n { c.slot n with fired := false }).move n st).answer p m .ok
        (.armed (decide ((c.slot n).status ≠ .idle)) st)) := by
    simp only [Calendar.arm, ha, k.slot]
  exact he ▸ k2

theorem calendarArm_of_none {kind : Byte} {value : Time} {startNow : Bool} (ha : c.armedStatus n kind value startNow = none) :
    c.arm p kind value startNow n m = c.answer p m .badField .empty := by
  simp only [Calendar.arm, ha]

theorem becomes_disarm (purge : Bool) :
    c.Becomes (c.disarm p purge n m) n { c.slot n with status := .idle }
      (if purge then [.purge n (c.slot n).generation] else []) (c.slot n).driveLow
      (answered c.back p m .ok (.disarmed (c.slot n).status (c.slot n).fired)) := by
  have k := (becomes_driveLevelLow c n).move .idle
  cases purge with
  | false => exact k.answer p m .ok _
  | true => exact (k.sendRouter (.purge n (c.slot n).generation)).answer p m .ok _

/-! ### Touching (R64 to R67) -/

/-- The window of a slot is open when its deadline less the window is due (R65). -/
theorem becomes_checkIn_open {d : Time} (hw : (c.now - (d - (c.slot n).config.window.setWidth 48)).toNat < 2 ^ 47) :
    c.Becomes (c.checkIn p n d m) n { c.slot n with status := .running (c.now + (c.slot n).config.period.setWidth 48) } [] []
      (answered c.back p m .ok (.touched false (.running (c.now + (c.slot n).config.period.setWidth 48)))) := by
  have he : c.checkIn p n d m =
      (c.move n (.running (c.now + (c.slot n).config.period.setWidth 48))).answer p m .ok
        (.touched false (.running (c.now + (c.slot n).config.period.setWidth 48))) := by
    simp only [Calendar.checkIn, isDue, hw, decide_true, if_true, after_period]
  rw [he]
  exact (becomes_move c n _).answer p m .ok _

theorem becomes_checkIn_early {d : Time} (hw : 2 ^ 47 ≤ (c.now - (d - (c.slot n).config.window.setWidth 48)).toNat) :
    c.Becomes (c.checkIn p n d m) n ((c.slot n).firedTo .lapsed) ((c.slot n).fireRequests n .early c.now 1 none)
      ((c.slot n).fireActions c.now) (answered c.back p m .ok (.touched true .lapsed)) := by
  have he : c.checkIn p n d m =
      ((c.announceFire n .early c.now 1 none).move n .lapsed).answer p m .ok (.touched true .lapsed) := by
    simp only [Calendar.checkIn, isDue, not_lt.2 hw, decide_false, Bool.false_eq_true, if_false]
  rw [he]
  exact (becomes_fire c n .early c.now 1 none .lapsed).answer p m .ok _

theorem becomes_trigger :
    c.Becomes (c.trigger n) n { c.slot n with status := .running (c.now + (c.slot n).config.period.setWidth 48) } [] []
      c.back := by
  rw [Calendar.trigger, after_period]
  exact becomes_move c n _

/-- An edge before the last takes one from the edges left. -/
theorem becomes_countEdge_more {left : BitVec 16} (hl : 2 ≤ left.toNat) :
    c.Becomes (c.countEdge n left) n { c.slot n with status := .waiting (some (left - 1)) } [] [] c.back := by
  have he : c.countEdge n left = c.move n (.waiting (some (left - 1))) := if_neg (by omega)
  rw [he]
  exact becomes_move c n _

/-- The last edge fires the slot, and the count is loaded again (R63). -/
theorem becomes_countEdge_last {left : BitVec 16} (hl : left.toNat ≤ 1) :
    c.Becomes (c.countEdge n left) n ((c.slot n).firedTo (.waiting (some (c.slot n).config.count)))
      ((c.slot n).fireRequests n .expiry c.now 1 none) ((c.slot n).fireActions c.now) c.back := by
  have he : c.countEdge n left =
      (c.announceFire n .expiry c.now 1 none).move n (.waiting (some (c.slot n).config.count)) := if_pos hl
  rw [he]
  exact becomes_fire c n _ _ _ _ _

/-! ### Release and adoption (R35, R37) -/

theorem becomes_release :
    c.Becomes (c.release p n m) n
      { c.slot n with
        status := .free, owner := none, fired := false, config := { (c.slot n).config with pin := none } }
      [] (c.slot n).unbinds (answered c.back p m .ok .empty) :=
  (becomes_releaseSlot c n).answer p m .ok .empty

theorem becomes_adopt (ho : (c.slot n).owner = none) :
    c.Becomes (c.adopt p n m) n { c.slot n with owner := some p } [] [] (answered c.back p m .ok .empty) := by
  have he : c.adopt p n m = (c.setSlot n { c.slot n with owner := some p }).answer p m .ok .empty := if_pos ho
  rw [he]
  exact (becomes_setSlot c n { c.slot n with owner := some p } rfl).answer p m .ok .empty

theorem adopt_of_owned (ho : (c.slot n).owner ≠ none) : c.adopt p n m = c.answer p m .notOwner .empty := if_neg ho

end

/-! ### Visits to slots, one after the other -/

/-- The Calendar goes from `c` to `c'` by giving each slot `n` of the list the record `x n`, sending `router n` and `pin n` as it does,
in the order of the list. Nothing else changes; the due list follows (R45). -/
structure Calendar.Visited (c c' : Calendar) (l : List SlotNo) (x : SlotNo → Slot) (router : SlotNo → List RouterRequest)
    (pin : SlotNo → List PinRequest) : Prop where
  slot : ∀ n ∈ l, c'.slot n = x n
  others : ∀ n, n ∉ l → c'.slot n = c.slot n
  dueExact : c.DueExact → c'.DueExact
  dueSorted : c.DueSorted → c.DueExact → c'.DueSorted
  deliveries : c'.deliveries = c.deliveries
  now : c'.now = c.now
  views : c'.views = c.views
  busy : c'.busy = c.busy
  back : c'.back = c.back
  toRouter : c'.toRouter = c.toRouter ++ l.flatMap router
  toPin : c'.toPin = c.toPin ++ l.flatMap pin

/-- Visits of which each changes its own slot, by the record it finds there, the time and the line views. -/
theorem visited_foldl {f : Calendar → SlotNo → Calendar} {x : SlotNo → Slot} {router : SlotNo → List RouterRequest}
    {pin : SlotNo → List PinRequest} (l : List SlotNo) (c : Calendar) (hl : l.Nodup)
    (hf : ∀ c' : Calendar, ∀ n ∈ l, c'.now = c.now → c'.views = c.views → c'.slot n = c.slot n →
      c'.Becomes (f c' n) n (x n) (router n) (pin n) c'.back) :
    c.Visited (l.foldl f c) l x router pin := by
  induction l generalizing c with
  | nil => exact ⟨by simp, fun _ _ => rfl, id, fun h _ => h, rfl, rfl, rfl, rfl, rfl, by simp, by simp⟩
  | cons n l ih =>
    obtain ⟨hn, hl⟩ := List.nodup_cons.1 hl
    have hb := hf c n (by simp) rfl rfl rfl
    have hne : ∀ {k}, k ∈ l → k ≠ n := fun hk he => hn (he ▸ hk)
    have k := ih (f c n) hl fun c' m hm hnow hviews hslot =>
      hf c' m (by simp [hm]) (hnow.trans hb.now) (hviews.trans hb.views) (hslot.trans (hb.others m (hne hm)))
    exact
      { slot := fun m hm => by
          rcases List.mem_cons.1 hm with rfl | hm
          · exact (k.others m hn).trans hb.slot
          · exact k.slot m hm
        others := fun m hm => by
          rw [List.mem_cons, not_or] at hm
          exact (k.others m hm.2).trans (hb.others m hm.1)
        dueExact := fun he => k.dueExact (hb.dueExact he)
        dueSorted := fun hs he => k.dueSorted (hb.dueSorted hs he) (hb.dueExact he)
        deliveries := k.deliveries.trans hb.deliveries
        now := k.now.trans hb.now
        views := k.views.trans hb.views
        busy := k.busy.trans hb.busy
        back := k.back.trans hb.back
        toRouter := by rw [List.foldl_cons, k.toRouter, hb.toRouter, List.flatMap_cons, List.append_assoc]
        toPin := by rw [List.foldl_cons, k.toPin, hb.toPin, List.flatMap_cons, List.append_assoc] }

end Sys2Proof.Machine
end

section
/-! PROOFS. The slot commands (R22 to R67): each statement is the command's `Calendar.Becomes`, or its refusal, at the state that the
request finds. -/

namespace Sys2Proof.Machine

section
variable {s : State} {p : Port} {m : Nat} {e : Byte} {rest : List ToBlock} {h : SlotHandle} {n : SlotNo}

/-- A bare answer of the Calendar is a refusal. -/
theorem refuses_calendar (s : State) (p : Port) (m : Nat) (rest : List ToBlock) (o : OutcomeCode) :
    s.refuses .calendar p m rest o =
      { s.afterTaking .calendar p rest with calendar := s.calendar.answer p m o .empty } := rfl

/-! ### Allocation -/

/-- The lowest FREE slot is found (R26). -/
theorem slotToAllocate_lowest {c : Calendar} (hf : (c.slot n).status = .free) (hl : ∀ k, k < n → (c.slot k).status ≠ .free) :
    c.slotToAllocate 0xFF = .ok n := by
  have hfind : (List.finRange 64).find? (fun k => decide ((c.slot k).status = .free)) = some n := by
    rw [List.find?_eq_some_iff_getElem]
    refine ⟨by simp [hf], n.val, by simp, by simp, fun j hj => ?_⟩
    simpa using hl ⟨j, by omega⟩ hj
  simp [Calendar.slotToAllocate, hfind]

/-- The requested slot is taken if it is FREE (R27). -/
theorem slotToAllocate_requested {c : Calendar} {b : Byte} (hf : (c.slot n).status = .free) (hb : b.toNat = n.val) :
    c.slotToAllocate b = .ok n := by
  have hne : ¬ b = 255#8 := by
    rintro rfl
    have := n.isLt
    simp only [BitVec.reduceToNat] at hb
    omega
  simp [Calendar.slotToAllocate, hne, indexOf_eq_some hb, hf]

theorem slotToAllocate_refused {c : Calendar} {b : Byte} (hall : b = 0xFF → ∀ n, (c.slot n).status ≠ .free)
    (hreq : ∀ n : SlotNo, b.toNat = n.val → (c.slot n).status ≠ .free) :
    c.slotToAllocate b = .error (if 64 ≤ b.toNat ∧ b ≠ 0xFF then .badField else .noSlot) := by
  by_cases hb : b = 255#8
  · have hfind : (List.finRange 64).find? (fun k => decide ((c.slot k).status = .free)) = none := by
      simpa using hall hb
    simp [Calendar.slotToAllocate, hb, hfind]
  · by_cases hlt : b.toNat < 64
    · have hi : indexOf 64 b = some ⟨b.toNat, hlt⟩ := indexOf_eq_some rfl
      simp [Calendar.slotToAllocate, hb, hi, hreq ⟨b.toNat, hlt⟩ rfl, not_le.2 hlt]
    · simp [Calendar.slotToAllocate, hb, indexOf_eq_none (not_lt.1 hlt), not_lt.1 hlt]

/-- The record of an allocation is that of R22 and R28: one target, the allocating port. -/
theorem allocated_eq (x : Slot) (p : Port) :
    x.allocated p =
      { status := .idle, generation := nextNumber x.generation, owner := some p,
        config :=
          { mode := .once, period := 1, window := 1, count := 1, line := none, gate := .high, anchor := .relative,
            pin := none, action := .pulse, cls := 7, targets := BitVec.twoPow 4 p.val, delivery := .broadcast,
            policy := .release, tag := 0 },
        fires := 0, lost := 0, undelivered := 0, fired := false, left := none } := by
  simp [Slot.allocated, SlotConfig.defaults, addPort, Slot.initial]

/-- Settles O16: the slot found, and its new record. -/
theorem slotAllocate : Obligations.SlotAllocate := by
  intro s p m e b rest hc
  refine ⟨fun n hf hb g hg => ?_, fun hall hreq => ?_⟩
  · have hs : s.calendar.slotToAllocate b = .ok n := by
      obtain ⟨rfl, hl⟩ | hb := hb
      · exact slotToAllocate_lowest hf hl
      · exact slotToAllocate_requested hf hb
    obtain rfl : g = nextNumber (s.calendar.slot n).generation := hg
    exact ⟨_, exec_slotAllocate_of_canServe hc, allocated_eq _ p ▸ becomes_allocate hs⟩
  · rw [exec_slotAllocate_of_canServe hc, refuses_calendar]
    simp only [Calendar.allocate, slotToAllocate_refused hall hreq]

/-! ### The handle check -/

/-- A handle outside the table is refused (R25). -/
theorem checkHandle_badField {c : Calendar} {access : SlotAccess} (hh : 64 ≤ h.slot.toNat) :
    c.checkHandle p access h = .error .badField := by
  simp only [Calendar.checkHandle, indexOf_eq_none hh]

theorem checkHandle_staleSlot {c : Calendar} {access : SlotAccess} (hn : h.slot.toNat = n.val)
    (hg : access = .query → h.generation ≠ 0)
    (hs : (c.slot n).status = .free ∨ (c.slot n).generation ≠ h.generation) :
    c.checkHandle p access h = .error .staleSlot := by
  have h1 : ¬ (decide (access = .query) && decide (h.generation = 0)) = true := by simpa using hg
  have h2 : (decide ((c.slot n).status = .free) || decide ((c.slot n).generation ≠ h.generation)) = true := by simpa using hs
  simp only [Calendar.checkHandle, indexOf_eq_some hn, if_neg h1, if_pos h2]

theorem checkHandle_notOwner {c : Calendar} (hn : h.slot.toNat = n.val) (hu : (c.slot n).status ≠ .free)
    (hg : (c.slot n).generation = h.generation) (ho : (c.slot n).owner ≠ some p) :
    c.checkHandle p .modify h = .error .notOwner := by
  simp [Calendar.checkHandle, indexOf_eq_some hn, hu, hg, ho]

/-- What a slot command does to its slot, for the checks of R25. -/
def Request.access : Request → SlotAccess
  | .slotAdopt _ => .adopt
  | .slotQuery _ => .query
  | _ => .modify

/-- A slot command whose handle does not pass its checks is refused with their outcome. -/
theorem exec_command_of_checkHandle_error {r : Request} {o : OutcomeCode} (hr : r.handle? = some h)
    (hc : s.CanServe p m e r rest) (hk : s.calendar.checkHandle p r.access h = .error o) :
    exec (r.command p) s = .next (s.refuses .calendar p m rest o) := by
  have hb : r.block = .calendar := by cases r <;> first | rfl | cases hr
  have hact : r.onCalendar p m s.calendar = s.calendar.answer p m o .empty := by
    cases r <;> first
      | cases hr; simp only [Request.access] at hk; simp only [Request.onCalendar, Calendar.withSlot, hk]
      | cases hr
  rw [exec_command_calendar hc.head hb (hc.free hb), if_pos hc.session, hact, refuses_calendar]

/-- Settles O17: the three checks, each for every slot command that carries a handle. -/
theorem slotHandleChecks : Obligations.SlotHandleChecks := by
  intro s p m e r h rest hr hc
  refine ⟨fun hh => exec_command_of_checkHandle_error hr hc (checkHandle_badField hh), fun n hn hq => ⟨fun hs => ?_, ?_⟩⟩
  · refine exec_command_of_checkHandle_error hr hc (checkHandle_staleSlot hn (fun ha => hq ?_) hs)
    cases r <;> first | cases hr; rfl | cases ha
  · intro hu hg ho hadopt hquery
    have ha : r.access = .modify := by
      cases r <;> first | rfl | exact absurd (by cases hr; rfl) hadopt | exact absurd (by cases hr; rfl) hquery
    exact exec_command_of_checkHandle_error hr hc (ha ▸ checkHandle_notOwner hn hu hg ho)

/-! ### Configuration -/

/-- Settles O18, case by case on the slot's state and the fields. -/
theorem slotConfigureWithoutPin : Obligations.SlotConfigureWithoutPin := by
  intro s p m e h f n rest hc ho
  have hexec := (exec_slotConfigure_of_canServe hc).trans (by rw [withSlot_of_owns ho])
  refine ⟨fun hs => ?_, fun hs hf => ?_, fun g hs hf hp hg => ?_⟩
  · rw [hexec, configure_of_not_idle hs, refuses_calendar]
  · rw [hexec, configure_of_not_means hs hf, refuses_calendar]
  · exact ⟨_, hexec, configure_installs hs hf hp hg ▸ (becomes_installConfig g).answer p m .ok .empty⟩

/-! ### Arming, disarming, release -/

/-- Settles O20: the state of the table of R49, or no such state. -/
theorem slotArm : Obligations.SlotArm := by
  intro s p m e h kind value startNow n rest hc ho
  have hexec := (exec_slotArm_of_canServe hc).trans (by rw [withSlot_of_owns ho])
  refine ⟨fun st hst => ⟨_, hexec, becomes_arm (armedStatus_iff.2 hst)⟩, fun hn => ?_⟩
  have hnone : s.calendar.armedStatus n kind value startNow = none :=
    Option.eq_none_iff_forall_ne_some.2 fun st hst => hn ⟨st, armedStatus_iff.1 hst⟩
  rw [hexec, calendarArm_of_none hnone, refuses_calendar]

/-- Settles O21: a disarm and a release of an owned slot. -/
theorem slotDisarmAndRelease : Obligations.SlotDisarmAndRelease := by
  refine ⟨fun s p m e h purge n rest hc ho => ?_, fun s p m e h n rest hc ho => ?_⟩
  · exact ⟨_, (exec_slotDisarm_of_canServe hc).trans (by rw [withSlot_of_owns ho]), becomes_disarm purge⟩
  · exact ⟨_, (exec_slotRelease_of_canServe hc).trans (by rw [withSlot_of_owns ho]), becomes_release⟩

/-! ### Touching -/

/-- A touch of a slot that its port owns is the touch of that slot. -/
theorem exec_slotTouch_of_owns (hc : s.CanServe p m e (.slotTouch h) rest) (ho : s.calendar.Owns p h n) :
    exec (.slotTouch p) s =
      .next { s.afterTaking .calendar p rest with calendar := s.calendar.touch p n m } := by
  rw [exec_slotTouch_of_canServe hc, withSlot_of_owns ho]

section
variable {c : Calendar}

theorem touch_window {d : Time} (hm : (c.slot n).config.mode = .window) (hs : (c.slot n).status = .running d) :
    c.touch p n m = c.checkIn p n d m := by
  simp only [Calendar.touch, hm, hs]

theorem touch_lapsed (hm : (c.slot n).config.mode = .window) (hs : (c.slot n).status = .lapsed) :
    c.touch p n m = c.answer p m .lapsed .empty := by
  simp only [Calendar.touch, hm, hs]

theorem touch_retrigger (hm : (c.slot n).config.mode = .retrigger)
    (hs : (∃ k, (c.slot n).status = .waiting k) ∨ ∃ d, (c.slot n).status = .running d) :
    c.touch p n m = (c.trigger n).answer p m .ok (.touched false ((c.trigger n).slot n).status) := by
  obtain ⟨k, hs⟩ | ⟨d, hs⟩ := hs <;> simp only [Calendar.touch, hm, hs]

theorem touch_count {k : BitVec 16} (hm : (c.slot n).config.mode = .count) (hs : (c.slot n).status = .waiting (some k)) :
    c.touch p n m = (c.countEdge n k).answer p m .ok (.touched false ((c.countEdge n k).slot n).status) := by
  simp only [Calendar.touch, hm, hs]

/-- An IDLE slot, and a slot of mode ONCE, REPEAT or GATED, cannot be touched (R64). -/
theorem touch_badState (h : (c.slot n).status = .idle ∨ (c.slot n).config.mode ∈ [Mode.once, Mode.repeat, Mode.gated]) :
    c.touch p n m = c.answer p m .badState .empty := by
  obtain hs | hm := h
  · cases hm : (c.slot n).config.mode <;> simp only [Calendar.touch, hm, hs]
  · simp only [List.mem_cons, List.not_mem_nil, or_false] at hm
    obtain hm | hm | hm := hm <;> simp only [Calendar.touch, hm]

end

/-- Settles O22: inside the window, before it, and lapsed. -/
theorem windowTouch : Obligations.WindowTouch := by
  intro s p m e h n rest hc ho hm
  have hexec := exec_slotTouch_of_owns hc ho
  refine ⟨fun d hs => ⟨fun hw => ⟨_, hexec, ?_⟩, fun hw => ⟨_, hexec, ?_⟩⟩, fun hs => ?_⟩
  · exact touch_window hm hs ▸ becomes_checkIn_open hw
  · exact touch_window hm hs ▸ becomes_checkIn_early hw
  · rw [hexec, touch_lapsed hm hs, refuses_calendar]

/-- A touch that completes a count is COUNT_FIRE by that touch (R63). -/
theorem exec_countFire_of_touch (hc : s.CanServe p m e (.slotTouch h) rest) (ho : s.calendar.Owns p h n)
    (hm : (s.calendar.slot n).config.mode = .count) (hs : (s.calendar.slot n).status = .waiting (some 1)) :
    exec (.countFire n (some p)) s = exec (.slotTouch p) s := by
  have ht := takeRequest_of_heads hc.head
  have hinhand : s.touchInHand p = some n := by
    simp only [Request.block] at ht
    simp only [State.touchInHand, ht, checkHandle_of_owns ho, hc.session, if_true]
  have hcompletes : s.calendar.completesCount n = true := by
    simp [Calendar.completesCount, hm, hs]
  exact if_pos (by simp [hinhand, hcompletes])

/-- Settles O23: by the mode of the slot and what it waits for. -/
theorem triggerAndCountTouch : Obligations.TriggerAndCountTouch := by
  intro s p m e h n rest hc ho
  have hexec := exec_slotTouch_of_owns hc ho
  refine ⟨fun hm hs => ?_, fun k hm hs => ⟨fun hk => ?_, fun hk => ?_⟩, fun hb => ?_⟩
  · have hs' : (∃ k, (s.calendar.slot n).status = .waiting k) ∨ ∃ d, (s.calendar.slot n).status = .running d :=
      hs.imp_left fun h => ⟨_, h⟩
    have k := becomes_trigger (c := s.calendar) (n := n)
    refine ⟨_, hexec, ?_⟩
    rw [touch_retrigger hm hs', k.slot]
    exact k.answer p m .ok _
  · have k := becomes_countEdge_more (c := s.calendar) (n := n) hk
    refine ⟨_, hexec, ?_⟩
    rw [touch_count hm hs, k.slot]
    exact k.answer p m .ok _
  · subst hk
    have hfire := exec_countFire_of_touch hc ho hm hs
    have k := becomes_countEdge_last (c := s.calendar) (n := n) (left := 1) (by decide)
    refine ⟨hfire, _, hfire.trans hexec, ?_⟩
    rw [touch_count hm hs, k.slot]
    exact k.answer p m .ok _
  · rw [hexec, touch_badState hb, refuses_calendar]

/-! ### Adoption and query -/

/-- An allocated slot passes the checks of an adoption (R25, R37). -/
theorem checkHandle_adopt {c : Calendar} (hn : h.slot.toNat = n.val) (hu : (c.slot n).status ≠ .free)
    (hg : h.generation = (c.slot n).generation) : c.checkHandle p .adopt h = .ok n := by
  simp [Calendar.checkHandle, indexOf_eq_some hn, hu, hg]

/-- A query passes its checks with generation 0 or with that of an allocated slot (R25, R38). -/
theorem checkHandle_query {c : Calendar} (hn : h.slot.toNat = n.val)
    (hg : h.generation = 0 ∨ ((c.slot n).status ≠ .free ∧ h.generation = (c.slot n).generation)) :
    c.checkHandle p .query h = .ok n := by
  unfold Calendar.checkHandle
  rw [indexOf_eq_some hn]
  obtain hg | ⟨hu, hg⟩ := hg
  · simp [hg]
  · simp [hu, hg]

/-- Settles O24: adoption of an orphan, of an owned slot, and a query. -/
theorem slotAdoptAndQuery : Obligations.SlotAdoptAndQuery := by
  intro s p m e h n rest hn
  refine ⟨fun hc hu hg => ?_, fun hc hg => ?_⟩
  · have hexec : exec (.slotAdopt p) s =
        .next { s.afterTaking .calendar p rest with calendar := s.calendar.adopt p n m } := by
      simp only [exec_slotAdopt_of_canServe hc, Calendar.withSlot, checkHandle_adopt hn hu hg]
    refine ⟨fun hnone => ⟨_, hexec, becomes_adopt hnone⟩, fun hsome => ?_⟩
    rw [hexec, adopt_of_owned hsome, refuses_calendar]
  · simp only [exec_slotQuery_of_canServe hc, Calendar.withSlot, checkHandle_query hn hg]
    rfl

end

end Sys2Proof.Machine
end

section
/-! PROOFS. Edge arrivals, gate reports and session ends at the Calendar: what a visit makes of one slot, and the visits to all of them
(R39, R40, R63, R68, R70, R71). -/

namespace Sys2Proof.Machine

/-! ### Lists of slots -/

/-- A list of numbers in ascending order is determined by its entries. -/
theorem ascending_unique {n : Nat} {l l' : List (Fin n)} (h : ∀ i, i ∈ l ↔ i ∈ l') (hl : l.Pairwise (· < ·))
    (hl' : l'.Pairwise (· < ·)) : l = l' := by
  have nodup : ∀ {k : List (Fin n)}, k.Pairwise (· < ·) → k.Nodup := fun hk => hk.imp fun hab => ne_of_lt hab
  exact List.Perm.eq_of_pairwise (fun a b _ _ h1 h2 => absurd h2 (lt_asymm h1)) hl hl'
    ((List.perm_ext_iff_of_nodup (nodup hl) (nodup hl')).2 h)

/-- What the entries of a sublist contribute, as what the entries of the whole list do under a condition. -/
theorem flatMap_filter_eq {α β : Type} (l : List α) (P : α → Bool) (f : α → List β) :
    (l.filter P).flatMap f = l.flatMap fun a => if P a then f a else [] := by
  induction l with
  | nil => rfl
  | cons a l ih =>
    rw [List.filter_cons, List.flatMap_cons]
    split <;> simp [ih]

/-! ### Edges (R63, R67, R68) -/

/-- The record of a slot after an edge arrival of line `e` at time `now`. -/
def Slot.edged (now : Time) (e : LineNo) (x : Slot) : Slot :=
  if x.config.line = some e then
    match x.config.mode with
    | .retrigger =>
      match x.status with
      | .waiting _ | .running _ => { x with status := .running (now + x.config.period.setWidth 48) }
      | _ => x
    | .count =>
      match x.status with
      | .waiting (some left) =>
        if left.toNat ≤ 1 then x.firedTo (.waiting (some x.config.count)) else { x with status := .waiting (some (left - 1)) }
      | _ => x
    | _ => x
  else x

/-- An edge arrival of line `e` completes the count of the slot. -/
def Slot.completesOn (e : LineNo) (x : Slot) : Bool :=
  match x.config.mode, x.status with
  | .count, .waiting (some left) => x.config.line = some e && left.toNat ≤ 1
  | _, _ => false

/-- What the visit of an edge arrival to the slot sends the Router. -/
def Slot.edgeRequests (now : Time) (e : LineNo) (n : SlotNo) (x : Slot) : List RouterRequest :=
  if x.completesOn e then x.fireRequests n .expiry now 1 none else []

/-- What the visit of an edge arrival to the slot sends the Pin Unit. -/
def Slot.edgeActions (now : Time) (e : LineNo) (x : Slot) : List PinRequest :=
  if x.completesOn e then x.fireActions now else []

section
variable {c : Calendar} {n : SlotNo} {e : LineNo}

theorem completesOn_iff {x : Slot} :
    x.completesOn e = true ↔
      x.config.line = some e ∧ x.config.mode = .count ∧ ∃ left : BitVec 16, x.status = .waiting (some left) ∧ left.toNat ≤ 1 := by
  unfold Slot.completesOn
  split
  case h_1 hm hs => simp [hm, hs]
  case h_2 hne =>
    simp only [Bool.false_eq_true, false_iff, not_and, not_exists]
    rintro - hm left hs
    exact absurd hs (fun hs => hne left hm hs)

/-- An edge arrival visits one slot. -/
theorem becomes_edgeOn :
    c.Becomes (c.edgeOn e n) n ((c.slot n).edged c.now e) ((c.slot n).edgeRequests c.now e n)
      ((c.slot n).edgeActions c.now e) c.back := by
  by_cases hl : (c.slot n).config.line = some e
  case neg =>
    have hno : (c.slot n).completesOn e = false := by
      rw [← Bool.not_eq_true, completesOn_iff]
      exact fun h => hl h.1
    simp only [Calendar.edgeOn, Slot.edged, Slot.edgeRequests, Slot.edgeActions, hl, hno, Bool.false_eq_true, if_false]
    exact becomes_refl c n
  case pos =>
    cases hm : (c.slot n).config.mode
    case retrigger =>
      cases hs : (c.slot n).status <;>
        simp only [Calendar.edgeOn, Slot.edged, Slot.edgeRequests, Slot.edgeActions, Slot.completesOn, hl, hm, hs, if_true,
          Bool.false_eq_true, if_false]
      case waiting => exact becomes_trigger
      case running => exact becomes_trigger
      all_goals exact becomes_refl c n
    case count =>
      cases hs : (c.slot n).status
      case waiting k =>
        cases k with
        | none =>
          simp only [Calendar.edgeOn, Slot.edged, Slot.edgeRequests, Slot.edgeActions, Slot.completesOn, hl, hm, hs, if_true,
            Bool.false_eq_true, if_false]
          exact becomes_refl c n
        | some left =>
          simp only [Calendar.edgeOn, Slot.edged, Slot.edgeRequests, Slot.edgeActions, Slot.completesOn, hl, hm, hs, if_true,
            decide_true, Bool.true_and, decide_eq_true_eq]
          by_cases hk : left.toNat ≤ 1
          · simp only [if_pos hk]
            exact becomes_countEdge_last hk
          · simp only [if_neg hk]
            exact becomes_countEdge_more (by omega)
      all_goals
        simp only [Calendar.edgeOn, Slot.edged, Slot.edgeRequests, Slot.edgeActions, Slot.completesOn, hl, hm, hs, if_true,
          Bool.false_eq_true, if_false]
        exact becomes_refl c n
    all_goals
      simp only [Calendar.edgeOn, Slot.edged, Slot.edgeRequests, Slot.edgeActions, Slot.completesOn, hl, hm, if_true,
        Bool.false_eq_true, if_false]
      exact becomes_refl c n

/-- An edge arrival visits the slots from `start` to before `stop`. -/
theorem visited_edgeVisit (c : Calendar) (e : LineNo) (start stop : Nat) :
    c.Visited (c.edgeVisit e start stop) ((List.finRange 64).filter fun n => start ≤ n.val && n.val < stop)
      (fun n => (c.slot n).edged c.now e) (fun n => (c.slot n).edgeRequests c.now e n)
      (fun n => (c.slot n).edgeActions c.now e) :=
  visited_foldl _ c ((List.nodup_finRange 64).filter _) fun c' n _ hnow _ hslot => by
    rw [← hnow, ← hslot]
    exact becomes_edgeOn

/-- A visit to the slots from `start` on is that to those before `mid`, and then that to the rest. -/
theorem edgeVisit_append (c : Calendar) (e : LineNo) {start mid stop : Nat} (h₁ : start ≤ mid) (h₂ : mid ≤ stop) :
    (c.edgeVisit e start mid).edgeVisit e mid stop = c.edgeVisit e start stop := by
  have hsplit : ((List.finRange 64).filter fun n => start ≤ n.val && n.val < mid) ++
      ((List.finRange 64).filter fun n => mid ≤ n.val && n.val < stop) =
        (List.finRange 64).filter fun n => start ≤ n.val && n.val < stop := by
    have hlt := List.pairwise_lt_finRange 64
    refine ascending_unique (fun i => ?_) (List.pairwise_append.2 ⟨hlt.filter _, hlt.filter _, fun a ha b hb => ?_⟩)
      (hlt.filter _)
    · simp only [List.mem_append, List.mem_filter, List.mem_finRange, true_and, Bool.and_eq_true, decide_eq_true_eq]
      omega
    · simp only [List.mem_filter, List.mem_finRange, true_and, Bool.and_eq_true, decide_eq_true_eq] at ha hb
      exact Fin.lt_def.2 (by omega)
  unfold Calendar.edgeVisit
  rw [← List.foldl_append, hsplit]

end

/-! ### Gates (R47, R70, R71) -/

/-- The record of a slot after the view of line `e` went from `old` to `new` at time `now`. -/
def Slot.gateChanged (now : Time) (e : LineNo) (old new : LineView) (x : Slot) : Slot :=
  if x.config.mode = .gated ∧ x.config.line = some e then
    match x.status with
    | .running d =>
      if gateActive old x.config.gate = true ∧ gateActive new x.config.gate = false then
        if isDue d now then x.firedTo (.paused (x.config.period.setWidth 48)) else { x with status := .paused (d - now) }
      else x
    | .paused r =>
      if gateActive old x.config.gate = false ∧ gateActive new x.config.gate = true then
        { x with status := .running (now + r) }
      else x
    | _ => x
  else x

/-- A GATED slot on the line that is due at `now` fires before the pause that the change of the line's view brings. -/
def Slot.firesAtPause (now : Time) (e : LineNo) (old new : LineView) (x : Slot) : Bool :=
  match x.status with
  | .running d =>
    x.config.mode = .gated && x.config.line = some e && gateActive old x.config.gate && !gateActive new x.config.gate && isDue d now
  | _ => false

/-- What the visit of a gate report to the slot sends the Router. -/
def Slot.gateRequests (now : Time) (e : LineNo) (old new : LineView) (n : SlotNo) (x : Slot) : List RouterRequest :=
  if x.firesAtPause now e old new then x.fireRequests n .expiry now 1 none else []

/-- What the visit of a gate report to the slot sends the Pin Unit. -/
def Slot.gateActions (now : Time) (e : LineNo) (old new : LineView) (x : Slot) : List PinRequest :=
  if x.firesAtPause now e old new then x.fireActions now else []

section
variable {c : Calendar} {n : SlotNo} {e : LineNo} {old new : LineView}

theorem becomes_pause_due {d : Time} (hd : isDue d c.now = true) :
    c.Becomes (c.pause n d) n ((c.slot n).firedTo (.paused ((c.slot n).config.period.setWidth 48)))
      ((c.slot n).fireRequests n .expiry c.now 1 none) ((c.slot n).fireActions c.now) c.back := by
  have he : c.pause n d =
      (c.announceFire n .expiry c.now 1 none).move n (.paused ((c.slot n).config.period.setWidth 48)) := by
    simp only [Calendar.pause, hd, if_true, Slot.period, BitVec.ofNat_toNat]
  rw [he]
  exact becomes_fire c n _ _ _ _ _

theorem becomes_pause_ahead {d : Time} (hd : isDue d c.now = false) :
    c.Becomes (c.pause n d) n { c.slot n with status := .paused (d - c.now) } [] [] c.back := by
  have he : c.pause n d = c.move n (.paused (d - c.now)) := by
    simp only [Calendar.pause, hd, Bool.false_eq_true, if_false]
  rw [he]
  exact becomes_move c n _

/-- A gate report visits one slot. -/
theorem becomes_gateOn :
    c.Becomes (c.gateOn e old new n) n ((c.slot n).gateChanged c.now e old new)
      ((c.slot n).gateRequests c.now e old new n) ((c.slot n).gateActions c.now e old new) c.back := by
  by_cases hg : (c.slot n).config.mode = .gated ∧ (c.slot n).config.line = some e
  case neg =>
    have hno : (c.slot n).firesAtPause c.now e old new = false := by
      unfold Slot.firesAtPause
      split
      · simp only [Bool.and_eq_false_iff, decide_eq_false_iff_not]
        tauto
      · rfl
    have hg' : (decide ((c.slot n).config.mode = .gated) && decide ((c.slot n).config.line = some e)) = false := by
      simpa using hg
    simp only [Calendar.gateOn, Slot.gateChanged, Slot.gateRequests, Slot.gateActions, hg, hg', hno, Bool.false_eq_true,
      if_false]
    exact becomes_refl c n
  case pos =>
    obtain ⟨hm, hl⟩ := hg
    cases hs : (c.slot n).status
    case running d =>
      cases ho : gateActive old (c.slot n).config.gate <;> cases hn : gateActive new (c.slot n).config.gate
      case true.false =>
        cases hd : isDue d c.now
        · simp [Calendar.gateOn, Slot.gateChanged, Slot.gateRequests, Slot.gateActions, Slot.firesAtPause, hm, hl, hs, ho, hn,
            hd]
          exact becomes_pause_ahead hd
        · simp [Calendar.gateOn, Slot.gateChanged, Slot.gateRequests, Slot.gateActions, Slot.firesAtPause, hm, hl, hs, ho, hn,
            hd]
          exact becomes_pause_due hd
      all_goals
        simp [Calendar.gateOn, Slot.gateChanged, Slot.gateRequests, Slot.gateActions, Slot.firesAtPause, hm, hl, hs, ho, hn]
        exact becomes_refl c n
    case paused r =>
      cases ho : gateActive old (c.slot n).config.gate <;> cases hn : gateActive new (c.slot n).config.gate
      case false.true =>
        simp [Calendar.gateOn, Slot.gateChanged, Slot.gateRequests, Slot.gateActions, Slot.firesAtPause, hm, hl, hs, ho, hn]
        exact becomes_move c n _
      all_goals
        simp [Calendar.gateOn, Slot.gateChanged, Slot.gateRequests, Slot.gateActions, Slot.firesAtPause, hm, hl, hs, ho, hn]
        exact becomes_refl c n
    all_goals
      simp [Calendar.gateOn, Slot.gateChanged, Slot.gateRequests, Slot.gateActions, Slot.firesAtPause, hm, hl, hs]
      exact becomes_refl c n

/-- A gate report replaces the line view and visits every slot. -/
theorem visited_takeGate (c : Calendar) (e : LineNo) (new : LineView) :
    Calendar.Visited { c with views := setAt c.views e new } (c.takeGate e new) (List.finRange 64)
      (fun n => (c.slot n).gateChanged c.now e c.views[e] new) (fun n => (c.slot n).gateRequests c.now e c.views[e] new n)
      (fun n => (c.slot n).gateActions c.now e c.views[e] new) :=
  visited_foldl _ _ (List.nodup_finRange 64) fun c' n _ hnow _ hslot => by
    have hs : c'.slot n = c.slot n := hslot
    have hn : c'.now = c.now := hnow
    rw [← hn, ← hs]
    exact becomes_gateOn

end

/-! ### Session ends (R35, R39, R40) -/

/-- The record of a slot after the end of p's session, with `first` the number of the first delivery not yet on its way. -/
def Slot.afterEnd (p : Port) (first : Nat) (x : Slot) : Slot :=
  if x.owner = some p ∧ x.status ≠ .free then
    if x.config.policy = .keep then { x with owner := none, left := some (p, first) }
    else { x with status := .free, owner := none, fired := false, config := { x.config with pin := none } }
  else x

/-- What the end of p's session at the slot sends the Router: an ORPHANED request under policy ANNOUNCE. -/
def Slot.endRequests (p : Port) (now : Time) (n : SlotNo) (x : Slot) : List RouterRequest :=
  if x.owner = some p ∧ x.status ≠ .free ∧ x.config.policy = .announce then
    [.fire { slot := n, generation := x.generation, kind := .orphaned, cls := x.config.cls, tag := x.config.tag,
             targets := x.config.targets, delivery := x.config.delivery, fired := now, weight := 1,
             tie := some (.ended p) }]
  else []

/-- What the end of p's session at the slot sends the Pin Unit: the unbind of a slot that it frees. -/
def Slot.endUnbinds (p : Port) (x : Slot) : List PinRequest :=
  if x.owner = some p ∧ x.status ≠ .free ∧ x.config.policy ≠ .keep then x.unbinds else []

section
variable {c : Calendar} {n : SlotNo} {p : Port} {first : Nat}

/-- The orphan policy of one slot. -/
theorem becomes_applyPolicy :
    c.Becomes (c.applyPolicy p first n) n ((c.slot n).afterEnd p first) ((c.slot n).endRequests p c.now n)
      ((c.slot n).endUnbinds p) c.back := by
  by_cases ho : (c.slot n).owner = some p ∧ (c.slot n).status ≠ .free
  case neg =>
    have ho' : (decide ((c.slot n).owner = some p) && decide ((c.slot n).status ≠ .free)) = false := by simpa using ho
    have hand : ∀ {q : Prop}, ¬ ((c.slot n).owner = some p ∧ (c.slot n).status ≠ .free ∧ q) := fun h => ho ⟨h.1, h.2.1⟩
    simp only [Calendar.applyPolicy, Slot.afterEnd, Slot.endRequests, Slot.endUnbinds, ho', if_neg ho, if_neg hand,
      Bool.false_eq_true, if_false]
    exact becomes_refl c n
  case pos =>
    obtain ⟨how, hu⟩ := ho
    have ho' : (decide ((c.slot n).owner = some p) && decide ((c.slot n).status ≠ .free)) = true := by simp [how, hu]
    unfold Calendar.applyPolicy Slot.afterEnd Slot.endRequests Slot.endUnbinds
    dsimp only
    rw [if_pos ho', if_pos ⟨how, hu⟩]
    split
    case h_1 hp =>
      have hk : (c.slot n).config.policy ≠ .keep := by simp [hp]
      rw [if_neg hk, if_neg (by simp [hp]), if_pos ⟨how, hu, hk⟩]
      exact becomes_releaseSlot c n
    case h_2 hp =>
      rw [if_pos hp, if_neg (by simp [hp]), if_neg (by simp [hp])]
      exact becomes_setSlot c n { c.slot n with owner := none, left := some (p, first) } rfl
    case h_3 hp =>
      have hk : (c.slot n).config.policy ≠ .keep := by simp [hp]
      rw [if_neg hk, if_pos ⟨how, hu, hp⟩, if_pos ⟨how, hu, hk⟩]
      exact (becomes_sendRouter c n (.fire (c.fireRequestOf n .orphaned c.now 1 (some (.ended p))))).trans
        (becomes_releaseSlot _ n)

/-- The end of p's session visits every slot; the requests on their way are judged again first. -/
theorem visited_endSession (c : Calendar) (p : Port) (onTheWay : Nat) :
    Calendar.Visited { c with toRouter := c.toRouter.map (RouterRequest.endTie p) } (c.endSession p onTheWay)
      (List.finRange 64) (fun n => (c.slot n).afterEnd p (c.deliveries + onTheWay)) (fun n => (c.slot n).endRequests p c.now n)
      (fun n => (c.slot n).endUnbinds p) :=
  visited_foldl _ _ (List.nodup_finRange 64) fun c' n _ hnow _ hslot => by
    have hs : c'.slot n = c.slot n := hslot
    have hn : c'.now = c.now := hnow
    rw [← hn, ← hs]
    exact becomes_applyPolicy

end

end Sys2Proof.Machine
end

section
/-! PROOFS. The Calendar's events (R24, R39, R44, R55 to R73): deliveries and their fires, edge arrivals, gate reports, count reports and
session ends. -/

namespace Sys2Proof.Machine

/-! ### What the Calendar is in the middle of does not show in what it does -/

section
variable (c : Calendar) (b : CalendarBusy) (n : SlotNo)

theorem place_congr {c c' : Calendar} (h : ∀ k m, c'.before k m = c.before k m) (n : SlotNo) (l : List SlotNo) :
    c'.place n l = c.place n l := by
  induction l with
  | nil => rfl
  | cons m l ih => simp only [Calendar.place, h, ih]

theorem move_busy (st : SlotStatus) : { c with busy := b }.move n st = { c.move n st with busy := b } := by
  have hs : ∀ k, { c with busy := b }.slot k = c.slot k := fun _ => rfl
  have hplace : ∀ x l, ({ c with busy := b }.setSlot n x).place n l = (c.setSlot n x).place n l := fun x l =>
    place_congr (c := c.setSlot n x) (c' := { c with busy := b }.setSlot n x)
      (fun k m => before_congr (by simp only [setSlot_slot, hs]) (by simp only [setSlot_slot, hs]) rfl) n l
  unfold Calendar.move
  dsimp only
  rw [hs, hplace]
  rfl

theorem announceFire_busy (kind : NoticeKind) (t : Time) (w : BitVec 16) (tie : Option SessionTie) :
    { c with busy := b }.announceFire n kind t w tie = { c.announceFire n kind t w tie with busy := b } := by
  have hs : { c with busy := b }.slot n = c.slot n := rfl
  unfold Calendar.announceFire
  dsimp only
  rw [hs]
  by_cases ht : (c.slot n).config.targets = 0
  · simp only [if_pos ht]
    cases (c.slot n).config.pin <;> rfl
  · simp only [if_neg ht]
    cases (c.slot n).config.pin <;> rfl

theorem fireIfRunning_busy (t : Time) :
    Calendar.fireIfRunning t { c with busy := b } n = { Calendar.fireIfRunning t c n with busy := b } := by
  have hs : { c with busy := b }.slot n = c.slot n := rfl
  unfold Calendar.fireIfRunning
  rw [hs]
  cases (c.slot n).status.deadline? with
  | none => rfl
  | some d =>
    unfold Calendar.fireSlot
    dsimp only
    rw [hs]
    cases (c.slot n).config.mode <;> simp only [announceFire_busy, move_busy]

theorem fireAllDue_busy (t : Time) : { c with busy := b }.fireAllDue t = { c.fireAllDue t with busy := b } := by
  have hfold : ∀ (l : List SlotNo) (c : Calendar),
      l.foldl (Calendar.fireIfRunning t) { c with busy := b } =
        { l.foldl (Calendar.fireIfRunning t) c with busy := b } := fun l => by
    induction l with
    | nil => exact fun _ => rfl
    | cons n l ih => exact fun c => by rw [List.foldl_cons, fireIfRunning_busy, ih, List.foldl_cons]
  exact hfold _ c

theorem edgeOn_busy (e : LineNo) : { c with busy := b }.edgeOn e n = { c.edgeOn e n with busy := b } := by
  have hs : { c with busy := b }.slot n = c.slot n := rfl
  by_cases hl : (c.slot n).config.line = some e
  · cases hm : (c.slot n).config.mode <;> cases hst : (c.slot n).status <;>
      simp only [Calendar.edgeOn, hs, hl, hm, hst, if_true, Calendar.trigger, move_busy]
    case count.waiting k =>
      cases k with
      | none => rfl
      | some left =>
        simp only [Calendar.countEdge, hs, announceFire_busy, move_busy]
        split <;> rfl
  · simp only [Calendar.edgeOn, hs, hl, if_false]

theorem edgeVisit_busy (e : LineNo) (start stop : Nat) :
    { c with busy := b }.edgeVisit e start stop = { c.edgeVisit e start stop with busy := b } := by
  have hfold : ∀ (l : List SlotNo) (c : Calendar),
      l.foldl (Calendar.edgeOn e) { c with busy := b } = { l.foldl (Calendar.edgeOn e) c with busy := b } := fun l => by
    induction l with
    | nil => exact fun _ => rfl
    | cons n l ih => exact fun c => by rw [List.foldl_cons, edgeOn_busy, ih, List.foldl_cons]
  exact hfold _ c

end

theorem Calendar.Becomes.withBusy {c c' : Calendar} {n : SlotNo} {x : Slot} {r : List RouterRequest} {q : List PinRequest}
    {back : Vector (List FromBlock) 4} (h : c.Becomes c' n x r q back) (b : CalendarBusy) :
    Calendar.Becomes { c with busy := b } { c' with busy := b } n x r q back :=
  { slot := h.slot, others := h.others, dueExact := h.dueExact, dueSorted := h.dueSorted, dueOthers := h.dueOthers,
    deliveries := h.deliveries, now := h.now, views := h.views, busy := rfl, toRouter := h.toRouter, toPin := h.toPin,
    back := h.back }

/-! ### Deliveries (R44, R55 to R62, R72, R73) -/

section
variable {s : State} {t : Time} {rest : List TimeDelivery}

theorem delivering_of_free {d : TimeDelivery} (hb : s.calendar.busy = .free) (hd : s.timebase.toCalendar = d :: rest) :
    s.delivering = some (d, s.calendar.beginDelivery d) := by
  simp only [State.delivering, hb, hd]

theorem delivering_of_delivering {d : TimeDelivery} (hb : s.calendar.busy = .delivering)
    (hd : s.timebase.toCalendar = d :: rest) : s.delivering = some (d, s.calendar) := by
  simp only [State.delivering, hb, hd]

/-- What is at hand is the delivery at the head of its path, begun now or before. -/
theorem delivering_eq_some {d : TimeDelivery} {c : Calendar} (h : s.delivering = some (d, c)) :
    (∃ rest, s.timebase.toCalendar = d :: rest) ∧
      (s.calendar.busy = .free ∧ c = s.calendar.beginDelivery d ∨ s.calendar.busy = .delivering ∧ c = s.calendar) := by
  unfold State.delivering at h
  split at h
  case h_1 hb hd =>
    cases h
    exact ⟨⟨_, hd⟩, .inl ⟨hb, rfl⟩⟩
  case h_2 hb hd =>
    cases h
    exact ⟨⟨_, hd⟩, .inr ⟨hb, rfl⟩⟩
  case h_3 => cases h

theorem finishDelivery_eq {d : TimeDelivery} {c : Calendar} (hd : s.timebase.toCalendar = d :: rest) :
    s.finishDelivery d c =
      { s with
        timebase := { s.timebase with toCalendar := rest },
        calendar := { c.fireAllDue d.value with busy := .free, deliveries := c.deliveries + 1 } } := by
  simp only [State.finishDelivery, hd, List.tail_cons]

/-- Settles O25: now is set, and all that is due fires. -/
theorem deliveredTickFiresWhatIsDue : Obligations.DeliveredTickFiresWhatIsDue := by
  intro s t rest hb hd he hl
  obtain ⟨he', hs', hl'⟩ := beginTick_spec s.calendar t he hl
  obtain ⟨hf, hfe, hfs, hdel, hnow, hviews, -, hback⟩ := fireAllDue_spec _ t he' hs' hl'
  refine ⟨{ (s.calendar.beginDelivery (.tick t)).fireAllDue t with busy := .free, deliveries := s.calendar.deliveries + 1 }, ?_,
    rfl, hnow, rfl, hviews, hback, hfe, hfs, ?_⟩
  · change execDeliveredTick s = _
    simp only [execDeliveredTick, delivering_of_free hb hd, finishDelivery_eq hd, TimeDelivery.value]
    rfl
  · exact firesDue_congr hf (fun _ => rfl) rfl rfl rfl rfl (fun _ => rfl) rfl rfl

/-- Settles O28: now is set, the deadlines move, and all that is then due fires. -/
theorem timeStepMovesAndFires : Obligations.TimeStepMovesAndFires := by
  intro s old new delta rest hb hd he hl
  obtain ⟨he', hs', hl', hslot⟩ := beginStep_spec s.calendar old new delta he hl hb
  obtain ⟨hf, hfe, hfs, hdel, hnow, hviews, -, hback⟩ := fireAllDue_spec _ new he' hs' hl'
  refine ⟨{ (s.calendar.beginDelivery (.step old new delta)).fireAllDue new with
      busy := .free, deliveries := s.calendar.deliveries + 1 }, ?_, rfl, hnow, rfl, hviews, hback, hfe, hfs, fun slots hslots => ?_⟩
  · change execTimeStep s = _
    simp only [execTimeStep, delivering_of_free hb hd, finishDelivery_eq hd, TimeDelivery.value]
    rfl
  · exact firesDue_congr hf (fun n => (stepsTo_unique (hslots n) (stepsTo_stepped _ _ _)).trans (hslot n).symm) rfl rfl rfl rfl
      (fun _ => rfl) rfl rfl

/-- A RUNNING slot fires as its mode requires, whatever its period (R58 to R62). -/
theorem becomes_fireSlot {c : Calendar} {n : SlotNo} {d : Time} {kind : NoticeKind} {weight : BitVec 16} {st : SlotStatus}
    (hf : (c.slot n).FiresTo d t kind weight st) :
    c.Becomes (c.fireSlot n d t) n ((c.slot n).firedTo st)
      ((c.slot n).fireRequests n kind t weight ((c.slot n).deliveryTie c.deliveries)) ((c.slot n).fireActions t) c.back := by
  rw [← tieAt_eq]
  cases hf with
  | once hm => simp only [Calendar.fireSlot, hm]; exact becomes_fire c n _ _ _ _ _
  | retrigger hm => simp only [Calendar.fireSlot, hm]; exact becomes_fire c n _ _ _ _ _
  | window hm => simp only [Calendar.fireSlot, hm]; exact becomes_fire c n _ _ _ _ _
  | gated hm => simp only [Calendar.fireSlot, hm, after_period]; exact becomes_fire c n _ _ _ _ _
  | _ => -- the fire of a REPEAT slot, whose constructor's name is a keyword
    rename_i k hm hk hlo hhi
    have hcount : repeatCount (c.slot n).period d t = k := by
      have : (t - d).toNat / (c.slot n).config.period.toNat = k - 1 :=
        Nat.div_eq_of_lt_le hlo (by rwa [Nat.sub_add_cancel hk])
      rw [repeatCount, Slot.period, this, Nat.sub_add_cancel hk]
    simp only [Calendar.fireSlot, hm, hcount]
    exact becomes_fire c n _ _ _ _ _

theorem fireIfRunning_of_running {c : Calendar} {n : SlotNo} {d : Time} (hd : (c.slot n).status = .running d) :
    Calendar.fireIfRunning t c n = c.fireSlot n d t := by
  simp only [Calendar.fireIfRunning, hd, SlotStatus.deadline?]

/-- A slot state has a deadline, which is due at `t` (R2). -/
def SlotStatus.isDueAt (t : Time) (st : SlotStatus) : Bool := st.deadline?.any fun d => isDue d t

theorem isDueAt_iff {st : SlotStatus} : st.isDueAt t = true ↔ ∃ d, st = .running d ∧ (t - d).toNat < 2 ^ 47 := by
  unfold SlotStatus.isDueAt
  cases st <;> simp [SlotStatus.deadline?, isDue]

/-- What is due is the part of the due list whose states are due. -/
theorem dueAt_eq (c : Calendar) (t : Time) : c.dueAt t = c.dueList.filter fun n => (c.slot n).status.isDueAt t := by
  unfold Calendar.dueAt SlotStatus.isDueAt
  refine List.filter_congr fun n _ => ?_
  cases (c.slot n).status.deadline? <;> rfl

theorem mem_dueAt {c : Calendar} {n : SlotNo} :
    n ∈ c.dueAt t ↔ n ∈ c.dueList ∧ ∃ d, (c.slot n).status = .running d ∧ (t - d).toNat < 2 ^ 47 := by
  rw [dueAt_eq, List.mem_filter, isDueAt_iff]

/-- The first due entry of the due list, with no due one before it. -/
theorem dueAt_head {c : Calendar} {n : SlotNo} {d : Time} {l₁ l₂ : List SlotNo} (hl : c.dueList = l₁ ++ n :: l₂)
    (hbefore : ∀ k ∈ l₁, ∀ d', (c.slot k).status = .running d' → 2 ^ 47 ≤ (t - d').toNat)
    (hs : (c.slot n).status = .running d) (hd : (t - d).toNat < 2 ^ 47) : (c.dueAt t).head? = some n := by
  have hnone : ∀ k ∈ l₁, ¬ (c.slot k).status.isDueAt t = true := fun k hk h => by
    obtain ⟨d', hd', hlt⟩ := isDueAt_iff.1 h
    exact absurd hlt (not_lt.2 (hbefore k hk d' hd'))
  rw [dueAt_eq, hl, List.filter_append, List.filter_eq_nil_iff.2 hnone,
    List.filter_cons, if_pos (isDueAt_iff.2 ⟨d, hs, hd⟩)]
  rfl

/-- Settles O26: the due list begins with `n` among what is due, and `n` fires. -/
theorem fireOfDueSlot : Obligations.FireOfDueSlot := by
  intro s t ticks c l₁ l₂ n d kind weight st hd hc hbefore hs hdue hf
  have hexec : ∀ c₀ : Calendar, s.delivering = some (.tick t, c₀) → c₀.dueList = l₁ ++ n :: l₂ →
      (∀ k, c₀.slot k = s.calendar.slot k) →
      exec (.fire n) s = .next { s with calendar := { c₀.fireSlot n d t with busy := .delivering } } := by
    intro c₀ hdel hl hslot
    have hs₀ : (c₀.slot n).status = .running d := by rw [hslot]; exact hs
    have hhead := dueAt_head hl (fun k hk d' hk' => hbefore k hk d' (by rwa [hslot] at hk')) hs₀ hdue
    change execFire n s = _
    simp only [execFire, hdel, TimeDelivery.value, hhead, if_true, fireIfRunning_of_running hs₀]
  obtain ⟨hb, rfl, hperm, hsorted⟩ | ⟨hb, rfl, hl⟩ := hc
  · have hnodup : s.calendar.dueList.Nodup := by
      refine hperm.nodup_iff.1 (hsorted.imp fun {a b} hab => ?_)
      rintro rfl
      exact before_irrefl _ _ hab
    have hplace := placeAll_spec { s.calendar with now := t } hnodup
    have hlist : ({ s.calendar with now := t } : Calendar).placeAll.dueList = l₁ ++ n :: l₂ :=
      sorted_unique (fun m => hplace.1.mem_iff.trans hperm.mem_iff.symm) hplace.2 hsorted
    have hbegin : s.calendar.beginDelivery (.tick t) = { s.calendar with now := t, dueList := l₁ ++ n :: l₂ } := by
      rw [← hlist]
      rfl
    refine ⟨_, hexec _ (delivering_of_free hb hd) (by rw [hbegin]) fun _ => rfl, ?_⟩
    rw [hbegin]
    exact (becomes_fireSlot (c := { s.calendar with now := t, dueList := l₁ ++ n :: l₂ }) hf).withBusy .delivering
  · refine ⟨_, hexec _ (delivering_of_delivering hb hd) hl fun _ => rfl, ?_⟩
    have hbusy : ({ s.calendar with busy := .delivering } : Calendar) = s.calendar := by rw [← hb]
    have k := (becomes_fireSlot (c := s.calendar) hf).withBusy .delivering
    rwa [hbusy] at k

end

/-! ### Fires before the end of their delivery -/

/-- A slot that fired is not due at that time any more (R59, R62): its next deadline, if it has one, lies ahead. -/
theorem firesTo_not_due {x : Slot} {d d' t : Time} {kind : NoticeKind} {weight : BitVec 16} (hp : 1 ≤ x.config.period.toNat)
    (hd : (t - d).toNat < 2 ^ 47) (h : x.FiresTo d t kind weight (.running d')) : 2 ^ 47 ≤ (t - d').toNat := by
  have hperiod := x.config.period.isLt
  cases h with
  | gated hm =>
    have hw : (x.config.period.setWidth 48).toNat = x.config.period.toNat := by
      rw [BitVec.toNat_setWidth]
      exact Nat.mod_eq_of_lt (by omega)
    have hsub : t - (t + x.config.period.setWidth 48) = 0 - x.config.period.setWidth 48 := by bv_omega
    rw [hsub, BitVec.toNat_sub, hw, BitVec.ofNat_eq_ofNat, BitVec.toNat_ofNat, Nat.zero_mod]
    omega
  | _ => -- the fire of a REPEAT slot
    rename_i k hm hk hlo hhi
    have hstep : k * x.config.period.toNat = (k - 1) * x.config.period.toNat + x.config.period.toNat := by
      rw [← Nat.succ_mul, Nat.succ_eq_add_one, Nat.sub_add_cancel hk]
    generalize k * x.config.period.toNat = a at *
    generalize (k - 1) * x.config.period.toNat = b at *
    have ha : a < 2 ^ 48 := by omega
    have hsub : t - (d + BitVec.ofNat 48 a) = (t - d) - BitVec.ofNat 48 a := by bv_omega
    have ha' : (BitVec.ofNat 48 a).toNat = a := by rw [BitVec.toNat_ofNat, Nat.mod_eq_of_lt ha]
    rw [hsub, BitVec.toNat_sub, ha']
    omega

/-- After the fire of the first slot that is due, what is due is the rest. -/
theorem dueAt_after_fire {c : Calendar} {t : Time} {n : SlotNo} {l : List SlotNo} (he : c.DueExact) (hl : c.SlotLaw)
    (h : c.dueAt t = n :: l) :
    (Calendar.fireIfRunning t c n).dueAt t = l ∧ (Calendar.fireIfRunning t c n).deliveries = c.deliveries := by
  obtain ⟨-, d, hs, hdue⟩ := mem_dueAt.1 (h ▸ List.mem_cons_self : n ∈ c.dueAt t)
  obtain ⟨hmode, -, hlegal⟩ := hl.1 n
  have hm : (c.slot n).config.mode ≠ .count := by simpa only [Slot.ModeLaw, hs] using hmode
  obtain ⟨kind, weight, st, hf, hb⟩ := fireSlot_spec c n d t hm hlegal.period
  rw [fireIfRunning_of_running hs]
  refine ⟨?_, hb.deliveries⟩
  have hnodup : (n :: l).Nodup := h ▸ he.1.filter _
  -- Slot `n` is not due in the Calendar after its fire, so its entry in the due list does not matter.
  have hnot : ¬ (((c.slot n).firedTo st).status.isDueAt t) = true := fun h => by
    obtain ⟨d', rfl, hlt⟩ := isDueAt_iff.1 h
    exact absurd hlt (not_lt.2 (firesTo_not_due hlegal.period hdue hf))
  have hdrop : (c.fireSlot n d t).dueAt t =
      (unlist n (c.fireSlot n d t).dueList).filter fun m => ((c.fireSlot n d t).slot m).status.isDueAt t := by
    rw [dueAt_eq, unlist, List.filter_filter]
    refine List.filter_congr fun m _ => ?_
    by_cases hmn : m = n
    · subst hmn
      simp [hb.slot, hnot]
    · simp [hmn]
  have hrest : l = unlist n (c.dueAt t) := by
    rw [h, unlist, List.filter_cons, if_neg (by simp)]
    exact (unlist_of_not_mem (List.nodup_cons.1 hnodup).1).symm
  rw [hdrop, hb.dueOthers, hrest, dueAt_eq, unlist, unlist, List.filter_filter, List.filter_filter]
  refine List.filter_congr fun m _ => ?_
  by_cases hmn : m = n
  · simp [hmn]
  · rw [hb.others m hmn, Bool.and_comm]

/-- A fire taken before the end of its delivery changes nothing in what the delivery does. -/
theorem fireAllDue_after_fire {c : Calendar} {t : Time} {n : SlotNo} (he : c.DueExact) (hl : c.SlotLaw)
    (h : (c.dueAt t).head? = some n) :
    (Calendar.fireIfRunning t c n).fireAllDue t = c.fireAllDue t ∧
      (Calendar.fireIfRunning t c n).deliveries = c.deliveries := by
  obtain ⟨l, hl'⟩ : ∃ l, c.dueAt t = n :: l := by
    cases hc : c.dueAt t with
    | nil => rw [hc] at h; cases h
    | cons m l => rw [hc] at h; cases h; exact ⟨l, rfl⟩
  obtain ⟨hdue, hdel⟩ := dueAt_after_fire he hl hl'
  exact ⟨by simp only [Calendar.fireAllDue, hdue, hl', List.foldl_cons], hdel⟩

section
variable {s t : State} {n : SlotNo}

/-- The Calendar that acts on a delivery is as lawful as the Calendar that took it. -/
theorem delivering_lawful {d : TimeDelivery} {c : Calendar} (h : s.delivering = some (d, c)) (he : s.calendar.DueExact)
    (hl : s.calendar.SlotLaw) : c.DueExact ∧ c.SlotLaw := by
  obtain ⟨-, ⟨hb, rfl⟩ | ⟨-, rfl⟩⟩ := delivering_eq_some h
  · cases d with
    | tick v => exact ⟨(beginTick_spec _ v he hl).1, (beginTick_spec _ v he hl).2.2⟩
    | step old new delta =>
      exact ⟨(beginStep_spec _ old new delta he hl hb).1, (beginStep_spec _ old new delta he hl hb).2.2.1⟩
  · exact ⟨he, hl⟩

/-- The end of a delivery does not depend on what the Calendar was in the middle of. -/
theorem finishDelivery_congr {d : TimeDelivery} {c c' : Calendar} {b : CalendarBusy}
    (hf : c'.fireAllDue d.value = { c.fireAllDue d.value with busy := b }) (hd : c'.deliveries = c.deliveries) :
    s.finishDelivery d c = State.finishDelivery { s with calendar := c' } d c' := by
  simp only [State.finishDelivery, hf, hd]

/-- A FIRE takes nothing, or leaves the delivery at hand with the Calendar that ends as it would have ended. -/
theorem execFire_cases (h : exec (.fire n) s = .next t) (he : s.calendar.DueExact) (hl : s.calendar.SlotLaw) :
    t = s ∨ ∃ d c c', s.delivering = some (d, c) ∧ t.delivering = some (d, c') ∧
      s.finishDelivery d c = t.finishDelivery d c' := by
  change execFire n s = _ at h
  unfold execFire at h
  split at h
  case h_2 => cases h; exact .inl rfl
  case h_1 d c hd =>
    split at h
    case isFalse => cases h; exact .inl rfl
    case isTrue hhead =>
      cases h
      obtain ⟨⟨rest, hpath⟩, -⟩ := delivering_eq_some hd
      obtain ⟨he', hl'⟩ := delivering_lawful hd he hl
      obtain ⟨hfire, hdel⟩ := fireAllDue_after_fire he' hl' hhead
      refine .inr ⟨d, c, _, hd, delivering_of_delivering rfl hpath, ?_⟩
      exact finishDelivery_congr (by rw [fireAllDue_busy, hfire]) hdel

/-- Settles O27: the delivery ends the same after a FIRE, and the edge arrival after a COUNT_FIRE. -/
theorem firesBeforeTheEndOfTheirEvent : Obligations.FiresBeforeTheEndOfTheirEvent := by
  intro s t n he hl
  refine ⟨fun h => ?fires, fun h => ?counts⟩
  case fires =>
    obtain rfl | ⟨d, c, c', hs, ht, hfinish⟩ := execFire_cases h he hl
    · exact ⟨fun _ _ _ => rfl, fun _ _ _ _ _ => rfl⟩
    · obtain ⟨⟨rest, hpath⟩, -⟩ := delivering_eq_some hs
      refine ⟨fun v rest' hv => ?_, fun old new delta rest' hv => ?_⟩
      · obtain rfl : d = .tick v := (List.cons.inj (hpath.symm.trans hv)).1
        change execDeliveredTick t = execDeliveredTick s
        simp only [execDeliveredTick, hs, ht, hfinish]
      · obtain rfl : d = .step old new delta := (List.cons.inj (hpath.symm.trans hv)).1
        change execTimeStep t = execTimeStep s
        simp only [execTimeStep, hs, ht, hfinish]
  case counts =>
    change execCountFire n none s = _ at h
    unfold execCountFire at h
    simp only at h
    split at h
    case h_2 => cases h; rfl
    case h_1 e k hk =>
      split at h
      case isFalse => cases h; rfl
      case isTrue hc =>
        cases h
        simp only [Bool.and_eq_true, decide_eq_true_eq] at hc
        obtain ⟨⟨hkn, -⟩, -⟩ := hc
        have hpath : ∃ rest, s.lines.toCalendar = .edge e :: rest := by
          unfold State.edgeInHand at hk
          split at hk <;> cases hk <;> exact ⟨_, ‹_›⟩
        obtain ⟨rest, hpath⟩ := hpath
        have ht : State.edgeInHand { s with
            calendar := { s.calendar.edgeVisit e k (n.val + 1) with busy := .edge (n.val + 1) } } = some (e, n.val + 1) := by
          simp only [State.edgeInHand, hpath]
        change execEdgeArrival _ = execEdgeArrival s
        simp only [execEdgeArrival, hk, ht, edgeVisit_busy,
          edgeVisit_append s.calendar e (Nat.le_succ_of_le hkn) (Nat.succ_le_of_lt n.isLt)]

end

end Sys2Proof.Machine
end

section
/-! PROOFS. Edge arrivals, gate reports, count reports and session ends at the Calendar (R24, R39, R40, R47, R63, R67, R68, R70, R71): the
statements, read off the visits. -/

namespace Sys2Proof.Machine

/-! ### Edge arrivals -/

section
variable {s : State} {i : LineNo} {n : SlotNo} {rest : List LineMessage}

/-- In a lawful slot the count that an edge completes is one that waits for its last edge (R63). -/
theorem completesOn_eq_lastEdge {c : Calendar} (hl : c.SlotLaw) (i : LineNo) (n : SlotNo) :
    (c.slot n).completesOn i = decide (c.LastEdge i n) := by
  rw [Bool.eq_iff_iff, completesOn_iff, decide_eq_true_iff, Calendar.LastEdge]
  refine and_congr_right fun _ => and_congr_right fun _ => ⟨?_, fun hs => ⟨1, hs, le_rfl⟩⟩
  rintro ⟨left, hs, hle⟩
  have hne : left ≠ 0 := by
    have := (hl.1 n).1
    simp only [Slot.ModeLaw, hs] at this
    exact this.2
  have hone : left = 1 := by
    refine BitVec.eq_of_toNat_eq ?_
    have : left.toNat ≠ 0 := fun h0 => hne (BitVec.eq_of_toNat_eq h0)
    change left.toNat = 1
    omega
  rw [hs, hone]

theorem edged_of_other_line {x : Slot} {now : Time} (hl : x.config.line ≠ some i) : x.edged now i = x := if_neg hl

/-- An edge passes over a slot of a mode that takes none, and over one that does not stand in a timed state (R68). -/
theorem edged_of_still {x : Slot} {now : Time}
    (h : x.config.mode ∈ [Mode.once, Mode.repeat, Mode.window, Mode.gated] ∨
      x.status ∈ [SlotStatus.free, .idle, .lapsed]) : x.edged now i = x := by
  unfold Slot.edged
  split
  case isFalse => rfl
  case isTrue =>
    cases hm : x.config.mode <;> cases hs : x.status <;> simp_all

theorem edged_retrigger {x : Slot} {now : Time} (hl : x.config.line = some i) (hm : x.config.mode = .retrigger)
    (hs : x.status = .waiting none ∨ ∃ d, x.status = .running d) :
    x.edged now i = { x with status := .running (now + x.config.period.setWidth 48) } := by
  obtain hs | ⟨d, hs⟩ := hs <;> simp only [Slot.edged, if_pos hl, hm, hs]

theorem edged_count_more {x : Slot} {now : Time} {k : BitVec 16} (hl : x.config.line = some i) (hm : x.config.mode = .count)
    (hs : x.status = .waiting (some k)) (hk : 2 ≤ k.toNat) :
    x.edged now i = { x with status := .waiting (some (k - 1)) } := by
  simp only [Slot.edged, if_pos hl, hm, hs]
  exact if_neg (by omega)

theorem edged_count_last {x : Slot} {now : Time} (hl : x.config.line = some i) (hm : x.config.mode = .count)
    (hs : x.status = .waiting (some 1)) : x.edged now i = x.firedTo (.waiting (some x.config.count)) := by
  simp only [Slot.edged, if_pos hl, hm, hs]
  exact if_pos le_rfl

/-- The requests of an edge arrival are those of the slots whose last edge it is. -/
theorem edgeRequests_flatMap {c : Calendar} (hl : c.SlotLaw) (i : LineNo) (l : List SlotNo) :
    l.flatMap (fun n => (c.slot n).edgeRequests c.now i n) =
      (l.filter fun n => c.LastEdge i n).flatMap fun n => (c.slot n).fireRequests n .expiry c.now 1 none := by
  rw [flatMap_filter_eq]
  refine List.flatMap_congr fun n _ => ?_
  simp only [Slot.edgeRequests, completesOn_eq_lastEdge hl]

theorem edgeActions_flatMap {c : Calendar} (hl : c.SlotLaw) (i : LineNo) (l : List SlotNo) :
    l.flatMap (fun n => (c.slot n).edgeActions c.now i) =
      (l.filter fun n => c.LastEdge i n).flatMap fun n => (c.slot n).fireActions c.now := by
  rw [flatMap_filter_eq]
  refine List.flatMap_congr fun n _ => ?_
  simp only [Slot.edgeActions, completesOn_eq_lastEdge hl]

/-- All slots, as the visit of a whole edge arrival lists them. -/
theorem slots_from_zero : ((List.finRange 64).filter fun n => 0 ≤ n.val && n.val < 64) = List.finRange 64 :=
  List.filter_eq_self.2 fun n _ => by simp

/-- The slots up to `n`, as the visit of a COUNT_FIRE lists them. -/
theorem slots_up_to (n : SlotNo) (P : SlotNo → Prop) [DecidablePred P] :
    (((List.finRange 64).filter fun k => 0 ≤ k.val && k.val < n.val + 1).filter fun k => P k) =
      (List.finRange 64).filter fun k => k ≤ n ∧ P k := by
  rw [List.filter_filter]
  refine List.filter_congr fun k _ => ?_
  have : k ≤ n ↔ k.val < n.val + 1 := by rw [Fin.le_def, Nat.lt_succ_iff]
  rw [Bool.eq_iff_iff]
  simp only [Bool.and_eq_true, decide_eq_true_eq, Nat.zero_le, true_and, ← this]
  exact and_comm

theorem edgeInHand_of_free (hb : s.calendar.busy = .free) (hd : s.lines.toCalendar = .edge i :: rest) :
    s.edgeInHand = some (i, 0) := by
  simp only [State.edgeInHand, hb, hd]

/-- Settles O29: the whole visit, and the visit up to a slot whose last edge it is. -/
theorem edgeArrival : Obligations.EdgeArrival := by
  refine ⟨fun s i rest hb hd hl => ?_, fun s i n rest hb hd hl hn => ?_⟩
  · have k := visited_edgeVisit s.calendar i 0 64
    rw [slots_from_zero] at k
    have hexec : exec .edgeArrival s = .next { s with
        lines := { s.lines with toCalendar := rest }, calendar := { s.calendar.edgeVisit i 0 64 with busy := .free } } := by
      change execEdgeArrival s = _
      simp only [execEdgeArrival, edgeInHand_of_free hb hd, hd, List.tail_cons]
    generalize s.calendar.edgeVisit i 0 64 = c' at k hexec
    refine ⟨{ c' with busy := .free }, hexec, k.deliveries, k.now, rfl, k.views, k.back, k.dueExact,
      fun he hs => k.dueSorted hs he, ?_, ?_, fun n => ?_⟩
    · exact edgeRequests_flatMap hl i _ ▸ k.toRouter
    · exact edgeActions_flatMap hl i _ ▸ k.toPin
    · have hslot := k.slot n (List.mem_finRange n)
      refine ⟨fun h => hslot.trans (h.elim edged_of_other_line edged_of_still),
        fun hline hm hs => hslot.trans (edged_retrigger hline hm hs),
        fun left hline hm hs => ⟨fun hk => hslot.trans (edged_count_more hline hm hs hk), ?_⟩⟩
      rintro rfl
      exact hslot.trans (edged_count_last hline hm hs)
  · have k := visited_edgeVisit s.calendar i 0 (n.val + 1)
    have hlast := hn
    obtain ⟨hline, hm, hs⟩ := hn
    have hcompletes : s.calendar.completesCount n = true := by
      simp [Calendar.completesCount, hm, hs]
    have hexec : exec (.countFire n none) s = .next { s with
        calendar := { s.calendar.edgeVisit i 0 (n.val + 1) with busy := .edge (n.val + 1) } } := by
      change execCountFire n none s = _
      simp only [execCountFire, edgeInHand_of_free hb hd]
      exact if_pos (by simp [hline, hcompletes])
    generalize s.calendar.edgeVisit i 0 (n.val + 1) = c' at k hexec
    refine ⟨{ c' with busy := .edge (n.val + 1) }, hexec, ?_, fun m hnm => ?_, k.deliveries, k.now, k.views, k.back, ?_, ?_⟩
    · exact (k.slot n (by simp)).trans (edged_count_last hline hm hs)
    · refine k.others m fun hmem => ?_
      simp only [List.mem_filter, List.mem_finRange, true_and, Bool.and_eq_true, decide_eq_true_eq] at hmem
      have := Fin.lt_def.1 hnm
      omega
    · have := k.toRouter
      rwa [edgeRequests_flatMap hl, slots_up_to] at this
    · have := k.toPin
      rwa [edgeActions_flatMap hl, slots_up_to] at this

end

/-! ### Gate reports -/

section
variable {c : Calendar} {i : LineNo} {n : SlotNo} {new : LineView}

/-- The gate of a slot on line `i`, by a view of that line. -/
theorem gateActive_of_line {v : LineView} (hl : (c.slot n).config.line = some i) (hv : c.views[i] = v) :
    c.GateActive n ↔ gateActive v (c.slot n).config.gate = true := by
  rw [gateActive_iff, ← hv, Calendar.GateActive]
  simp [hl]

/-- A gate report leaves slots alone that are not GATED slots on its line, or whose gate stays as it was, or that neither run nor
are paused (R70). -/
theorem gateChanged_still {x : Slot} {now : Time} {old new : LineView}
    (h : x.config.mode = .gated → x.config.line = some i →
      gateActive old x.config.gate = gateActive new x.config.gate ∨
        (x.status.isRunning = false ∧ ∀ r, x.status ≠ .paused r)) : x.gateChanged now i old new = x := by
  unfold Slot.gateChanged
  split
  case isFalse => rfl
  case isTrue hg =>
    obtain hg | ⟨hrun, hpause⟩ := h hg.1 hg.2
    · split
      · rw [if_neg (by rw [hg]; simp)]
      · rw [if_neg (by rw [hg]; simp)]
      · rfl
    · split
      case h_1 hs => simp [hs, SlotStatus.isRunning, SlotStatus.deadline?] at hrun
      case h_2 hs => exact absurd hs (hpause _)
      case h_3 => rfl

theorem gateChanged_pauses {x : Slot} {now d : Time} {old new : LineView} (hm : x.config.mode = .gated)
    (hl : x.config.line = some i) (hs : x.status = .running d) (ho : gateActive old x.config.gate = true)
    (hn : gateActive new x.config.gate = false) :
    x.gateChanged now i old new =
      if isDue d now then x.firedTo (.paused (x.config.period.setWidth 48)) else { x with status := .paused (d - now) } := by
  simp only [Slot.gateChanged, hm, hl, hs, ho, hn, and_self, if_true]

theorem gateChanged_resumes {x : Slot} {now r : Time} {old new : LineView} (hm : x.config.mode = .gated)
    (hl : x.config.line = some i) (hs : x.status = .paused r) (ho : gateActive old x.config.gate = false)
    (hn : gateActive new x.config.gate = true) :
    x.gateChanged now i old new = { x with status := .running (now + r) } := by
  simp only [Slot.gateChanged, hm, hl, hs, ho, hn, and_self, if_true]

/-- The slots that fire before they pause are the GATED slots on the line, due at now, whose gate becomes inactive (R71). -/
theorem firesAtPause_iff {x : Slot} {now : Time} {old new : LineView} :
    x.firesAtPause now i old new = true ↔
      x.config.line = some i ∧ x.config.mode = .gated ∧ gateActive old x.config.gate = true ∧
        ¬ gateActive new x.config.gate = true ∧ ∃ d, x.status = .running d ∧ (now - d).toNat < 2 ^ 47 := by
  unfold Slot.firesAtPause
  split
  case h_1 d hs =>
    simp only [Bool.and_eq_true, decide_eq_true_eq, isDue_iff, Bool.not_eq_true', ← Bool.not_eq_true, hs,
      SlotStatus.running.injEq, exists_eq_left']
    tauto
  case h_2 hne =>
    simp only [Bool.false_eq_true, false_iff, not_and, not_exists]
    rintro - - - - d hs
    exact absurd hs (hne d)

/-- Settles O30: what the visits of a gate report make of each slot. -/
theorem gateReport : Obligations.GateReport := by
  intro s i v rest hb hd
  have k := visited_takeGate s.calendar i v
  have hslot : ∀ n, (s.calendar.takeGate i v).slot n = (s.calendar.slot n).gateChanged s.calendar.now i s.calendar.views[i] v :=
    fun n => k.slot n (List.mem_finRange n)
  have hconfig : ∀ n, ((s.calendar.takeGate i v).slot n).config = (s.calendar.slot n).config := fun n => by
    rw [hslot]
    unfold Slot.gateChanged
    split
    · split
      · split
        · split <;> rfl
        · rfl
      · split <;> rfl
      · rfl
    · rfl
  have hview : (s.calendar.takeGate i v).views[i] = v := by
    rw [k.views]
    simp
  have hold : ∀ n, (s.calendar.slot n).config.line = some i →
      (s.calendar.GateActive n ↔ gateActive s.calendar.views[i] (s.calendar.slot n).config.gate = true) :=
    fun n hl => gateActive_of_line hl rfl
  have hnew : ∀ n, (s.calendar.slot n).config.line = some i →
      ((s.calendar.takeGate i v).GateActive n ↔ gateActive v (s.calendar.slot n).config.gate = true) := fun n hl => by
    rw [gateActive_of_line (by rw [hconfig]; exact hl) hview, hconfig]
  refine ⟨s.calendar.takeGate i v, ?_, k.views, k.deliveries, k.now, k.busy.trans hb, k.back, k.dueExact,
    fun he hs => k.dueSorted hs he,
    fun l hl hmem => ?_, fun n => ⟨fun h => ?_, fun d hline hm => ⟨fun hs hga hgi => ?_, fun hs hgi hga => ?_⟩⟩⟩
  · change execGateReport s = _
    simp only [execGateReport, hb, hd]
  · have heq : l = (List.finRange 64).filter fun n =>
        (s.calendar.slot n).firesAtPause s.calendar.now i s.calendar.views[i] v := by
      refine ascending_unique (fun n => ?_) hl ((List.pairwise_lt_finRange 64).filter _)
      rw [hmem, List.mem_filter, firesAtPause_iff]
      simp only [List.mem_finRange, true_and]
      refine and_congr_right fun hline => and_congr_right fun _ => ?_
      rw [hold n hline, hnew n hline]
      rfl
    subst heq
    rw [flatMap_filter_eq, flatMap_filter_eq]
    exact ⟨k.toRouter, k.toPin⟩
  · rw [hslot]
    refine gateChanged_still fun hm hline => ?_
    obtain h | h | h | h := h
    · exact absurd hline h
    · exact absurd hm h
    · rw [hold n hline, hnew n hline] at h
      exact .inl (Bool.eq_iff_iff.2 h.symm)
    · exact .inr h
  · rw [hold n hline] at hga
    rw [hnew n hline, Bool.not_eq_true] at hgi
    rw [hslot, gateChanged_pauses hm hline hs hga hgi]
    refine ⟨fun hd => if_neg ?_, fun hd => if_pos (isDue_iff.2 hd)⟩
    rw [isDue_iff]
    exact not_lt.2 hd
  · rw [hold n hline, Bool.not_eq_true] at hgi
    rw [hnew n hline] at hga
    rw [hslot, gateChanged_resumes hm hline hs hgi hga]

end

/-! ### Count reports -/

/-- Settles O31: the report counts for its generation, and is dropped for any other. -/
theorem slotCountReport : Obligations.SlotCountReport := by
  intro s n g m rest hb hd hm
  have hexec : exec .slotCountReport s =
      .next { s with router := { s.router with toCalendar := rest }, calendar := s.calendar.count m } := by
    change execSlotCountReport s = _
    simp only [execSlotCountReport, hb, hd]
  refine ⟨fun hg => ?_, fun hg => ?_⟩
  · have : s.calendar.count m = s.calendar := by obtain rfl | rfl := hm <;> exact if_neg hg
    rw [hexec, this]
  · rw [hexec]
    obtain rfl | rfl := hm
    · have : s.calendar.count (.lost n g) =
          s.calendar.setSlot n { s.calendar.slot n with lost := satInc (s.calendar.slot n).lost } := if_pos hg
      rw [this, satInc_eq, if_pos rfl]
      rfl
    · have : s.calendar.count (.undelivered n g) =
          s.calendar.setSlot n { s.calendar.slot n with undelivered := satInc (s.calendar.slot n).undelivered } := if_pos hg
      rw [this, satInc_eq, if_neg nofun]
      rfl

/-! ### Session ends -/

/-- An owned slot is not FREE (R21, section 2.1). -/
theorem used_of_owned {c : Calendar} {n : SlotNo} {p : Port} (hl : c.SlotLaw) (ho : (c.slot n).owner = some p) :
    (c.slot n).status ≠ .free := by
  intro hs
  have := (hl.1 n).1
  simp only [Slot.ModeLaw, hs, ho] at this
  exact absurd this.1 nofun

/-- Settles O32: the policy of each slot that `p` owns, in ascending slot number. -/
theorem calendarSessionEnd : Obligations.CalendarSessionEnd := by
  intro s p e rest hb hp hl
  have k := visited_endSession s.calendar p s.timebase.toCalendar.length
  have hexec : exec (.calendarSessionEnd p) s = .next { s.afterTaking .calendar p rest with
      calendar := (s.calendar.endSession p s.timebase.toCalendar.length).send p .completion } := by
    change execCalendarSessionEnd p s = _
    have htake := takeSessionEnd_of_head (s := s) (b := .calendar) hp
    simp only [execCalendarSessionEnd, hb, htake]
    rfl
  generalize s.calendar.endSession p s.timebase.toCalendar.length = c' at k hexec
  have hslot : ∀ n, c'.slot n =
      (s.calendar.slot n).afterEnd p (s.calendar.deliveries + s.timebase.toCalendar.length) :=
    fun n => k.slot n (List.mem_finRange n)
  have hand : ∀ n (q : Prop), ((s.calendar.slot n).owner = some p ∧ (s.calendar.slot n).status ≠ .free ∧ q) ↔
      ((s.calendar.slot n).owner = some p ∧ q) := fun n q =>
    ⟨fun h => ⟨h.1, h.2.2⟩, fun h => ⟨h.1, used_of_owned hl h.1, h.2⟩⟩
  refine ⟨c'.send p .completion, hexec, k.deliveries, k.now, k.busy.trans hb, k.views,
    congrArg (sendBack · p .completion) k.back, k.dueExact, k.toRouter.trans ?_, k.toPin.trans ?_, fun n => ?_⟩
  · congr 1
    · refine List.map_congr_left fun m _ => ?_
      cases m with
      | fire q => exact apply_ite RouterRequest.fire _ _ _
      | purge n g => rfl
    · refine List.flatMap_congr fun n _ => ?_
      simp only [Slot.endRequests, hand]
  · congr 1
    refine List.flatMap_congr fun n _ => ?_
    simp only [Slot.endUnbinds, hand]
  · refine ⟨fun ho => (hslot n).trans (if_neg fun h => ho h.1), fun ho hk => (hslot n).trans ?_,
      fun ho hk => (hslot n).trans ?_⟩
    · rw [Slot.afterEnd, if_pos ⟨ho, used_of_owned hl ho⟩, if_pos hk]
    · rw [Slot.afterEnd, if_pos ⟨ho, used_of_owned hl ho⟩, if_neg hk]

end Sys2Proof.Machine
end

section
/-! PROOFS. The laws of the Calendar, slot record by slot record: what each operation of the Calendar keeps, and that every step does
(R21, R22, R31, R32, R40, R45, R47, R55, R59, R70). -/

namespace Sys2Proof.Machine

/-! ### The laws of a slot record and of a request -/

/-- The gate of the slot record is active by the line views (R47). -/
def Slot.GateIn (views : Vector LineView 12) (x : Slot) : Prop :=
  ∃ e, x.config.line = some e ∧ views[e].enabled = true ∧ (views[e].level = true ↔ x.config.gate = .high)

/-- What the Calendar's laws ask of one slot record under the line views. -/
structure Slot.Fits (views : Vector LineView 12) (x : Slot) : Prop where
  mode : x.ModeLaw
  generation : x.status ≠ .free → x.generation ≠ 0
  legal : x.config.Legal
  runs : x.config.mode = .gated → x.status.isRunning = true → x.GateIn views
  pauses : x.config.mode = .gated → ∀ r, x.status = .paused r → ¬ x.GateIn views

/-- What the Calendar's laws ask of one request on its way to the Router. -/
def RouterRequest.Lawful : RouterRequest → Prop
  | .fire q => q.weight ≠ 0 ∧ if q.kind = .orphaned then q.weight = 1 ∧ ∃ p, q.tie = some (.ended p) else q.targets ≠ 0
  | .purge _ _ => True

/-- The laws of the Calendar, sorted by what they speak of. -/
structure Calendar.Sound (c : Calendar) : Prop where
  dueExact : c.DueExact
  dueSorted : c.DueSorted
  fits : ∀ n, (c.slot n).Fits c.views
  binding : ∀ w, c.busy = .binding w → (c.slot w.slot).status = .idle ∧ w.config.Legal
  requests : ∀ m ∈ c.toRouter, m.Lawful

theorem lawful_iff_sound {c : Calendar} : c.Lawful ↔ c.Sound := by
  constructor
  · rintro ⟨he, hs, ⟨hslot, hbind⟩, hgate, hreq⟩
    refine ⟨he, hs, fun n => ?_, hbind, fun m hm => ?_⟩
    · obtain ⟨hmode, hgen, hlegal⟩ := hslot n
      exact ⟨hmode, hgen, hlegal, fun hg => (hgate n hg).1, fun hg => (hgate n hg).2⟩
    · cases m with
      | fire q => exact hreq q hm
      | purge => exact True.intro
  · rintro ⟨he, hs, hfits, hbind, hreq⟩
    exact ⟨he, hs, ⟨fun n => ⟨(hfits n).mode, (hfits n).generation, (hfits n).legal⟩, hbind⟩,
      fun n hg => ⟨(hfits n).runs hg, (hfits n).pauses hg⟩, fun q hq => hreq _ hq⟩

theorem Calendar.Sound.slotLaw {c : Calendar} (h : c.Sound) : c.SlotLaw := (lawful_iff_sound.2 h).2.2.1

/-! ### Slot records that fit -/

section
variable {views : Vector LineView 12} {x : Slot}

theorem defaults_legal (targets : PortSet) : (SlotConfig.defaults targets).Legal :=
  ⟨le_rfl, le_rfl, le_rfl, le_rfl, nofun, nofun⟩

/-- A FREE record without owner and pin. -/
theorem fits_of_free (hs : x.status = .free) (ho : x.owner = none) (hp : x.config.pin = none) (hl : x.config.Legal) :
    x.Fits views :=
  ⟨by simp [Slot.ModeLaw, hs, ho, hp], fun h => absurd hs h, hl, fun _ h => by simp [hs, SlotStatus.isRunning, SlotStatus.deadline?] at h,
    fun _ r h => by simp [hs] at h⟩

/-- A record in a state that is neither FREE, RUNNING nor PAUSED. -/
theorem fits_of_still (hm : x.ModeLaw) (hg : x.generation ≠ 0) (hl : x.config.Legal) (hr : x.status.isRunning = false)
    (hp : ∀ r, x.status ≠ .paused r) : x.Fits views :=
  ⟨hm, fun _ => hg, hl, fun _ h => by simp [hr] at h, fun _ r h => absurd h (hp r)⟩

/-- A RUNNING record: not of mode COUNT, and under an active gate if GATED. -/
theorem fits_of_running {d : Time} (hs : x.status = .running d) (hm : x.config.mode ≠ .count) (hg : x.generation ≠ 0)
    (hl : x.config.Legal) (hgate : x.config.mode = .gated → x.GateIn views) : x.Fits views :=
  ⟨by simpa only [Slot.ModeLaw, hs] using hm, fun _ => hg, hl, fun h _ => hgate h, fun _ r h => by simp [hs] at h⟩

/-- A PAUSED record, of a GATED slot under an inactive gate. -/
theorem fits_of_paused {r : Time} (hs : x.status = .paused r) (hm : x.config.mode = .gated) (hr : r ≠ 0) (hg : x.generation ≠ 0)
    (hl : x.config.Legal) (hgate : ¬ x.GateIn views) : x.Fits views :=
  ⟨by simpa only [Slot.ModeLaw, hs] using ⟨hm, hr⟩, fun _ => hg, hl,
    fun _ h => by simp [hs, SlotStatus.isRunning, SlotStatus.deadline?] at h, fun _ _ _ => hgate⟩

/-- The law speaks of the state, the generation and the configuration alone, as far as an allocated slot goes. -/
theorem Slot.Fits.congr {y : Slot} (h : x.Fits views) (hu : x.status ≠ .free) (hs : y.status = x.status)
    (hg : y.generation = x.generation) (hc : y.config = x.config) : y.Fits views := by
  obtain ⟨hmode, hgen, hlegal, hruns, hpauses⟩ := h
  refine ⟨?_, by rwa [hs, hg], by rwa [hc], by simpa only [Slot.GateIn, hc, hs] using hruns,
    by simpa only [Slot.GateIn, hc, hs] using hpauses⟩
  unfold Slot.ModeLaw at hmode ⊢
  rw [hs, hc]
  cases hx : x.status with
  | free => exact absurd hx hu
  | waiting k => cases k <;> (rw [hx] at hmode; exact hmode)
  | _ => rw [hx] at hmode; exact hmode

theorem Slot.Fits.used_running (h : x.Fits views) {d : Time} (hs : x.status = .running d) :
    x.config.mode ≠ .count ∧ x.generation ≠ 0 :=
  ⟨by simpa only [Slot.ModeLaw, hs] using h.mode, h.generation (by simp [hs])⟩

theorem ofNat_min_ne_zero {k : Nat} (hk : 1 ≤ k) : BitVec.ofNat 16 (min k 65535) ≠ 0 := fun h => by
  have := congrArg BitVec.toNat h
  rw [BitVec.toNat_ofNat, Nat.mod_eq_of_lt (by omega)] at this
  simp only [BitVec.ofNat_eq_ofNat, BitVec.toNat_ofNat, Nat.zero_mod] at this
  omega

/-- A fire at a delivery weighs 1 or more and is not ORPHANED (R59). -/
theorem Slot.FiresTo.weight_kind {d t : Time} {kind : NoticeKind} {w : BitVec 16} {st : SlotStatus}
    (h : x.FiresTo d t kind w st) : w ≠ 0 ∧ kind ≠ .orphaned := by
  cases h with
  | once _ | retrigger _ | window _ | gated _ => exact ⟨by decide, by decide⟩
  | _ => -- the fire of a REPEAT slot
    rename_i hk _ _
    exact ⟨ofNat_min_ne_zero hk, by decide⟩

/-- The state that a fire leaves is one of the slot's mode (R58 to R62). -/
theorem Slot.FiresTo.fits {d t : Time} {kind : NoticeKind} {w : BitVec 16} {st : SlotStatus} (h : x.FiresTo d t kind w st)
    (hx : x.Fits views) (hs : x.status = .running d) : (x.firedTo st).Fits views := by
  obtain ⟨-, hgen⟩ := hx.used_running hs
  have hrun : x.status.isRunning = true := by rw [hs]; rfl
  cases h with
  | once _ => exact fits_of_still True.intro hgen hx.legal rfl (by simp [Slot.firedTo])
  | retrigger hm => exact fits_of_still hm hgen hx.legal rfl (by simp [Slot.firedTo])
  | window hm => exact fits_of_still hm hgen hx.legal rfl (by simp [Slot.firedTo])
  | gated hm => exact fits_of_running rfl (by simp [Slot.firedTo, hm]) hgen hx.legal fun hg => hx.runs hg hrun
  | _ => -- the fire of a REPEAT slot
    rename_i hm _ _ _
    exact fits_of_running rfl (by simp [Slot.firedTo, hm]) hgen hx.legal fun hg => hx.runs hg hrun

/-- The requests of a fire that is not ORPHANED have a target (R55). -/
theorem fireRequests_lawful {n : SlotNo} {kind : NoticeKind} {t : Time} {w : BitVec 16} {tie : Option SessionTie} (hw : w ≠ 0)
    (hk : kind ≠ .orphaned) : ∀ m ∈ x.fireRequests n kind t w tie, m.Lawful := by
  intro m hm
  unfold Slot.fireRequests at hm
  split at hm
  · cases hm
  · obtain rfl := List.mem_singleton.1 hm
    refine ⟨hw, ?_⟩
    rw [if_neg hk]
    assumption

theorem nil_lawful : ∀ m ∈ ([] : List RouterRequest), m.Lawful := by simp

theorem nextNumber_ne_zero {w : Nat} (hw : 1 ≤ w) (v : BitVec w) : nextNumber v ≠ 0 := by
  unfold nextNumber
  have hpos : 2 ≤ 2 ^ w := by
    calc 2 = 2 ^ 1 := rfl
      _ ≤ 2 ^ w := Nat.pow_le_pow_right (by decide) hw
  split
  · intro h
    have := congrArg BitVec.toNat h
    simp only [BitVec.ofNat_eq_ofNat, BitVec.toNat_ofNat, Nat.zero_mod] at this
    rw [Nat.mod_eq_of_lt hpos] at this
    cases this
  · rename_i hne
    intro h
    apply hne
    have hlt := v.isLt
    have := congrArg BitVec.toNat h
    simp only [BitVec.ofNat_eq_ofNat, BitVec.toNat_add, BitVec.toNat_ofNat, Nat.zero_mod, Nat.mod_eq_of_lt hpos] at this
    refine BitVec.eq_of_toNat_eq ?_
    rw [BitVec.toNat_allOnes]
    by_contra hv
    rw [Nat.mod_eq_of_lt (by omega)] at this
    omega

end

/-! ### What changes of the Calendar keep the laws -/

section
variable {c c' : Calendar}

/-- The laws do not speak of the pins, of the answers, or of how many deliveries were taken. -/
theorem Calendar.Sound.congr (h : c.Sound) (hslots : c'.slots = c.slots) (hdue : c'.dueList = c.dueList) (hnow : c'.now = c.now)
    (hviews : c'.views = c.views) (hbusy : ∀ w, c'.busy = .binding w → c.busy = .binding w)
    (hrouter : ∀ m ∈ c'.toRouter, m ∈ c.toRouter) : c'.Sound := by
  have hslot : ∀ n, c'.slot n = c.slot n := fun n => by simp only [Calendar.slot, hslots]
  refine ⟨?_, ?_, fun n => ?_, fun w hw => ?_, fun m hm => h.requests m (hrouter m hm)⟩
  · simpa only [Calendar.DueExact, hdue, hslot] using h.dueExact
  · have hbefore : ∀ a b, c'.before a b = c.before a b := fun a b => before_congr (hslot a) (hslot b) hnow
    simpa only [Calendar.DueSorted, hdue, hbefore] using h.dueSorted
  · rw [hslot, hviews]
    exact h.fits n
  · rw [hslot]
    exact h.binding w (hbusy w hw)

/-- A slot gets a record that fits, while no configure waits. -/
theorem Calendar.Becomes.sound {n : SlotNo} {x : Slot} {r : List RouterRequest} {q : List PinRequest}
    {b : Vector (List FromBlock) 4} (k : c.Becomes c' n x r q b) (h : c.Sound) (hb : ∀ w, c.busy ≠ .binding w)
    (hx : x.Fits c.views) (hr : ∀ m ∈ r, m.Lawful) : c'.Sound := by
  refine ⟨k.dueExact h.dueExact, k.dueSorted h.dueSorted h.dueExact, fun m => ?_, fun w hw => ?_, fun m hm => ?_⟩
  · rw [k.views]
    by_cases hm : m = n
    · rw [hm, k.slot]
      exact hx
    · rw [k.others m hm]
      exact h.fits m
  · rw [k.busy] at hw
    exact absurd hw (hb w)
  · rw [k.toRouter, List.mem_append] at hm
    exact hm.elim (h.requests m) (hr m)

/-- Every slot that is visited gets a record that fits the line views, while no configure waits. -/
theorem Calendar.Visited.sound {l : List SlotNo} {x : SlotNo → Slot} {router : SlotNo → List RouterRequest}
    {pin : SlotNo → List PinRequest} (k : c.Visited c' l x router pin) (he : c.DueExact) (hs : c.DueSorted)
    (hb : ∀ w, c.busy ≠ .binding w) (hx : ∀ n ∈ l, (x n).Fits c.views) (hothers : ∀ n, n ∉ l → (c.slot n).Fits c.views)
    (hreq : ∀ m ∈ c.toRouter, m.Lawful) (hr : ∀ n ∈ l, ∀ m ∈ router n, m.Lawful) : c'.Sound := by
  refine ⟨k.dueExact he, k.dueSorted hs he, fun n => ?_, fun w hw => ?_, fun m hm => ?_⟩
  · rw [k.views]
    by_cases hn : n ∈ l
    · rw [k.slot n hn]
      exact hx n hn
    · rw [k.others n hn]
      exact hothers n hn
  · rw [k.busy] at hw
    exact absurd hw (hb w)
  · rw [k.toRouter, List.mem_append, List.mem_flatMap] at hm
    obtain hm | ⟨n, hn, hm⟩ := hm
    · exact hreq m hm
    · exact hr n hn m hm

end

/-! ### Slot commands -/

section
variable {c : Calendar} {p : Port} {n : SlotNo} {m : Nat}

theorem Calendar.Sound.answer (h : c.Sound) (o : OutcomeCode) (f : Payload) : (c.answer p m o f).Sound :=
  h.congr rfl rfl rfl rfl (fun _ => id) fun _ => id

theorem no_binding_of_free (hb : c.busy = .free) (w : WaitingConfigure) : c.busy ≠ .binding w := by
  rw [hb]
  simp

variable (h : c.Sound) (hb : ∀ w, c.busy ≠ .binding w)
include h hb

theorem sound_allocate (b : Byte) : (c.allocate p b m).Sound := by
  cases hs : c.slotToAllocate b with
  | error o =>
    simp only [Calendar.allocate, hs]
    exact h.answer o _
  | ok k =>
    exact (becomes_allocate hs).sound h hb
      (fits_of_still True.intro (nextNumber_ne_zero (by decide) _) (defaults_legal _) rfl (by simp [Slot.allocated])) nil_lawful

theorem sound_configure (f : RawConfig) (hu : (c.slot n).status ≠ .free) : (c.configure p f n m).Sound := by
  by_cases hs : (c.slot n).status = .idle
  case neg =>
    rw [configure_of_not_idle hs]
    exact h.answer _ _
  case pos =>
    by_cases hf : ∃ g, f.Means g
    case neg =>
      rw [configure_of_not_means hs hf]
      exact h.answer _ _
    case pos =>
      obtain ⟨g, hg⟩ := hf
      by_cases hp : (c.slot n).config.pin = none ∧ g.pin = none
      · rw [configure_installs hs hg hp.1 hp.2]
        refine ((becomes_installConfig g).answer p m _ _).sound h hb ?_ nil_lawful
        exact fits_of_still (by simp [Slot.ModeLaw, hs]) ((h.fits n).generation hu) hg.legal (by simp [hs]; rfl) (by simp [hs])
      · rw [configure_asks hs hg (by tauto)]
        obtain ⟨he, hsort, hfits, -, hreq⟩ := h
        refine ⟨he, hsort, hfits, fun w hw => ?_, hreq⟩
        cases hw
        exact ⟨hs, hg.legal⟩

omit hb in
/-- Arming gives a state of the slot's mode, under the gate that it asks for (R49). -/
theorem fits_of_armsTo {kind : Byte} {value : Time} {startNow : Bool} {st : SlotStatus} (hu : (c.slot n).status ≠ .free)
    (ha : c.ArmsTo n kind value startNow st) : ({ c.slot n with status := st, fired := false } : Slot).Fits c.views := by
  obtain ⟨-, hgen, hlegal, -, -⟩ := h.fits n
  have hperiod : (c.slot n).config.period.setWidth 48 ≠ 0 := fun h0 => by
    have := congrArg BitVec.toNat h0
    have hlt := (c.slot n).config.period.isLt
    rw [BitVec.toNat_setWidth, Nat.mod_eq_of_lt (by omega)] at this
    have := hlegal.period
    simp_all
  cases ha with
  | timed d hm _ =>
    simp only [List.mem_cons, List.not_mem_nil, or_false] at hm
    refine fits_of_running rfl (fun hc : (c.slot n).config.mode = .count => ?_) (hgen hu) hlegal
      fun hc : (c.slot n).config.mode = .gated => ?_ <;> simp [hc] at hm
  | retriggerWaits hm _ => exact fits_of_still hm (hgen hu) hlegal rfl (by simp)
  | retriggerStarts hm _ => exact fits_of_running rfl (by simp [hm]) (hgen hu) hlegal (by simp [hm])
  | gatedRuns hm hg => exact fits_of_running rfl (by simp [hm]) (hgen hu) hlegal fun _ => hg
  | gatedPauses hm hg => exact fits_of_paused rfl hm hperiod (hgen hu) hlegal hg
  | counts hm =>
    refine fits_of_still ⟨hm, fun h0 => ?_⟩ (hgen hu) hlegal rfl (by simp)
    have := hlegal.count
    simp [h0] at this

theorem sound_arm (kind : Byte) (value : Time) (startNow : Bool) (hu : (c.slot n).status ≠ .free) :
    (c.arm p kind value startNow n m).Sound := by
  cases ha : c.armedStatus n kind value startNow with
  | none =>
    rw [calendarArm_of_none ha]
    exact h.answer _ _
  | some st => exact (becomes_arm ha).sound h hb (fits_of_armsTo h hu (armedStatus_iff.1 ha)) nil_lawful

theorem sound_disarm (purge : Bool) (hu : (c.slot n).status ≠ .free) : (c.disarm p purge n m).Sound := by
  refine (becomes_disarm purge).sound h hb
    (fits_of_still True.intro ((h.fits n).generation hu) (h.fits n).legal rfl (by simp)) ?_
  intro k hk
  cases purge
  · cases hk
  · obtain rfl := List.mem_singleton.1 hk
    exact True.intro

/-- A check-in leaves the slot RUNNING, or LAPSED with an EARLY fire (R65). -/
theorem sound_checkIn {d : Time} (hm : (c.slot n).config.mode = .window) (hs : (c.slot n).status = .running d) :
    (c.checkIn p n d m).Sound := by
  obtain ⟨-, hgen⟩ := (h.fits n).used_running hs
  by_cases hw : (c.now - (d - (c.slot n).config.window.setWidth 48)).toNat < 2 ^ 47
  · exact (becomes_checkIn_open hw).sound h hb (fits_of_running rfl (by simp [hm]) hgen (h.fits n).legal (by simp [hm])) nil_lawful
  · exact (becomes_checkIn_early (not_lt.1 hw)).sound h hb (fits_of_still hm hgen (h.fits n).legal rfl (by simp [Slot.firedTo]))
      (fireRequests_lawful (by decide) (by decide))

theorem sound_trigger (hm : (c.slot n).config.mode = .retrigger) (hu : (c.slot n).status ≠ .free) : (c.trigger n).Sound :=
  becomes_trigger.sound h hb
    (fits_of_running rfl (by simp [hm]) ((h.fits n).generation hu) (h.fits n).legal (by simp [hm])) nil_lawful

omit hb in
/-- An edge before the last leaves a slot with edges left. -/
theorem fits_countedDown {left : BitVec 16} (hm : (c.slot n).config.mode = .count) (hu : (c.slot n).status ≠ .free)
    (hl : 2 ≤ left.toNat) : ({ c.slot n with status := .waiting (some (left - 1)) } : Slot).Fits c.views := by
  refine fits_of_still ⟨hm, fun h0 => ?_⟩ ((h.fits n).generation hu) (h.fits n).legal rfl (by simp)
  have := congrArg BitVec.toNat h0
  rw [BitVec.toNat_sub_of_le (by rw [BitVec.le_def]; simpa using (by omega : 1 ≤ left.toNat))] at this
  simp only [BitVec.ofNat_eq_ofNat, BitVec.toNat_ofNat] at this
  omega

omit hb in
/-- The last edge leaves the slot with its count loaded again. -/
theorem fits_counted (hm : (c.slot n).config.mode = .count) (hu : (c.slot n).status ≠ .free) :
    ((c.slot n).firedTo (.waiting (some (c.slot n).config.count))).Fits c.views := by
  refine fits_of_still ⟨hm, fun h0 => ?_⟩ ((h.fits n).generation hu) (h.fits n).legal rfl (by simp [Slot.firedTo])
  have := (h.fits n).legal.count
  simp [h0] at this

theorem sound_countEdge {left : BitVec 16} (hm : (c.slot n).config.mode = .count) (hu : (c.slot n).status ≠ .free) :
    (c.countEdge n left).Sound := by
  by_cases hl : left.toNat ≤ 1
  · exact (becomes_countEdge_last hl).sound h hb (fits_counted h hm hu) (fireRequests_lawful (by decide) (by decide))
  · exact (becomes_countEdge_more (by omega)).sound h hb (fits_countedDown h hm hu (by omega)) nil_lawful

theorem sound_touch (hu : (c.slot n).status ≠ .free) : (c.touch p n m).Sound := by
  cases hm : (c.slot n).config.mode <;> cases hs : (c.slot n).status
  case window.running d =>
    simp only [Calendar.touch, hm, hs]
    exact sound_checkIn h hb hm hs
  case retrigger.waiting | retrigger.running =>
    simp only [Calendar.touch, hm, hs]
    exact (sound_trigger h hb hm hu).answer _ _
  case count.waiting k =>
    cases k <;> simp only [Calendar.touch, hm, hs]
    · exact h.answer _ _
    · exact (sound_countEdge h hb hm hu).answer _ _
  all_goals
    simp only [Calendar.touch, hm, hs]
    exact h.answer _ _

omit h hb in
/-- A freed slot keeps a legal configuration. -/
theorem fits_freed (x : Slot) (hl : x.config.Legal) :
    ({ x with status := .free, owner := none, fired := false, config := { x.config with pin := none } } : Slot).Fits c.views :=
  fits_of_free rfl rfl rfl ⟨hl.period, hl.windowPositive, hl.windowWithin, hl.count, hl.gated, hl.claim⟩

theorem sound_release : (c.release p n m).Sound :=
  becomes_release.sound h hb (fits_freed _ (h.fits n).legal) nil_lawful

theorem sound_adopt (hu : (c.slot n).status ≠ .free) : (c.adopt p n m).Sound := by
  by_cases ho : (c.slot n).owner = none
  · exact (becomes_adopt ho).sound h hb ((h.fits n).congr hu rfl rfl rfl) nil_lawful
  · rw [adopt_of_owned ho]
    exact h.answer _ _

omit hb in
theorem sound_withSlot {access : SlotAccess} {k : SlotHandle} {act : SlotNo → Nat → Calendar → Calendar}
    (ha : ∀ n, (access ≠ .query → (c.slot n).status ≠ .free) → (act n m c).Sound) : (c.withSlot p access k act m).Sound := by
  unfold Calendar.withSlot
  split
  case h_1 o _ => exact h.answer o _
  case h_2 n hk => exact ha n fun hq => (checkHandle_ok hk hq).1

/-- A slot request keeps the laws. -/
theorem sound_onCalendar (r : Request) : (r.onCalendar p m c).Sound := by
  cases r with
  | slotAllocate b => exact sound_allocate h hb b
  | slotConfigure k f => exact sound_withSlot h fun _ hu => sound_configure h hb f (hu (by decide))
  | slotArm k kind value startNow => exact sound_withSlot h fun _ hu => sound_arm h hb kind value startNow (hu (by decide))
  | slotDisarm k purge => exact sound_withSlot h fun _ hu => sound_disarm h hb purge (hu (by decide))
  | slotTouch k => exact sound_withSlot h fun _ hu => sound_touch h hb (hu (by decide))
  | slotRelease k => exact sound_withSlot h fun _ _ => sound_release h hb
  | slotAdopt k => exact sound_withSlot h fun _ hu => sound_adopt h hb (hu (by decide))
  | slotQuery k => exact sound_withSlot h fun _ _ => h.answer _ _
  | _ => exact h

end

/-! ### Events of the Calendar -/

section
variable {c : Calendar}

theorem sound_initial : Calendar.initial.Sound := by
  have hslot : ∀ n, Calendar.initial.slot n = Slot.initial := initial_slot
  have hrun : ∀ n, ¬ (Calendar.initial.slot n).status.isRunning = true := fun n => by rw [hslot]; decide
  exact ⟨⟨List.nodup_nil, fun n => ⟨fun h => absurd h List.not_mem_nil, fun h => absurd h (hrun n)⟩⟩, List.Pairwise.nil,
    fun n => by rw [hslot]; exact fits_of_free rfl rfl rfl (defaults_legal 0), by simp [Calendar.initial], nil_lawful⟩

theorem sound_deviceReset (c : Calendar) : c.deviceReset.Sound := by
  have hslot : ∀ n, c.deviceReset.slot n = { Slot.initial with generation := (c.slot n).generation } := fun n => tabulate_get _ n
  have hrun : ∀ n, ¬ (c.deviceReset.slot n).status.isRunning = true := fun n => by
    rw [hslot]
    change ¬ SlotStatus.free.isRunning = true
    decide
  exact ⟨⟨List.nodup_nil, fun n => ⟨fun h => absurd h List.not_mem_nil, fun h => absurd h (hrun n)⟩⟩, List.Pairwise.nil,
    fun n => by rw [hslot]; exact fits_of_free rfl rfl rfl (defaults_legal 0), by simp [Calendar.deviceReset, Calendar.initial], nil_lawful⟩

/-- The Pin Unit's answer installs a legal configuration in an IDLE slot, or changes nothing (R33, R34). -/
theorem sound_takeAnswer (granted : Bool) (h : c.Sound) : (c.takeAnswer granted).Sound := by
  unfold Calendar.takeAnswer
  split
  case h_2 => exact h
  case h_1 w hw =>
    obtain ⟨hs, hl⟩ := h.binding w hw
    have h' : Calendar.Sound { c with busy := .free } := h.congr rfl rfl rfl rfl (fun w => by simp) fun _ => id
    dsimp only
    split
    · refine ((becomes_installConfig w.config).answer w.port w.mark _ _).sound h' (fun w => by simp) ?_ nil_lawful
      have hs' : (Calendar.slot { c with busy := .free } w.slot).status = .idle := hs
      exact fits_of_still (by simp [Slot.ModeLaw, hs']) ((h'.fits w.slot).generation (by simp [hs'])) hl
        (by simp [hs']; rfl) (by simp [hs'])
    · exact h'.answer _ _

theorem sound_count (m : CountReport) (h : c.Sound) (hb : ∀ w, c.busy ≠ .binding w) : (c.count m).Sound := by
  have counted : ∀ n (x : Slot), x.status = (c.slot n).status → x.generation = (c.slot n).generation →
      x.config = (c.slot n).config → x.owner = (c.slot n).owner → (c.setSlot n x).Sound := by
    intro n x hs hg hc ho
    refine (becomes_setSlot c n x hs).sound h hb ?_ nil_lawful
    by_cases hf : (c.slot n).status = .free
    · have hm := (h.fits n).mode
      rw [Slot.ModeLaw, hf] at hm
      exact fits_of_free (hs.trans hf) (ho.trans hm.1) (by rw [hc]; exact hm.2) (hc ▸ (h.fits n).legal)
    · exact (h.fits n).congr hf hs hg hc
  cases m with
  | lost n g =>
    unfold Calendar.count
    dsimp only
    split
    · exact counted n _ rfl rfl rfl rfl
    · exact h
  | undelivered n g =>
    unfold Calendar.count
    dsimp only
    split
    · exact counted n _ rfl rfl rfl rfl
    · exact h

/-- A delivery begins with the laws kept: the due list is placed again, and a time step moves deadlines alone (R45, R72). -/
theorem sound_beginDelivery (d : TimeDelivery) (h : c.Sound) (hb : c.busy = .free) : (c.beginDelivery d).Sound := by
  cases d with
  | tick t =>
    obtain ⟨he, hs, -⟩ := beginTick_spec c t h.dueExact h.slotLaw
    exact ⟨he, hs, h.fits, h.binding, h.requests⟩
  | step old new delta =>
    obtain ⟨he, hs, ⟨hslots, hbind⟩, hslot⟩ := beginStep_spec c old new delta h.dueExact h.slotLaw hb
    refine ⟨he, hs, fun n => ?_, hbind, h.requests⟩
    obtain ⟨hmode, hgen, hlegal⟩ := hslots n
    refine ⟨hmode, hgen, hlegal, ?_, ?_⟩ <;> rw [hslot, stepped_eq] <;> intro hg
    · intro hr
      exact (h.fits n).runs hg (stepped_running (c.slot n) new delta ▸ hr)
    · intro r hp
      have hpaused : (c.slot n).status = .paused r := by
        unfold Slot.stepped at hp
        cases hs : (c.slot n).status <;> simp_all
      exact (h.fits n).pauses hg r hpaused

/-- The Calendar on which a delivery acts keeps the laws, and no configure waits. -/
theorem sound_delivering {s : State} {d : TimeDelivery} (h : s.delivering = some (d, c)) (hs : s.calendar.Sound) :
    c.Sound ∧ ∀ w, c.busy ≠ .binding w := by
  obtain ⟨-, ⟨hb, rfl⟩ | ⟨hb, rfl⟩⟩ := delivering_eq_some h
  · refine ⟨sound_beginDelivery d hs hb, fun w hw => ?_⟩
    have : (s.calendar.beginDelivery d).busy = s.calendar.busy := by cases d <;> rfl
    rw [this, hb] at hw
    cases hw
  · refine ⟨hs, fun w hw => ?_⟩
    rw [hb] at hw
    cases hw

/-- One fire at a delivery. -/
theorem sound_fireIfRunning {t : Time} {n : SlotNo} (h : c.Sound ∧ ∀ w, c.busy ≠ .binding w) :
    (Calendar.fireIfRunning t c n).Sound ∧ ∀ w, (Calendar.fireIfRunning t c n).busy ≠ .binding w := by
  obtain ⟨h, hb⟩ := h
  cases hs : (c.slot n).status with
  | running d =>
    obtain ⟨hm, -⟩ := (h.fits n).used_running hs
    obtain ⟨kind, weight, st, hf, k⟩ := fireSlot_spec c n d t hm (h.fits n).legal.period
    obtain ⟨hw, hk⟩ := hf.weight_kind
    rw [fireIfRunning_of_running hs]
    exact ⟨k.sound h hb (hf.fits (h.fits n) hs) (fireRequests_lawful hw hk), k.busy ▸ hb⟩
  | _ =>
    simp only [Calendar.fireIfRunning, hs, SlotStatus.deadline?]
    exact ⟨h, hb⟩

theorem sound_fireAllDue (t : Time) (h : c.Sound) (hb : ∀ w, c.busy ≠ .binding w) : (c.fireAllDue t).Sound :=
  (foldl_keeps (P := fun c : Calendar => c.Sound ∧ ∀ w, c.busy ≠ .binding w) (fun _ _ => sound_fireIfRunning) (c.dueAt t)
    ⟨h, hb⟩).1

/-- An edge arrival leaves a slot in a state of its mode (R63, R67). -/
theorem fits_edged (e : LineNo) (n : SlotNo) (h : c.Sound) :
    ((c.slot n).edged c.now e).Fits c.views := by
  unfold Slot.edged
  split
  case isFalse => exact h.fits n
  case isTrue =>
    split
    case h_1 hm =>
      have triggered (hu : (c.slot n).status ≠ .free) :
          ({ c.slot n with status := .running (c.now + (c.slot n).config.period.setWidth 48) } : Slot).Fits c.views :=
        fits_of_running rfl (by simp [hm]) ((h.fits n).generation hu) (h.fits n).legal (by simp [hm])
      split
      case h_1 hs => exact triggered (by simp [hs])
      case h_2 hs => exact triggered (by simp [hs])
      case h_3 => exact h.fits n
    case h_2 hm =>
      split
      case h_1 left hs =>
        have hu : (c.slot n).status ≠ .free := by simp [hs]
        split
        · exact fits_counted h hm hu
        · exact fits_countedDown h hm hu (by omega)
      case h_2 => exact h.fits n
    case h_3 => exact h.fits n

theorem sound_edgeVisit (e : LineNo) (start stop : Nat) (h : c.Sound) (hb : ∀ w, c.busy ≠ .binding w) :
    (c.edgeVisit e start stop).Sound := by
  refine (visited_edgeVisit c e start stop).sound h.dueExact h.dueSorted hb (fun n _ => fits_edged e n h)
    (fun n _ => h.fits n) h.requests fun n _ m hm => ?_
  unfold Slot.edgeRequests at hm
  split at hm
  · exact fireRequests_lawful (w := 1) (by decide) (by decide) m hm
  · cases hm

/-- The gate of a slot with line `e`, once the view of that line is `v`. -/
theorem gateIn_setAt {views : Vector LineView 12} {e : LineNo} {v : LineView} {x : Slot} (hl : x.config.line = some e) :
    x.GateIn (setAt views e v) ↔ gateActive v x.config.gate = true := by
  rw [gateActive_iff]
  simp [Slot.GateIn, hl]

/-- The gate of a slot without line `e` does not see the view of that line. -/
theorem gateIn_setAt_other {views : Vector LineView 12} {e : LineNo} {v : LineView} {x : Slot} (hl : x.config.line ≠ some e) :
    x.GateIn (setAt views e v) ↔ x.GateIn views := by
  have hview : ∀ i : LineNo, x.config.line = some i → (setAt views e v)[i] = views[i] := fun i hi => by
    rw [setAt_get, if_neg]
    rintro rfl
    exact hl hi
  constructor <;> rintro ⟨i, hi, hv⟩ <;> refine ⟨i, hi, ?_⟩
  · rwa [hview i hi] at hv
  · rwa [hview i hi]

theorem gateIn_iff {views : Vector LineView 12} {e : LineNo} {x : Slot} (hl : x.config.line = some e) :
    x.GateIn views ↔ gateActive views[e] x.config.gate = true := by
  rw [gateActive_iff]
  simp [Slot.GateIn, hl]

/-- A gate report leaves a slot RUNNING under an active gate, or PAUSED under an inactive one (R70, R71). -/
theorem fits_gateChanged {views : Vector LineView 12} {x : Slot} (now : Time) (e : LineNo) (new : LineView) (h : x.Fits views) :
    (x.gateChanged now e views[e] new).Fits (setAt views e new) := by
  obtain ⟨hmode, hgen, hlegal, hruns, hpauses⟩ := h
  have unchanged (hg : x.config.mode = .gated → (x.GateIn (setAt views e new) ↔ x.GateIn views) ∨
      (∀ d, x.status ≠ .running d) ∧ ∀ r, x.status ≠ .paused r) : x.Fits (setAt views e new) := by
    refine ⟨hmode, hgen, hlegal, fun hm hr => ?_, fun hm r hp => ?_⟩
    · obtain hiff | ⟨hno, -⟩ := hg hm
      · exact hiff.2 (hruns hm hr)
      · cases hs : x.status with
        | running d => exact absurd hs (hno d)
        | _ => simp [hs, SlotStatus.isRunning, SlotStatus.deadline?] at hr
    · obtain hiff | ⟨-, hno⟩ := hg hm
      · exact fun hgate => hpauses hm r hp (hiff.1 hgate)
      · exact absurd hp (hno r)
  unfold Slot.gateChanged
  split
  case isFalse hno => exact unchanged fun hm => .inl (gateIn_setAt_other fun hl => hno ⟨hm, hl⟩)
  case isTrue hg =>
    obtain ⟨hm, hl⟩ := hg
    have hperiod : x.config.period.setWidth 48 ≠ 0 := fun h0 => by
      have := congrArg BitVec.toNat h0
      have hlt := x.config.period.isLt
      rw [BitVec.toNat_setWidth, Nat.mod_eq_of_lt (by omega)] at this
      have := hlegal.period
      simp_all
    split
    case h_1 d hs =>
      have hold : gateActive views[e] x.config.gate = true := (gateIn_iff hl).1 (hruns hm (by rw [hs]; rfl))
      have hgen' := hgen (by simp [hs])
      split
      case isTrue hch =>
        have hoff : ¬ x.GateIn (setAt views e new) := by rw [gateIn_setAt hl, hch.2]; decide
        split
        · exact fits_of_paused rfl hm hperiod hgen' hlegal hoff
        · rename_i hdue
          refine fits_of_paused rfl hm (fun h0 => hdue ?_) hgen' hlegal hoff
          rw [isDue_iff]
          obtain rfl : d = now := by
            have := BitVec.sub_eq_iff_eq_add.1 h0
            simpa using this
          simp
      case isFalse hch =>
        refine unchanged fun _ => .inl ?_
        rw [gateIn_setAt hl, gateIn_iff hl]
        rw [hold, and_iff_right rfl, Bool.not_eq_false] at hch
        rw [hold, hch]
    case h_2 r hs =>
      have hold : gateActive views[e] x.config.gate = false := by
        rw [← Bool.not_eq_true, ← gateIn_iff hl]
        exact hpauses hm r hs
      split
      case isTrue hch =>
        exact fits_of_running rfl (by simp [hm]) (hgen (by simp [hs])) hlegal fun _ => (gateIn_setAt hl).2 hch.2
      case isFalse hch =>
        refine unchanged fun _ => .inl ?_
        rw [gateIn_setAt hl, gateIn_iff hl]
        rw [hold, and_iff_right rfl, Bool.not_eq_true] at hch
        rw [hold, hch]
    case h_3 hrun hpause => exact unchanged fun _ => .inr ⟨hrun, hpause⟩

theorem sound_takeGate (e : LineNo) (v : LineView) (h : c.Sound) (hb : ∀ w, c.busy ≠ .binding w) : (c.takeGate e v).Sound := by
  have k := visited_takeGate c e v
  generalize c.takeGate e v = c' at k ⊢
  refine k.sound h.dueExact h.dueSorted hb (fun n _ => fits_gateChanged c.now e v (h.fits n))
    (fun n hn => absurd (List.mem_finRange n) hn) h.requests fun n _ m hm => ?_
  unfold Slot.gateRequests at hm
  split at hm
  · exact fireRequests_lawful (w := 1) (by decide) (by decide) m hm
  · cases hm

/-- A request judged again at a session end keeps to the laws: an ORPHANED one stands beside a session end already. -/
theorem endTie_lawful {p : Port} {m : RouterRequest} (h : m.Lawful) : (m.endTie p).Lawful := by
  cases m with
  | purge => exact True.intro
  | fire q =>
    obtain ⟨hw, hq⟩ := h
    by_cases ht : q.tie = some (.owner p)
    · simp only [RouterRequest.endTie, if_pos ht]
      refine ⟨hw, ?_⟩
      dsimp only
      split at hq
      · rw [if_pos ‹_›]
        exact ⟨hq.1, p, rfl⟩
      · rwa [if_neg ‹_›]
    · simp only [RouterRequest.endTie, if_neg ht]
      exact ⟨hw, hq⟩

theorem sound_endSession (p : Port) (onTheWay : Nat) (h : c.Sound) (hb : ∀ w, c.busy ≠ .binding w) :
    (c.endSession p onTheWay).Sound := by
  have k := visited_endSession c p onTheWay
  generalize c.endSession p onTheWay = c' at k ⊢
  refine k.sound h.dueExact h.dueSorted hb (fun n _ => ?_) (fun n hn => absurd (List.mem_finRange n) hn) (fun m hm => ?_)
    fun n _ m hm => ?_
  · unfold Slot.afterEnd
    split
    case isTrue hu =>
      split
      · exact (h.fits n).congr hu.2 rfl rfl rfl
      · exact fits_freed _ (h.fits n).legal
    case isFalse => exact h.fits n
  · obtain ⟨q, hq, rfl⟩ := List.mem_map.1 hm
    exact endTie_lawful (h.requests q hq)
  · unfold Slot.endRequests at hm
    split at hm
    · obtain rfl := List.mem_singleton.1 hm
      exact ⟨by simp, by simp⟩
    · cases hm

/-- No configure waits while an edge arrival is at hand. -/
theorem edgeInHand_no_binding {s : State} {e : LineNo} {k : Nat} (h : s.edgeInHand = some (e, k)) (w : WaitingConfigure) :
    s.calendar.busy ≠ .binding w := by
  intro hw
  simp [State.edgeInHand, hw] at h

end

/-! ### Every step -/

/-- Every effect keeps the laws of the Calendar. -/
theorem Effect.sound {s t : State} (h : Effect s t) (hs : s.calendar.Sound) : t.calendar.Sound := by
  have backed {c : Calendar} {back : Vector (List FromBlock) 4} (hc : c.Sound) : Calendar.Sound { c with back := back } :=
    hc.congr rfl rfl rfl rfl (fun _ => id) fun _ => id
  have sent {c : Calendar} {p : Port} {m : FromBlock} (hc : c.Sound) : (c.send p m).Sound :=
    hc.congr rfl rfl rfl rfl (fun _ => id) fun _ => id
  have unbusied {c : Calendar} {b : CalendarBusy} (hb : ∀ w, b ≠ .binding w) (hc : c.Sound) :
      Calendar.Sound { c with busy := b } :=
    hc.congr rfl rfl rfl rfl (fun w hw => absurd hw (hb w)) fun _ => id
  have free : ∀ w, CalendarBusy.free ≠ .binding w := fun w => by simp
  have delivering : ∀ w, CalendarBusy.delivering ≠ .binding w := fun w => by simp
  have edge : ∀ k w, CalendarBusy.edge k ≠ .binding w := fun k w => by simp
  cases h with
  | powerOn => exact sound_initial
  | deviceReset => exact sound_deviceReset s.calendar
  | message b p m rest =>
    rw [setPort_calendar, setBack_calendar]
    exact backed hs
  | part b p m rest =>
    rw [setBack_calendar]
    exact backed hs
  | stale b p m e r rest =>
    rw [State.refuses, setBack_calendar]
    exact backed hs
  | atCalendar p m e r rest hr hb => exact sound_onCalendar hs (no_binding_of_free (hr.free hb)) r
  | calendarEnd p e rest hf =>
    have hc := sound_endSession p s.timebase.toCalendar.length hs (no_binding_of_free hf)
    generalize s.calendar.endSession p s.timebase.toCalendar.length = c' at hc ⊢
    exact sent hc
  | delivery d c hd =>
    obtain ⟨hc, hb⟩ := sound_delivering hd hs
    have hc' := sound_fireAllDue d.value hc hb
    unfold State.finishDelivery
    generalize c.fireAllDue d.value = c' at hc' ⊢
    exact hc'.congr rfl rfl rfl rfl (fun w hw => absurd hw (free w)) fun _ => id
  | fire n d c hd =>
    obtain ⟨hc, -⟩ := sound_fireIfRunning (t := d.value) (n := n) (sound_delivering hd hs)
    generalize Calendar.fireIfRunning d.value c n = c' at hc ⊢
    exact unbusied delivering hc
  | edge e k he =>
    have hc := sound_edgeVisit e k 64 hs (edgeInHand_no_binding he)
    generalize s.calendar.edgeVisit e k 64 = c' at hc ⊢
    exact unbusied free hc
  | edgePart e k n he =>
    have hc := sound_edgeVisit e k (n.val + 1) hs (edgeInHand_no_binding he)
    generalize s.calendar.edgeVisit e k (n.val + 1) = c' at hc ⊢
    exact unbusied (edge _) hc
  | gate e v rest hf =>
    have hc := sound_takeGate e v hs (no_binding_of_free hf)
    generalize s.calendar.takeGate e v = c' at hc ⊢
    exact hc
  | count m rest hf => exact sound_count m hs (no_binding_of_free hf)
  | binding granted pins m rest => exact sound_takeAnswer granted (hs.congr rfl rfl rfl rfl (fun _ => id) fun _ => id)
  | pinRequest pins m rest => exact hs.congr rfl rfl rfl rfl (fun _ => id) fun _ => id
  | fireRequest q rest hp =>
    exact hs.congr rfl rfl rfl rfl (fun _ => id) fun m hm => by rw [hp]; exact List.mem_cons_of_mem _ hm
  | purgeRequest n g rest hp =>
    exact hs.congr rfl rfl rfl rfl (fun _ => id) fun m hm => by rw [hp]; exact List.mem_cons_of_mem _ hm
  | routerEnd _ _ _ _ _ hu => subst hu; exact hs
  | _ => exact hs

/-- Settles O57, effect by effect. -/
theorem stepKeepsCalendarLaws : Obligations.StepKeepsCalendarLaws := by
  intro s t hl h
  obtain rfl | ⟨rest, he⟩ := step_cases h
  · exact hl
  · exact lawful_iff_sound.2 (he.sound (lawful_iff_sound.1 hl))

end Sys2Proof.Machine
end

section
/-! PROOFS. The deliveries on their path between the Timebase's time and the Calendar's, and the horizon of RETRIGGER and GATED slots:
what each operation keeps, and that every step does (R2, R4, R5, R11, R16, R44, R71). -/

namespace Sys2Proof.Machine

/-! ### The path of deliveries -/

theorem carriesOn_append {v w : Time} {l l' : List TimeDelivery} :
    CarriesOn v (l ++ l') w ↔ ∃ u, CarriesOn v l u ∧ CarriesOn u l' w := by
  induction l generalizing v with
  | nil => simp [CarriesOn]
  | cons d l ih => cases d <;> simp [CarriesOn, ih, and_assoc]

/-- What stands behind the first delivery carries on from its value. -/
theorem carriesOn_tail {v w : Time} {d : TimeDelivery} {l : List TimeDelivery} (h : CarriesOn v (d :: l) w) :
    CarriesOn d.value l w := by
  cases d with
  | tick t => exact h.2
  | step old new delta => exact h.2.2.2

/-- The Timebase goes on from `t` to `t'` by deliveries that carry its time on. -/
def Timebase.GoesOn (t t' : Timebase) : Prop :=
  ∃ l, t'.toCalendar = t.toCalendar ++ l ∧ CarriesOn t.time l t'.time

/-- A pending SET lies in range of the time value (R11). -/
def Timebase.SetLaw (t : Timebase) : Prop :=
  ∀ v q, t.pendingWrite = some { write := .set v, issuer := q } → (v - t.time).toInt.natAbs < 2 ^ 46

section
variable {t t' : Timebase}

theorem goesOn_of_eq (hp : t'.toCalendar = t.toCalendar) (ht : t'.time = t.time) : t.GoesOn t' :=
  ⟨[], by rw [hp, List.append_nil], ht.symm⟩

/-- A tick that carries 1 or 2 more. -/
theorem goesOn_advance {n : Nat} (hn : n = 1 ∨ n = 2) (hp : t'.toCalendar = t.toCalendar) (ht : t'.time = t.time) :
    t.GoesOn (t'.advance n) := by
  refine ⟨[.tick (after t'.time n)], ?_, ?_, rfl⟩
  · simp only [Timebase.advance, Timebase.deliver, hp]
  · rw [ht]
    obtain rfl | rfl := hn
    · exact .inl rfl
    · exact .inr rfl

theorem goesOn_plainTick (hp : t'.toCalendar = t.toCalendar) (ht : t'.time = t.time) : t.GoesOn t'.plainTick := by
  unfold Timebase.plainTick
  split
  · exact goesOn_advance (.inl rfl) hp ht
  · split
    · dsimp only
      split
      · exact goesOn_advance (.inr rfl) hp ht
      · exact goesOn_of_eq hp ht
    · exact goesOn_advance (.inl rfl) hp ht

/-- A tick arrival sends what carries the time on (R4, R11, R12, R16). -/
theorem goesOn_arrive (h : t.SetLaw) : t.GoesOn t.arrive := by
  unfold Timebase.arrive
  split
  case h_1 => exact goesOn_plainTick rfl rfl
  case h_2 w hw =>
    split
    case h_1 v hv =>
      refine ⟨[.step t.time v (v - (t.time + 1))], rfl, rfl, ?_, rfl, rfl⟩
      exact h v w.issuer (by rw [hw, ← hv])
    case h_2 a sp _ =>
      unfold Timebase.applyAdjust
      split <;> exact goesOn_advance (.inl rfl) rfl rfl
    case h_3 => exact goesOn_plainTick rfl rfl

/-- After a tick arrival no write is pending (R3). -/
theorem arrive_pendingWrite (t : Timebase) : t.arrive.pendingWrite = none := by
  have plain {t : Timebase} (h : t.pendingWrite = none) : t.plainTick.pendingWrite = none := by
    unfold Timebase.plainTick
    split
    · exact h
    · split
      · dsimp only
        split <;> exact h
      · exact h
  unfold Timebase.arrive
  split
  · exact plain rfl
  · split
    · rfl
    · unfold Timebase.applyAdjust
      split <;> rfl
    · exact plain rfl

theorem setLaw_of_absent (h : t.pendingWrite = none) : t.SetLaw := fun v q hv => by rw [h] at hv; cases hv

theorem setLaw_arrive (t : Timebase) : t.arrive.SetLaw := setLaw_of_absent (arrive_pendingWrite t)

theorem accept_cases (p : Port) (w : TimeWrite) (t : Timebase) :
    (t.accept p w).1 = t ∨
      t.inRange w = true ∧ (t.accept p w).1 = { t with pendingWrite := some { write := w, issuer := p } } := by
  unfold Timebase.accept
  split_ifs with ha hp hr
  · exact .inl rfl
  · exact .inl rfl
  · exact .inr ⟨hr, rfl⟩
  · exact .inl rfl

/-- A request leaves the time and the path as they are, and a SET that it makes pending lies in range. -/
theorem onTimebase_keeps (p : Port) (r : Request) (h : t.SetLaw) :
    t.GoesOn (r.onTimebase p t).1 ∧ (r.onTimebase p t).1.SetLaw := by
  have same : t.GoesOn t ∧ t.SetLaw := ⟨goesOn_of_eq rfl rfl, h⟩
  have accepted (w : TimeWrite) : t.GoesOn (t.accept p w).1 ∧ (t.accept p w).1.SetLaw := by
    obtain he | ⟨hr, he⟩ := accept_cases p w t <;> rw [he]
    · exact same
    · refine ⟨goesOn_of_eq rfl rfl, fun v q hv => ?_⟩
      obtain ⟨rfl, -⟩ := PendingWrite.mk.inj (Option.some.inj hv)
      exact of_decide_eq_true hr
  cases r with
  | timeClaim =>
    change t.GoesOn (t.claim p).1 ∧ (t.claim p).1.SetLaw
    unfold Timebase.claim
    split
    · exact ⟨goesOn_of_eq rfl rfl, h⟩
    · exact same
  | timeRelease =>
    change t.GoesOn (t.release p).1 ∧ (t.release p).1.SetLaw
    unfold Timebase.release
    split
    · exact ⟨goesOn_of_eq rfl rfl, h⟩
    · exact same
  | timeSet v => exact accepted (.set v)
  | timeAdjust a sp => exact accepted (.adjust a sp)
  | timeTick d => exact accepted (.tick d)
  | timeWithdraw =>
    change t.GoesOn (t.withdraw p).1 ∧ (t.withdraw p).1.SetLaw
    unfold Timebase.withdraw
    split_ifs
    · exact same
    · exact ⟨goesOn_of_eq rfl rfl, setLaw_of_absent rfl⟩
    · exact same
  | _ => exact same

theorem timebaseEnd_keeps (p : Port) (h : t.SetLaw) : t.GoesOn (t.endSession p) ∧ (t.endSession p).SetLaw := by
  unfold Timebase.endSession
  split <;> exact ⟨goesOn_of_eq rfl rfl, h⟩

end

/-! ### Slot records within the horizon -/

/-- What the horizon asks of one slot record at time `now`; `delivering` says that a slot that is due is yet to fire. -/
def Slot.Near (now : Time) (delivering : Prop) (x : Slot) : Prop :=
  (∀ d, x.status = .running d → x.config.mode ∈ [Mode.retrigger, Mode.gated] →
    (1 ≤ (d - now).toNat ∧ (d - now).toNat ≤ 2 ^ 46 - 1) ∨ (delivering ∧ (now - d).toNat < 2 ^ 47)) ∧
    ∀ r, x.status = .paused r → r.toNat ≤ 2 ^ 46 - 1

/-- The law of the Calendar, slot by slot. -/
theorem horizonLaw_iff {c : Calendar} : c.HorizonLaw ↔ ∀ n, (c.slot n).Near c.now (c.busy = .delivering) := Iff.rfl

section
variable {now : Time} {P : Prop} {x y : Slot}

theorem Slot.Near.congr (h : x.Near now P) (hs : y.status = x.status) (hm : y.config.mode = x.config.mode) : y.Near now P := by
  simpa only [Slot.Near, hs, hm] using h

theorem Slot.Near.mono {Q : Prop} (h : x.Near now P) (hpq : P → Q) : x.Near now Q :=
  ⟨fun d hd hm => (h.1 d hd hm).imp_right fun k => ⟨hpq k.1, k.2⟩, h.2⟩

/-- A record that is neither RUNNING nor PAUSED. -/
theorem near_of_still (hr : ∀ d, x.status ≠ .running d) (hp : ∀ r, x.status ≠ .paused r) : x.Near now P :=
  ⟨fun d hd => absurd hd (hr d), fun r h => absurd h (hp r)⟩

/-- A RUNNING record of a mode that the horizon does not bind. -/
theorem near_of_mode {d : Time} (hs : x.status = .running d) (hm : x.config.mode ≠ .retrigger) (hm' : x.config.mode ≠ .gated) :
    x.Near now P :=
  ⟨fun _ _ h => by simp [hm, hm'] at h, fun r h => by simp [hs] at h⟩

/-- A RUNNING record whose deadline lies ahead, within the horizon. -/
theorem near_of_ahead {d : Time} (hs : x.status = .running (now + d)) (h1 : 1 ≤ d.toNat) (h2 : d.toNat ≤ 2 ^ 46 - 1) :
    x.Near now P := by
  refine ⟨fun d' hd' _ => .inl ?_, fun r h => by simp [hs] at h⟩
  obtain rfl := SlotStatus.running.inj (hs.symm.trans hd')
  rw [BitVec.add_comm now d, BitVec.add_sub_cancel]
  exact ⟨h1, h2⟩

theorem near_of_paused {r : Time} (hs : x.status = .paused r) (hr : r.toNat ≤ 2 ^ 46 - 1) : x.Near now P := by
  refine ⟨fun d hd => by simp [hs] at hd, fun r' h => ?_⟩
  obtain rfl := SlotStatus.paused.inj (hs.symm.trans h)
  exact hr

theorem period_within (c : SlotConfig) : (c.period.setWidth 48).toNat = c.period.toNat ∧ c.period.toNat ≤ 2 ^ 46 - 1 := by
  have := c.period.isLt
  rw [BitVec.toNat_setWidth]
  exact ⟨Nat.mod_eq_of_lt (by omega), by omega⟩

/-- A RUNNING record whose period starts now (R62, R67). -/
theorem near_of_period {c : SlotConfig} (hs : x.status = .running (now + c.period.setWidth 48)) (hl : c.Legal) : x.Near now P := by
  obtain ⟨hw, hle⟩ := period_within c
  exact near_of_ahead hs (by rw [hw]; exact hl.period) (by rw [hw]; exact hle)

theorem near_of_paused_period {c : SlotConfig} (hs : x.status = .paused (c.period.setWidth 48)) : x.Near now P := by
  obtain ⟨hw, hle⟩ := period_within c
  exact near_of_paused hs (by rw [hw]; exact hle)

/-- The state that a fire leaves lies within the horizon (R58 to R62). -/
theorem Slot.FiresTo.near {d : Time} {kind : NoticeKind} {w : BitVec 16} {st : SlotStatus} (h : x.FiresTo d now kind w st)
    (hl : x.config.Legal) : (x.firedTo st).Near now P := by
  cases h with
  | once _ | retrigger _ | window _ => exact near_of_still (by simp [Slot.firedTo]) (by simp [Slot.firedTo])
  | gated _ => exact near_of_period rfl hl
  | _ => -- the fire of a REPEAT slot
    rename_i hm _ _ _
    exact near_of_mode rfl (by simp [Slot.firedTo, hm]) (by simp [Slot.firedTo, hm])

end

/-! ### Changes of the Calendar between deliveries -/

/-- The Calendar goes from `c` to `c'` without a delivery: its time stands, and the horizon is kept. -/
structure Calendar.Steady (c c' : Calendar) : Prop where
  now : c'.now = c.now
  delivering : c'.busy = .delivering ↔ c.busy = .delivering
  horizon : c.HorizonLaw → c'.HorizonLaw

section
variable {c c' : Calendar}

theorem steady_of_eq (hs : c'.slots = c.slots) (hn : c'.now = c.now) (hb : c'.busy = .delivering ↔ c.busy = .delivering) :
    c.Steady c' := by
  refine ⟨hn, hb, fun h n => ?_⟩
  have hslot : c'.slot n = c.slot n := by simp only [Calendar.slot, hs]
  rw [hslot, hn]
  exact (horizonLaw_iff.1 h n).mono hb.2

theorem Calendar.Becomes.steady {n : SlotNo} {x : Slot} {r : List RouterRequest} {q : List PinRequest}
    {b : Vector (List FromBlock) 4} (k : c.Becomes c' n x r q b)
    (hx : c.HorizonLaw → x.Near c.now (c.busy = .delivering)) : c.Steady c' := by
  refine ⟨k.now, by rw [k.busy], fun h m => ?_⟩
  have goal : (c'.slot m).Near c'.now (c'.busy = .delivering) := by
    rw [k.now, k.busy]
    by_cases hm : m = n
    · rw [hm, k.slot]
      exact hx h
    · rw [k.others m hm]
      exact h m
  exact goal

theorem Calendar.Visited.steady {l : List SlotNo} {x : SlotNo → Slot} {router : SlotNo → List RouterRequest}
    {pin : SlotNo → List PinRequest} (k : c.Visited c' l x router pin)
    (hx : c.HorizonLaw → ∀ n ∈ l, (x n).Near c.now (c.busy = .delivering)) : c.Steady c' := by
  refine ⟨k.now, by rw [k.busy], fun h m => ?_⟩
  have goal : (c'.slot m).Near c'.now (c'.busy = .delivering) := by
    rw [k.now, k.busy]
    by_cases hm : m ∈ l
    · rw [k.slot m hm]
      exact hx h m hm
    · rw [k.others m hm]
      exact h m
  exact goal

theorem Calendar.Steady.trans {c'' : Calendar} (h : c.Steady c') (k : c'.Steady c'') : c.Steady c'' :=
  ⟨k.now.trans h.now, k.delivering.trans h.delivering, fun hl => k.horizon (h.horizon hl)⟩

theorem Calendar.Steady.answer (h : c.Steady c') (p : Port) (m : Nat) (o : OutcomeCode) (f : Payload) :
    c.Steady (c'.answer p m o f) :=
  h.trans (steady_of_eq rfl rfl Iff.rfl)

theorem steady_answer (p : Port) (m : Nat) (o : OutcomeCode) (f : Payload) : c.Steady (c.answer p m o f) :=
  steady_of_eq rfl rfl Iff.rfl

/-! #### Slot commands -/

variable {p : Port} {n : SlotNo} {m : Nat}

theorem steady_allocate (b : Byte) : c.Steady (c.allocate p b m) := by
  cases hs : c.slotToAllocate b with
  | error o =>
    simp only [Calendar.allocate, hs]
    exact steady_answer ..
  | ok k => exact (becomes_allocate hs).steady fun _ => near_of_still (by simp [Slot.allocated]) (by simp [Slot.allocated])

theorem steady_configure (f : RawConfig) (hb : c.busy ≠ .delivering) : c.Steady (c.configure p f n m) := by
  by_cases hs : (c.slot n).status = .idle
  case neg =>
    rw [configure_of_not_idle hs]
    exact steady_answer ..
  case pos =>
    by_cases hf : ∃ g, f.Means g
    case neg =>
      rw [configure_of_not_means hs hf]
      exact steady_answer ..
    case pos =>
      obtain ⟨g, hg⟩ := hf
      by_cases hp : (c.slot n).config.pin = none ∧ g.pin = none
      · rw [configure_installs hs hg hp.1 hp.2]
        exact ((becomes_installConfig g).answer p m _ _).steady fun _ => near_of_still (by simp [hs]) (by simp [hs])
      · rw [configure_asks hs hg (by tauto)]
        exact steady_of_eq rfl rfl (by simp [hb])

theorem near_of_armsTo {kind : Byte} {value : Time} {startNow : Bool} {st : SlotStatus} {P : Prop} (hl : (c.slot n).config.Legal)
    (ha : c.ArmsTo n kind value startNow st) : ({ c.slot n with status := st, fired := false } : Slot).Near c.now P := by
  cases ha with
  | timed d hm _ =>
    simp only [List.mem_cons, List.not_mem_nil, or_false] at hm
    refine near_of_mode rfl (fun hc : (c.slot n).config.mode = .retrigger => ?_)
      fun hc : (c.slot n).config.mode = .gated => ?_ <;> simp [hc] at hm
  | retriggerStarts _ _ => exact near_of_period rfl hl
  | gatedRuns _ _ => exact near_of_period rfl hl
  | gatedPauses _ _ => exact near_of_paused_period rfl
  | _ => exact near_of_still (by simp) (by simp)

theorem steady_arm (kind : Byte) (value : Time) (startNow : Bool) (hl : c.SlotLaw) : c.Steady (c.arm p kind value startNow n m) := by
  cases ha : c.armedStatus n kind value startNow with
  | none =>
    rw [calendarArm_of_none ha]
    exact steady_answer ..
  | some st => exact (becomes_arm ha).steady fun _ => near_of_armsTo (hl.1 n).2.2 (armedStatus_iff.1 ha)

theorem steady_checkIn {d : Time} (hm : (c.slot n).config.mode = .window) : c.Steady (c.checkIn p n d m) := by
  by_cases hw : (c.now - (d - (c.slot n).config.window.setWidth 48)).toNat < 2 ^ 47
  · exact (becomes_checkIn_open hw).steady fun _ => near_of_mode rfl (by simp [hm]) (by simp [hm])
  · exact (becomes_checkIn_early (not_lt.1 hw)).steady fun _ => near_of_still (by simp [Slot.firedTo]) (by simp [Slot.firedTo])

theorem steady_trigger (hl : c.SlotLaw) : c.Steady (c.trigger n) :=
  becomes_trigger.steady fun _ => near_of_period rfl (hl.1 n).2.2

theorem steady_countEdge (left : BitVec 16) : c.Steady (c.countEdge n left) := by
  by_cases hl : left.toNat ≤ 1
  · exact (becomes_countEdge_last hl).steady fun _ => near_of_still (by simp [Slot.firedTo]) (by simp [Slot.firedTo])
  · exact (becomes_countEdge_more (by omega)).steady fun _ => near_of_still (by simp) (by simp)

theorem steady_touch (hl : c.SlotLaw) : c.Steady (c.touch p n m) := by
  cases hm : (c.slot n).config.mode <;> cases hs : (c.slot n).status
  case window.running d =>
    simp only [Calendar.touch, hm, hs]
    exact steady_checkIn hm
  case retrigger.waiting | retrigger.running =>
    simp only [Calendar.touch, hm, hs]
    exact (steady_trigger hl).answer ..
  case count.waiting k =>
    cases k <;> simp only [Calendar.touch, hm, hs]
    · exact steady_answer ..
    · exact (steady_countEdge _).answer ..
  all_goals
    simp only [Calendar.touch, hm, hs]
    exact steady_answer ..

theorem steady_adopt : c.Steady (c.adopt p n m) := by
  by_cases ho : (c.slot n).owner = none
  · exact (becomes_adopt ho).steady fun h => (horizonLaw_iff.1 h n).congr rfl rfl
  · rw [adopt_of_owned ho]
    exact steady_answer ..

theorem steady_withSlot {access : SlotAccess} {k : SlotHandle} {act : SlotNo → Nat → Calendar → Calendar}
    (ha : ∀ n, c.Steady (act n m c)) : c.Steady (c.withSlot p access k act m) := by
  unfold Calendar.withSlot
  split
  · exact steady_answer ..
  · exact ha _

/-- A slot request leaves every slot within the horizon. -/
theorem steady_onCalendar (r : Request) (hl : c.SlotLaw) (hb : c.busy ≠ .delivering) : c.Steady (r.onCalendar p m c) := by
  cases r with
  | slotAllocate b => exact steady_allocate b
  | slotConfigure k f => exact steady_withSlot fun _ => steady_configure f hb
  | slotArm k kind value startNow => exact steady_withSlot fun _ => steady_arm kind value startNow hl
  | slotDisarm k purge =>
    exact steady_withSlot fun _ => (becomes_disarm purge).steady fun _ => near_of_still (by simp) (by simp)
  | slotTouch k => exact steady_withSlot fun _ => steady_touch hl
  | slotRelease k => exact steady_withSlot fun _ => becomes_release.steady fun _ => near_of_still (by simp) (by simp)
  | slotAdopt k => exact steady_withSlot fun _ => steady_adopt
  | slotQuery k => exact steady_withSlot fun _ => steady_answer ..
  | _ => exact steady_of_eq rfl rfl Iff.rfl

/-! #### Events -/

theorem steady_takeAnswer (granted : Bool) (hl : c.SlotLaw) : c.Steady (c.takeAnswer granted) := by
  unfold Calendar.takeAnswer
  split
  case h_2 => exact steady_of_eq rfl rfl Iff.rfl
  case h_1 w hw =>
    have freed : c.Steady { c with busy := .free } := steady_of_eq rfl rfl (by simp [hw])
    dsimp only
    split
    · refine freed.trans (((becomes_installConfig w.config).answer w.port w.mark _ _).steady fun _ => ?_)
      have hs : (Calendar.slot { c with busy := .free } w.slot).status = .idle := (hl.2 w hw).1
      exact near_of_still (by simp [hs]) (by simp [hs])
    · exact freed.answer ..

theorem steady_count (r : CountReport) : c.Steady (c.count r) := by
  have counted (n : SlotNo) (x : Slot) (hs : x.status = (c.slot n).status) (hc : x.config = (c.slot n).config) :
      c.Steady (c.setSlot n x) :=
    (becomes_setSlot c n x hs).steady fun h => (horizonLaw_iff.1 h n).congr hs (by rw [hc])
  cases r <;> unfold Calendar.count <;> dsimp only <;> split <;>
    first | exact counted _ _ rfl rfl | exact steady_of_eq rfl rfl Iff.rfl

theorem near_edged {P : Prop} {now : Time} {x : Slot} (e : LineNo) (hl : x.config.Legal) (h : x.Near now P) :
    (x.edged now e).Near now P := by
  unfold Slot.edged
  split
  case isFalse => exact h
  case isTrue =>
    split
    case h_1 =>
      split
      · exact near_of_period rfl hl
      · exact near_of_period rfl hl
      · exact h
    case h_2 =>
      split
      · split
        · exact near_of_still (by simp [Slot.firedTo]) (by simp [Slot.firedTo])
        · exact near_of_still (by simp) (by simp)
      · exact h
    case h_3 => exact h

theorem steady_edgeVisit (e : LineNo) (start stop : Nat) (hl : c.SlotLaw) : c.Steady (c.edgeVisit e start stop) :=
  (visited_edgeVisit c e start stop).steady fun h n _ => near_edged e (hl.1 n).2.2 (horizonLaw_iff.1 h n)

/-- A pause keeps what is left of the period, and a resumption goes on with it (R70, R71). -/
theorem near_gateChanged {P : Prop} {now : Time} {x : Slot} (e : LineNo) (old new : LineView) (hP : ¬ P) (hm : x.ModeLaw)
    (h : x.Near now P) : (x.gateChanged now e old new).Near now P := by
  unfold Slot.gateChanged
  split
  case isFalse => exact h
  case isTrue hg =>
    split
    case h_1 d hs =>
      split
      · split
        · exact near_of_paused_period rfl
        · obtain hd | ⟨hd, -⟩ := h.1 d hs (by simp [hg.1])
          · exact near_of_paused rfl hd.2
          · exact absurd hd hP
      · exact h
    case h_2 r hs =>
      split
      · have hr : r ≠ 0 := by
          rw [Slot.ModeLaw, hs] at hm
          exact hm.2
        refine near_of_ahead rfl (Nat.one_le_iff_ne_zero.2 fun h0 => hr (BitVec.eq_of_toNat_eq h0)) (h.2 r hs)
      · exact h
    case h_3 => exact h

theorem steady_takeGate (e : LineNo) (v : LineView) (hl : c.SlotLaw) (hb : c.busy ≠ .delivering) : c.Steady (c.takeGate e v) := by
  have k := visited_takeGate c e v
  generalize c.takeGate e v = c' at k ⊢
  refine Calendar.Steady.trans (c' := { c with views := setAt c.views e v }) (steady_of_eq rfl rfl Iff.rfl)
    (k.steady fun h n _ => near_gateChanged e _ v hb (hl.1 n).1 (horizonLaw_iff.1 h n))

theorem steady_endSession (p : Port) (onTheWay : Nat) : c.Steady (c.endSession p onTheWay) := by
  have k := visited_endSession c p onTheWay
  generalize c.endSession p onTheWay = c' at k ⊢
  refine Calendar.Steady.trans (c' := { c with toRouter := c.toRouter.map (RouterRequest.endTie p) })
    (steady_of_eq rfl rfl Iff.rfl) (k.steady fun h n _ => ?_)
  unfold Slot.afterEnd
  split
  · split
    · exact (horizonLaw_iff.1 h n).congr rfl rfl
    · exact near_of_still (by simp) (by simp)
  · exact h n

end

/-! ### Deliveries -/

/-- A slot after a time step is due or lies ahead within the horizon, whatever its deadline was (R2, R72, R73). -/
theorem near_stepped {x : Slot} {P : Prop} {now new delta : Time} (h : x.Near now P) : (x.stepped new delta).Near new True := by
  have due_or_ahead (d : Time) : (new - d).toNat < 2 ^ 47 ∨ 1 ≤ (d - new).toNat := by bv_omega
  have hstep := stepsTo_stepped x new delta
  generalize x.stepped new delta = y at hstep ⊢
  cases hstep with
  | still hs => exact ⟨fun d hd => by simp [hd, SlotStatus.isRunning, SlotStatus.deadline?] at hs, h.2⟩
  | moved d hs hd =>
    refine ⟨fun d' hd' _ => ?_, fun r hr => by simp at hr⟩
    obtain rfl := SlotStatus.running.inj hd'
    obtain hd | hd := hd
    · exact .inr ⟨trivial, hd⟩
    · exact (due_or_ahead _).elim (fun k => .inr ⟨trivial, k⟩) fun k => .inl ⟨k, hd⟩
  | clamped d hs _ _ => exact near_of_ahead rfl (by decide) (by decide)

/-- A slot at a tick is due or lies ahead within the horizon (R4, R16). -/
theorem near_tick {x : Slot} {P : Prop} {now t : Time} (hP : ¬ P) (ht : t = now + 1 ∨ t = now + 2) (h : x.Near now P) :
    x.Near t True := by
  refine ⟨fun d hd hm => ?_, h.2⟩
  obtain ⟨h1, h2⟩ | ⟨hp, -⟩ := h.1 d hd hm
  · by_cases hdue : (t - d).toNat < 2 ^ 47
    · exact .inr ⟨trivial, hdue⟩
    · left
      obtain rfl | rfl := ht <;> bv_omega
  · exact absurd hp hP

/-- The laws of the path: the first two of `State.TimeLaw`. -/
def State.PathLaw (s : State) : Prop :=
  (s.calendar.busy ≠ .delivering → CarriesOn s.calendar.now s.timebase.toCalendar s.timebase.time) ∧
  (s.calendar.busy = .delivering → ∃ d rest, s.timebase.toCalendar = d :: rest ∧ d.value = s.calendar.now ∧
    CarriesOn s.calendar.now rest s.timebase.time)

theorem timeLaw_iff {s : State} : s.TimeLaw ↔ s.PathLaw ∧ s.timebase.SetLaw := by
  unfold State.TimeLaw State.PathLaw Timebase.SetLaw
  rw [and_assoc]

section
variable {s t : State}

/-- What does not deliver keeps the laws of the path. -/
theorem State.PathLaw.keep (h : s.PathLaw) (hc : s.calendar.Steady t.calendar) (ht : s.timebase.GoesOn t.timebase) : t.PathLaw := by
  obtain ⟨l, hl, hon⟩ := ht
  refine ⟨fun hb => ?_, fun hb => ?_⟩
  · rw [hc.now, hl, carriesOn_append]
    exact ⟨_, h.1 (fun k => hb (hc.delivering.2 k)), hon⟩
  · obtain ⟨d, rest, hd, hv, hr⟩ := h.2 (hc.delivering.1 hb)
    refine ⟨d, rest ++ l, by rw [hl, hd, List.cons_append], by rw [hc.now, hv], ?_⟩
    rw [hc.now, carriesOn_append]
    exact ⟨_, hr, hon⟩

/-- The delivery at hand: the Calendar stands at its value, the rest of the path carries on, and every slot is due or lies ahead
within the horizon. -/
theorem delivering_keeps {d : TimeDelivery} {c : Calendar} (h : s.delivering = some (d, c)) (hs : s.calendar.Sound)
    (hp : s.PathLaw) (hh : s.calendar.HorizonLaw) :
    c.now = d.value ∧ (∃ rest, s.timebase.toCalendar = d :: rest ∧ CarriesOn d.value rest s.timebase.time) ∧
      ∀ n, (c.slot n).Near d.value True := by
  obtain ⟨⟨rest, hpath⟩, ⟨hb, rfl⟩ | ⟨hb, rfl⟩⟩ := delivering_eq_some h
  · have hnd : ¬ s.calendar.busy = .delivering := by simp [hb]
    have hon := hp.1 hnd
    rw [hpath] at hon
    refine ⟨by cases d <;> rfl, ⟨rest, hpath, carriesOn_tail hon⟩, fun n => ?_⟩
    cases d with
    | tick t => exact near_tick hnd hon.1 (horizonLaw_iff.1 hh n)
    | step old new delta =>
      obtain ⟨-, -, -, hslot⟩ := beginStep_spec s.calendar old new delta hs.dueExact hs.slotLaw hb
      rw [hslot]
      exact near_stepped (horizonLaw_iff.1 hh n)
  · obtain ⟨d', rest', hpath', hv, hon⟩ := hp.2 hb
    obtain ⟨rfl, rfl⟩ := List.cons.inj (hpath.symm.trans hpath')
    rw [hv]
    exact ⟨rfl, ⟨rest, hpath, hon⟩, fun n => (horizonLaw_iff.1 hh n).mono fun _ => trivial⟩

/-- The fires of a delivery leave no RETRIGGER or GATED slot due (R60, R62). -/
theorem near_fireAllDue {c : Calendar} {t : Time} {P : Prop} (hc : c.Sound) (hn : ∀ n, (c.slot n).Near t True) (n : SlotNo) :
    ((c.fireAllDue t).slot n).Near t P := by
  obtain ⟨⟨hfired, hkept, -⟩, -⟩ := fireAllDue_spec c t hc.dueExact hc.dueSorted hc.slotLaw
  generalize c.fireAllDue t = c' at hfired hkept ⊢
  by_cases hd : c.Due t n
  · obtain ⟨d, hs, hdue⟩ := hd
    obtain ⟨kind, weight, st, hf, he⟩ := hfired n d hs hdue
    rw [he]
    exact hf.near (hc.fits n).legal
  · rw [hkept n hd]
    refine ⟨fun d hs hm => ?_, (hn n).2⟩
    obtain h | ⟨-, h⟩ := (hn n).1 d hs hm
    · exact .inl h
    · exact absurd ⟨d, hs, h⟩ hd

/-- One fire of a delivery leaves every slot due or ahead within the horizon. -/
theorem near_fireIfRunning {c : Calendar} {t : Time} {k : SlotNo} (hc : c.Sound) (hn : ∀ n, (c.slot n).Near t True) :
    (Calendar.fireIfRunning t c k).now = c.now ∧ ∀ n, ((Calendar.fireIfRunning t c k).slot n).Near t True := by
  cases hs : (c.slot k).status with
  | running d =>
    obtain ⟨hm, -⟩ := (hc.fits k).used_running hs
    obtain ⟨kind, weight, st, hf, hb⟩ := fireSlot_spec c k d t hm (hc.fits k).legal.period
    rw [fireIfRunning_of_running hs]
    refine ⟨hb.now, fun n => ?_⟩
    by_cases h : n = k
    · rw [h, hb.slot]
      exact hf.near (hc.fits k).legal
    · rw [hb.others n h]
      exact hn n
  | _ =>
    simp only [Calendar.fireIfRunning, hs, SlotStatus.deadline?]
    exact ⟨trivial, hn⟩

/-! ### Every step -/

/-- The laws of time and of the horizon together. -/
def State.ClockLaw (s : State) : Prop := s.PathLaw ∧ s.timebase.SetLaw ∧ s.calendar.HorizonLaw

theorem State.ClockLaw.keep (h : s.ClockLaw) (hc : s.calendar.Steady t.calendar) (ht : s.timebase.GoesOn t.timebase)
    (hset : t.timebase.SetLaw) : t.ClockLaw :=
  ⟨h.1.keep hc ht, hset, hc.horizon h.2.2⟩

theorem clockLaw_reset (l : List Instr) : { State.reset with pending := l }.ClockLaw := by
  refine ⟨⟨fun _ => rfl, fun h => ?_⟩, setLaw_of_absent rfl, fun n => ?_⟩
  · have hb : Calendar.initial.busy = .delivering := h
    simp [Calendar.initial] at hb
  · have hn : (Calendar.initial.slot n).Near Calendar.initial.now (Calendar.initial.busy = .delivering) := by
      rw [initial_slot]
      exact near_of_still (by simp [Slot.initial]) (by simp [Slot.initial])
    exact hn

/-- A device reset discards the delivery that the Calendar was part way through, and keeps the others (R146). -/
theorem clockLaw_deviceReset (h : s.PathLaw) : s.deviceReset.ClockLaw := by
  refine ⟨⟨fun _ => ?_, fun hb => ?_⟩, setLaw_of_absent rfl, fun n => ?_⟩
  · have goal : CarriesOn s.calendar.now
        (if s.calendar.busy = .delivering then s.timebase.toCalendar.tail else s.timebase.toCalendar) s.timebase.time := by
      split
      · obtain ⟨d, rest, hd, -, hon⟩ := h.2 ‹_›
        rw [hd]
        exact hon
      · exact h.1 ‹_›
    exact goal
  · have hb' : Calendar.initial.busy = .delivering := hb
    simp [Calendar.initial] at hb'
  · have hslot : s.deviceReset.calendar.slot n = { Slot.initial with generation := (s.calendar.slot n).generation } :=
      tabulate_get _ n
    have hn : (s.deviceReset.calendar.slot n).Near s.deviceReset.calendar.now (s.deviceReset.calendar.busy = .delivering) := by
      rw [hslot]
      exact near_of_still (by simp [Slot.initial]) (by simp [Slot.initial])
    exact hn

theorem clockLaw_finishDelivery {d : TimeDelivery} {c : Calendar} (h : s.delivering = some (d, c)) (hs : s.calendar.Sound)
    (hk : s.ClockLaw) : (s.finishDelivery d c).ClockLaw := by
  obtain ⟨hp, hset, hh⟩ := hk
  obtain ⟨hnow, ⟨rest, hpath, hon⟩, hnear⟩ := delivering_keeps h hs hp hh
  have hc := (sound_delivering h hs).1
  have hn := near_fireAllDue (P := CalendarBusy.free = .delivering) hc hnear
  have hnow' : (c.fireAllDue d.value).now = d.value := by
    obtain ⟨-, -, -, -, hnow', -⟩ := fireAllDue_spec c d.value hc.dueExact hc.dueSorted hc.slotLaw
    rw [hnow', hnow]
  rw [finishDelivery_eq hpath]
  generalize c.fireAllDue d.value = c' at hn hnow' ⊢
  refine ⟨⟨fun _ => ?_, fun hb => ?_⟩, hset, fun n => ?_⟩
  · have goal : CarriesOn c'.now rest s.timebase.time := hnow' ▸ hon
    exact goal
  · have hb' : CalendarBusy.free = .delivering := hb
    simp at hb'
  · have goal : (c'.slot n).Near c'.now (CalendarBusy.free = .delivering) := hnow' ▸ hn n
    exact goal

theorem clockLaw_fire {d : TimeDelivery} {c : Calendar} {k : SlotNo} (h : s.delivering = some (d, c)) (hs : s.calendar.Sound)
    (hk : s.ClockLaw) :
    State.ClockLaw { s with calendar := { c.fireIfRunning d.value k with busy := .delivering } } := by
  obtain ⟨hp, hset, hh⟩ := hk
  obtain ⟨hnow, ⟨rest, hpath, hon⟩, hnear⟩ := delivering_keeps h hs hp hh
  obtain ⟨hnow', hn⟩ := near_fireIfRunning (k := k) (sound_delivering h hs).1 hnear
  rw [hnow] at hnow'
  generalize Calendar.fireIfRunning d.value c k = c' at hn hnow' ⊢
  refine ⟨⟨fun hb => absurd rfl hb, fun _ => ⟨d, rest, hpath, hnow'.symm, ?_⟩⟩, hset, fun n => ?_⟩
  · have goal : CarriesOn c'.now rest s.timebase.time := hnow' ▸ hon
    exact goal
  · have goal : (c'.slot n).Near c'.now (CalendarBusy.delivering = .delivering) := hnow' ▸ (hn n).mono fun _ => rfl
    exact goal

theorem edgeInHand_busy {e : LineNo} {k : Nat} (h : s.edgeInHand = some (e, k)) : s.calendar.busy ≠ .delivering := fun hb => by
  simp [State.edgeInHand, hb] at h

/-- Every effect keeps the laws of time and of the horizon. -/
theorem Effect.clockLaw (h : Effect s t) (hs : s.calendar.Sound) (hk : s.ClockLaw) : t.ClockLaw := by
  have hset := hk.2.1
  have still : s.calendar.Steady s.calendar := steady_of_eq rfl rfl Iff.rfl
  have stands : s.timebase.GoesOn s.timebase := goesOn_of_eq rfl rfl
  cases h with
  | powerOn => exact clockLaw_reset s.pending
  | deviceReset => exact clockLaw_deviceReset (s := { s with rstnLows := s.rstnLows + 1 }) hk.1
  | message b p m rest =>
    refine hk.keep ?_ ?_ ?_ <;> simp only [setPort_calendar, setPort_timebase] <;>
      first | rw [setBack_calendar] | rw [setBack_timebase]
    · exact steady_of_eq rfl rfl Iff.rfl
    · exact goesOn_of_eq rfl rfl
    · exact hset
  | part b p m rest =>
    refine hk.keep ?_ ?_ ?_ <;> first | rw [setBack_calendar] | rw [setBack_timebase]
    · exact steady_of_eq rfl rfl Iff.rfl
    · exact goesOn_of_eq rfl rfl
    · exact hset
  | stale b p m e r rest =>
    refine hk.keep ?_ ?_ ?_ <;> rw [State.refuses] <;> first | rw [setBack_calendar] | rw [setBack_timebase]
    · exact steady_of_eq rfl rfl Iff.rfl
    · exact goesOn_of_eq rfl rfl
    · exact hset
  | atTimebase p m e r rest =>
    obtain ⟨hgo, hset'⟩ := onTimebase_keeps p r hset
    exact hk.keep still hgo hset'
  | timebaseEnd p e rest =>
    obtain ⟨hgo, hset'⟩ := timebaseEnd_keeps p hset
    exact hk.keep still hgo hset'
  | tick => exact hk.keep still (goesOn_arrive hset) (setLaw_arrive s.timebase)
  | atCalendar p m e r rest hr hb =>
    have hc := steady_onCalendar (p := p) (m := m) r hs.slotLaw (by simp [hr.free hb])
    generalize r.onCalendar p m s.calendar = c' at hc ⊢
    exact hk.keep hc stands hset
  | calendarEnd p e rest =>
    have hc : s.calendar.Steady _ := steady_endSession p s.timebase.toCalendar.length
    generalize s.calendar.endSession p s.timebase.toCalendar.length = c' at hc ⊢
    exact hk.keep (hc.trans (steady_of_eq rfl rfl Iff.rfl)) stands hset
  | delivery d c hd => exact clockLaw_finishDelivery hd hs hk
  | fire n d c hd => exact clockLaw_fire hd hs hk
  | edge e k he =>
    have hc : s.calendar.Steady _ := steady_edgeVisit e k 64 hs.slotLaw
    generalize s.calendar.edgeVisit e k 64 = c' at hc ⊢
    refine hk.keep (hc.trans (steady_of_eq rfl rfl ?_)) stands hset
    simp [hc.delivering, edgeInHand_busy he]
  | edgePart e k n he =>
    have hc : s.calendar.Steady _ := steady_edgeVisit e k (n.val + 1) hs.slotLaw
    generalize s.calendar.edgeVisit e k (n.val + 1) = c' at hc ⊢
    refine hk.keep (hc.trans (steady_of_eq rfl rfl ?_)) stands hset
    simp [hc.delivering, edgeInHand_busy he]
  | gate e v rest hf =>
    have hc := steady_takeGate e v hs.slotLaw (by simp [hf])
    generalize s.calendar.takeGate e v = c' at hc ⊢
    exact hk.keep hc stands hset
  | count m rest => exact hk.keep (steady_count m) stands hset
  | binding granted pins m rest =>
    have hc : s.calendar.Steady { s.calendar with toPin := rest } := steady_of_eq rfl rfl Iff.rfl
    exact hk.keep (hc.trans (steady_takeAnswer granted hs.slotLaw)) stands hset
  | routerEnd _ _ _ _ _ hu =>
    subst hu
    exact hk.keep still stands hset
  | pinRequest => exact hk.keep (steady_of_eq rfl rfl Iff.rfl) stands hset
  | fireRequest => exact hk.keep (steady_of_eq rfl rfl Iff.rfl) stands hset
  | purgeRequest => exact hk.keep (steady_of_eq rfl rfl Iff.rfl) stands hset
  | pinTick => exact hk.keep still (goesOn_of_eq rfl rfl) hset
  | _ => exact hk.keep still stands hset

end

/-- Settles O58, effect by effect. -/
theorem stepKeepsHorizonLaws : Obligations.StepKeepsHorizonLaws := by
  intro s t hl ht hh h
  obtain ⟨hp, hset⟩ := timeLaw_iff.1 ht
  have hs := lawful_iff_sound.1 hl
  have hk : t.ClockLaw := by
    obtain rfl | ⟨rest, he⟩ := step_cases h
    · refine State.ClockLaw.keep (s := s) ⟨hp, hset, hh⟩ (steady_of_eq rfl rfl Iff.rfl) ?_ ?_ <;>
        obtain ⟨-, he⟩ | ⟨-, he⟩ := refclk_cases s.timebase <;> simp only [State.refclkPeriod, he]
      · exact goesOn_of_eq rfl rfl
      · exact goesOn_arrive hset
      · exact hset
      · exact setLaw_arrive s.timebase
    · exact he.clockLaw hs ⟨hp, hset, hh⟩
  exact ⟨timeLaw_iff.2 ⟨hk.1, hk.2.1⟩, hk.2.2⟩

end Sys2Proof.Machine
end

section
/-! PROOFS. The pool, the queues and the stacks of the Notice Router: what the events of the Router keep while some records are on the
way from a queue or stack to another place (R94 to R97, R101 to R105, R116, R119 to R127, R131, R132). -/

namespace Sys2Proof.Machine

/-! ### The pool with records between places -/

/-- The law of the pool, with the records of `pend` in use though no stack holds them: they are on the way from a queue or a stack to
another place, or out of the pool. -/
structure Router.PoolWith (r : Router) (pend : List Handle) : Prop where
  queueNodup : ∀ p, (r.queue p).Nodup
  stackNodup : ∀ p, (r.stack p).Nodup
  used : ∀ h, r.notice h ≠ none ↔ ((∃ p, h ∈ r.queue p) ∨ ∃ p, h ∈ r.stack p) ∨ h ∈ pend
  notBoth : ∀ h p q, h ∈ r.queue p → h ∉ r.stack q
  heldOnce : ∀ h p q, h ∈ r.stack p → h ∈ r.stack q → p = q
  broadcastOnce : ∀ h x, r.notice h = some x → x.offer = .broadcast → ∀ p q, h ∈ r.queue p → h ∈ r.queue q → p = q
  pendNodup : pend.Nodup
  pendNotHeld : ∀ h ∈ pend, ∀ q, h ∉ r.stack q
  pendBroadcast : ∀ h ∈ pend, ∀ x, r.notice h = some x → x.offer = .broadcast → ∀ q, h ∉ r.queue q

theorem poolLaw_iff {r : Router} : r.PoolLaw ↔ r.PoolWith [] := by
  constructor
  · rintro ⟨hnd, h⟩
    exact ⟨fun p => (hnd p).1, fun p => (hnd p).2, fun k => by simpa using (h k).1, fun k => (h k).2.1, fun k => (h k).2.2.1,
      fun k => (h k).2.2.2, List.nodup_nil, by simp, by simp⟩
  · intro h
    exact ⟨fun p => ⟨h.queueNodup p, h.stackNodup p⟩, fun k =>
      ⟨by simpa using h.used k, h.notBoth k, h.heldOnce k, h.broadcastOnce k⟩⟩

/-- No queue lists the record. -/
def Router.Unlisted (r : Router) (h : Handle) : Prop := ∀ q, h ∉ r.queue q

/-- No stack holds the record. -/
def Router.Unheld (r : Router) (h : Handle) : Prop := ∀ q, h ∉ r.stack q

section
variable {r r' : Router} {pend : List Handle} {h : Handle}

/-- The law speaks of the pool, the queues and the stacks alone. -/
theorem Router.PoolWith.congr (k : r.PoolWith pend) (hp : r'.pool = r.pool) (hq : r'.queues = r.queues)
    (hs : r'.inService = r.inService) : r'.PoolWith pend := by
  have hn : ∀ h, r'.notice h = r.notice h := fun h => by simp only [Router.notice, hp]
  have hqueue : ∀ p, r'.queue p = r.queue p := fun p => by simp only [Router.queue, hq]
  have hstack : ∀ p, r'.stack p = r.stack p := fun p => by simp only [Router.stack, hs]
  obtain ⟨h1, h2, h3, h4, h5, h6, h7, h8, h9⟩ := k
  exact ⟨by simpa only [hqueue], by simpa only [hstack], by simpa only [hn, hqueue, hstack], by simpa only [hqueue, hstack],
    by simpa only [hstack], by simpa only [hn, hqueue], h7, by simpa only [hstack], by simpa only [hn, hqueue]⟩

theorem Router.PoolWith.in_use (k : r.PoolWith pend) (hm : h ∈ pend) : ∃ x, r.notice h = some x :=
  Option.ne_none_iff_exists'.1 ((k.used h).2 (.inr hm))

theorem Router.PoolWith.free_out (k : r.PoolWith pend) (hn : r.notice h = none) : r.Unlisted h ∧ r.Unheld h ∧ h ∉ pend := by
  have hout := mt (k.used h).2 (not_not.2 hn)
  rw [not_or, not_or] at hout
  exact ⟨fun q hq => hout.1.1 ⟨q, hq⟩, fun q hq => hout.1.2 ⟨q, hq⟩, hout.2⟩

/-! ### Records whose place stands -/

/-- What the laws see of a record: its slot, generation, kind, class and delivery. -/
def Notice.key (x : Notice) : SlotNo × BitVec 16 × NoticeKind × Class × Offer := (x.slot, x.generation, x.kind, x.cls, x.offer)

/-- The Router goes from `r` to `r'` by changes to records that the laws do not see. -/
structure Router.Recast (r r' : Router) : Prop where
  queues : r'.queues = r.queues
  inService : r'.inService = r.inService
  settings : r'.settings = r.settings
  keys : ∀ h, (r'.notice h).map Notice.key = (r.notice h).map Notice.key

theorem recast_refl (r : Router) : r.Recast r := ⟨rfl, rfl, rfl, fun _ => rfl⟩

theorem Router.Recast.trans {r'' : Router} (k : r.Recast r') (k' : r'.Recast r'') : r.Recast r'' :=
  ⟨k'.queues.trans k.queues, k'.inService.trans k.inService, k'.settings.trans k.settings, fun h => (k'.keys h).trans (k.keys h)⟩

theorem recast_setNotice {x y : Notice} (hx : r.notice h = some x) (hk : y.key = x.key) : r.Recast (r.setNotice h (some y)) := by
  refine ⟨rfl, rfl, rfl, fun k => ?_⟩
  rw [setNotice_notice]
  split
  · subst k
    rw [hx, Option.map_some, Option.map_some, hk]
  · rfl

theorem Router.Recast.queue (k : r.Recast r') (p : Port) : r'.queue p = r.queue p := by simp only [Router.queue, k.queues]

theorem Router.Recast.stack (k : r.Recast r') (p : Port) : r'.stack p = r.stack p := by simp only [Router.stack, k.inService]

theorem Router.Recast.setting (k : r.Recast r') (p : Port) : r'.setting p = r.setting p := by
  simp only [Router.setting, k.settings]

theorem Router.Recast.none_iff (k : r.Recast r') (h : Handle) : r'.notice h = none ↔ r.notice h = none := by
  have := k.keys h
  cases hx : r.notice h <;> cases hy : r'.notice h <;> simp_all

/-- A record afterwards was a record with the same key before. -/
theorem Router.Recast.some_of (k : r.Recast r') {y : Notice} (hy : r'.notice h = some y) :
    ∃ x, r.notice h = some x ∧ y.key = x.key := by
  have hk := k.keys h
  rw [hy, Option.map_some] at hk
  obtain ⟨x, hx, he⟩ := Option.map_eq_some_iff.1 hk.symm
  exact ⟨x, hx, he.symm⟩

theorem Router.Recast.classOf (k : r.Recast r') (h : Handle) : r'.classOf h = r.classOf h := by
  cases hy : r'.notice h with
  | none => simp only [Router.classOf, hy, (k.none_iff h).1 hy]
  | some y =>
    obtain ⟨x, hx, he⟩ := k.some_of hy
    obtain ⟨-, -, -, hc, -⟩ : y.slot = x.slot ∧ y.generation = x.generation ∧ y.kind = x.kind ∧ y.cls = x.cls ∧
      y.offer = x.offer := by simpa [Notice.key] using he
    rw [classOf_eq hx, classOf_eq hy, hc]

theorem Router.Recast.pool (k : r.Recast r') (hp : r.PoolWith pend) : r'.PoolWith pend := by
  have broadcast {h : Handle} {y : Notice} (hy : r'.notice h = some y) (hb : y.offer = .broadcast) :
      ∃ x, r.notice h = some x ∧ x.offer = .broadcast := by
    obtain ⟨x, hx, he⟩ := k.some_of hy
    refine ⟨x, hx, ?_⟩
    simp only [Notice.key, Prod.mk.injEq] at he
    rw [← he.2.2.2.2, hb]
  refine ⟨fun p => ?_, fun p => ?_, fun h => ?_, fun h p q => ?_, fun h p q => ?_, fun h y hy hb p q => ?_, hp.pendNodup,
    fun h hm q => ?_, fun h hm y hy hb q => ?_⟩ <;> simp only [k.queue, k.stack]
  · exact hp.queueNodup p
  · exact hp.stackNodup p
  · rw [ne_eq, k.none_iff]
    exact hp.used h
  · exact hp.notBoth h p q
  · exact hp.heldOnce h p q
  · obtain ⟨x, hx, hbx⟩ := broadcast hy hb
    exact hp.broadcastOnce h x hx hbx p q
  · exact hp.pendNotHeld h hm q
  · obtain ⟨x, hx, hbx⟩ := broadcast hy hb
    exact hp.pendBroadcast h hm x hx hbx q

theorem Router.Recast.size (k : r.Recast r') (hs : r.SizeLaw) : r'.SizeLaw := fun p => by
  rw [k.queue, k.stack, k.setting]
  exact hs p

theorem Router.Recast.order (k : r.Recast r') (ho : r.OrderLaw) : r'.OrderLaw := fun p => by
  obtain ⟨hq, hs, hm⟩ := ho p
  simp only [k.queue, k.stack, k.classOf]
  refine ⟨hq, hs, hm.imp fun {a b} hab y z hy hz hsame => ?_⟩
  obtain ⟨y', hy', hey⟩ := k.some_of hy
  obtain ⟨z', hz', hez⟩ := k.some_of hz
  simp only [Notice.key, Prod.mk.injEq] at hey hez
  refine hab y' z' hy' hz' ?_
  rw [← hey.1, ← hey.2.1, ← hey.2.2.1, ← hez.1, ← hez.2.1, ← hez.2.2.1]
  exact hsame

/-! ### Records between places -/

/-- A record that no queue lists and no stack holds may change as it will, as far as the order goes. -/
theorem orderLaw_setNotice (x : Option Notice) (hu : r.Unlisted h) (hh : r.Unheld h) (ho : r.OrderLaw) :
    (r.setNotice h x).OrderLaw := fun p => by
  have hne : ∀ k, k ∈ r.queue p ∨ k ∈ r.stack p → (r.setNotice h x).notice k = r.notice k := fun k hk => by
    rw [setNotice_notice, if_neg]
    rintro rfl
    exact hk.elim (hu p) (hh p)
  obtain ⟨hq, hs, hm⟩ := ho p
  rw [setNotice_queue, setNotice_stack]
  refine ⟨hq.imp_of_mem fun {a b} ha hb hab => ?_, hs.imp_of_mem fun {a b} ha hb hab => ?_,
    hm.imp_of_mem fun {a b} ha hb hab => ?_⟩
  · rw [classOf_congr (hne a (.inl ha)), classOf_congr (hne b (.inl hb))]
    exact hab
  · rw [classOf_congr (hne a (.inr ha)), classOf_congr (hne b (.inr hb))]
    exact hab
  · rw [hne a (.inl ha), hne b (.inl hb)]
    exact hab

/-- A record on its way out of the pool is freed. -/
theorem Router.PoolWith.free (k : r.PoolWith (h :: pend)) (hu : r.Unlisted h) : (r.setNotice h none).PoolWith pend := by
  obtain ⟨hnot, hnd⟩ := List.nodup_cons.1 k.pendNodup
  have hh : r.Unheld h := k.pendNotHeld h (by simp)
  have still {j : Handle} {x : Notice} (hx : (r.setNotice h none).notice j = some x) : r.notice j = some x := by
    rw [setNotice_notice] at hx
    split at hx
    · cases hx
    · exact hx
  refine ⟨k.queueNodup, k.stackNodup, fun j => ?_, k.notBoth, k.heldOnce, fun j x hx => k.broadcastOnce j x (still hx), hnd,
    fun j hj => k.pendNotHeld j (by simp [hj]), fun j hj x hx => k.pendBroadcast j (by simp [hj]) x (still hx)⟩
  simp only [setNotice_notice, setNotice_queue, setNotice_stack]
  split
  · subst j
    simp only [ne_eq, not_true_eq_false, false_iff, not_or, not_exists]
    exact ⟨⟨hu, hh⟩, hnot⟩
  · rw [k.used j, List.mem_cons, or_iff_right (a := j = h) ‹_›]

/-- A record on its way is one that a queue still lists, so it is not on its way after all (R131). -/
theorem Router.PoolWith.stays (k : r.PoolWith (h :: pend)) {q : Port} (hq : h ∈ r.queue q) : r.PoolWith pend := by
  refine ⟨k.queueNodup, k.stackNodup, fun j => (k.used j).trans ?_, k.notBoth, k.heldOnce, k.broadcastOnce,
    (List.nodup_cons.1 k.pendNodup).2, fun j hj => k.pendNotHeld j (by simp [hj]), fun j hj => k.pendBroadcast j (by simp [hj])⟩
  rw [List.mem_cons]
  constructor
  · rintro (hj | rfl | hj)
    · exact .inl hj
    · exact .inl (.inl ⟨q, hq⟩)
    · exact .inr hj
  · exact fun hj => hj.imp_right .inr

/-- A record on its way may get any fields. -/
theorem Router.PoolWith.put (k : r.PoolWith (h :: pend)) (hu : r.Unlisted h) (x : Notice) :
    (r.setNotice h (some x)).PoolWith (h :: pend) := by
  have other {j : Handle} {y : Notice} (hj : j ≠ h) (hy : (r.setNotice h (some x)).notice j = some y) : r.notice j = some y := by
    rwa [setNotice_notice, if_neg hj] at hy
  refine ⟨k.queueNodup, k.stackNodup, fun j => ?_, k.notBoth, k.heldOnce, fun j y hy hb p q hp => ?_, k.pendNodup, k.pendNotHeld,
    fun j hj y hy hb q => ?_⟩
  · simp only [setNotice_notice, setNotice_queue, setNotice_stack]
    split
    · subst j
      simp
    · exact k.used j
  · have hj : j ≠ h := by
      rintro rfl
      exact hu p hp
    exact k.broadcastOnce j y (other hj hy) hb p q hp
  · by_cases hj' : j = h
    · subst j
      exact hu q
    · exact k.pendBroadcast j hj y (other hj' hy) hb q

/-- A free record is taken into use. -/
theorem Router.PoolWith.create (k : r.PoolWith pend) (hn : r.notice h = none) (x : Notice) :
    (r.setNotice h (some x)).PoolWith (h :: pend) := by
  obtain ⟨hu, hh, hout⟩ := k.free_out hn
  have other {j : Handle} {y : Notice} (hj : j ≠ h) (hy : (r.setNotice h (some x)).notice j = some y) : r.notice j = some y := by
    rwa [setNotice_notice, if_neg hj] at hy
  refine ⟨k.queueNodup, k.stackNodup, fun j => ?_, k.notBoth, k.heldOnce, fun j y hy hb p q hp => ?_,
    List.nodup_cons.2 ⟨hout, k.pendNodup⟩, fun j hj q => ?_, fun j hj y hy hb q => ?_⟩
  · simp only [setNotice_notice, setNotice_queue, setNotice_stack]
    split
    · subst j
      simp
    · rw [k.used j, List.mem_cons, or_iff_right (a := j = h) ‹_›]
  · have hj : j ≠ h := by
      rintro rfl
      exact hu p hp
    exact k.broadcastOnce j y (other hj hy) hb p q hp
  · obtain rfl | hj := List.mem_cons.1 hj
    · exact hh q
    · exact k.pendNotHeld j hj q
  · by_cases hj' : j = h
    · subst j
      exact hu q
    · exact k.pendBroadcast j ((List.mem_cons.1 hj).resolve_left hj') y (other hj' hy) hb q

/-! ### Entering queues (R96) -/

theorem mem_of_enters {c : Class} {old new : List Handle} (he : r.Enters c h old new) {k : Handle} : k ∈ new ↔ k = h ∨ k ∈ old := by
  obtain ⟨l₁, l₂, rfl, rfl, -, -⟩ := he
  simp only [List.mem_append, List.mem_cons]
  tauto

theorem length_of_enters {c : Class} {old new : List Handle} (he : r.Enters c h old new) : new.length = old.length + 1 := by
  obtain ⟨l₁, l₂, rfl, rfl, -, -⟩ := he
  simp only [List.length_append, List.length_cons]
  omega

theorem perm_of_enters {c : Class} {old new : List Handle} (he : r.Enters c h old new) : new.Perm (h :: old) := by
  obtain ⟨l₁, l₂, rfl, rfl, -, -⟩ := he
  exact List.perm_middle

/-- A record that enters a queue in order leaves it in order (R96). -/
theorem sorted_of_enters {c : Class} {old new : List Handle} (he : r.Enters c h old new) (hc : r.classOf h = c.val)
    (ho : old.Pairwise fun a b => r.classOf a ≤ r.classOf b) : new.Pairwise fun a b => r.classOf a ≤ r.classOf b := by
  obtain ⟨l₁, l₂, rfl, rfl, h1, h2⟩ := he
  obtain ⟨hl₁, hl₂, hcross⟩ := List.pairwise_append.1 ho
  have behind : ∀ k ∈ l₂, r.classOf h ≤ r.classOf k := fun k hk => by
    cases l₂ with
    | nil => cases hk
    | cons a l =>
      have ha := h2 a rfl
      obtain rfl | hk := List.mem_cons.1 hk
      · omega
      · have := (List.pairwise_cons.1 hl₂).1 k hk
        omega
  refine List.pairwise_append.2 ⟨hl₁, List.pairwise_cons.2 ⟨behind, hl₂⟩, fun a ha b hb => ?_⟩
  obtain rfl | hb := List.mem_cons.1 hb
  · rw [hc]
    exact h1 a ha
  · exact hcross a ha b hb

/-- The queue of `p` lists no record of the slot, generation and kind of `x` (R97). -/
def Router.NoLike (r : Router) (p : Port) (x : Notice) : Prop := ∀ j z, ¬ r.ListsLike p x j z

/-- What a record on its way needs to enter the queues of the ports in `S`, and the queues `queues` in which it stands then. -/
structure Router.EntersAt (r : Router) (h : Handle) (x : Notice) (S : Port → Prop) (queues : Vector (List Handle) 4) : Prop where
  notice : r.notice h = some x
  unlisted : r.Unlisted h
  nonempty : ∃ p, S p
  enters : ∀ p, S p → r.Enters x.cls h (r.queue p) queues[p]
  others : ∀ p, ¬ S p → queues[p] = r.queue p
  room : ∀ p, S p → (r.queue p).length < 16
  noLike : ∀ p, S p → r.NoLike p x
  once : x.offer = .broadcast → ∀ p q, S p → S q → p = q

theorem Router.EntersAt.mem {x : Notice} {S : Port → Prop} {queues : Vector (List Handle) 4} (e : r.EntersAt h x S queues)
    {k : Handle} {p : Port} : k ∈ queues[p] ↔ (k = h ∧ S p) ∨ k ∈ r.queue p := by
  by_cases hp : S p
  · rw [mem_of_enters (e.enters p hp)]
    simp [hp]
  · rw [e.others p hp]
    simp [hp]

theorem Router.PoolWith.enter {x : Notice} {S : Port → Prop} {queues : Vector (List Handle) 4} (k : r.PoolWith (h :: pend))
    (e : r.EntersAt h x S queues) : { r with queues := queues }.PoolWith pend := by
  obtain ⟨hnot, hnd⟩ := List.nodup_cons.1 k.pendNodup
  have hh : r.Unheld h := k.pendNotHeld h (by simp)
  have hmem {j : Handle} {p : Port} : j ∈ { r with queues := queues }.queue p ↔ (j = h ∧ S p) ∨ j ∈ r.queue p := e.mem
  refine ⟨fun p => ?_, k.stackNodup, fun j => (k.used j).trans ?_, fun j p q hj => ?_, k.heldOnce, fun j y hy hb p q hp hq => ?_, hnd,
    fun j hj => k.pendNotHeld j (by simp [hj]), fun j hj y hy hb q hq => ?_⟩
  · have goal : queues[p].Nodup := by
      by_cases hp : S p
      · exact (perm_of_enters (e.enters p hp)).nodup_iff.2 (List.nodup_cons.2 ⟨e.unlisted p, k.queueNodup p⟩)
      · rw [e.others p hp]
        exact k.queueNodup p
    exact goal
  · simp only [hmem, List.mem_cons]
    obtain ⟨p, hp⟩ := e.nonempty
    constructor
    · rintro ((⟨q, hq⟩ | hq) | rfl | hj)
      · exact .inl (.inl ⟨q, .inr hq⟩)
      · exact .inl (.inr hq)
      · exact .inl (.inl ⟨p, .inl ⟨rfl, hp⟩⟩)
      · exact .inr hj
    · rintro ((⟨q, ⟨rfl, -⟩ | hq⟩ | hq) | hj)
      · exact .inr (.inl rfl)
      · exact .inl (.inl ⟨q, hq⟩)
      · exact .inl (.inr hq)
      · exact .inr (.inr hj)
  · obtain ⟨rfl, -⟩ | hj := hmem.1 hj
    · exact hh q
    · exact k.notBoth j p q hj
  · obtain ⟨rfl, hSp⟩ | hp := hmem.1 hp <;> obtain ⟨he, hSq⟩ | hq := hmem.1 hq
    · have hx : r.notice j = some y := hy
      obtain rfl := Option.some.inj (e.notice.symm.trans hx)
      exact e.once hb p q hSp hSq
    · exact absurd hq (e.unlisted q)
    · subst he
      exact absurd hp (e.unlisted p)
    · exact k.broadcastOnce j y hy hb p q hp hq
  · obtain ⟨rfl, -⟩ | hq := hmem.1 hq
    · exact hnot hj
    · exact k.pendBroadcast j (by simp [hj]) y hy hb q hq

theorem Router.EntersAt.size {x : Notice} {S : Port → Prop} {queues : Vector (List Handle) 4} (e : r.EntersAt h x S queues)
    (hs : r.SizeLaw) : { r with queues := queues }.SizeLaw := fun p => by
  have goal : queues[p].length ≤ 16 := by
    by_cases hp : S p
    · rw [length_of_enters (e.enters p hp)]
      exact e.room p hp
    · rw [e.others p hp]
      exact (hs p).1
  exact ⟨goal, (hs p).2⟩

theorem Router.EntersAt.order {x : Notice} {S : Port → Prop} {queues : Vector (List Handle) 4} (e : r.EntersAt h x S queues)
    (ho : r.OrderLaw) : { r with queues := queues }.OrderLaw := fun p => by
  obtain ⟨hq, hs, hm⟩ := ho p
  have goal : queues[p].Pairwise (fun a b => r.classOf a ≤ r.classOf b) ∧
      queues[p].Pairwise fun a b => ∀ y z, r.notice a = some y → r.notice b = some z →
        ¬ (y.slot = z.slot ∧ y.generation = z.generation ∧ y.kind = z.kind) := by
    by_cases hp : S p
    case neg =>
      rw [e.others p hp]
      exact ⟨hq, hm⟩
    case pos =>
      refine ⟨sorted_of_enters (e.enters p hp) (classOf_eq e.notice) hq, ?_⟩
      refine (List.Perm.pairwise_iff ?_ (perm_of_enters (e.enters p hp))).2 (List.pairwise_cons.2 ⟨fun a ha y z hy hz hyz => ?_, hm⟩)
      · rintro a b hab y z hy hz ⟨h1, h2, h3⟩
        exact hab z y hz hy ⟨h1.symm, h2.symm, h3.symm⟩
      · obtain rfl := Option.some.inj (e.notice.symm.trans hy)
        exact e.noLike p hp a z ⟨ha, hz, hyz.1.symm, hyz.2.1.symm, hyz.2.2.symm⟩
  exact ⟨goal.1, hs, goal.2⟩

/-! ### Leaving queues and stacks -/

/-- Entries leave queues: `d` lists the records that are no longer where they were. -/
theorem Router.PoolWith.dequeue {queues : Vector (List Handle) 4} {d : List Handle} (k : r.PoolWith [])
    (hsub : ∀ q : Port, queues[q].Sublist (r.queue q)) (hd : d.Nodup)
    (hmem : ∀ j, (∃ p, j ∈ r.queue p) ↔ (∃ p : Port, j ∈ queues[p]) ∨ j ∈ d)
    (hb : ∀ j ∈ d, ∀ x, r.notice j = some x → x.offer = .broadcast → ∀ q : Port, j ∉ queues[q]) :
    { r with queues := queues }.PoolWith d := by
  have hold {j : Handle} {p : Port} (hj : j ∈ { r with queues := queues }.queue p) : j ∈ r.queue p := (hsub p).subset hj
  refine ⟨fun p => (k.queueNodup p).sublist (hsub p), k.stackNodup, fun j => ?_, fun j p q hj => k.notBoth j p q (hold hj), k.heldOnce,
    fun j x hx hbx p q hp hq => k.broadcastOnce j x hx hbx p q (hold hp) (hold hq), hd, fun j hj => ?_, hb⟩
  · refine (k.used j).trans ?_
    rw [hmem j]
    simp only [List.not_mem_nil, or_false]
    exact or_right_comm
  · obtain ⟨p, hp⟩ := (hmem j).2 (.inr hj)
    exact fun q => k.notBoth j p q hp

theorem sizeLaw_dequeue {queues : Vector (List Handle) 4} (hsub : ∀ q : Port, queues[q].Sublist (r.queue q)) (hs : r.SizeLaw) :
    { r with queues := queues }.SizeLaw := fun p => ⟨(hsub p).length_le.trans (hs p).1, (hs p).2⟩

theorem orderLaw_dequeue {queues : Vector (List Handle) 4} (hsub : ∀ q : Port, queues[q].Sublist (r.queue q)) (ho : r.OrderLaw) :
    { r with queues := queues }.OrderLaw := fun p =>
  ⟨(ho p).1.sublist (hsub p), (ho p).2.1, (ho p).2.2.sublist (hsub p)⟩

/-- p's queue is emptied: its entries are on their way (R131). -/
theorem Router.PoolWith.emptyQueue (k : r.PoolWith []) (p : Port) :
    { r with queues := setAt r.queues p [] }.PoolWith (r.queue p) := by
  have hq : ∀ q : Port, (setAt r.queues p [])[q] = if q = p then [] else r.queue q := fun q => setAt_get _ _ _ _
  refine k.dequeue (fun q => ?_) (k.queueNodup p) (fun j => ?_) fun j hj x hx hb q hjq => ?_
  · rw [hq]
    split
    · exact List.nil_sublist _
    · exact List.Sublist.refl _
  · simp only [hq]
    constructor
    · rintro ⟨q, hj⟩
      by_cases hqp : q = p
      · exact .inr (hqp ▸ hj)
      · exact .inl ⟨q, by rw [if_neg hqp]; exact hj⟩
    · rintro (⟨q, hj⟩ | hj)
      · split at hj
        · cases hj
        · exact ⟨q, hj⟩
      · exact ⟨p, hj⟩
  · rw [hq] at hjq
    split at hjq
    · cases hjq
    · exact absurd (k.broadcastOnce j x hx hb q p hjq hj) ‹_›

/-- Record `h` leaves every queue (R109, R121). -/
theorem Router.PoolWith.withdrawAll (k : r.PoolWith []) {p : Port} (hp : h ∈ r.queue p) :
    (r.withdrawAll h).PoolWith [h] ∧ (r.withdrawAll h).Unlisted h := by
  have hq : ∀ q : Port, (tabulate 4 fun p => without h (r.queue p))[q] = without h (r.queue q) := fun q => tabulate_get _ q
  refine ⟨k.dequeue (fun q => ?_) (List.nodup_singleton h) (fun j => ?_) fun j hj x _ _ q hjq => ?_, fun q hjq => ?_⟩
  · rw [hq]
    exact List.filter_sublist
  · simp only [hq, mem_without, List.mem_singleton]
    constructor
    · rintro ⟨q, hj⟩
      by_cases hjh : j = h
      · exact .inr hjh
      · exact .inl ⟨q, hj, hjh⟩
    · rintro (⟨q, hj, -⟩ | rfl)
      · exact ⟨q, hj⟩
      · exact ⟨p, hp⟩
  · rw [hq, mem_without] at hjq
    exact hjq.2 (List.mem_singleton.1 hj)
  · rw [withdrawAll_queue, mem_without] at hjq
    exact hjq.2 rfl

theorem sizeLaw_withdrawAll (h : Handle) (hs : r.SizeLaw) : (r.withdrawAll h).SizeLaw :=
  sizeLaw_dequeue (fun q => by rw [tabulate_get]; exact List.filter_sublist) hs

theorem orderLaw_withdrawAll (h : Handle) (ho : r.OrderLaw) : (r.withdrawAll h).OrderLaw :=
  orderLaw_dequeue (fun q => by rw [tabulate_get]; exact List.filter_sublist) ho

/-- A BROADCAST record leaves the one queue that lists it (R119). -/
theorem Router.PoolWith.leaveQueue (k : r.PoolWith []) {p : Port} {x : Notice} (hp : h ∈ r.queue p) (hx : r.notice h = some x)
    (hb : x.offer = .broadcast) :
    (r.setQueue p (without h (r.queue p))).PoolWith [h] ∧ (r.setQueue p (without h (r.queue p))).Unlisted h := by
  have hq : ∀ q : Port, (setAt r.queues p (without h (r.queue p)))[q] = if q = p then without h (r.queue p) else r.queue q :=
    fun q => setAt_get _ _ _ _
  have gone : ∀ q : Port, h ∉ (setAt r.queues p (without h (r.queue p)))[q] := fun q hj => by
    rw [hq] at hj
    split at hj
    · exact (mem_without.1 hj).2 rfl
    · exact absurd (k.broadcastOnce h x hx hb q p hj hp) ‹_›
  refine ⟨k.dequeue (fun q => ?_) (List.nodup_singleton h) (fun j => ?_) fun j hj _ _ _ q => ?_, gone⟩
  · rw [hq]
    split
    · subst q
      exact List.filter_sublist
    · exact List.Sublist.refl _
  · simp only [hq, List.mem_singleton]
    constructor
    · rintro ⟨q, hj⟩
      by_cases hjh : j = h
      · exact .inr hjh
      · refine .inl ⟨q, ?_⟩
        split
        · subst q
          exact mem_without.2 ⟨hj, hjh⟩
        · exact hj
    · rintro (⟨q, hj⟩ | rfl)
      · split at hj
        · exact ⟨p, (mem_without.1 hj).1⟩
        · exact ⟨q, hj⟩
      · exact ⟨p, hp⟩
  · obtain rfl := List.mem_singleton.1 hj
    exact gone q

/-- Entries leave p's stack: `d` lists them. -/
theorem Router.PoolWith.unstack {p : Port} {l d : List Handle} (k : r.PoolWith []) (hl : l.Sublist (r.stack p)) (hd : d.Nodup)
    (hmem : ∀ j, j ∈ r.stack p ↔ j ∈ l ∨ j ∈ d) (hdisj : ∀ j ∈ d, j ∉ l) :
    { r with inService := setAt r.inService p l }.PoolWith d ∧ ∀ j ∈ d, r.Unlisted j := by
  have hs : ∀ q : Port, (setAt r.inService p l)[q] = if q = p then l else r.stack q := fun q => setAt_get _ _ _ _
  have hold {j : Handle} {q : Port} (hj : j ∈ { r with inService := setAt r.inService p l }.stack q) : j ∈ r.stack q := by
    have hj' : j ∈ (setAt r.inService p l)[q] := hj
    rw [hs] at hj'
    split at hj'
    · subst q
      exact hl.subset hj'
    · exact hj'
  have free : ∀ j ∈ d, r.Unlisted j := fun j hj q hq => k.notBoth j q p hq ((hmem j).2 (.inr hj))
  refine ⟨⟨k.queueNodup, fun q => ?_, fun j => ?_, fun j a b hj hb => k.notBoth j a b hj (hold hb),
    fun j a b ha hb => k.heldOnce j a b (hold ha) (hold hb), k.broadcastOnce, hd, fun j hj q hq => ?_,
    fun j hj x _ _ => free j hj⟩, free⟩
  · have goal : (setAt r.inService p l)[q].Nodup := by
      rw [hs]
      split
      · exact (k.stackNodup p).sublist hl
      · exact k.stackNodup q
    exact goal
  · refine (k.used j).trans ?_
    have hstack : (∃ q, j ∈ r.stack q) ↔ (∃ q : Port, j ∈ (setAt r.inService p l)[q]) ∨ j ∈ d := by
      simp only [hs]
      constructor
      · rintro ⟨q, hj⟩
        by_cases hqp : q = p
        · subst q
          exact ((hmem j).1 hj).imp_left fun hj => ⟨p, by rw [if_pos rfl]; exact hj⟩
        · exact .inl ⟨q, by rw [if_neg hqp]; exact hj⟩
      · rintro (⟨q, hj⟩ | hj)
        · split at hj
          · exact ⟨p, (hmem j).2 (.inl hj)⟩
          · exact ⟨q, hj⟩
        · exact ⟨p, (hmem j).2 (.inr hj)⟩
    rw [hstack]
    simp only [List.not_mem_nil, or_false]
    exact or_assoc.symm
  · have hqp : q = p := k.heldOnce j q p (hold hq) ((hmem j).2 (.inr hj))
    have hq' : j ∈ (setAt r.inService p l)[q] := hq
    rw [hs, if_pos hqp] at hq'
    exact hdisj j hj hq'

/-- p's stack is emptied (R132). -/
theorem Router.PoolWith.emptyStack (k : r.PoolWith []) (p : Port) :
    { r with inService := setAt r.inService p [] }.PoolWith (r.stack p) ∧ ∀ j ∈ r.stack p, r.Unlisted j :=
  k.unstack (List.nil_sublist _) (k.stackNodup p) (by simp) (by simp)

/-- Record `h` leaves p's stack (R125, R126). -/
theorem Router.PoolWith.leaveStack (k : r.PoolWith []) {p : Port} (hp : h ∈ r.stack p) :
    { r with inService := setAt r.inService p (without h (r.stack p)) }.PoolWith [h] ∧ r.Unlisted h := by
  obtain ⟨hk, hu⟩ := k.unstack (p := p) (l := without h (r.stack p)) (d := [h]) List.filter_sublist (List.nodup_singleton h)
    (fun j => by
      simp only [mem_without, List.mem_singleton]
      by_cases hj : j = h
      · subst j
        simp [hp]
      · simp [hj])
    fun j hj hj' => (mem_without.1 hj').2 (List.mem_singleton.1 hj)
  exact ⟨hk, hu h (by simp)⟩

theorem sizeLaw_unstack {p : Port} {l : List Handle} (hl : l.Sublist (r.stack p)) (hs : r.SizeLaw) :
    { r with inService := setAt r.inService p l }.SizeLaw := fun q => by
  obtain ⟨hq, hst, ha⟩ := hs q
  have goal : (setAt r.inService p l)[q].length ≤ 4 ∧ ((r.setting q).autoDone = true → (setAt r.inService p l)[q] = []) := by
    rw [setAt_get]
    split
    · subst q
      refine ⟨hl.length_le.trans hst, fun h => ?_⟩
      have := ha h
      rw [this] at hl
      exact List.sublist_nil.1 hl
    · exact ⟨hst, ha⟩
  exact ⟨hq, goal⟩

theorem orderLaw_unstack {p : Port} {l : List Handle} (hl : l.Sublist (r.stack p)) (ho : r.OrderLaw) :
    { r with inService := setAt r.inService p l }.OrderLaw := fun q => by
  obtain ⟨hq, hst, hm⟩ := ho q
  have goal : (setAt r.inService p l)[q].Pairwise fun a b => r.classOf a < r.classOf b := by
    rw [setAt_get]
    split
    · subst q
      exact hst.sublist hl
    · exact hst
  exact ⟨hq, goal, hm⟩

/-- A record on its way is taken onto the top of p's stack (R119). -/
theorem Router.PoolWith.push (k : r.PoolWith [h]) (hu : r.Unlisted h) (p : Port) : (r.setStack p (h :: r.stack p)).PoolWith [] := by
  have hh : r.Unheld h := k.pendNotHeld h (by simp)
  have hmem {j : Handle} {q : Port} : j ∈ (r.setStack p (h :: r.stack p)).stack q ↔ (j = h ∧ q = p) ∨ j ∈ r.stack q := by
    rw [setStack_stack]
    split
    · subst q
      simp
    · simp [*]
  refine ⟨k.queueNodup, fun q => ?_, fun j => (k.used j).trans ?_, fun j a b hj hb => ?_, fun j a b ha hb => ?_, k.broadcastOnce,
    List.nodup_nil, by simp, by simp⟩
  · rw [setStack_stack]
    split
    · exact List.nodup_cons.2 ⟨hh p, k.stackNodup p⟩
    · exact k.stackNodup q
  · simp only [hmem, setStack_queue, List.mem_singleton, List.not_mem_nil, or_false]
    constructor
    · rintro ((hq | ⟨q, hj⟩) | rfl)
      · exact .inl hq
      · exact .inr ⟨q, .inr hj⟩
      · exact .inr ⟨p, .inl ⟨rfl, rfl⟩⟩
    · rintro (hq | ⟨q, ⟨rfl, -⟩ | hj⟩)
      · exact .inl (.inl hq)
      · exact .inr rfl
      · exact .inl (.inr ⟨q, hj⟩)
  · obtain ⟨rfl, -⟩ | hb := hmem.1 hb
    · exact hu a hj
    · exact k.notBoth j a b hj hb
  · obtain ⟨he, hap⟩ | ha' := hmem.1 ha <;> obtain ⟨he', hbp⟩ | hb' := hmem.1 hb
    · rw [hap, hbp]
    · exact absurd (he ▸ hb') (hh b)
    · exact absurd (he' ▸ ha') (hh a)
    · exact k.heldOnce j a b ha' hb'

end

end Sys2Proof.Machine
end

section
/-! PROOFS. The Port Unit: how each of its events moves the session and the paths to the blocks, and that each keeps the laws of the
alert line, of the two holders and of the link in reset (R129, R134, R137 to R144, R152 to R160). -/

namespace Sys2Proof.Machine

/-! ### Session ends on a path -/

/-- The message is a session end. -/
def ToBlock.isEnd : ToBlock → Bool
  | .sessionEnd _ => true
  | _ => false

/-- The number of session ends on a path to a block. -/
def endsIn (l : List ToBlock) : Nat := l.countP ToBlock.isEnd

theorem endsIn_append (l l' : List ToBlock) : endsIn (l ++ l') = endsIn l + endsIn l' := List.countP_append

theorem endsIn_pos {l : List ToBlock} : 0 < endsIn l ↔ ∃ e, ToBlock.sessionEnd e ∈ l := by
  rw [endsIn, List.countP_pos_iff]
  constructor
  · rintro ⟨m, hm, he⟩
    cases m with
    | sessionEnd e => exact ⟨e, hm⟩
    | _ => cases he
  · rintro ⟨e, hm⟩
    exact ⟨_, hm, rfl⟩

/-- Every path of the Port Unit gains messages, of which `n` are session ends. -/
def PortUnit.PathsGain (u v : PortUnit) (n : Nat) : Prop := ∀ b, ∃ l, v.path b = u.path b ++ l ∧ endsIn l = n

/-- How an event moves the session, the pending teardowns and the paths (R134, R137, R142). -/
inductive PortUnit.SessionMove (u v : PortUnit) : Prop where
  | stays : v.session = u.session → v.pendingTeardowns = u.pendingTeardowns → u.PathsGain v 0 → u.SessionMove v
  | opens : u.session = .closed → u.pendingTeardowns = 0 → v.session = .opened → v.pendingTeardowns = 0 → u.PathsGain v 0 →
      u.SessionMove v
  | ends : u.session = .opened → v.session = .closed → v.pendingTeardowns = 4 → u.PathsGain v 1 → u.SessionMove v

/-- What an event of the Port Unit that leaves PRSTn alone keeps. -/
structure PortUnit.Goes (u v : PortUnit) : Prop where
  move : u.SessionMove v
  report : v.alertReport = u.alertReport ∨ v.alertReport = AlertReport.quiet
  prst : v.prstLow = u.prstLow
  alert : u.AlertLaw → v.AlertLaw
  holder : u.HolderLaw → v.HolderLaw

section
variable {u v w : PortUnit}

theorem pathsGain_of_eq (h : ∀ b, v.path b = u.path b) : u.PathsGain v 0 := fun b => ⟨[], by rw [h, List.append_nil], rfl⟩

theorem PortUnit.PathsGain.trans {m n : Nat} (h : u.PathsGain v m) (k : v.PathsGain w n) : u.PathsGain w (m + n) := fun b => by
  obtain ⟨l, hl, hm⟩ := h b
  obtain ⟨l', hl', hn⟩ := k b
  exact ⟨l ++ l', by rw [hl', hl, List.append_assoc], by rw [endsIn_append, hm, hn]⟩

/-- An event in which the session stands, followed by another event. -/
theorem PortUnit.SessionMove.after (hs : v.session = u.session) (ht : v.pendingTeardowns = u.pendingTeardowns)
    (hp : u.PathsGain v 0) (k : v.SessionMove w) : u.SessionMove w := by
  cases k with
  | stays hs' ht' hp' => exact .stays (hs'.trans hs) (ht'.trans ht) (hp.trans hp')
  | opens h1 h2 h3 h4 hp' => exact .opens (hs ▸ h1) (ht ▸ h2) h3 h4 (hp.trans hp')
  | ends h1 h2 h3 hp' => exact .ends (hs ▸ h1) h2 h3 (by simpa using hp.trans hp')

/-- An event followed by one in which the session stands. -/
theorem PortUnit.SessionMove.before (k : u.SessionMove v) (hs : w.session = v.session)
    (ht : w.pendingTeardowns = v.pendingTeardowns) (hp : v.PathsGain w 0) : u.SessionMove w := by
  cases k with
  | stays hs' ht' hp' => exact .stays (hs.trans hs') (ht.trans ht') (hp'.trans hp)
  | opens h1 h2 h3 h4 hp' => exact .opens h1 h2 (hs.trans h3) (ht.trans h4) (hp'.trans hp)
  | ends h1 h2 h3 hp' => exact .ends h1 (hs.trans h2) (ht.trans h3) (hp'.trans hp)

/-- Two Port Units that differ in flags, counters, epoch, link and buffers alone. -/
structure PortUnit.Same (u v : PortUnit) : Prop where
  session : v.session = u.session
  pending : v.pendingTeardowns = u.pendingTeardowns
  path : ∀ b, v.path b = u.path b
  executing : v.executing = u.executing
  response : v.response = u.response
  report : v.alertReport = u.alertReport
  line : v.alertLine = u.alertLine
  prst : v.prstLow = u.prstLow

/-- Closes `u.Same v` when `v` is written out as an update of `u`. -/
theorem same_of_fields (h1 : v.session = u.session) (h2 : v.pendingTeardowns = u.pendingTeardowns)
    (p1 : v.toTimebase = u.toTimebase) (p2 : v.toCalendar = u.toCalendar) (p3 : v.toRouter = u.toRouter) (p4 : v.toLine = u.toLine)
    (h3 : v.executing = u.executing) (h4 : v.response = u.response) (h5 : v.alertReport = u.alertReport)
    (h6 : v.alertLine = u.alertLine) (h7 : v.prstLow = u.prstLow) : u.Same v :=
  ⟨h1, h2, fun b => by cases b <;> assumption, h3, h4, h5, h6, h7⟩

theorem PortUnit.Same.alert (h : u.Same v) : u.AlertLaw → v.AlertLaw :=
  (alertLaw_congr h.line h.session h.response h.report).2

theorem PortUnit.Same.holder (h : u.Same v) : u.HolderLaw → v.HolderLaw := by
  intro k
  simpa only [PortUnit.HolderLaw, h.executing, h.response, h.pending, h.session] using k

theorem PortUnit.Same.goes (h : u.Same v) : u.Goes v :=
  ⟨.stays h.session h.pending (pathsGain_of_eq h.path), .inl h.report, h.prst, h.alert, h.holder⟩

theorem PortUnit.Same.then (h : u.Same v) (k : v.Goes w) : u.Goes w :=
  ⟨k.move.after h.session h.pending (pathsGain_of_eq h.path), k.report.imp_left fun e => e.trans h.report, k.prst.trans h.prst,
    fun a => k.alert (h.alert a), fun a => k.holder (h.holder a)⟩

theorem PortUnit.Goes.then_same (k : u.Goes v) (h : v.Same w) : u.Goes w :=
  ⟨k.move.before h.session h.pending (pathsGain_of_eq h.path), k.report.imp h.report.trans h.report.trans, h.prst.trans k.prst,
    fun a => h.alert (k.alert a), fun a => h.holder (k.holder a)⟩

theorem goes_refl (u : PortUnit) : u.Goes u := PortUnit.Same.goes ⟨rfl, rfl, fun _ => rfl, rfl, rfl, rfl, rfl, rfl⟩

/-! ### Holders and responses -/

/-- The laws of a Port Unit whose executing request, if any, does not wait for the session to open. -/
theorem holderLaw_of {x : Option Executing} (hx : v.executing = x) (hone : x = none ∨ v.response = none)
    (ht : v.pendingTeardowns ≤ 4)
    (hw : ∀ y, x = some y → y.work = .waitingOpen → v.session = .closed ∧ 0 < v.pendingTeardowns) : v.HolderLaw := by
  subst hx
  exact ⟨hone, ht, hw⟩

theorem holderLaw_idle (hx : v.executing = none) (ht : v.pendingTeardowns ≤ 4) : v.HolderLaw :=
  holderLaw_of hx (.inl rfl) ht fun y hy => by cases hy

theorem goes_respond (code sequence : Byte) (reply : Reply) : u.Goes (u.respond code sequence reply) :=
  ⟨.stays rfl rfl (pathsGain_of_eq fun b => by cases b <;> rfl), .inl rfl, rfl, fun _ => alertLaw_drive _,
    fun h => holderLaw_idle rfl h.2.1⟩

theorem goes_openNow (code sequence : Byte) (hs : u.session = .closed) (ht : u.pendingTeardowns = 0) :
    u.Goes (u.openNow code sequence) :=
  ⟨.opens hs ht rfl ht (pathsGain_of_eq fun b => by cases b <;> rfl), .inl rfl, rfl, fun _ => alertLaw_drive _,
    fun h => holderLaw_idle rfl h.2.1⟩

/-- The end of a session sends its end on every path (R142). -/
theorem goes_endSession (hs : u.session = .opened) : u.Goes u.endSession := by
  refine ⟨.ends hs ?_ ?_ fun b => ⟨[.sessionEnd u.epoch], ?_, rfl⟩, .inl ?_, ?_, fun _ => alertLaw_drive _, fun h => ?_⟩
  · rw [PortUnit.endSession, sendAll_eq]
    rfl
  · rw [PortUnit.endSession, sendAll_eq]
    rfl
  · rw [PortUnit.endSession, sendAll_eq]
    cases b <;> rfl
  · rw [PortUnit.endSession, sendAll_eq]
    rfl
  · rw [PortUnit.endSession, sendAll_eq]
    rfl
  · rw [PortUnit.endSession, sendAll_eq]
    exact holderLaw_of rfl h.1 le_rfl fun _ _ _ => ⟨rfl, Nat.succ_pos 3⟩

theorem goes_hold (work : Work) (hr : u.response = none)
    (hw : work = .waitingOpen → u.session = .closed ∧ 0 < u.pendingTeardowns) : u.Goes (u.hold work) :=
  ⟨.stays rfl rfl (pathsGain_of_eq fun b => by cases b <;> rfl), .inl rfl, rfl, (alertLaw_congr rfl rfl rfl rfl).2, fun h =>
    holderLaw_of rfl (.inr hr) h.2.1 fun y hy he => by
      obtain rfl := Option.some.inj hy
      exact hw he⟩

/-- A request or a part sent on a path. -/
theorem PortUnit.Goes.send (k : u.Goes v) (b : Block) {m : ToBlock} (hm : m.isEnd = false) : u.Goes (v.send b m) := by
  have gain : v.PathsGain (v.send b m) 0 := fun c => by
    rw [send_path]
    split
    · subst c
      exact ⟨[m], rfl, by rw [endsIn, List.countP_singleton, hm]; rfl⟩
    · exact ⟨[], (List.append_nil _).symm, rfl⟩
  have same : (v.send b m).session = v.session ∧ (v.send b m).pendingTeardowns = v.pendingTeardowns ∧
      (v.send b m).alertReport = v.alertReport ∧ (v.send b m).prstLow = v.prstLow ∧ (v.send b m).executing = v.executing ∧
      (v.send b m).response = v.response ∧ (v.send b m).alertLine = v.alertLine := by
    cases b <;> exact ⟨rfl, rfl, rfl, rfl, rfl, rfl, rfl⟩
  obtain ⟨hs, ht, ha, hp, hx, hr, hl⟩ := same
  exact ⟨k.move.before hs ht gain, k.report.imp ha.trans ha.trans, hp.trans k.prst,
    fun a => (alertLaw_congr hl hs hr ha).2 (k.alert a),
    fun a => by simpa only [PortUnit.HolderLaw, hx, hr, ht, hs] using k.holder a⟩

theorem PortUnit.Goes.sendAll (k : u.Goes v) {m : ToBlock} (hm : m.isEnd = false) : u.Goes (v.sendAll m) :=
  (((k.send .timebase hm).send .calendar hm).send .router hm).send .line hm

/-! ### Frames (R135, R137 to R141, R152 to R154) -/

theorem goes_takeOpen (hr : u.response = none) : u.Goes u.takeOpen := by
  have closed : ¬ u.session = .opened → u.session = .closed := fun h => by cases hs : u.session <;> simp_all
  unfold PortUnit.takeOpen
  split_ifs with hs ht
  · exact goes_respond ..
  · exact goes_openNow _ _ (closed hs) ht
  · exact goes_hold _ hr fun _ => ⟨closed hs, Nat.pos_of_ne_zero ht⟩

theorem goes_takeClose (hs : u.session = .opened) : u.Goes u.takeClose := by
  have k := goes_endSession hs
  unfold PortUnit.takeClose PortUnit.answer
  generalize u.endSession = v at k ⊢
  have h : v.Goes _ := goes_respond v.frameCode v.frameSequence { outcome := .ok, payload := .epoch u.epoch }
  exact ⟨k.move.before rfl rfl (pathsGain_of_eq fun b => by cases b <;> rfl), k.report, k.prst, fun a => h.alert (k.alert a),
    fun a => h.holder (k.holder a)⟩

theorem goes_takePortStatus (hr : u.response = none) : u.Goes u.takePortStatus := by
  unfold PortUnit.takePortStatus
  dsimp only
  refine PortUnit.Goes.sendAll ?_ rfl
  split
  · have cleared : u.Same u.clearCounters := same_of_fields rfl rfl rfl rfl rfl rfl rfl rfl rfl rfl rfl
    exact cleared.then (goes_hold _ hr (by simp))
  · exact goes_hold _ hr (by simp)

theorem goes_passOn (b : Block) (r : Request) (hr : u.response = none) : u.Goes (u.passOn b r) :=
  (goes_hold _ hr (by simp)).send b rfl

/-- A command that passed the checks of R135 is carried out or passed on. -/
theorem goes_carryOut (c : Command) (hr : u.response = none) (hc : u.sessionRefusal c = none) : u.Goes (u.carryOut c) := by
  unfold PortUnit.carryOut
  split
  case h_1 => exact goes_takeOpen hr
  case h_2 =>
    refine goes_takeClose ?_
    cases hs : u.session with
    | opened => rfl
    | closed => simp [PortUnit.sessionRefusal, hs] at hc
  case h_3 => exact goes_takePortStatus hr
  case h_4 =>
    split
    · exact goes_passOn _ _ hr
    · exact goes_refl u

theorem same_linkCount (whole : Bool) : u.Same (PortUnit.linkCount { u with refusedFlag := false } whole) := by
  unfold PortUnit.linkCount
  split_ifs <;> exact same_of_fields rfl rfl rfl rfl rfl rfl rfl rfl rfl rfl rfl

theorem linkCount_epoch (whole : Bool) :
    (PortUnit.linkCount { u with refusedFlag := false } whole).epoch = u.epoch ∧
      (PortUnit.linkCount { u with refusedFlag := false } whole).frameEpoch = u.frameEpoch := by
  unfold PortUnit.linkCount
  split_ifs <;> exact ⟨rfl, rfl⟩

/-- The judgement of a frame (R135, R153, R154). -/
theorem goes_judgeFrame (whole : Bool) : u.Goes (u.judgeFrame whole) := by
  unfold PortUnit.judgeFrame
  split
  case isTrue => exact PortUnit.Same.goes (same_of_fields rfl rfl rfl rfl rfl rfl rfl rfl rfl rfl rfl)
  case isFalse hb =>
    have hr : u.response = none := by
      rw [PortUnit.holdersBusy, Bool.or_eq_true, not_or] at hb
      simpa using hb.2
    have same := same_linkCount (u := u) whole
    obtain ⟨he, hf⟩ := linkCount_epoch (u := u) whole
    generalize PortUnit.linkCount { u with refusedFlag := false } whole = u' at same he hf
    dsimp only
    split
    · exact same.then (goes_respond ..)
    · split
      · exact same.then (goes_respond ..)
      · rename_i c _ _ hc
        refine same.then (goes_carryOut c (same.response.trans hr) ?_)
        rw [← hc]
        unfold PortUnit.sessionRefusal
        simp only [same.session, he, hf]

theorem goes_endFrame : u.Goes u.endFrame := by
  unfold PortUnit.endFrame
  split <;> exact (goes_judgeFrame _).then_same (same_of_fields rfl rfl rfl rfl rfl rfl rfl rfl rfl rfl rfl)

/-! ### The link (R144, R148, R156, R160) -/

theorem goes_consume : u.Goes u.consume :=
  ⟨.stays rfl rfl (pathsGain_of_eq fun b => by cases b <;> rfl), .inl rfl, rfl, fun _ => alertLaw_drive _,
    fun h => ⟨.inr rfl, h.2⟩⟩

theorem goes_receive (b : Byte) : u.Goes (u.receive b) := by
  unfold PortUnit.receive
  split
  · exact goes_refl u
  · split <;> exact PortUnit.Same.goes (same_of_fields rfl rfl rfl rfl rfl rfl rfl rfl rfl rfl rfl)
  · split
    · exact PortUnit.Same.goes (same_of_fields rfl rfl rfl rfl rfl rfl rfl rfl rfl rfl rfl)
    · exact goes_endFrame.then_same (same_of_fields rfl rfl rfl rfl rfl rfl rfl rfl rfl rfl rfl)
    · exact goes_endFrame.then_same (same_of_fields rfl rfl rfl rfl rfl rfl rfl rfl rfl rfl rfl)
  · unfold PortUnit.shiftRead
    split
    · exact goes_consume
    · exact PortUnit.Same.goes (same_of_fields rfl rfl rfl rfl rfl rfl rfl rfl rfl rfl rfl)
  · exact PortUnit.Same.goes (same_of_fields rfl rfl rfl rfl rfl rfl rfl rfl rfl rfl rfl)

theorem goes_deselect : u.Goes u.deselect := by
  unfold PortUnit.deselect
  dsimp only
  split
  · exact goes_endFrame.then_same (same_of_fields rfl rfl rfl rfl rfl rfl rfl rfl rfl rfl rfl)
  · exact (goes_refl u).then_same (same_of_fields rfl rfl rfl rfl rfl rfl rfl rfl rfl rfl rfl)

/-- A port reset, PRSTn apart: an OPEN session ends, and the port is cleared (R144). -/
theorem goes_reset : u.Goes (if u.session = .opened then u.endSession else u).clearPort := by
  have cleared {v : PortUnit} (k : u.Goes v) : u.Goes v.clearPort :=
    ⟨k.move.before rfl rfl (pathsGain_of_eq fun b => by cases b <;> rfl), .inr rfl, k.prst, fun _ => alertLaw_drive _,
      fun h => holderLaw_idle rfl (k.holder h).2.1⟩
  split
  · exact cleared (goes_endSession ‹_›)
  · exact cleared (goes_refl u)

/-- Every event of a Port Unit, PRSTn apart. -/
theorem PortUnit.Event.goes {inReset : Bool} (h : u.Event inReset v) : ∃ v' b, u.Goes v' ∧ v = { v' with prstLow := b } := by
  cases h with
  | select => exact ⟨u.select, u.prstLow, PortUnit.Same.goes (same_of_fields rfl rfl rfl rfl rfl rfl rfl rfl rfl rfl rfl), rfl⟩
  | endFrame => exact ⟨_, _, goes_endFrame, rfl⟩
  | beginRead => exact ⟨u.beginRead, u.prstLow, PortUnit.Same.goes (same_of_fields rfl rfl rfl rfl rfl rfl rfl rfl rfl rfl rfl), rfl⟩
  | consume => exact ⟨_, _, goes_consume, rfl⟩
  | deselect => exact ⟨_, _, goes_deselect, rfl⟩
  | receive b => exact ⟨_, _, goes_receive b, rfl⟩
  | reset => exact ⟨_, true, goes_reset, rfl⟩
  | resetEnd => exact ⟨u, false, goes_refl u, rfl⟩

/-- An event leaves the link of a port in reset idle (R160). -/
theorem PortUnit.Event.link {inReset : Bool} (h : u.Event inReset v) (hu : inReset = true ∨ u.prstLow = true → u.link = .idle) :
    inReset = true ∨ v.prstLow = true → v.link = .idle := by
  intro hv
  cases h with
  | select hi hp => simp [hi, PortUnit.select, hp] at hv
  | endFrame hl =>
    rw [goes_endFrame.prst] at hv
    simp [hl] at hu
    simp [hu] at hv
  | beginRead hl =>
    have := hu hv
    simp [hl] at this
  | consume hl =>
    have := hu hv
    simp [hl] at this
  | deselect => rfl
  | receive b =>
    rw [(goes_receive b).prst] at hv
    have := hu hv
    unfold PortUnit.receive
    rw [this]
    exact this
  | reset => rfl
  | resetEnd =>
    have : inReset = true := by simpa using hv
    exact hu (.inl this)

/-! ### Messages from the blocks (R138, R140, R143, R157, R159) -/

/-- What a message makes of the alert report. -/
theorem take_alertReport (m : FromBlock) :
    (u.take m).alertReport = u.alertReport ∨ ∃ a, m = .alert a ∧ (u.take m).alertReport = a := by
  cases m with
  | outcome m reply =>
    left
    unfold PortUnit.take PortUnit.takeOutcome
    dsimp only
    split
    · split <;> rfl
    · rfl
  | part m report =>
    left
    unfold PortUnit.take PortUnit.takePartReturn
    dsimp only
    split
    · split
      · split
        · split <;> rfl
        · rfl
      · rfl
    · rfl
  | completion =>
    left
    unfold PortUnit.take PortUnit.takeCompletion
    dsimp only
    split
    · split
      · split <;> rfl
      · rfl
    · rfl
  | lostNotice => exact .inl rfl
  | alert a => exact .inr ⟨a, rfl, rfl⟩

theorem goes_takeOutcome (m : Nat) (reply : Reply) : u.Goes (u.takeOutcome m reply) := by
  unfold PortUnit.takeOutcome
  split
  · split
    · exact goes_respond ..
    · exact goes_refl u
  · exact goes_refl u

theorem goes_takePartReturn (m : Nat) (report : PartReport) : u.Goes (u.takePartReturn m report) := by
  unfold PortUnit.takePartReturn
  split
  case h_2 => exact goes_refl u
  case h_1 x hx =>
    split
    case h_2 => exact goes_refl u
    case h_1 g _ =>
      split
      case isFalse => exact goes_refl u
      case isTrue =>
        split
        · exact goes_respond ..
        · refine ⟨.stays rfl rfl (pathsGain_of_eq fun b => by cases b <;> rfl), .inl rfl, rfl, (alertLaw_congr rfl rfl rfl rfl).2,
            fun h => ?_⟩
          refine holderLaw_of rfl (.inr ?_) h.2.1 fun y hy hw => ?_
          · exact h.1.resolve_left (by simp [hx])
          · obtain rfl := Option.some.inj hy
            cases hw

/-- What a message other than a completion makes of the session and the paths: nothing. -/
theorem take_stays {m : FromBlock} (hm : m ≠ .completion) :
    (u.take m).session = u.session ∧ (u.take m).pendingTeardowns = u.pendingTeardowns ∧ (∀ b, (u.take m).path b = u.path b) ∧
      (u.take m).prstLow = u.prstLow ∧ (u.take m).link = u.link := by
  have same {v : PortUnit} (h1 : v.session = u.session) (h2 : v.pendingTeardowns = u.pendingTeardowns)
      (h3 : v.toTimebase = u.toTimebase) (h4 : v.toCalendar = u.toCalendar) (h5 : v.toRouter = u.toRouter)
      (h6 : v.toLine = u.toLine) (h7 : v.prstLow = u.prstLow) (h8 : v.link = u.link) :
      v.session = u.session ∧ v.pendingTeardowns = u.pendingTeardowns ∧ (∀ b, v.path b = u.path b) ∧ v.prstLow = u.prstLow ∧
        v.link = u.link := ⟨h1, h2, fun b => by cases b <;> assumption, h7, h8⟩
  cases m with
  | outcome m reply =>
    unfold PortUnit.take PortUnit.takeOutcome
    dsimp only
    split
    · split <;> exact same rfl rfl rfl rfl rfl rfl rfl rfl
    · exact same rfl rfl rfl rfl rfl rfl rfl rfl
  | part m report =>
    unfold PortUnit.take PortUnit.takePartReturn
    dsimp only
    split
    · split
      · split
        · split <;> exact same rfl rfl rfl rfl rfl rfl rfl rfl
        · exact same rfl rfl rfl rfl rfl rfl rfl rfl
      · exact same rfl rfl rfl rfl rfl rfl rfl rfl
    · exact same rfl rfl rfl rfl rfl rfl rfl rfl
  | completion => exact absurd rfl hm
  | lostNotice => exact same rfl rfl rfl rfl rfl rfl rfl rfl
  | alert a => exact same rfl rfl rfl rfl rfl rfl rfl rfl

/-- What a completion makes of the session: with the last one, a waiting OPEN is carried out (R138, R142). -/
theorem takeCompletion_cases (u : PortUnit) :
    (u.takeCompletion = { u with pendingTeardowns := u.pendingTeardowns - 1 } ∧
        (u.pendingTeardowns - 1 = 0 → ∀ x, u.executing = some x → x.work ≠ .waitingOpen)) ∨
      ∃ x, u.pendingTeardowns - 1 = 0 ∧ u.executing = some x ∧ x.work = .waitingOpen ∧
        u.takeCompletion = PortUnit.openNow { u with pendingTeardowns := u.pendingTeardowns - 1 } x.code x.sequence := by
  unfold PortUnit.takeCompletion
  dsimp only
  split
  case isFalse h => exact .inl ⟨rfl, fun h0 => absurd h0 h⟩
  case isTrue h =>
    split
    case h_2 hx => exact .inl ⟨rfl, fun _ x h => by rw [hx] at h; cases h⟩
    case h_1 x hx =>
      split
      case isTrue hw => exact .inr ⟨x, h, hx, hw, rfl⟩
      case isFalse hw =>
        refine .inl ⟨rfl, fun _ y hy => ?_⟩
        obtain rfl := Option.some.inj (hx.symm.trans hy)
        exact hw

/-- A message keeps the laws of the alert line and of the holders. -/
theorem take_laws (m : FromBlock) (h : u.AlertLaw ∧ u.HolderLaw) : (u.take m).AlertLaw ∧ (u.take m).HolderLaw := by
  obtain ⟨ha, hh⟩ := h
  have of_goes {v : PortUnit} (k : u.Goes v) : v.AlertLaw ∧ v.HolderLaw := ⟨k.alert ha, k.holder hh⟩
  cases m with
  | outcome m reply => exact of_goes (goes_takeOutcome m reply)
  | part m report => exact of_goes (goes_takePartReturn m report)
  | lostNotice => exact of_goes (PortUnit.Same.goes (same_of_fields rfl rfl rfl rfl rfl rfl rfl rfl rfl rfl rfl))
  | alert a => exact ⟨alertLaw_drive _, hh⟩
  | completion =>
    change u.takeCompletion.AlertLaw ∧ u.takeCompletion.HolderLaw
    obtain ⟨he, hnot⟩ | ⟨x, h0, -, -, he⟩ := takeCompletion_cases u <;> rw [he]
    · refine ⟨ha, holderLaw_of rfl hh.1 (Nat.le_trans (Nat.sub_le _ _) hh.2.1) fun y hy hw => ?_⟩
      have hpos : ¬ u.pendingTeardowns - 1 = 0 := fun h0 => hnot h0 y hy hw
      exact ⟨(hh.2.2 y hy hw).1, Nat.pos_of_ne_zero hpos⟩
    · exact ⟨alertLaw_drive _, holderLaw_idle rfl (by rw [PortUnit.openNow, PortUnit.respond]; simp [PortUnit.drive, h0])⟩

end

end Sys2Proof.Machine
end

section
/-! PROOFS. The events of the Notice Router keep its laws: fire requests, purges, service requests and teardowns; with them the sizes in
the alert reports (R94 to R97, R101 to R105, R109, R115, R116, R119 to R127, R131 to R133, R159). -/

namespace Sys2Proof.Machine

/-! ### The laws with records between places -/

/-- The laws of the Router, with the records of `pend` between places. -/
structure Router.Sound (r : Router) (pend : List Handle) : Prop where
  pool : r.PoolWith pend
  size : r.SizeLaw
  order : r.OrderLaw

theorem lawful_iff_routerSound {r : Router} : r.Lawful ↔ r.Sound [] :=
  ⟨fun ⟨hs, hp, ho⟩ => ⟨poolLaw_iff.1 hp, hs, ho⟩, fun ⟨hp, hs, ho⟩ => ⟨hs, poolLaw_iff.2 hp, ho⟩⟩

/-- Two Routers with the same pool, queues, stacks and settings. -/
theorem recast_of_eq {r r' : Router} (hp : r'.pool = r.pool) (hq : r'.queues = r.queues) (hs : r'.inService = r.inService)
    (ht : r'.settings = r.settings) : r.Recast r' :=
  ⟨hq, hs, ht, fun h => by simp only [Router.notice, hp]⟩

section
variable {r r' : Router} {pend : List Handle} {h : Handle} {x : Notice}

theorem Router.Sound.recast (k : r.Sound pend) (c : r.Recast r') : r'.Sound pend := ⟨c.pool k.pool, c.size k.size, c.order k.order⟩

theorem Router.Sound.free (k : r.Sound (h :: pend)) (hu : r.Unlisted h) : (r.freeRecord h).Sound pend :=
  ⟨k.pool.free hu, k.size, orderLaw_setNotice none hu (k.pool.pendNotHeld h (by simp)) k.order⟩

theorem Router.Sound.create (k : r.Sound pend) (hn : r.notice h = none) (x : Notice) :
    (r.setNotice h (some x)).Sound (h :: pend) := by
  obtain ⟨hu, hh, -⟩ := k.pool.free_out hn
  exact ⟨k.pool.create hn x, k.size, orderLaw_setNotice _ hu hh k.order⟩

/-- The record that the laws see at the head of a search for a free handle. -/
theorem lowestFree_free (hl : r.lowestFree = some h) : r.notice h = none := by
  simpa using List.find?_some (p := fun h => (r.notice h).isNone) hl

/-- A record on its way enters the queues of ports that have room and list none like it. -/
theorem entersAt_enterAll {l : List Port} (hl : l.Nodup) (hne : l ≠ []) (hx : r.notice h = some x) (hu : r.Unlisted h)
    (hroom : ∀ q ∈ l, (r.queue q).length < 16) (hlike : ∀ q ∈ l, r.NoLike q x)
    (honce : x.offer = .broadcast → ∀ p ∈ l, ∀ q ∈ l, p = q) :
    ∃ queues, r.enterAll h l = { r with queues := queues } ∧ r.EntersAt h x (· ∈ l) queues := by
  obtain ⟨queues, he, hq⟩ := enterAll_spec h l r hl
  refine ⟨queues, he, hx, hu, List.exists_mem_of_ne_nil l hne, fun p hp => ?_, fun p hp => ?_, hroom, hlike,
    fun hb p q hp hq => honce hb p hp q hq⟩
  · rw [hq, if_pos hp]
    exact enters_enterList hx _
  · rw [hq, if_neg hp]

theorem Router.Sound.enterAll {l : List Port} (k : r.Sound (h :: pend)) (hl : l.Nodup) (hne : l ≠ []) (hx : r.notice h = some x)
    (hu : r.Unlisted h) (hroom : ∀ q ∈ l, (r.queue q).length < 16) (hlike : ∀ q ∈ l, r.NoLike q x)
    (honce : x.offer = .broadcast → ∀ p ∈ l, ∀ q ∈ l, p = q) : (r.enterAll h l).Sound pend := by
  obtain ⟨queues, he, e⟩ := entersAt_enterAll hl hne hx hu hroom hlike honce
  rw [he]
  exact ⟨k.pool.enter e, e.size k.size, e.order k.order⟩

/-- A record that no queue lists does not change what queues list. -/
theorem noLike_setNotice {p : Port} {y : Option Notice} (hu : r.Unlisted h) (hl : r.NoLike p x) : (r.setNotice h y).NoLike p x := by
  rintro j z ⟨hj, hz, hs⟩
  rw [setNotice_notice, if_neg] at hz
  · exact hl j z ⟨hj, hz, hs⟩
  · rintro rfl
    exact hu p hj

theorem Router.Recast.noLike {p : Port} (k : r.Recast r') (hl : r.NoLike p x) : r'.NoLike p x := by
  rintro j z ⟨hj, hz, hs⟩
  obtain ⟨y, hy, he⟩ := k.some_of hz
  simp only [Notice.key, Prod.mk.injEq] at he
  rw [k.queue] at hj
  rw [he.1, he.2.1, he.2.2.1] at hs
  exact hl j y ⟨hj, hy, hs⟩

/-! ### Fire requests (R98 to R105) -/

theorem recast_coalesce (h : Handle) (t : Time) (w : Nat) : r.Recast (r.coalesce h t w) := by
  unfold Router.coalesce
  split
  · rename_i x hx
    exact recast_setNotice hx rfl
  · exact recast_refl r

theorem recast_loseCopy (q : FireRequest) (p : Port) : r.Recast (r.loseCopy q p) := recast_of_eq rfl rfl rfl rfl

/-- A record that a fire request makes enters queues that have room and list none like it. -/
theorem Router.Sound.make {q : FireRequest} {l : List Port} (k : r.Sound []) (hf : r.lowestFree = some h) (hl : l.Nodup) (hne : l ≠ [])
    (hroom : ∀ p ∈ l, (r.queue p).length < 16) (hlike : ∀ p ∈ l, r.NoLike p q.record)
    (honce : q.record.offer = .broadcast → ∀ a ∈ l, ∀ b ∈ l, a = b) :
    ((r.setNotice h (some q.record)).enterAll h l).Sound [] := by
  have hn := lowestFree_free hf
  obtain ⟨hu, -, -⟩ := k.pool.free_out hn
  exact (k.create hn q.record).enterAll hl hne (by simp) hu hroom (fun p hp => noLike_setNotice hu (hlike p hp)) honce

/-- The visit of a BROADCAST request to one target (R101). -/
theorem sound_broadcastTo {elig : Port → Bool} {q : FireRequest} {done : List Handle} (p : Port) (k : r.Sound []) :
    (Router.broadcastTo elig q (r, done) p).1.Sound [] := by
  unfold Router.broadcastTo
  dsimp only
  split
  · exact k
  · split
    · split
      · exact k
      · exact k.recast (recast_coalesce ..)
    · rename_i hm
      split
      · exact k.recast (recast_loseCopy q p)
      · rename_i hfull
        split
        · rename_i h hf
          have hlike : r.NoLike p q.record := matchIn_none_like (x := q.record) hm
          have hroom : (r.queue p).length < 16 := not_le.1 fun hle => hfull (queueFull_iff.2 hle)
          exact k.make (l := [p]) hf (List.nodup_singleton p) (by simp) (by simpa using hroom) (by simpa using hlike) (by simp)
        · exact k.recast (recast_of_eq rfl rfl rfl rfl)

theorem sound_broadcast (elig : Port → Bool) (q : FireRequest) (k : r.Sound []) : (r.broadcast elig q).Sound [] :=
  foldl_keeps (P := fun a : Router × List Handle => a.1.Sound []) (fun a p ha => sound_broadcastTo (r := a.1) (done := a.2) p ha) _ k

theorem recast_coalesceAt (q : FireRequest) (p : Port) : r.Recast (Router.coalesceAt q r p) := by
  unfold Router.coalesceAt
  split
  · exact recast_coalesce ..
  · exact recast_refl r

/-- A CLAIM request (R103, R104). -/
theorem sound_claim (elig : Port → Bool) (q : FireRequest) (hq : q.delivery = .claim) (k : r.Sound []) :
    (r.claim elig q).Sound [] := by
  unfold Router.claim
  split
  case h_1 => exact k.recast (recast_coalesce ..)
  case h_2 =>
    have c : r.Recast ((r.served elig q).foldl (Router.coalesceAt q) r) :=
      foldl_keeps (P := fun a => r.Recast a) (fun a p ha => ha.trans (recast_coalesceAt q p)) _ (recast_refl r)
    dsimp only
    generalize (r.served elig q).foldl (Router.coalesceAt q) r = r' at c
    have k' := k.recast c
    split
    · split
      · exact k'.recast (recast_of_eq rfl rfl rfl rfl)
      · exact k'
    · rename_i he
      split
      · rename_i h hf
        have hmem : ∀ p ∈ r.eligibleSet elig q, (r.queue p).length < 16 ∧ r.NoLike p q.record := fun p hp => by
          rw [Router.eligibleSet, List.mem_filter] at hp
          simp only [Bool.and_eq_true, Bool.not_eq_true', Option.isNone_iff_eq_none] at hp
          obtain ⟨-, ⟨-, hfull⟩, hm⟩ := hp
          refine ⟨not_le.1 fun hle => ?_, matchIn_none_like (x := q.record) hm⟩
          rw [queueFull_iff.2 hle] at hfull
          cases hfull
        refine k'.make hf ((List.nodup_finRange 4).filter _) (by simpa using he) (fun p hp => ?_) (fun p hp => c.noLike (hmem p hp).2) ?_
        · rw [c.queue]
          exact (hmem p hp).1
        · intro hb
          simp [FireRequest.record, hq] at hb
      · exact k'.recast (recast_of_eq rfl rfl rfl rfl)

theorem sound_takeFire (elig : Port → Bool) (q : FireRequest) (k : r.Sound []) : (r.takeFire elig q).Sound [] := by
  unfold Router.takeFire
  split
  · exact sound_broadcast elig q k
  · exact sound_claim elig q ‹_› k

/-! ### Purges (R109) -/

theorem isListed_iff : r.isListed h = true ↔ ∃ p, h ∈ r.queue p := by
  simp [Router.isListed]

theorem sound_purgeRecord (n : SlotNo) (g : BitVec 16) (h : Handle) (k : r.Sound []) : (Router.purgeRecord n g r h).Sound [] := by
  unfold Router.purgeRecord
  split
  · split
    · rename_i hl
      rw [Bool.and_eq_true, isListed_iff] at hl
      obtain ⟨-, p, hp⟩ := hl
      obtain ⟨hpool, hu⟩ := k.pool.withdrawAll hp
      exact Router.Sound.free (r := r.withdrawAll h) ⟨hpool, sizeLaw_withdrawAll h k.size, orderLaw_withdrawAll h k.order⟩ hu
    · exact k
  · exact k

theorem sound_purge (n : SlotNo) (g : BitVec 16) (k : r.Sound []) : (r.purge n g).Sound [] :=
  foldl_keeps (P := fun r : Router => r.Sound []) (fun _ h ha => sound_purgeRecord n g h ha) _ k

/-! ### Re-offers (R127) -/

theorem exists_hasPort {ports : PortSet} (h0 : ports ≠ 0) : ∃ q, hasPort ports q = true := by
  by_contra hn
  refine h0 (BitVec.eq_of_getLsbD_eq fun i hi => ?_)
  have := fun q => Bool.eq_false_iff.2 fun h => hn ⟨q, h⟩
  simpa [hasPort] using this ⟨i, hi⟩

/-- What a re-offer that lists the record needs of the queues (R127). -/
theorem Router.Reoffers.entersAt {isOpen : Port → Bool} {ports : PortSet} {queues : Vector (List Handle) 4} (hu : r.Unlisted h)
    (hnone : ∀ q, x.Candidate isOpen q → ∀ j z, ¬ r.ListsLike q x j z) (h0 : ports ≠ 0)
    (hports : ∀ q, hasPort ports q = true ↔ x.Candidate isOpen q ∧ (r.queue q).length < 16)
    (hqueues : ∀ q : Port, (hasPort ports q = true → r.Enters x.cls h (r.queue q) queues[q]) ∧
      (hasPort ports q = false → queues[q] = r.queue q)) :
    (r.setNotice h (some x)).EntersAt h x (fun q => hasPort ports q = true) queues := by
  have hclass : ∀ q, ∀ k ∈ r.queue q, (r.setNotice h (some x)).classOf k = r.classOf k := fun q k hk => by
    refine classOf_congr ?_
    rw [setNotice_notice, if_neg]
    rintro rfl
    exact hu q hk
  refine ⟨by simp, hu, exists_hasPort h0, fun q hq => ?_, fun q hq => (hqueues q).2 (by simpa using hq),
    fun q hq => ((hports q).1 hq).2, fun q hq => noLike_setNotice hu (hnone q ((hports q).1 hq).1), fun hb q _ hq _ => ?_⟩
  · obtain ⟨l₁, l₂, hold, hnew, h1, h2⟩ := (hqueues q).1 hq
    refine ⟨l₁, l₂, hold, hnew, fun k hk => ?_, fun k hk => ?_⟩
    · rw [hclass q k (by rw [hold]; exact List.mem_append_left _ hk)]
      exact h1 k hk
    · rw [hclass q k (by rw [hold]; exact List.mem_append_right _ (List.mem_of_mem_head? hk))]
      exact h2 k hk
  · obtain ⟨⟨offered, declined, ho, -⟩, -⟩ := (hports q).1 hq
    rw [hb] at ho
    cases ho

section
variable {isOpen : Port → Bool} {result : Reoffer}

theorem Router.PoolWith.reoffers (k : r.PoolWith (h :: pend)) (hu : r.Unlisted h) (hr : r.Reoffers isOpen h x r' result) :
    r'.PoolWith pend := by
  cases hr with
  | folded p j y _ hl _ =>
    have c : r.Recast (r.setNotice j (some
        { y with overrun := BitVec.ofNat 8 (min (y.overrun.toNat + (x.overrun.toNat + 1)) 255), redelivered := true })) :=
      recast_setNotice hl.2.1 rfl
    exact ((c.pool k).free hu).congr rfl rfl rfl
  | listed ports queues hnone h0 hports hqueues =>
    exact ((k.put hu x).enter (Router.Reoffers.entersAt hu hnone h0 hports hqueues)).congr rfl rfl rfl
  | undelivered => exact (k.free hu).congr rfl rfl rfl

theorem Router.Reoffers.size (hu : r.Unlisted h) (hs : r.SizeLaw) (hr : r.Reoffers isOpen h x r' result) : r'.SizeLaw := by
  cases hr with
  | folded => exact hs
  | listed ports queues hnone h0 hports hqueues =>
    exact Router.EntersAt.size (r := r.setNotice h (some x)) (Router.Reoffers.entersAt hu hnone h0 hports hqueues) hs
  | undelivered => exact hs

theorem Router.Reoffers.order (hu : r.Unlisted h) (hh : r.Unheld h) (ho : r.OrderLaw) (hr : r.Reoffers isOpen h x r' result) :
    r'.OrderLaw := by
  cases hr with
  | folded p j y _ hl _ =>
    have c : r.Recast (r.setNotice j (some
        { y with overrun := BitVec.ofNat 8 (min (y.overrun.toNat + (x.overrun.toNat + 1)) 255), redelivered := true })) :=
      recast_setNotice hl.2.1 rfl
    exact orderLaw_setNotice (r := r.setNotice j _) none hu hh (c.order ho)
  | listed ports queues hnone h0 hports hqueues =>
    exact Router.EntersAt.order (r := r.setNotice h (some x)) (Router.Reoffers.entersAt hu hnone h0 hports hqueues)
      (orderLaw_setNotice _ hu hh ho)
  | undelivered => exact orderLaw_setNotice none hu hh ho

/-- After a re-offer a queue is as it was, or it is that of a port open for the re-offer, with the record entered. -/
theorem Router.Reoffers.queue (hr : r.Reoffers isOpen h x r' result) (q : Port) :
    r'.queue q = r.queue q ∨ isOpen q = true ∧ r.Enters x.cls h (r.queue q) (r'.queue q) := by
  cases hr with
  | listed ports queues _ _ hports hqueues =>
    cases hp : hasPort ports q
    · exact .inl ((hqueues q).2 hp)
    · obtain ⟨⟨_, _, _, _, _, hopen⟩, -⟩ := (hports q).1 hp
      exact .inr ⟨hopen, (hqueues q).1 hp⟩
  | _ => exact .inl rfl

/-- A re-offer lists no record but the one re-offered. -/
theorem Router.Reoffers.unlisted {j : Handle} (hr : r.Reoffers isOpen h x r' result) (hj : j ≠ h) (hu : r.Unlisted j) :
    r'.Unlisted j := fun q hq => by
  obtain he | ⟨-, he⟩ := hr.queue q
  · rw [he] at hq
    exact hu q hq
  · exact ((mem_of_enters he).1 hq).elim hj (hu q)

/-! ### Teardowns (R131 to R133) -/

theorem abandonEntry_givesUp (hx : r.notice h = some x) : Router.GivesUp h r (r.abandonEntry h) := by
  unfold Router.abandonEntry
  rw [hx]
  dsimp only
  cases ho : x.offer with
  | broadcast => exact .broadcast x hx ho
  | claim offered declined =>
    dsimp only
    split
    case isTrue hl =>
      obtain ⟨q, hq⟩ := isListed_iff.1 hl
      exact .stays x q hx (by simp [ho]) hq
    case isFalse hl => exact .undelivered x hx (by simp [ho]) fun q hq => hl (isListed_iff.2 ⟨q, hq⟩)

theorem Router.PoolWith.givesUp (k : r.PoolWith (h :: pend)) (g : Router.GivesUp h r r') : r'.PoolWith pend := by
  cases g with
  | broadcast x hx hb => exact (k.free (k.pendBroadcast h (by simp) x hx hb)).congr rfl rfl rfl
  | stays x q _ _ hq => exact k.stays hq
  | undelivered x _ _ hu => exact (k.free hu).congr rfl rfl rfl

theorem Router.Sound.givesUp (k : r.Sound (h :: pend)) (g : Router.GivesUp h r r') : r'.Sound pend := by
  refine ⟨k.pool.givesUp g, ?_, ?_⟩
  · cases g <;> exact k.size
  · have hh := k.pool.pendNotHeld h (by simp)
    cases g with
    | broadcast x hx hb => exact orderLaw_setNotice none (k.pool.pendBroadcast h (by simp) x hx hb) hh k.order
    | stays => exact k.order
    | undelivered x _ _ hu => exact orderLaw_setNotice none hu hh k.order

theorem declinedBy_claim {p : Port} {offered declined : PortSet} (ho : x.offer = .claim offered declined) :
    x.declinedBy p = x.givenBackBy p offered declined := by
  simp only [Notice.declinedBy, Notice.givenBackBy, ho]

theorem abandonService_givesBack {p : Port} (hx : r.notice h = some x) (hu : r.Unlisted h) :
    Router.GivesBack isOpen p h r (Router.abandonService isOpen p r h) := by
  unfold Router.abandonService
  rw [hx]
  dsimp only
  cases ho : x.offer with
  | broadcast => exact .broadcast x hx ho
  | claim offered declined =>
    rw [declinedBy_claim ho]
    exact .claim x offered declined _ _ hx ho (reoffer_spec isOpen r h _ hu)

theorem Router.PoolWith.givesBack {p : Port} (k : r.PoolWith (h :: pend)) (hu : r.Unlisted h)
    (g : Router.GivesBack isOpen p h r r') : r'.PoolWith pend := by
  cases g with
  | broadcast x _ _ => exact (k.free hu).congr rfl rfl rfl
  | claim x offered declined _ result _ _ hr => exact k.reoffers hu hr

theorem Router.Sound.givesBack {p : Port} (k : r.Sound (h :: pend)) (hu : r.Unlisted h) (g : Router.GivesBack isOpen p h r r') :
    r'.Sound pend := by
  have hh := k.pool.pendNotHeld h (by simp)
  refine ⟨k.pool.givesBack hu g, ?_, ?_⟩
  · cases g with
    | broadcast => exact k.size
    | claim x offered declined _ result _ _ hr => exact hr.size hu k.size
  · cases g with
    | broadcast => exact orderLaw_setNotice none hu hh k.order
    | claim x offered declined _ result _ _ hr => exact hr.order hu hh k.order

/-- A record given back lists no other. -/
theorem Router.GivesBack.unlisted {p : Port} {j : Handle} (g : Router.GivesBack isOpen p h r r') (hj : j ≠ h) (hu : r.Unlisted j) :
    r'.Unlisted j := by
  cases g with
  | broadcast => exact hu
  | claim x offered declined _ result _ _ hr => exact hr.unlisted hj hu

end

/-- A fold is a chain of the relation that its steps stand in, and keeps what its steps keep. -/
theorem chain_foldl {α β : Type} {R : α → β → β → Prop} {f : β → α → β} {Inv : List α → β → Prop}
    (hstep : ∀ a l b, Inv (a :: l) b → R a b (f b a) ∧ Inv l (f b a)) (l : List α) (b : β) (hb : Inv l b) :
    Chain R l b (l.foldl f b) ∧ Inv [] (l.foldl f b) := by
  induction l generalizing b with
  | nil => exact ⟨.nil b, hb⟩
  | cons a l ih =>
    obtain ⟨hR, hI⟩ := hstep a l b hb
    obtain ⟨hc, hn⟩ := ih _ hI
    exact ⟨.cons a l b _ _ hR hc, hn⟩

/-- The invariant of the second half of a teardown: the records on their way are listed nowhere (R132). -/
def Router.GivingBack (I : Router → List Handle → Prop) (l : List Handle) (r : Router) : Prop := I r l ∧ ∀ j ∈ l, r.Unlisted j

/-- p's queue is given up entry by entry (R131). -/
theorem chain_givesUp (k : r.PoolWith []) (p : Port) :
    Chain Router.GivesUp (r.queue p) { r with queues := setAt r.queues p [] }
        ((r.queue p).foldl Router.abandonEntry { r with queues := setAt r.queues p [] }) ∧
      ((r.queue p).foldl Router.abandonEntry { r with queues := setAt r.queues p [] }).PoolWith [] :=
  chain_foldl (Inv := fun l (r : Router) => r.PoolWith l) (fun a l b hb => by
    obtain ⟨x, hx⟩ := hb.in_use (h := a) (by simp)
    have g := abandonEntry_givesUp hx
    exact ⟨g, hb.givesUp g⟩) _ _ (k.emptyQueue p)

/-- p's stack is given back entry by entry (R132). -/
theorem chain_givesBack (isOpen : Port → Bool) (k : r.PoolWith []) (p : Port) :
    Chain (Router.GivesBack isOpen p) (r.stack p) { r with inService := setAt r.inService p [] }
        ((r.stack p).foldl (Router.abandonService isOpen p) { r with inService := setAt r.inService p [] }) ∧
      ((r.stack p).foldl (Router.abandonService isOpen p) { r with inService := setAt r.inService p [] }).PoolWith [] := by
  obtain ⟨hp, hu⟩ := k.emptyStack p
  obtain ⟨hc, hn, -⟩ := chain_foldl (R := Router.GivesBack isOpen p) (f := Router.abandonService isOpen p)
    (Inv := Router.GivingBack Router.PoolWith) (fun a l b ⟨hb, hul⟩ => by
      obtain ⟨x, hx⟩ := hb.in_use (h := a) (by simp)
      have hua := hul a (by simp)
      have g : Router.GivesBack isOpen p a b _ := abandonService_givesBack hx hua
      refine ⟨g, hb.givesBack hua g, fun j hj => g.unlisted ?_ (hul j (by simp [hj]))⟩
      rintro rfl
      exact (List.nodup_cons.1 hb.pendNodup).1 hj) (r.stack p) { r with inService := setAt r.inService p [] } ⟨hp, hu⟩
  exact ⟨hc, hn⟩

theorem sound_givenUp (k : r.Sound []) (p : Port) :
    ((r.queue p).foldl Router.abandonEntry { r with queues := setAt r.queues p [] }).Sound [] := by
  have hsub : ∀ q : Port, (setAt r.queues p [])[q].Sublist (r.queue q) := fun q => by
    rw [setAt_get]
    split
    · exact List.nil_sublist _
    · exact List.Sublist.refl _
  exact (chain_foldl (R := fun _ _ _ => True) (Inv := fun l (r : Router) => r.Sound l) (fun a l b hb => by
    obtain ⟨x, hx⟩ := hb.pool.in_use (h := a) (by simp)
    exact ⟨trivial, hb.givesUp (abandonEntry_givesUp hx)⟩) _ _
    ⟨k.pool.emptyQueue p, sizeLaw_dequeue hsub k.size, orderLaw_dequeue hsub k.order⟩).2

theorem sound_givenBack (isOpen : Port → Bool) (k : r.Sound []) (p : Port) :
    ((r.stack p).foldl (Router.abandonService isOpen p) { r with inService := setAt r.inService p [] }).Sound [] := by
  obtain ⟨hp, hu⟩ := k.pool.emptyStack p
  have start : Router.Sound { r with inService := setAt r.inService p [] } (r.stack p) :=
    ⟨hp, sizeLaw_unstack (List.nil_sublist _) k.size, orderLaw_unstack (List.nil_sublist _) k.order⟩
  exact (chain_foldl (R := fun _ _ _ => True) (f := Router.abandonService isOpen p)
    (Inv := Router.GivingBack Router.Sound) (fun a l b ⟨hb, hul⟩ => by
      obtain ⟨x, hx⟩ := hb.pool.in_use (h := a) (by simp)
      have hua := hul a (by simp)
      have g : Router.GivesBack isOpen p a b _ := abandonService_givesBack hx hua
      refine ⟨trivial, hb.givesBack hua g, fun j hj => g.unlisted ?_ (hul j (by simp [hj]))⟩
      rintro rfl
      exact (List.nodup_cons.1 hb.pool.pendNodup).1 hj) (r.stack p) _ ⟨start, hu⟩).2.1

/-- New settings, under which the stack is empty if they ask for auto-done (R116). -/
theorem Router.Sound.setSetting (k : r.Sound pend) {p : Port} {y : ServiceSettings} (hy : y.autoDone = true → r.stack p = []) :
    (r.setSetting p y).Sound pend := by
  refine ⟨k.pool.congr rfl rfl rfl, fun q => ?_, k.order⟩
  obtain ⟨hq, hs, ha⟩ := k.size q
  refine ⟨hq, hs, ?_⟩
  rw [setSetting_setting, setSetting_stack]
  split
  · subst q
    exact hy
  · exact ha

theorem sound_tearDown (isOpen : Port → Bool) (p : Port) (k : r.Sound []) : (r.tearDown isOpen p).Sound [] :=
  (sound_givenBack isOpen (sound_givenUp k p) p).setSetting (by simp [ServiceSettings.defaults])

/-! ### Service requests (R115, R119 to R127) -/

theorem sound_serviceSet {p : Port} (mask a l : Byte) (isOpen : Port → Bool) (k : r.Sound []) :
    (r.serviceSet p mask a l isOpen).1.Sound [] := by
  unfold Router.serviceSet
  split
  · split
    · exact k
    · rename_i a' _ _ _ hs
      refine k.setSetting fun ha : a' = true => ?_
      simpa [ha] using hs
  · exact k

/-- The fetchable notice stands in the queue, above the stack, and the stack has room for it or needs none (R117). -/
theorem fetchable_ok {p : Port} (hf : r.fetchable p = .ok h) : h ∈ r.queue p ∧ r.aboveTop p h = true ∧ r.hasRoom p = true := by
  unfold Router.fetchable at hf
  split at hf
  · cases hf
  · split at hf
    · cases hf
    · rename_i hfind
      split_ifs at hf with h1 h2
      cases hf
      exact ⟨List.mem_of_find?_eq_some hfind, by simpa using h1, by simpa using h2⟩

/-- The record that is fetched leaves the queues (R119, R121). -/
theorem sound_unqueue {p : Port} (k : r.Sound []) (hp : h ∈ r.queue p) (hx : r.notice h = some x) :
    (r.unqueue p h x).Sound [h] ∧ (r.unqueue p h x).Unlisted h := by
  unfold Router.unqueue Offer.delivery
  cases hb : x.offer with
  | broadcast =>
    obtain ⟨hpool, hu⟩ := k.pool.leaveQueue hp hx hb
    have hsub : ∀ q : Port, (setAt r.queues p (without h (r.queue p)))[q].Sublist (r.queue q) := fun q => by
      rw [setAt_get]
      split
      · subst q
        exact List.filter_sublist
      · exact List.Sublist.refl _
    exact ⟨⟨hpool, sizeLaw_dequeue hsub k.size, orderLaw_dequeue hsub k.order⟩, hu⟩
  | claim offered declined =>
    obtain ⟨hpool, hu⟩ := k.pool.withdrawAll hp
    exact ⟨⟨hpool, sizeLaw_withdrawAll h k.size, orderLaw_withdrawAll h k.order⟩, hu⟩

theorem unqueue_keeps (r : Router) (p : Port) (h : Handle) (x : Notice) :
    (r.unqueue p h x).inService = r.inService ∧ (r.unqueue p h x).settings = r.settings ∧ (r.unqueue p h x).pool = r.pool ∧
      (r.unqueue p h x).back = r.back ∧ (r.unqueue p h x).toCalendar = r.toCalendar ∧
      (r.unqueue p h x).poolExhausted = r.poolExhausted := by
  unfold Router.unqueue
  split <;> exact ⟨rfl, rfl, rfl, rfl, rfl, rfl⟩

/-- A record more urgent than the top of a stack in order is more urgent than every entry (R116). -/
theorem aboveTop_all {p : Port} (ho : r.OrderLaw) (ha : r.aboveTop p h = true) : ∀ k ∈ r.stack p, r.classOf h < r.classOf k := by
  have hs := (ho p).2.1
  unfold Router.aboveTop at ha
  cases hl : r.stack p with
  | nil => simp
  | cons top l =>
    rw [hl] at hs ha
    have htop : r.classOf h < r.classOf top := of_decide_eq_true ha
    intro k hk
    obtain rfl | hk := List.mem_cons.1 hk
    · exact htop
    · exact htop.trans ((List.pairwise_cons.1 hs).1 k hk)

/-- A record on its way is taken onto p's stack. -/
theorem Router.Sound.push {p : Port} (k : r.Sound [h]) (hu : r.Unlisted h) (habove : ∀ j ∈ r.stack p, r.classOf h < r.classOf j)
    (hroom : (r.stack p).length < 4) (ha : (r.setting p).autoDone = false) : (r.setStack p (h :: r.stack p)).Sound [] := by
  refine ⟨k.pool.push hu p, fun q => ?_, fun q => ?_⟩
  · obtain ⟨hq, hs, hauto⟩ := k.size q
    refine ⟨hq, ?_⟩
    rw [setStack_stack, setStack_setting]
    split
    · subst q
      exact ⟨hroom, fun h => by rw [ha] at h; cases h⟩
    · exact ⟨hs, hauto⟩
  · obtain ⟨hq, hs, hm⟩ := k.order q
    refine ⟨hq, ?_, hm⟩
    rw [setStack_stack]
    split
    · subst q
      exact List.pairwise_cons.2 ⟨habove, hs⟩
    · exact hs

theorem sound_fetch {p : Port} (isOpen : Port → Bool) (k : r.Sound []) : (r.fetch p isOpen).1.Sound [] := by
  unfold Router.fetch
  split
  case h_1 => exact k
  case h_2 h hf =>
    split
    case h_1 => exact k
    case h_2 x hx =>
      obtain ⟨hp, habove, hroom⟩ := fetchable_ok hf
      obtain ⟨k', hu⟩ := sound_unqueue k hp hx
      obtain ⟨hs, ht, hpool, -⟩ := unqueue_keeps r p h x
      have hall := aboveTop_all k.order habove
      generalize r.unqueue p h x = r₁ at *
      have hstack : r₁.stack p = r.stack p := by simp only [Router.stack, hs]
      have hclass : ∀ j, r₁.classOf j = r.classOf j := fun j => classOf_congr (by simp only [Router.notice, hpool])
      dsimp only
      split
      case isTrue => exact k'.free hu
      case isFalse ha =>
        have hroom' : (r.stack p).length < 4 := by
          rw [Router.hasRoom, Bool.or_eq_true, decide_eq_true_iff] at hroom
          exact hroom.resolve_right ha
        refine k'.push hu ?_ (by rw [hstack]; exact hroom') ?_
        · rw [hstack]
          simpa only [hclass] using hall
        · have : r₁.setting p = r.setting p := by simp only [Router.setting, ht]
          rw [this]
          simpa using ha

/-- The notice that a DONE goes on with stands in p's stack (R124, R125). -/
theorem noticeToComplete_ok {p : Port} {b : Byte} (hn : r.noticeToComplete p b = .ok h) : h ∈ r.stack p := by
  unfold Router.noticeToComplete at hn
  split at hn
  · split at hn
    · cases hn
    · cases hn
      simp [*]
  · split at hn
    · cases hn
    · split at hn
      · cases hn
        assumption
      · cases hn

/-- Record `h` leaves p's stack. -/
theorem sound_leaveStack {p : Port} (k : r.Sound []) (hp : h ∈ r.stack p) :
    (r.setStack p (without h (r.stack p))).Sound [h] ∧ r.Unlisted h := by
  obtain ⟨hpool, hu⟩ := k.pool.leaveStack hp
  exact ⟨⟨hpool, sizeLaw_unstack List.filter_sublist k.size, orderLaw_unstack List.filter_sublist k.order⟩, hu⟩

theorem sound_complete {p : Port} (b : Byte) (isOpen : Port → Bool) (k : r.Sound []) : (r.complete p b isOpen).1.Sound [] := by
  unfold Router.complete
  split
  · exact k
  · rename_i h hn
    split
    · exact k
    · obtain ⟨k', hu⟩ := sound_leaveStack k (noticeToComplete_ok hn)
      exact k'.free hu

theorem sound_decline {p : Port} (b : Byte) (isOpen : Port → Bool) (k : r.Sound []) : (r.decline p b isOpen).1.Sound [] := by
  unfold Router.decline
  split
  · exact k
  · split
    · rename_i h _ hp
      split
      · exact k
      · split
        · exact k
        · obtain ⟨k', hu⟩ := sound_leaveStack k hp
          rename_i x _ _ _
          have hu' : (r.setStack p (without h (r.stack p))).Unlisted h := hu
          have hr := reoffer_spec isOpen (r.setStack p (without h (r.stack p))) h (x.declinedBy p) hu'
          exact ⟨k'.pool.reoffers hu' hr, hr.size hu' k'.size, hr.order hu' (k'.pool.pendNotHeld h (by simp)) k'.order⟩
    · exact k

/-- A service request keeps the laws. -/
theorem sound_onRouter {p : Port} (q : Request) (isOpen : Port → Bool) (k : r.Sound []) : (q.onRouter p isOpen r).1.Sound [] := by
  cases q with
  | serviceSet mask a l => exact sound_serviceSet mask a l isOpen k
  | fetch => exact sound_fetch isOpen k
  | peek =>
    change (r.peek p isOpen).1.Sound []
    unfold Router.peek
    split
    · exact k
    · split <;> exact k
  | done b => exact sound_complete b isOpen k
  | decline b => exact sound_decline b isOpen k
  | _ => exact k

end

/-! ### What stands on the paths back -/

/-- A path back gains lost-notice reports alone. -/
def LosesOn (back back' : Vector (List FromBlock) 4) : Prop :=
  ∀ p : Port, ∃ k, back'[p] = back[p] ++ List.replicate k FromBlock.lostNotice

theorem losesOn_refl (back : Vector (List FromBlock) 4) : LosesOn back back := fun p => ⟨0, by simp⟩

theorem LosesOn.trans {a b c : Vector (List FromBlock) 4} (h : LosesOn a b) (k : LosesOn b c) : LosesOn a c := fun p => by
  obtain ⟨m, hm⟩ := h p
  obtain ⟨n, hn⟩ := k p
  exact ⟨m + n, by rw [hn, hm, List.append_assoc, List.replicate_append_replicate]⟩

section
variable {r : Router} {h : Handle} {x : Notice}

theorem coalesce_back (h : Handle) (t : Time) (w : Nat) : (r.coalesce h t w).back = r.back := by
  unfold Router.coalesce
  split <;> rfl

theorem enterAll_back (h : Handle) (l : List Port) : (r.enterAll h l).back = r.back :=
  foldl_keeps (P := fun a : Router => a.back = r.back) (f := fun r p => r.enter p h) (fun _ _ ha => ha) l rfl

theorem losesOn_loseCopy (q : FireRequest) (p : Port) : LosesOn r.back (r.loseCopy q p).back := fun k => by
  have : (r.loseCopy q p).back[k] = if k = p then r.back[p] ++ [.lostNotice] else r.back[k] := sendBack_get r.back p k _
  rw [this]
  split
  · subst k
    exact ⟨1, rfl⟩
  · exact ⟨0, by simp⟩

theorem losesOn_broadcastTo {elig : Port → Bool} {q : FireRequest} (a : Router × List Handle) (p : Port) :
    LosesOn a.1.back (Router.broadcastTo elig q a p).1.back := by
  unfold Router.broadcastTo
  dsimp only
  split
  · exact losesOn_refl _
  · split
    · split
      · exact losesOn_refl _
      · rw [coalesce_back]
        exact losesOn_refl _
    · split
      · exact losesOn_loseCopy q p
      · split
        · exact losesOn_refl _
        · exact losesOn_loseCopy q p

theorem losesOn_takeFire (elig : Port → Bool) (q : FireRequest) : LosesOn r.back (r.takeFire elig q).back := by
  unfold Router.takeFire
  split
  · exact foldl_keeps (P := fun a : Router × List Handle => LosesOn r.back a.1.back)
      (fun a p ha => ha.trans (losesOn_broadcastTo a p)) _ (losesOn_refl r.back)
  · have served : ((r.served elig q).foldl (Router.coalesceAt q) r).back = r.back :=
      foldl_keeps (P := fun a : Router => a.back = r.back) (fun a p ha => by
        unfold Router.coalesceAt
        split
        · rw [coalesce_back, ha]
        · exact ha) _ rfl
    have same : (r.claim elig q).back = r.back := by
      unfold Router.claim
      split
      · exact coalesce_back ..
      · dsimp only
        generalize (r.served elig q).foldl (Router.coalesceAt q) r = r' at served
        split
        · split <;> exact served
        · split
          · rw [enterAll_back]
            exact served
          · exact served
    rw [same]
    exact losesOn_refl _

theorem purge_back (n : SlotNo) (g : BitVec 16) : (r.purge n g).back = r.back :=
  foldl_keeps (P := fun a : Router => a.back = r.back) (fun a h ha => by
    unfold Router.purgeRecord
    split
    · split <;> exact ha
    · exact ha) _ rfl

theorem reoffer_back (elig : Port → Bool) (h : Handle) (x : Notice) : (r.reoffer elig h x).1.back = r.back := by
  unfold Router.reoffer
  dsimp only
  split
  · split <;> rfl
  · split
    · rfl
    · exact enterAll_back ..

theorem tearDown_back (elig : Port → Bool) (p : Port) : (r.tearDown elig p).back = r.back := by
  have given (r : Router) (l : List Handle) : (l.foldl Router.abandonEntry r).back = r.back :=
    foldl_keeps (P := fun a : Router => a.back = r.back) (fun a h ha => by
      unfold Router.abandonEntry
      split
      · split
        · exact ha
        · split <;> exact ha
      · exact ha) _ rfl
  have back (r : Router) (l : List Handle) : (l.foldl (Router.abandonService elig p) r).back = r.back :=
    foldl_keeps (P := fun a : Router => a.back = r.back) (fun a h ha => by
      unfold Router.abandonService
      split
      · split
        · exact ha
        · rw [reoffer_back, ha]
      · exact ha) _ rfl
  exact (back ..).trans (given ..)

/-- A service request sends nothing of its own before its outcome. -/
theorem onRouter_back (q : Request) (p : Port) (isOpen : Port → Bool) : (q.onRouter p isOpen r).1.back = r.back := by
  cases q with
  | serviceSet mask a l =>
    change (r.serviceSet p mask a l isOpen).1.back = _
    unfold Router.serviceSet
    split
    · split <;> rfl
    · rfl
  | fetch =>
    change (r.fetch p isOpen).1.back = _
    unfold Router.fetch
    split
    · rfl
    · split
      · rfl
      · obtain ⟨-, -, -, hb, -⟩ := unqueue_keeps r p ‹_› ‹_›
        dsimp only
        split <;> exact hb
  | peek =>
    change (r.peek p isOpen).1.back = _
    unfold Router.peek
    split
    · rfl
    · split <;> rfl
  | done b =>
    change (r.complete p b isOpen).1.back = _
    unfold Router.complete
    split
    · rfl
    · split <;> rfl
  | decline b =>
    change (r.decline p b isOpen).1.back = _
    unfold Router.decline
    split
    · rfl
    · split
      · split
        · rfl
        · split
          · rfl
          · exact reoffer_back ..
      · rfl
  | _ => rfl

/-! ### Alert reports (R130, R159) -/

/-- Every alert report on its way from the Router is sized. -/
def Router.ReportsSized (r : Router) : Prop := ∀ (p : Port) (a : AlertReport), FromBlock.alert a ∈ r.back[p] → a.Sized

theorem alertOf_sized (hs : r.SizeLaw) (p : Port) : (r.alertOf p).Sized := ⟨(hs p).1, (hs p).2.1⟩

/-- An event that leaves the Router lawful keeps the reports sized. -/
theorem reportsSized_reportFrom {old : Router} (folds : Bool) (always : Option Port) (hs : r.SizeLaw)
    (hb : LosesOn old.back r.back) (ho : old.ReportsSized) : (Router.reportFrom old folds always r).ReportsSized := by
  obtain ⟨back, he, hback⟩ := reportFrom_spec old r folds always
  rw [he]
  intro p a ha
  have ha' : FromBlock.alert a ∈ back[p] := ha
  rw [hback, List.mem_append] at ha'
  obtain ha' | ha' := ha'
  · obtain ⟨k, hk⟩ := hb p
    rw [hk, List.mem_append, List.mem_replicate] at ha'
    obtain ha' | ⟨-, ha'⟩ := ha'
    · exact ho p a ha'
    · cases ha'
  · split at ha'
    · obtain rfl := FromBlock.alert.inj (List.mem_singleton.1 ha')
      exact alertOf_sized hs p
    · cases ha'

theorem reportsSized_send {p : Port} {m : FromBlock} (hm : ∀ a, m ≠ .alert a) (h : r.ReportsSized) : (r.send p m).ReportsSized := by
  intro q a ha
  have ha' : FromBlock.alert a ∈ (sendBack r.back p m)[q] := ha
  rw [sendBack_get] at ha'
  split at ha'
  · rw [List.mem_append, List.mem_singleton] at ha'
    exact h p a (ha'.resolve_right fun he => hm a he.symm)
  · exact h q a ha'

theorem reportFrom_sound {old : Router} (folds : Bool) (always : Option Port) (k : r.Sound []) :
    (Router.reportFrom old folds always r).Sound [] := by
  obtain ⟨back, he, -⟩ := reportFrom_spec old r folds always
  rw [he]
  exact k.recast (recast_of_eq rfl rfl rfl rfl)

end

/-! ### Every step -/

section
variable {s t : State}

theorem sound_initialRouter : Router.initial.Sound [] := by
  refine ⟨⟨?_, ?_, ?_, ?_, ?_, ?_, List.nodup_nil, by simp, by simp⟩, fun p => ?_, fun p => ?_⟩
  all_goals simp [ServiceSettings.defaults]

theorem Effect.routerSound (h : Effect s t) (k : s.router.Sound []) : t.router.Sound [] := by
  have sent {r : Router} {p : Port} {m : FromBlock} (hr : r.Sound []) : (r.send p m).Sound [] :=
    hr.recast (recast_of_eq rfl rfl rfl rfl)
  cases h with
  | powerOn => exact sound_initialRouter
  | deviceReset => exact sound_initialRouter
  | message b p m rest =>
    rw [setPort_router, setBack_router]
    exact k.recast (recast_of_eq rfl rfl rfl rfl)
  | part b p m rest =>
    rw [setBack_router]
    exact k.recast (recast_of_eq rfl rfl rfl rfl)
  | stale b p m e r rest =>
    rw [State.refuses, setBack_router]
    exact k.recast (recast_of_eq rfl rfl rfl rfl)
  | atRouter p m e r rest => exact sent (reportFrom_sound true none (sound_onRouter r s.isOpen k))
  | routerEnd p e rest u _ hu =>
    subst hu
    exact sent (reportFrom_sound true (some p) (sound_tearDown _ p k))
  | count => exact k.recast (recast_of_eq rfl rfl rfl rfl)
  | fireRequest q rest => exact reportFrom_sound false none (sound_takeFire (s.eligible q) q k)
  | purgeRequest n g rest => exact reportFrom_sound false none (sound_purge n g k)
  | _ => exact k

/-- The reports that the Port Units hold, and those on their way. -/
theorem reportLaw_iff : s.ReportLaw ↔ (∀ p, (s.port p).alertReport.Sized) ∧ s.router.ReportsSized :=
  ⟨fun h => ⟨fun p => (h p).1, fun p => (h p).2⟩, fun h p => ⟨h.1 p, h.2 p⟩⟩

theorem quiet_sized : AlertReport.quiet.Sized := ⟨Nat.zero_le _, Nat.zero_le _⟩

/-- The report that a Port Unit holds after an effect is the one it held, a quiet one, or one that was on its way to it. -/
theorem Effect.alertReport (h : Effect s t) (p : Port) :
    (t.port p).alertReport = (s.port p).alertReport ∨ (t.port p).alertReport = AlertReport.quiet ∨
      FromBlock.alert (t.port p).alertReport ∈ s.router.back[p] := by
  have same {u v : State} (hp : v.ports = u.ports) : (v.port p).alertReport = (u.port p).alertReport := by
    simp only [State.port, hp]
  have taken (b : Block) (q : Port) (rest : List ToBlock) :
      ((s.afterTaking b q rest).port p).alertReport = (s.port p).alertReport := by
    rw [State.afterTaking, setPort_port]
    split
    · subst p
      exact setPath_alertReport ..
    · rfl
  cases h with
  | powerOn => exact .inr (.inl (by rw [reset_port]; rfl))
  | deviceReset =>
    right; left
    have : (State.deviceReset { s with rstnLows := s.rstnLows + 1 }).port p = (s.port p).deviceReset := tabulate_get _ p
    rw [this]
    rfl
  | atPort q u hu =>
    rw [setPort_port]
    split
    · subst p
      obtain ⟨v, b, k, rfl⟩ := hu.goes
      exact k.report.imp id .inl
    · exact .inl rfl
  | message b q m rest hm hb =>
    rw [setPort_port]
    split
    · subst p
      obtain he | ⟨a, rfl, he⟩ := take_alertReport (u := s.port q) m
      · exact .inl he
      · obtain rfl := hb ⟨a, rfl⟩
        have hm' : s.router.back[q] = .alert a :: rest := hm
        exact .inr (.inr (by rw [he, hm']; exact List.mem_cons_self))
    · exact .inl (by rw [setBack_port])
  | part b q m rest => exact .inl (by rw [setBack_port]; exact taken b q rest)
  | stale b q m e r rest => exact .inl (by rw [State.refuses, setBack_port]; exact taken b q rest)
  | routerEnd q e rest u _ hu => subst hu; exact .inl (taken .router q rest)
  | atTimebase q m e r rest => exact .inl (taken .timebase q rest)
  | atCalendar q m e r rest => exact .inl (taken .calendar q rest)
  | atRouter q m e r rest => exact .inl (taken .router q rest)
  | atLine q m e r rest => exact .inl (taken .line q rest)
  | timebaseEnd q e rest => exact .inl (taken .timebase q rest)
  | calendarEnd q e rest =>
    generalize (s.calendar.endSession q s.timebase.toCalendar.length).send q .completion = c
    exact .inl (taken .calendar q rest)
  | lineEnd q e rest => exact .inl (taken .line q rest)
  | _ => exact .inl (same rfl)

theorem Effect.reportLaw (h : Effect s t) (k : s.router.Sound []) (hr : s.ReportLaw) : t.ReportLaw := by
  obtain ⟨hp, hb⟩ := reportLaw_iff.1 hr
  refine reportLaw_iff.2 ⟨fun p => ?_, ?_⟩
  · obtain he | he | he := h.alertReport p
    · rw [he]
      exact hp p
    · rw [he]
      exact quiet_sized
    · exact hb p _ he
  · have emptied : ∀ r : Router, r.back = Vector.replicate 4 [] → r.ReportsSized := fun r he q a ha => by
      simp [he] at ha
    have ended {v : State} {b : Block} {p : Port} {m : FromBlock} (hm : ∀ a, m ≠ .alert a) (hv : v.router = s.router) :
        (v.setBack b p (s.back b p ++ [m])).router.ReportsSized := by
      cases b with
      | router =>
        have he : (v.setBack .router p (s.back .router p ++ [m])).router = s.router.send p m := by
          simp only [State.setBack, hv]
          rfl
        rw [he]
        exact reportsSized_send hm hb
      | _ => exact hv ▸ hb
    cases h with
    | powerOn => exact emptied _ rfl
    | deviceReset => exact emptied _ rfl
    | message b p m rest hm =>
      rw [setPort_router]
      cases b with
      | router =>
        have hm' : s.router.back[p] = m :: rest := hm
        intro q a ha
        have ha' : FromBlock.alert a ∈ (setAt s.router.back p rest)[q] := ha
        rw [setAt_get] at ha'
        split at ha'
        · exact hb p a (by rw [hm']; exact List.mem_cons_of_mem _ ha')
        · exact hb q a ha'
      | _ => exact hb
    | part b p m rest => exact ended (by simp) rfl
    | stale b p m e r rest => exact ended (by simp) rfl
    | atRouter p m e r rest =>
      refine reportsSized_send (by simp) (reportsSized_reportFrom true none (sound_onRouter r s.isOpen k).size ?_ hb)
      rw [onRouter_back]
      exact losesOn_refl _
    | routerEnd p e rest u _ hu =>
      subst hu
      refine reportsSized_send (by simp) (reportsSized_reportFrom true (some p) (sound_tearDown _ p k).size ?_ hb)
      rw [tearDown_back]
      exact losesOn_refl _
    | fireRequest q rest =>
      exact reportsSized_reportFrom false none (sound_takeFire (s.eligible q) q k).size (losesOn_takeFire _ q) hb
    | purgeRequest n g rest =>
      refine reportsSized_reportFrom false none (sound_purge n g k).size ?_ hb
      rw [purge_back]
      exact losesOn_refl _
    | _ => exact hb

end

/-- Settles O59, effect by effect. -/
theorem stepKeepsRouterLaws : Obligations.StepKeepsRouterLaws := by
  intro s t hl h
  have k := lawful_iff_routerSound.1 hl
  obtain rfl | ⟨rest, he⟩ := step_cases h
  · exact ⟨hl, id⟩
  · exact ⟨lawful_iff_routerSound.2 (he.routerSound k), he.reportLaw k⟩

end Sys2Proof.Machine
end

section
/-! PROOFS. Which ports the four blocks hold something for, and how many session ends and completions are on their way: what each effect
makes of them, and that every step keeps the laws of the Port Units and of teardowns (R20, R39, R85, R131 to R134, R138, R142, R160). -/

namespace Sys2Proof.Machine

/-! ### Completions on a path back -/

/-- The number of completions on a path back to a Port Unit. -/
def completionsIn (l : List FromBlock) : Nat := l.countP fun m => m = .completion

theorem completionsIn_append (l l' : List FromBlock) : completionsIn (l ++ l') = completionsIn l + completionsIn l' :=
  List.countP_append

theorem completionsIn_eq_zero {l : List FromBlock} (h : FromBlock.completion ∉ l) : completionsIn l = 0 := by
  rw [completionsIn, List.countP_eq_zero]
  intro m hm he
  rw [decide_eq_true_iff] at he
  exact h (he ▸ hm)

/-- A path back with one more message. -/
theorem completionsIn_sendBack (back : Vector (List FromBlock) 4) (p q : Port) (m : FromBlock) :
    completionsIn (sendBack back p m)[q] =
      completionsIn back[q] + if q = p then (if m = .completion then 1 else 0) else 0 := by
  rw [sendBack_get]
  split
  · subst q
    rw [completionsIn_append]
    split
    · subst m
      rfl
    · rw [completionsIn_eq_zero (l := [m]) fun h => ‹¬ m = .completion› (List.mem_singleton.1 h).symm]
  · rfl

/-- Two tables of paths back on which the same completions stand. -/
def SameCompletions (back back' : Vector (List FromBlock) 4) : Prop := ∀ q : Port, completionsIn back'[q] = completionsIn back[q]

theorem sameCompletions_refl (back : Vector (List FromBlock) 4) : SameCompletions back back := fun _ => rfl

theorem SameCompletions.trans {a b c : Vector (List FromBlock) 4} (h : SameCompletions a b) (k : SameCompletions b c) :
    SameCompletions a c := fun q => (k q).trans (h q)

theorem sameCompletions_send (back : Vector (List FromBlock) 4) (p : Port) {m : FromBlock} (hm : m ≠ .completion) :
    SameCompletions back (sendBack back p m) := fun q => by
  rw [completionsIn_sendBack, if_neg hm]
  simp

theorem LosesOn.sameCompletions {a b : Vector (List FromBlock) 4} (h : LosesOn a b) : SameCompletions a b := fun q => by
  obtain ⟨k, hk⟩ := h q
  rw [hk, completionsIn_append, completionsIn_eq_zero (l := List.replicate k .lostNotice) (by simp [List.mem_replicate])]
  rfl

theorem sameCompletions_reportFrom (old r : Router) (folds : Bool) (always : Option Port) :
    SameCompletions r.back (Router.reportFrom old folds always r).back := fun q => by
  obtain ⟨back, he, hb⟩ := reportFrom_spec old r folds always
  rw [he]
  have : completionsIn back[q] = completionsIn r.back[q] := by
    rw [hb, completionsIn_append]
    split <;> rfl
  exact this

/-! ### The Timebase and the Line Unit -/

section
variable {p : Port} {P : Port → Prop}

/-- A request leaves the time authority where it was, or gives it to the port of the request. -/
theorem onTimebase_authority (p : Port) (r : Request) (t : Timebase) :
    (∀ q, (r.onTimebase p t).1.authority = some q → t.authority = some q ∨ q = p) ∧ (r.onTimebase p t).1.back = t.back := by
  have same : (∀ q, t.authority = some q → t.authority = some q ∨ q = p) ∧ t.back = t.back := ⟨fun _ => .inl, rfl⟩
  have accepted (w : TimeWrite) :
      (∀ q, (t.accept p w).1.authority = some q → t.authority = some q ∨ q = p) ∧ (t.accept p w).1.back = t.back := by
    obtain he | ⟨-, he⟩ := accept_cases p w t <;> rw [he]
    · exact same
    · exact ⟨fun _ => .inl, rfl⟩
  cases r with
  | timeClaim =>
    change (∀ q, (t.claim p).1.authority = some q → _) ∧ (t.claim p).1.back = _
    unfold Timebase.claim
    split
    · exact ⟨fun q hq => .inr (Option.some.inj hq).symm, rfl⟩
    · exact same
  | timeRelease =>
    change (∀ q, (t.release p).1.authority = some q → _) ∧ (t.release p).1.back = _
    unfold Timebase.release
    split
    · exact ⟨fun q hq => by simp at hq, rfl⟩
    · exact same
  | timeSet v => exact accepted (.set v)
  | timeAdjust a sp => exact accepted (.adjust a sp)
  | timeTick d => exact accepted (.tick d)
  | timeWithdraw =>
    change (∀ q, (t.withdraw p).1.authority = some q → _) ∧ (t.withdraw p).1.back = _
    unfold Timebase.withdraw
    split_ifs <;> exact ⟨fun _ => .inl, rfl⟩
  | _ => exact same

theorem arrive_keeps (t : Timebase) : t.arrive.authority = t.authority ∧ t.arrive.back = t.back := by
  have plain (t : Timebase) : t.plainTick.authority = t.authority ∧ t.plainTick.back = t.back := by
    unfold Timebase.plainTick
    split
    · exact ⟨rfl, rfl⟩
    · split
      · dsimp only
        split <;> exact ⟨rfl, rfl⟩
      · exact ⟨rfl, rfl⟩
  unfold Timebase.arrive
  split
  · exact plain _
  · split
    · exact ⟨rfl, rfl⟩
    · unfold Timebase.applyAdjust
      split <;> exact ⟨rfl, rfl⟩
    · exact plain _

/-- The Line Unit goes from `l` to `l'`, and gives lines to ports in `P` alone. -/
def LineUnit.Gains (l l' : LineUnit) (P : Port → Prop) : Prop :=
  (∀ i q, (l'.record i).owner = some q → (l.record i).owner = some q ∨ P q) ∧ l'.back = l.back

section
variable {l l' : LineUnit} {e : LineNo}

theorem lineGains_refl (l : LineUnit) : l.Gains l P := ⟨fun _ _ => .inl, rfl⟩

theorem LineUnit.Gains.setRecord (h : l.Gains l' P) {x : LineRecord}
    (hx : ∀ q, x.owner = some q → (l.record e).owner = some q ∨ P q) : l.Gains (l'.setRecord e x) P := by
  refine ⟨fun i q hq => ?_, h.2⟩
  rw [setRecord_record] at hq
  split at hq
  · subst i
    exact hx q hq
  · exact h.1 i q hq

/-- A record changed in place keeps its owner. -/
theorem LineUnit.Gains.keepOwner (h : l.Gains l' P) {x : LineRecord} (hx : x.owner = (l'.record e).owner) :
    l.Gains (l'.setRecord e x) P := h.setRecord fun q hq => h.1 e q (hx ▸ hq)

theorem LineUnit.Gains.report (h : l.Gains l' P) (e : LineNo) : l.Gains (l'.report e) P := h

theorem LineUnit.Gains.deliverEdge (h : l.Gains l' P) (e : LineNo) : l.Gains (l'.deliverEdge e) P := h.keepOwner rfl

theorem LineUnit.Gains.qualifyingEdge (h : l.Gains l' P) (e : LineNo) : l.Gains (l'.qualifyingEdge e) P := by
  unfold LineUnit.qualifyingEdge
  split
  · exact h.deliverEdge e
  · exact h.keepOwner rfl

theorem LineUnit.Gains.changeLevel (h : l.Gains l' P) (e : LineNo) (level : Bool) : l.Gains (l'.changeLevel e level) P := by
  unfold LineUnit.changeLevel
  have k : l.Gains ((l'.setRecord e { l'.record e with accepted := level, run := 0 }).report e) P := h.keepOwner rfl
  dsimp only
  split
  · exact k.qualifyingEdge e
  · exact k

theorem LineUnit.Gains.sample (h : l.Gains l' P) (e : LineNo) (level : Bool) : l.Gains (l'.sample e level) P := by
  unfold LineUnit.sample
  dsimp only
  split
  · exact h.keepOwner rfl
  · split
    · exact h.changeLevel e level
    · exact h.keepOwner rfl

theorem LineUnit.Gains.initialSample (h : l.Gains l' P) (e : LineNo) (level : Bool) : l.Gains (l'.initialSample e level) P := by
  unfold LineUnit.initialSample
  exact (h.keepOwner (e := e) (x := { l'.record e with accepted := level, run := 0 }) rfl).report e

theorem lineGains_sampleAll (levels : LineSet) : l.Gains (l.sampleAll levels) P := by
  unfold LineUnit.sampleAll
  split
  · exact foldl_keeps (P := fun l' : LineUnit => l.Gains l' P) (fun _ e h => h.sample e (levels.getLsbD e.val)) _
      (lineGains_refl l)
  · have start : l.Gains { l with initialTaken := true } P := ⟨fun _ _ => .inl, rfl⟩
    generalize { l with initialTaken := true } = l' at start ⊢
    exact foldl_keeps (P := fun l' : LineUnit => l.Gains l' P) (fun _ e h => h.initialSample e (levels.getLsbD e.val)) _ start

/-- A line command gives a line to the port of the request alone. -/
theorem onLine_gains (p : Port) (r : Request) : l.Gains (r.onLine p l).1 (· = p) := by
  have same : l.Gains l (· = p) := lineGains_refl l
  have checked {modifies : Bool} {b : Byte} {act : LineNo → LineUnit → LineUnit × Reply}
      (ha : ∀ e, l.Gains (act e l).1 (· = p)) : l.Gains (l.withLine p modifies b act).1 (· = p) := by
    unfold LineUnit.withLine
    split
    · exact same
    · exact ha _
  cases r with
  | lineClaim b =>
    refine checked fun e => ?_
    unfold LineUnit.claim
    split
    · exact same.setRecord fun q hq => .inr (Option.some.inj hq).symm
    · exact same
  | lineRelease b => exact checked fun e => same.setRecord fun q hq => by cases hq
  | lineConfig b sense filter =>
    refine checked fun e => ?_
    unfold LineUnit.config
    split
    · exact same
    · split
      · exact same.keepOwner rfl
      · exact same
  | lineEnable b discard =>
    refine checked fun e => ?_
    unfold LineUnit.enable
    dsimp only
    split
    · exact same
    · have k : l.Gains ((l.setRecord e { l.record e with enabled := true, held := false }).report e) (· = p) :=
        same.keepOwner rfl
      split
      · exact k.deliverEdge e
      · exact k
  | lineDisable b =>
    refine checked fun e => ?_
    unfold LineUnit.disable
    split
    · exact same.keepOwner rfl
    · exact same
  | linePulse b => exact checked fun e => same.qualifyingEdge e
  | lineStatus b => exact checked fun _ => same
  | _ => exact same

theorem lineEnd_owner (p : Port) (i : LineNo) :
    ((l.endSession p).record i).owner = if (l.record i).owner = some p then none else (l.record i).owner := by
  have : (l.endSession p).record i =
      if (l.record i).owner = some p then { l.record i with owner := none } else l.record i := tabulate_get _ i
  rw [this]
  split <;> rfl

end

/-! ### The Calendar -/

/-- The Calendar holds something for `p`: a slot that p owns, or a fire request that hangs on p as its slot's owner (R39). -/
def Calendar.HoldsFor (c : Calendar) (p : Port) : Prop :=
  (∃ n, (c.slot n).owner = some p) ∨ ∃ q, RouterRequest.fire q ∈ c.toRouter ∧ q.tie = some (.owner p)

/-- The request hangs on `p` as its slot's owner. -/
def RouterRequest.TiedTo (p : Port) : RouterRequest → Prop
  | .fire q => q.tie = some (.owner p)
  | .purge _ _ => False

theorem calendarHoldsFor_iff {c : Calendar} :
    c.HoldsFor p ↔ (∃ n, (c.slot n).owner = some p) ∨ ∃ m ∈ c.toRouter, m.TiedTo p := by
  constructor
  · rintro (h | ⟨q, hq, ht⟩)
    · exact .inl h
    · exact .inr ⟨_, hq, ht⟩
  · rintro (h | ⟨m, hm, ht⟩)
    · exact .inl h
    · cases m with
      | fire q => exact .inr ⟨q, hm, ht⟩
      | purge => exact ht.elim

/-- The Calendar goes from `c` to `c'`, gives slots to ports in `P` alone, and completes no teardown. -/
structure Calendar.Gains (c c' : Calendar) (P : Port → Prop) : Prop where
  owner : ∀ n q, (c'.slot n).owner = some q → (c.slot n).owner = some q ∨ P q
  tied : ∀ m ∈ c'.toRouter, ∀ q, m.TiedTo q → c.HoldsFor q ∨ P q
  back : SameCompletions c.back c'.back

section
variable {c c' : Calendar} {n : SlotNo} {m : Nat}

theorem calendarGains_of_eq (hs : c'.slots = c.slots) (hr : ∀ m ∈ c'.toRouter, m ∈ c.toRouter)
    (hb : SameCompletions c.back c'.back) : c.Gains c' P := by
  refine ⟨fun n q hq => .inl ?_, fun m hm q hq => .inl (calendarHoldsFor_iff.2 (.inr ⟨m, hr m hm, hq⟩)), hb⟩
  simpa only [Calendar.slot, hs] using hq

theorem calendarGains_refl (c : Calendar) : c.Gains c P := calendarGains_of_eq rfl (fun _ => id) (sameCompletions_refl _)

theorem Calendar.Gains.holds {q : Port} (h : c.Gains c' P) (hq : c'.HoldsFor q) : c.HoldsFor q ∨ P q := by
  obtain ⟨n, hn⟩ | ⟨m, hm, ht⟩ := calendarHoldsFor_iff.1 hq
  · exact (h.owner n q hn).imp_left fun ho => .inl ⟨n, ho⟩
  · exact h.tied m hm q ht

theorem Calendar.Gains.trans {c'' : Calendar} (h : c.Gains c' P) (k : c'.Gains c'' P) : c.Gains c'' P := by
  refine ⟨fun n q hq => ?_, fun m hm q hq => ?_, h.back.trans k.back⟩
  · exact (k.owner n q hq).elim (h.owner n q) .inr
  · exact (k.tied m hm q hq).elim h.holds .inr

theorem Calendar.Becomes.gains {x : Slot} {r : List RouterRequest} {pin : List PinRequest} {b : Vector (List FromBlock) 4}
    (k : c.Becomes c' n x r pin b) (hx : ∀ q, x.owner = some q → (c.slot n).owner = some q ∨ P q)
    (hr : ∀ m ∈ r, ∀ q, m.TiedTo q → c.HoldsFor q ∨ P q) (hb : SameCompletions c.back b) : c.Gains c' P := by
  refine ⟨fun i q hq => ?_, fun m hm q hq => ?_, k.back ▸ hb⟩
  · by_cases hi : i = n
    · rw [hi, k.slot] at hq
      rw [hi]
      exact hx q hq
    · rw [k.others i hi] at hq
      exact .inl hq
  · rw [k.toRouter, List.mem_append] at hm
    obtain hm | hm := hm
    · exact .inl (calendarHoldsFor_iff.2 (.inr ⟨m, hm, hq⟩))
    · exact hr m hm q hq

theorem Calendar.Visited.gains {l : List SlotNo} {x : SlotNo → Slot} {router : SlotNo → List RouterRequest}
    {pin : SlotNo → List PinRequest} (k : c.Visited c' l x router pin)
    (hx : ∀ n ∈ l, ∀ q, (x n).owner = some q → (c.slot n).owner = some q ∨ P q)
    (hr : ∀ n ∈ l, ∀ m ∈ router n, ∀ q, m.TiedTo q → c.HoldsFor q ∨ P q) : c.Gains c' P := by
  refine ⟨fun n q hq => ?_, fun m hm q hq => ?_, k.back ▸ sameCompletions_refl _⟩
  · by_cases hn : n ∈ l
    · rw [k.slot n hn] at hq
      exact hx n hn q hq
    · rw [k.others n hn] at hq
      exact .inl hq
  · rw [k.toRouter, List.mem_append, List.mem_flatMap] at hm
    obtain hm | ⟨n, hn, hm⟩ := hm
    · exact .inl (calendarHoldsFor_iff.2 (.inr ⟨m, hm, hq⟩))
    · exact hr n hn m hm q hq

theorem nothing_tied : ∀ m ∈ ([] : List RouterRequest), ∀ q, m.TiedTo q → c.HoldsFor q ∨ P q := by simp

/-- A request of a fire hangs on the session that the fire does. -/
theorem fireRequests_tiedTo {x : Slot} {kind : NoticeKind} {t : Time} {w : BitVec 16} {tie : Option SessionTie}
    {k : RouterRequest} {q : Port} (hk : k ∈ x.fireRequests n kind t w tie) (hq : k.TiedTo q) : tie = some (.owner q) := by
  unfold Slot.fireRequests at hk
  split at hk
  · cases hk
  · obtain rfl := List.mem_singleton.1 hk
    exact hq

/-- A request of a fire that hangs on no session. -/
theorem fire_untied {x : Slot} {kind : NoticeKind} {t : Time} {w : BitVec 16} :
    ∀ k ∈ x.fireRequests n kind t w none, ∀ q, k.TiedTo q → c.HoldsFor q ∨ P q := fun k hk q hq => by
  cases fireRequests_tiedTo hk hq

/-- A request of a fire at a delivery hangs on the owner of its slot, or on none that is not ended (R39). -/
theorem fire_tied {kind : NoticeKind} {t : Time} {w : BitVec 16} {d : Nat} :
    ∀ k ∈ (c.slot n).fireRequests n kind t w ((c.slot n).deliveryTie d), ∀ q, k.TiedTo q → c.HoldsFor q ∨ P q := by
  intro k hk q hq
  have ht := fireRequests_tiedTo hk hq
  unfold Slot.deliveryTie at ht
  split at ht
  · rename_i ho
    cases ht
    exact .inl (.inl ⟨n, ho⟩)
  · split at ht <;> cases ht
  · cases ht

theorem answered_same (back : Vector (List FromBlock) 4) (p : Port) (m : Nat) (o : OutcomeCode) (f : Payload) :
    SameCompletions back (answered back p m o f) := sameCompletions_send back p (by simp)

theorem Calendar.Gains.answer (h : c.Gains c' P) (p : Port) (m : Nat) (o : OutcomeCode) (f : Payload) :
    c.Gains (c'.answer p m o f) P :=
  h.trans (calendarGains_of_eq rfl (fun _ => id) (answered_same _ _ _ _ _))

theorem gains_answer (p : Port) (m : Nat) (o : OutcomeCode) (f : Payload) : c.Gains (c.answer p m o f) P :=
  (calendarGains_refl c).answer ..

/-! #### Slot commands -/

theorem gains_allocate (b : Byte) : c.Gains (c.allocate p b m) (· = p) := by
  cases hs : c.slotToAllocate b with
  | error o =>
    simp only [Calendar.allocate, hs]
    exact gains_answer ..
  | ok k =>
    refine (becomes_allocate hs).gains (fun q hq => .inr ?_) nothing_tied (answered_same _ _ _ _ _)
    exact (Option.some.inj hq).symm

theorem gains_configure (f : RawConfig) : c.Gains (c.configure p f n m) P := by
  by_cases hs : (c.slot n).status = .idle
  case neg =>
    rw [configure_of_not_idle hs]
    exact gains_answer ..
  case pos =>
    by_cases hf : ∃ g, f.Means g
    case neg =>
      rw [configure_of_not_means hs hf]
      exact gains_answer ..
    case pos =>
      obtain ⟨g, hg⟩ := hf
      by_cases hp : (c.slot n).config.pin = none ∧ g.pin = none
      · rw [configure_installs hs hg hp.1 hp.2]
        exact ((becomes_installConfig g).answer p m _ _).gains (fun _ => .inl) nothing_tied (answered_same _ _ _ _ _)
      · rw [configure_asks hs hg (by tauto)]
        exact calendarGains_of_eq rfl (fun _ => id) (sameCompletions_refl _)

theorem gains_arm (kind : Byte) (value : Time) (startNow : Bool) : c.Gains (c.arm p kind value startNow n m) P := by
  cases ha : c.armedStatus n kind value startNow with
  | none =>
    rw [calendarArm_of_none ha]
    exact gains_answer ..
  | some st => exact (becomes_arm ha).gains (fun _ => .inl) nothing_tied (answered_same _ _ _ _ _)

theorem gains_disarm (purge : Bool) : c.Gains (c.disarm p purge n m) P := by
  refine (becomes_disarm purge).gains (fun _ => .inl) (fun k hk q hq => ?_) (answered_same _ _ _ _ _)
  cases purge
  · cases hk
  · obtain rfl := List.mem_singleton.1 hk
    exact hq.elim

theorem gains_checkIn {d : Time} : c.Gains (c.checkIn p n d m) P := by
  by_cases hw : (c.now - (d - (c.slot n).config.window.setWidth 48)).toNat < 2 ^ 47
  · exact (becomes_checkIn_open hw).gains (fun _ => .inl) nothing_tied (answered_same _ _ _ _ _)
  · exact (becomes_checkIn_early (not_lt.1 hw)).gains (fun _ => .inl) fire_untied (answered_same _ _ _ _ _)

theorem gains_trigger : c.Gains (c.trigger n) P :=
  becomes_trigger.gains (fun _ => .inl) nothing_tied (sameCompletions_refl _)

theorem gains_countEdge (left : BitVec 16) : c.Gains (c.countEdge n left) P := by
  by_cases hl : left.toNat ≤ 1
  · exact (becomes_countEdge_last hl).gains (fun _ => .inl) fire_untied (sameCompletions_refl _)
  · exact (becomes_countEdge_more (by omega)).gains (fun _ => .inl) nothing_tied (sameCompletions_refl _)

theorem gains_touch : c.Gains (c.touch p n m) P := by
  cases hm : (c.slot n).config.mode <;> cases hs : (c.slot n).status
  case window.running d =>
    simp only [Calendar.touch, hm, hs]
    exact gains_checkIn
  case retrigger.waiting | retrigger.running =>
    simp only [Calendar.touch, hm, hs]
    exact gains_trigger.answer ..
  case count.waiting k =>
    cases k <;> simp only [Calendar.touch, hm, hs]
    · exact gains_answer ..
    · exact (gains_countEdge _).answer ..
  all_goals
    simp only [Calendar.touch, hm, hs]
    exact gains_answer ..

theorem gains_adopt : c.Gains (c.adopt p n m) (· = p) := by
  by_cases ho : (c.slot n).owner = none
  · exact (becomes_adopt ho).gains (fun q hq => .inr (Option.some.inj hq).symm) nothing_tied (answered_same _ _ _ _ _)
  · rw [adopt_of_owned ho]
    exact gains_answer ..

theorem gains_withSlot {access : SlotAccess} {k : SlotHandle} {act : SlotNo → Nat → Calendar → Calendar}
    (ha : ∀ n, c.Gains (act n m c) P) : c.Gains (c.withSlot p access k act m) P := by
  unfold Calendar.withSlot
  split
  · exact gains_answer ..
  · exact ha _

/-- A slot request gives a slot to the port of the request alone. -/
theorem gains_onCalendar (r : Request) : c.Gains (r.onCalendar p m c) (· = p) := by
  cases r with
  | slotAllocate b => exact gains_allocate b
  | slotConfigure k f => exact gains_withSlot fun _ => gains_configure f
  | slotArm k kind value startNow => exact gains_withSlot fun _ => gains_arm kind value startNow
  | slotDisarm k purge => exact gains_withSlot fun _ => gains_disarm purge
  | slotTouch k => exact gains_withSlot fun _ => gains_touch
  | slotRelease k =>
    exact gains_withSlot fun _ => becomes_release.gains (fun q hq => by cases hq) nothing_tied (answered_same _ _ _ _ _)
  | slotAdopt k => exact gains_withSlot fun _ => gains_adopt
  | slotQuery k => exact gains_withSlot fun _ => gains_answer ..
  | _ => exact calendarGains_refl c

/-! #### Events -/

theorem gains_takeAnswer (granted : Bool) : c.Gains (c.takeAnswer granted) P := by
  have freed : c.Gains { c with busy := .free } P := calendarGains_of_eq rfl (fun _ => id) (sameCompletions_refl _)
  unfold Calendar.takeAnswer
  split
  · dsimp only
    split
    · refine freed.trans (((becomes_installConfig _).answer _ _ _ _).gains (fun _ => .inl) nothing_tied (answered_same _ _ _ _ _))
    · exact freed.answer ..
  · exact calendarGains_refl c

theorem gains_count (r : CountReport) : c.Gains (c.count r) P := by
  have counted (n : SlotNo) (x : Slot) (hs : x.status = (c.slot n).status) (ho : x.owner = (c.slot n).owner) :
      c.Gains (c.setSlot n x) P :=
    (becomes_setSlot c n x hs).gains (fun q hq => .inl (ho ▸ hq)) nothing_tied (sameCompletions_refl _)
  cases r <;> unfold Calendar.count <;> dsimp only <;> split <;>
    first | exact counted _ _ rfl rfl | exact calendarGains_refl c

theorem edged_owner (now : Time) (e : LineNo) (x : Slot) : (x.edged now e).owner = x.owner := by
  unfold Slot.edged
  split
  · split
    · split <;> rfl
    · split
      · split <;> rfl
      · rfl
    · rfl
  · rfl

theorem gains_edgeVisit (e : LineNo) (start stop : Nat) : c.Gains (c.edgeVisit e start stop) P := by
  refine (visited_edgeVisit c e start stop).gains (fun n _ q hq => .inl (by rwa [edged_owner] at hq)) fun n _ m hm => ?_
  unfold Slot.edgeRequests at hm
  split at hm
  · exact fire_untied m hm
  · cases hm

theorem gateChanged_owner (now : Time) (e : LineNo) (old new : LineView) (x : Slot) :
    (x.gateChanged now e old new).owner = x.owner := by
  unfold Slot.gateChanged
  split
  · split
    · split
      · split <;> rfl
      · rfl
    · split <;> rfl
    · rfl
  · rfl

theorem gains_takeGate (e : LineNo) (v : LineView) : c.Gains (c.takeGate e v) P := by
  have k := visited_takeGate c e v
  generalize c.takeGate e v = c' at k ⊢
  have viewed : c.Gains { c with views := setAt c.views e v } P :=
    calendarGains_of_eq rfl (fun _ => id) (sameCompletions_refl _)
  refine viewed.trans (k.gains (fun n _ q hq => .inl (by rwa [gateChanged_owner] at hq)) fun n _ m hm => ?_)
  unfold Slot.gateRequests at hm
  split at hm
  · exact fire_untied m hm
  · cases hm

/-- The Calendar on which a delivery acts. -/
theorem gains_delivering {s : State} {d : TimeDelivery} (h : s.delivering = some (d, c)) : s.calendar.Gains c P := by
  obtain ⟨-, ⟨-, rfl⟩ | ⟨-, rfl⟩⟩ := delivering_eq_some h
  · cases d with
    | tick t => exact calendarGains_of_eq rfl (fun _ => id) (sameCompletions_refl _)
    | step old new delta =>
      refine ⟨fun n q hq => .inl ?_, fun m hm q hq => .inl (calendarHoldsFor_iff.2 (.inr ⟨m, hm, hq⟩)), sameCompletions_refl _⟩
      have hslot : (s.calendar.beginDelivery (.step old new delta)).slot n = (s.calendar.slot n).stepped new delta :=
        tabulate_get _ n
      rw [hslot, stepped_eq] at hq
      exact hq
  · exact calendarGains_refl _

theorem gains_fireIfRunning (t : Time) : c.Gains (Calendar.fireIfRunning t c n) P := by
  cases hs : (c.slot n).status with
  | running d =>
    rw [fireIfRunning_of_running hs]
    have fired {kind : NoticeKind} {w : BitVec 16} (st : SlotStatus) :
        c.Gains ((c.announceFire n kind t w ((c.slot n).tieAt c.deliveries)).move n st) P := by
      rw [tieAt_eq]
      exact (becomes_fire c n kind t w _ st).gains (fun _ => .inl) fire_tied (sameCompletions_refl _)
    cases hm : (c.slot n).config.mode <;> simp only [Calendar.fireSlot, hm]
    case count => exact calendarGains_refl c
    all_goals exact fired _
  | _ =>
    simp only [Calendar.fireIfRunning, hs, SlotStatus.deadline?]
    exact calendarGains_refl c

theorem gains_fireAllDue (t : Time) : c.Gains (c.fireAllDue t) P :=
  foldl_keeps (P := fun c' : Calendar => c.Gains c' P) (fun _ _ h => h.trans (gains_fireIfRunning t)) (c.dueAt t)
    (calendarGains_refl c)

/-- After the end of p's session the Calendar holds nothing for `p` (R39, R40). -/
theorem endSession_holds (p : Port) (onTheWay : Nat) (hl : c.SlotLaw) :
    c.Gains (c.endSession p onTheWay) P ∧ ¬ (c.endSession p onTheWay).HoldsFor p := by
  have k := visited_endSession c p onTheWay
  generalize c.endSession p onTheWay = c' at k ⊢
  have ended (n : SlotNo) (first : Nat) :
      (∀ q, ((c.slot n).afterEnd p first).owner = some q → (c.slot n).owner = some q) ∧
        ((c.slot n).afterEnd p first).owner ≠ some p := by
    unfold Slot.afterEnd
    split
    case isTrue => split <;> simp
    case isFalse hno =>
      refine ⟨fun _ => id, fun ho => hno ⟨ho, fun hf => ?_⟩⟩
      have hm := (hl.1 n).1
      rw [Slot.ModeLaw, hf] at hm
      rw [hm.1] at ho
      cases ho
  have sent (n : SlotNo) : ∀ m ∈ (c.slot n).endRequests p c.now n, ∀ q, ¬ m.TiedTo q := fun m hm q hq => by
    unfold Slot.endRequests at hm
    split at hm
    · obtain rfl := List.mem_singleton.1 hm
      cases hq
    · cases hm
  have judged : ∀ m ∈ c.toRouter, ∀ q, (m.endTie p).TiedTo q → m.TiedTo q ∧ q ≠ p := fun m hm q hq => by
    cases m with
    | purge => exact hq.elim
    | fire x =>
      by_cases hx : x.tie = some (.owner p)
      · simp [RouterRequest.endTie, RouterRequest.TiedTo, hx] at hq
      · have hq' : x.tie = some (.owner q) := by simpa only [RouterRequest.endTie, RouterRequest.TiedTo, if_neg hx] using hq
        refine ⟨hq', ?_⟩
        rintro rfl
        exact hx hq'
  refine ⟨⟨fun n q hq => ?_, fun m hm q hq => ?_, k.back ▸ sameCompletions_refl _⟩, fun hp => ?_⟩
  · rw [k.slot n (List.mem_finRange n)] at hq
    exact .inl ((ended n _).1 q hq)
  · rw [k.toRouter, List.mem_append, List.mem_flatMap] at hm
    obtain hm | ⟨n, -, hm⟩ := hm
    · obtain ⟨x, hx, rfl⟩ := List.mem_map.1 hm
      exact .inl (calendarHoldsFor_iff.2 (.inr ⟨x, hx, (judged x hx q hq).1⟩))
    · exact absurd hq (sent n m hm q)
  · obtain ⟨n, hn⟩ | ⟨m, hm, hq⟩ := calendarHoldsFor_iff.1 hp
    · rw [k.slot n (List.mem_finRange n)] at hn
      exact (ended n _).2 hn
    · rw [k.toRouter, List.mem_append, List.mem_flatMap] at hm
      obtain hm | ⟨n, -, hm⟩ := hm
      · obtain ⟨x, hx, rfl⟩ := List.mem_map.1 hm
        exact (judged x hx p hq).2 rfl
      · exact sent n m hm p hq

end

/-! ### The Notice Router -/

/-- The Router holds nothing for `p`: no entry of a queue or stack, and no settings of p's own (R131 to R133). -/
def Router.Bare (r : Router) (p : Port) : Prop :=
  r.queue p = [] ∧ r.stack p = [] ∧ r.setting p = { mask := 0, autoDone := false, alertOnResponse := false }

section
variable {r r' : Router} {q : Port} {elig : Port → Bool}

theorem bare_of_eq (h : r.Bare q) (hq : r'.queue q = r.queue q) (hs : r'.stack q = r.stack q) (ht : r'.setting q = r.setting q) :
    r'.Bare q := by
  simpa only [Router.Bare, hq, hs, ht] using h

section
variable {p : Port} (k : r.Bare q) (hp : q ≠ p)
include k

theorem Router.Bare.setNotice (h : Handle) (x : Option Notice) : (r.setNotice h x).Bare q := k

include hp

theorem Router.Bare.setQueue (l : List Handle) : (r.setQueue p l).Bare q :=
  bare_of_eq k (by rw [setQueue_queue, if_neg hp]) rfl rfl

theorem Router.Bare.enter (h : Handle) : (r.enter p h).Bare q :=
  bare_of_eq k (by simp [Router.enter, hp]) rfl rfl

theorem Router.Bare.setStack (l : List Handle) : (r.setStack p l).Bare q :=
  bare_of_eq k rfl (by rw [setStack_stack, if_neg hp]) rfl

theorem Router.Bare.setSetting (x : ServiceSettings) : (r.setSetting p x).Bare q :=
  bare_of_eq k rfl rfl (by rw [setSetting_setting, if_neg hp])

end

theorem bare_coalesce (h : Handle) (t : Time) (w : Nat) (k : r.Bare q) : (r.coalesce h t w).Bare q := by
  obtain c := recast_coalesce (r := r) h t w
  exact bare_of_eq k (c.queue q) (c.stack q) (c.setting q)

/-- A record that enters no queue of `q`. -/
theorem bare_enterAll {l : List Port} (h : Handle) (hl : q ∉ l) (k : r.Bare q) : (r.enterAll h l).Bare q := by
  unfold Router.enterAll
  induction l generalizing r with
  | nil => exact k
  | cons p l ih =>
    rw [List.mem_cons, not_or] at hl
    exact ih hl.2 (k.enter hl.1 h)

theorem bare_takeFire (x : FireRequest) (he : elig q = false) (k : r.Bare q) : (r.takeFire elig x).Bare q := by
  unfold Router.takeFire
  split
  · refine foldl_keeps (P := fun a : Router × List Handle => a.1.Bare q) (fun a p ha => ?_) _ k
    unfold Router.broadcastTo
    dsimp only
    split
    · exact ha
    · rename_i hp
      have hqp : q ≠ p := by
        rintro rfl
        simp [he] at hp
      split
      · split
        · exact ha
        · exact bare_coalesce _ _ _ ha
      · split
        · exact ha
        · split
          · exact (ha.setNotice _ _).enter hqp _
          · exact ha
  · unfold Router.claim
    split
    · exact bare_coalesce _ _ _ k
    · have served : ((r.served elig x).foldl (Router.coalesceAt x) r).Bare q :=
        foldl_keeps (P := fun a : Router => a.Bare q) (fun a p ha => by
          unfold Router.coalesceAt
          split
          · exact bare_coalesce _ _ _ ha
          · exact ha) _ k
      dsimp only
      generalize (r.served elig x).foldl (Router.coalesceAt x) r = r' at served
      split
      · split <;> exact served
      · split
        · refine bare_enterAll _ (fun hm => ?_) (served.setNotice _ _)
          rw [Router.eligibleSet, List.mem_filter] at hm
          simp [he] at hm
        · exact served

theorem bare_withdrawAll (h : Handle) (k : r.Bare q) : (r.withdrawAll h).Bare q := by
  refine ⟨?_, k.2⟩
  rw [withdrawAll_queue, k.1]
  rfl

theorem bare_purge (n : SlotNo) (g : BitVec 16) (k : r.Bare q) : (r.purge n g).Bare q :=
  foldl_keeps (P := fun a : Router => a.Bare q) (fun a h ha => by
    unfold Router.purgeRecord
    split
    · split
      · exact (bare_withdrawAll h ha).setNotice _ _
      · exact ha
    · exact ha) _ k

theorem bare_reoffer (h : Handle) (x : Notice) (he : elig q = false) (k : r.Bare q) : (r.reoffer elig h x).1.Bare q := by
  unfold Router.reoffer
  dsimp only
  split
  · split <;> exact k
  · split
    · exact k
    · refine bare_enterAll _ (fun hm => ?_) (k.setNotice _ _)
      rw [List.mem_filter, List.mem_filter] at hm
      simp [he] at hm

/-- A service request of `p` leaves a closed port other than `p` as it was, if nothing was held for it. -/
theorem bare_onRouter {p : Port} (x : Request) (hp : q ≠ p) (he : elig q = false) (k : r.Bare q) : (x.onRouter p elig r).1.Bare q := by
  cases x with
  | serviceSet mask a l =>
    change (r.serviceSet p mask a l elig).1.Bare q
    unfold Router.serviceSet
    split
    · split
      · exact k
      · exact k.setSetting hp _
    · exact k
  | fetch =>
    change (r.fetch p elig).1.Bare q
    unfold Router.fetch
    split
    · exact k
    · split
      · exact k
      · have left (h : Handle) (x : Notice) : (r.unqueue p h x).Bare q := by
          unfold Router.unqueue
          split
          · exact k.setQueue hp _
          · exact bare_withdrawAll h k
        dsimp only
        split
        · exact (left _ _).setNotice _ _
        · exact (left _ _).setStack hp _
  | peek =>
    change (r.peek p elig).1.Bare q
    unfold Router.peek
    split
    · exact k
    · split <;> exact k
  | done b =>
    change (r.complete p b elig).1.Bare q
    unfold Router.complete
    split
    · exact k
    · split
      · exact k
      · exact (k.setStack hp _).setNotice _ _
  | decline b =>
    change (r.decline p b elig).1.Bare q
    unfold Router.decline
    split
    · exact k
    · split
      · split
        · exact k
        · split
          · exact k
          · exact bare_reoffer _ _ he (k.setStack hp _)
      · exact k
  | _ => exact k

theorem bare_abandonEntry (h : Handle) (k : r.Bare q) : (r.abandonEntry h).Bare q := by
  unfold Router.abandonEntry
  split
  · split
    · exact k
    · split <;> exact k
  · exact k

theorem bare_abandonService {p : Port} (h : Handle) (he : elig q = false) (k : r.Bare q) :
    (Router.abandonService elig p r h).Bare q := by
  unfold Router.abandonService
  split
  · split
    · exact k
    · exact bare_reoffer _ _ he k
  · exact k

/-- Giving up entries leaves the lists of `q` as they were. -/
theorem abandonEntries_lists (l : List Handle) :
    (l.foldl Router.abandonEntry r).queue q = r.queue q ∧ (l.foldl Router.abandonEntry r).stack q = r.stack q :=
  foldl_keeps (P := fun a : Router => a.queue q = r.queue q ∧ a.stack q = r.stack q) (fun a h ha => by
    unfold Router.abandonEntry
    split
    · split
      · exact ha
      · split <;> exact ha
    · exact ha) l ⟨rfl, rfl⟩

theorem enterAll_lists {l : List Port} (h : Handle) (hq : q ∉ l) :
    (r.enterAll h l).queue q = r.queue q ∧ (r.enterAll h l).stack q = r.stack q := by
  unfold Router.enterAll
  induction l generalizing r with
  | nil => exact ⟨rfl, rfl⟩
  | cons p l ih =>
    rw [List.mem_cons, not_or] at hq
    obtain ⟨h1, h2⟩ := ih (r := r.enter p h) hq.2
    exact ⟨h1.trans (by simp [Router.enter, hq.1]), h2⟩

/-- A re-offer leaves the lists of a closed port as they were. -/
theorem reoffer_lists (h : Handle) (x : Notice) (he : elig q = false) :
    (r.reoffer elig h x).1.queue q = r.queue q ∧ (r.reoffer elig h x).1.stack q = r.stack q := by
  unfold Router.reoffer
  dsimp only
  split
  · split <;> exact ⟨rfl, rfl⟩
  · split
    · exact ⟨rfl, rfl⟩
    · refine enterAll_lists h fun hm => ?_
      rw [List.mem_filter, List.mem_filter] at hm
      simp [he] at hm

/-- Services given back by `p` leave the lists of a closed port as they were. -/
theorem abandonServices_lists {p : Port} (he : elig q = false) (l : List Handle) :
    (l.foldl (Router.abandonService elig p) r).queue q = r.queue q ∧
      (l.foldl (Router.abandonService elig p) r).stack q = r.stack q :=
  foldl_keeps (P := fun a : Router => a.queue q = r.queue q ∧ a.stack q = r.stack q) (fun a h ha => by
    unfold Router.abandonService
    split
    · split
      · exact ha
      · obtain ⟨h1, h2⟩ := reoffer_lists (r := a) h _ he
        exact ⟨h1.trans ha.1, h2.trans ha.2⟩
    · exact ha) l ⟨rfl, rfl⟩

/-- The teardown of a closed port leaves nothing for it (R131 to R133). -/
theorem bare_tearDown_self (he : elig q = false) : (r.tearDown elig q).Bare q := by
  unfold Router.tearDown
  dsimp only
  generalize hr : (r.queue q).foldl Router.abandonEntry (r.setQueue q []) = r'
  have queued : r'.queue q = [] := by
    rw [← hr, (abandonEntries_lists _).1, setQueue_queue, if_pos rfl]
  obtain ⟨hq, hs⟩ := abandonServices_lists (r := r'.setStack q []) (p := q) he (r'.stack q)
  refine ⟨hq.trans queued, hs.trans ?_, ?_⟩
  · rw [setStack_stack, if_pos rfl]
  · rw [setSetting_setting, if_pos rfl]
    rfl

/-- The teardown of another port leaves nothing for a closed port for which nothing was held. -/
theorem bare_tearDown {p : Port} (hp : q ≠ p) (he : elig q = false) (k : r.Bare q) : (r.tearDown elig p).Bare q := by
  have k1 := foldl_keeps (P := fun a : Router => a.Bare q) (f := Router.abandonEntry) (fun _ h ha => bare_abandonEntry h ha)
    (r.queue p) (k.setQueue hp [])
  unfold Router.tearDown
  dsimp only
  generalize (r.queue p).foldl Router.abandonEntry (r.setQueue p []) = r' at k1 ⊢
  exact (foldl_keeps (P := fun a : Router => a.Bare q) (f := Router.abandonService elig p)
    (fun _ h ha => bare_abandonService h he ha) (r'.stack p) (k1.setStack hp [])).setSetting hp _

end

end

end Sys2Proof.Machine
end

section
/-! PROOFS. Teardowns (R138, R142): the law port by port, what each kind of effect must show to keep it, and the Port Units' own
laws at every step (R129, R134, R155, R160). -/

namespace Sys2Proof.Machine

/-- Block `b` holds something for `p` (R20, R39, R85, R131 to R133). -/
def State.Holds (s : State) (b : Block) (p : Port) : Prop :=
  match b with
  | .timebase => s.timebase.authority = some p
  | .calendar => s.calendar.HoldsFor p
  | .router => ¬ s.router.Bare p
  | .line => ∃ i, (s.lines.record i).owner = some p

/-- The teardown law of one port. -/
structure State.TidyAt (s : State) (p : Port) : Prop where
  pending : (s.port p).pendingTeardowns =
    s.endsOnTheWay p .timebase + s.endsOnTheWay p .calendar + s.endsOnTheWay p .router + s.endsOnTheWay p .line
  once : s.endsOnTheWay p .calendar ≤ 1
  opened : (s.port p).session = .opened → (s.port p).pendingTeardowns = 0
  holds : ∀ b, s.Holds b p → s.MayHold b p

theorem teardownLaw_iff (s : State) : s.TeardownLaw ↔ ∀ p, s.TidyAt p := by
  refine forall_congr' fun p => ?_
  constructor
  · rintro ⟨hpending, honce, hopened, htime, hslots, hlines, hrouter, hfires⟩
    refine ⟨hpending, honce, hopened, fun b hb => ?_⟩
    cases b with
    | timebase => exact htime hb
    | calendar =>
      obtain ⟨n, hn⟩ | ⟨q, hq, ht⟩ := hb
      · exact hslots n hn
      · exact hfires q hq ht
    | router => exact hrouter.resolve_right hb
    | line =>
      obtain ⟨i, hi⟩ := hb
      exact hlines i hi
  · intro h
    refine ⟨h.pending, h.once, h.opened, h.holds .timebase, fun n hn => h.holds .calendar (.inl ⟨n, hn⟩),
      fun i hi => h.holds .line ⟨i, hi⟩, ?_, fun q hq ht => h.holds .calendar (.inr ⟨q, hq, ht⟩)⟩
    exact or_iff_not_imp_right.2 fun hb => h.holds .router hb

/-- What is on the way: session ends to the block, completions back. -/
theorem endsOnTheWay_eq (s : State) (p : Port) (b : Block) :
    s.endsOnTheWay p b = endsIn ((s.port p).path b) + completionsIn (s.back b p) := by
  have same : (fun m : ToBlock => match m with | .sessionEnd _ => true | _ => false) = ToBlock.isEnd := by
    funext m
    cases m <;> rfl
  rw [State.endsOnTheWay, endsIn, ← same]
  rfl

theorem mayHold_iff {s : State} {b : Block} {p : Port} :
    s.MayHold b p ↔ (s.port p).session = .opened ∨ 0 < endsIn ((s.port p).path b) := by
  rw [State.MayHold, endsIn_pos]

@[simp] theorem setPort_back (s : State) (p q : Port) (u : PortUnit) (b : Block) : (s.setPort p u).back b q = s.back b q := by
  cases b <;> rfl

theorem setPort_holds {s : State} {p q : Port} {u : PortUnit} {b : Block} : (s.setPort p u).Holds b q ↔ s.Holds b q := by
  cases b <;> rfl

theorem setBack_holds {s : State} {p q : Port} {l : List FromBlock} {b c : Block} :
    (s.setBack b p l).Holds c q ↔ s.Holds c q := by
  cases b <;> cases c <;> rfl

/-- The blocks give what they hold to ports with an OPEN session alone. -/
def State.Gains (s t : State) : Prop := ∀ b q, t.Holds b q → s.Holds b q ∨ (s.port q).session = .opened

section
variable {s t : State} {p q : Port} {b : Block}

theorem State.TidyAt.keep (k : s.TidyAt q) (hs : (t.port q).session = (s.port q).session)
    (ht : (t.port q).pendingTeardowns = (s.port q).pendingTeardowns) (hw : ∀ c, t.endsOnTheWay q c = s.endsOnTheWay q c)
    (hh : ∀ c, t.Holds c q → t.MayHold c q) : t.TidyAt q := by
  refine ⟨?_, ?_, ?_, hh⟩
  · rw [ht, hw, hw, hw, hw]
    exact k.pending
  · rw [hw]
    exact k.once
  · rw [hs, ht]
    exact k.opened

/-- Nothing is on its way while a session is OPEN (R142). -/
theorem State.TidyAt.quiet (k : s.TidyAt p) (h : (s.port p).pendingTeardowns = 0) (c : Block) :
    endsIn ((s.port p).path c) = 0 ∧ completionsIn (s.back c p) = 0 := by
  have hsum := k.pending
  simp only [endsOnTheWay_eq] at hsum
  cases c <;> omega

/-! ### Effects on the blocks alone -/

theorem State.TidyAt.blocks (k : s.TidyAt q) (hp : t.ports = s.ports)
    (hb : ∀ c, completionsIn (t.back c q) = completionsIn (s.back c q)) (hg : s.Gains t) : t.TidyAt q := by
  have hport : t.port q = s.port q := by simp only [State.port, hp]
  refine k.keep (by rw [hport]) (by rw [hport]) (fun c => by rw [endsOnTheWay_eq, endsOnTheWay_eq, hport, hb]) fun c hc => ?_
  rw [State.MayHold, hport]
  exact (hg c q hc).elim (k.holds c) .inl

theorem gains_timebase (h : ∀ q, t.timebase.authority = some q → s.timebase.authority = some q ∨ (s.port q).session = .opened)
    (hc : t.calendar = s.calendar) (hr : t.router = s.router) (hl : t.lines = s.lines) : s.Gains t := fun b q hq => by
  cases b with
  | timebase => exact h q hq
  | calendar => exact .inl (by simpa only [State.Holds, hc] using hq)
  | router => exact .inl (by simpa only [State.Holds, hr] using hq)
  | line => exact .inl (by simpa only [State.Holds, hl] using hq)

theorem gains_line (h : ∀ i q, (t.lines.record i).owner = some q → (s.lines.record i).owner = some q ∨ (s.port q).session = .opened)
    (ht : t.timebase.authority = s.timebase.authority) (hc : t.calendar = s.calendar) (hr : t.router = s.router) :
    s.Gains t := fun b q hq => by
  cases b with
  | timebase => exact .inl (by simpa only [State.Holds, ht] using hq)
  | calendar => exact .inl (by simpa only [State.Holds, hc] using hq)
  | router => exact .inl (by simpa only [State.Holds, hr] using hq)
  | line =>
    obtain ⟨i, hi⟩ := hq
    exact (h i q hi).imp_left fun h => ⟨i, h⟩

theorem gains_events (hc : ∀ q, t.calendar.HoldsFor q → s.calendar.HoldsFor q ∨ (s.port q).session = .opened)
    (hr : ∀ q, (s.port q).session = .closed → s.router.Bare q → t.router.Bare q)
    (ht : t.timebase.authority = s.timebase.authority) (hl : t.lines.records = s.lines.records) : s.Gains t := fun b q hq => by
  cases b with
  | timebase => exact .inl (by simpa only [State.Holds, ht] using hq)
  | calendar => exact hc q hq
  | router =>
    cases hs : (s.port q).session with
    | opened => exact .inr rfl
    | closed => exact .inl fun hb => hq (hr q hs hb)
  | line => exact .inl (by simpa only [State.Holds, LineUnit.record, hl] using hq)

/-! ### A message taken from the head of a path -/

theorem afterTaking_path {rest : List ToBlock} {c : Block} :
    ((s.afterTaking b p rest).port q).path c = if q = p ∧ c = b then rest else (s.port q).path c := by
  rw [State.afterTaking, setPort_port]
  by_cases hq : q = p
  · subst q
    simp
  · simp [hq]

theorem afterTaking_session {rest : List ToBlock} :
    ((s.afterTaking b p rest).port q).session = (s.port q).session ∧
      ((s.afterTaking b p rest).port q).pendingTeardowns = (s.port q).pendingTeardowns := by
  rw [State.afterTaking, setPort_port]
  split
  · subst q
    exact ⟨setPath_session .., setPath_pendingTeardowns ..⟩
  · exact ⟨rfl, rfl⟩

/-- Block `b` takes a message: a session end is answered with a completion, and leaves nothing for its port. -/
theorem State.TidyAt.taken (k : s.TidyAt q) {m : ToBlock} {rest : List ToBlock} (hm : (s.port p).path b = m :: rest)
    (hp : t.ports = (s.afterTaking b p rest).ports)
    (hb : ∀ c, completionsIn (t.back c q) = completionsIn (s.back c q) + if q = p ∧ c = b then endsIn [m] else 0)
    (hg : s.Gains t) (hend : m.isEnd = true → ¬ t.Holds b p) : t.TidyAt q := by
  have hport : t.port q = (s.afterTaking b p rest).port q := by simp only [State.port, hp]
  obtain ⟨hs, ht⟩ := afterTaking_session (s := s) (b := b) (p := p) (q := q) (rest := rest)
  rw [← hport] at hs ht
  have hpath (c : Block) : (t.port q).path c = if q = p ∧ c = b then rest else (s.port q).path c := by
    rw [hport, afterTaking_path]
  have hends : endsIn ((s.port p).path b) = endsIn [m] + endsIn rest := by
    rw [hm, ← endsIn_append]
    rfl
  refine k.keep hs ht (fun c => ?_) fun c hc => mayHold_iff.2 ?_
  · rw [endsOnTheWay_eq, endsOnTheWay_eq, hb, hpath]
    split
    · rename_i h
      obtain ⟨rfl, rfl⟩ := h
      omega
    · rfl
  · rw [hs, hpath]
    have may := (hg c q hc).elim (fun h => mayHold_iff.1 (k.holds c h)) .inl
    split
    · rename_i h
      obtain ⟨rfl, rfl⟩ := h
      cases he : m.isEnd with
      | true => exact absurd hc (hend he)
      | false =>
        have : endsIn [m] = 0 := by rw [endsIn, List.countP_singleton, he]; rfl
        rwa [hends, this, Nat.zero_add] at may
    · exact may

/-- The completions behind an answer that is none. -/
theorem completions_answer {m : FromBlock} (hm : m ≠ .completion) (back : Vector (List FromBlock) 4) :
    completionsIn (sendBack back p m)[q] = completionsIn back[q] := sameCompletions_send back p hm q

theorem completions_completion (back : Vector (List FromBlock) 4) :
    completionsIn (sendBack back p .completion)[q] = completionsIn back[q] + if q = p then 1 else 0 := by
  rw [completionsIn_sendBack]
  simp

/-! ### Events of a Port Unit and messages to it -/

theorem tidyAt_atPort {u : PortUnit} (k : s.TidyAt q) (hu : (s.port p).SessionMove u) : (s.setPort p u).TidyAt q := by
  have hback (c : Block) : (s.setPort p u).back c q = s.back c q := setPort_back ..
  by_cases hq : q = p
  case neg =>
    have hport : (s.setPort p u).port q = s.port q := by rw [setPort_port, if_neg hq]
    refine k.keep (by rw [hport]) (by rw [hport]) (fun c => by rw [endsOnTheWay_eq, endsOnTheWay_eq, hport, hback]) fun c hc => ?_
    rw [mayHold_iff, hport, ← mayHold_iff]
    exact k.holds c (setPort_holds.1 hc)
  case pos =>
    subst q
    have hport : (s.setPort p u).port p = u := by rw [setPort_port, if_pos rfl]
    have hway (c : Block) : (s.setPort p u).endsOnTheWay p c = endsIn (u.path c) + completionsIn (s.back c p) := by
      rw [endsOnTheWay_eq, hport, hback]
    cases hu with
    | stays hs ht hp =>
      have hpath (c : Block) : endsIn (u.path c) = endsIn ((s.port p).path c) := by
        obtain ⟨l, hl, h0⟩ := hp c
        rw [hl, endsIn_append, h0, Nat.add_zero]
      refine k.keep (by rw [hport, hs]) (by rw [hport, ht]) (fun c => by rw [hway, hpath, endsOnTheWay_eq]) fun c hc => ?_
      rw [mayHold_iff, hport, hs, hpath, ← mayHold_iff]
      exact k.holds c (setPort_holds.1 hc)
    | opens hs ht hs' ht' hp =>
      have hzero (c : Block) : (s.setPort p u).endsOnTheWay p c = 0 := by
        obtain ⟨l, hl, h0⟩ := hp c
        obtain ⟨h1, h2⟩ := k.quiet ht c
        rw [hway, hl, endsIn_append, h0, h1, h2]
      refine ⟨?_, ?_, fun _ => ?_, fun c _ => mayHold_iff.2 (.inl ?_)⟩
      · rw [hport, ht', hzero, hzero, hzero, hzero]
      · rw [hzero]
        exact Nat.zero_le 1
      · rw [hport, ht']
      · rw [hport, hs']
    | ends hs hs' ht' hp =>
      have hone (c : Block) : endsIn (u.path c) = 1 ∧ (s.setPort p u).endsOnTheWay p c = 1 := by
        obtain ⟨l, hl, h1⟩ := hp c
        obtain ⟨h0, h2⟩ := k.quiet (k.opened hs) c
        have : endsIn (u.path c) = 1 := by rw [hl, endsIn_append, h0, h1]
        exact ⟨this, by rw [hway, this, h2]⟩
      refine ⟨?_, ?_, fun h => ?_, fun c _ => mayHold_iff.2 (.inr ?_)⟩
      · rw [hport, ht', (hone _).2, (hone _).2, (hone _).2, (hone _).2]
      · rw [(hone _).2]
      · rw [hport, hs'] at h
        cases h
      · rw [hport, (hone c).1]
        exact Nat.one_pos

/-- The Port Unit of a port takes a message of block `b` (R138, R142). -/
theorem tidyAt_message {m : FromBlock} {rest : List FromBlock} (hm : s.back b p = m :: rest) (k : s.TidyAt q) :
    ((s.setBack b p rest).setPort p ((s.port p).take m)).TidyAt q := by
  have holds (c : Block) : ((s.setBack b p rest).setPort p ((s.port p).take m)).Holds c q → s.Holds c q := fun h =>
    setBack_holds.1 (setPort_holds.1 h)
  generalize ht : (s.setBack b p rest).setPort p ((s.port p).take m) = t at holds
  have hport : t.port q = if q = p then (s.port p).take m else s.port q := by
    rw [← ht, setPort_port, setBack_port]
  have hback (c : Block) : t.back c q = if c = b ∧ q = p then rest else s.back c q := by
    rw [← ht, setPort_back, setBack_back]
  by_cases hq : q = p
  case neg =>
    rw [if_neg hq] at hport
    refine k.keep (by rw [hport]) (by rw [hport]) (fun c => ?_) fun c hc => ?_
    · rw [endsOnTheWay_eq, endsOnTheWay_eq, hport, hback, if_neg fun h => hq h.2]
    · rw [mayHold_iff, hport, ← mayHold_iff]
      exact k.holds c (holds c hc)
  case pos =>
    subst q
    rw [if_pos rfl] at hport
    simp only [and_true] at hback
    by_cases hc : m = .completion
    case neg =>
      obtain ⟨hs, htd, hpath, -, -⟩ := take_stays (u := s.port p) hc
      refine k.keep (by rw [hport, hs]) (by rw [hport, htd]) (fun c => ?_) fun c hh => ?_
      · rw [endsOnTheWay_eq, endsOnTheWay_eq, hport, hpath, hback]
        split
        · subst c
          rw [hm, show m :: rest = [m] ++ rest from rfl, completionsIn_append,
            completionsIn_eq_zero (l := [m]) fun h => hc (List.mem_singleton.1 h).symm, Nat.zero_add]
        · rfl
      · rw [mayHold_iff, hport, hs, hpath, ← mayHold_iff]
        exact k.holds c (holds c hh)
    case pos =>
      subst m
      have hone : completionsIn (s.back b p) = 1 + completionsIn rest := by
        rw [hm, show FromBlock.completion :: rest = [.completion] ++ rest from rfl, completionsIn_append]
        rfl
      have hpos : 0 < (s.port p).pendingTeardowns := by
        by_contra h0
        have := (k.quiet (by omega) b).2
        omega
      have hclosed : (s.port p).session ≠ .opened := fun h => by
        have := k.opened h
        omega
      have hpaths (c : Block) : (t.port p).path c = (s.port p).path c ∧
          (t.port p).pendingTeardowns = (s.port p).pendingTeardowns - 1 := by
        rw [hport]
        change (s.port p).takeCompletion.path c = _ ∧ (s.port p).takeCompletion.pendingTeardowns = _
        obtain ⟨he, -⟩ | ⟨x, -, -, -, he⟩ := takeCompletion_cases (s.port p) <;> rw [he] <;> cases c <;> exact ⟨rfl, rfl⟩
      have hway (c : Block) : t.endsOnTheWay p c + (if c = b then 1 else 0) = s.endsOnTheWay p c := by
        rw [endsOnTheWay_eq, endsOnTheWay_eq, (hpaths c).1, hback]
        split
        · subst c
          rw [hone]
          omega
        · rfl
      have hsum := k.pending
      have hsum' : (t.port p).pendingTeardowns =
          t.endsOnTheWay p .timebase + t.endsOnTheWay p .calendar + t.endsOnTheWay p .router + t.endsOnTheWay p .line := by
        rw [(hpaths b).2, hsum, ← hway, ← hway, ← hway, ← hway]
        cases b <;> simp
        all_goals omega
      refine ⟨hsum', ?_, fun ho => ?_, fun c hh => ?_⟩
      · have := k.once
        have := hway .calendar
        omega
      · rw [(hpaths b).2]
        rw [hport] at ho
        change (s.port p).takeCompletion.session = _ at ho
        obtain ⟨he, -⟩ | ⟨x, h0, -, -, -⟩ := takeCompletion_cases (s.port p)
        · rw [he] at ho
          exact absurd ho hclosed
        · exact h0
      · have may := (mayHold_iff.1 (k.holds c (holds c hh))).resolve_left hclosed
        rw [mayHold_iff, (hpaths c).1]
        exact .inr may

/-! ### A device reset -/

/-- Where nothing is pending, nothing is on its way and the blocks hold nothing, the law stands. -/
theorem tidyAt_empty (ht : (t.port q).pendingTeardowns = 0)
    (hp : ∀ c, (t.port q).path c = []) (hb : ∀ c, t.back c q = []) (hh : ∀ c, ¬ t.Holds c q) : t.TidyAt q := by
  have hway (c : Block) : t.endsOnTheWay q c = 0 := by
    rw [endsOnTheWay_eq, hp, hb]
    rfl
  refine ⟨?_, ?_, fun _ => ht, fun c h => absurd h (hh c)⟩
  · rw [ht, hway, hway, hway, hway]
  · rw [hway]
    exact Nat.zero_le 1

/-! ### Effect by effect -/

theorem Calendar.Gains.mono {c c' : Calendar} {P Q : Port → Prop} (h : c.Gains c' P) (hPQ : ∀ q, P q → Q q) : c.Gains c' Q :=
  ⟨fun n q hq => (h.owner n q hq).imp_right (hPQ q), fun m hm q hq => (h.tied m hm q hq).imp_right (hPQ q), h.back⟩

theorem bare_reportFrom {old r : Router} (folds : Bool) (always : Option Port) (k : r.Bare q) :
    (Router.reportFrom old folds always r).Bare q := by
  obtain ⟨back, he, -⟩ := reportFrom_spec old r folds always
  rw [he]
  exact k

theorem isOpen_of_closed (h : (s.port q).session = .closed) : s.isOpen q = false := by simp [State.isOpen, h]

/-- An event of the Calendar, or one between it and the Router. -/
theorem State.TidyAt.event (k : s.TidyAt q) (hp : t.ports = s.ports)
    (hc : s.calendar.Gains t.calendar fun q => (s.port q).session = .opened)
    (hr : ∀ q, (s.port q).session = .closed → s.router.Bare q → t.router.Bare q)
    (hrb : SameCompletions s.router.back t.router.back)
    (ht : t.timebase.authority = s.timebase.authority ∧ t.timebase.back = s.timebase.back)
    (hl : t.lines.records = s.lines.records ∧ t.lines.back = s.lines.back) : t.TidyAt q := by
  refine k.blocks hp (fun c => ?_) (gains_events (fun q => hc.holds) hr ht.1 hl.1)
  cases c with
  | timebase => simp only [State.back, ht.2]
  | calendar => exact hc.back q
  | router => exact hrb q
  | line => simp only [State.back, hl.2]

/-- An event of the Calendar alone, the Router's and the Line Unit's paths to it apart. -/
theorem State.TidyAt.calendarEvent (k : s.TidyAt q) (hp : t.ports = s.ports)
    (hc : s.calendar.Gains t.calendar fun q => (s.port q).session = .opened)
    (hr : ∀ q, s.router.Bare q → t.router.Bare q) (hrb : t.router.back = s.router.back)
    (ht : t.timebase.authority = s.timebase.authority ∧ t.timebase.back = s.timebase.back)
    (hl : t.lines.records = s.lines.records ∧ t.lines.back = s.lines.back) : t.TidyAt q :=
  k.event hp hc (fun q _ => hr q) (by rw [hrb]; exact sameCompletions_refl _) ht hl

/-- A block answers a request or a status part. -/
theorem State.TidyAt.answered (k : s.TidyAt q) {m : ToBlock} {rest : List ToBlock} (hm : (s.port p).path b = m :: rest)
    (hn : m.isEnd = false) (hp : t.ports = (s.afterTaking b p rest).ports)
    (hb : ∀ c, completionsIn (t.back c q) = completionsIn (s.back c q)) (hg : s.Gains t) : t.TidyAt q := by
  refine k.taken hm hp (fun c => ?_) hg (by simp [hn])
  have : endsIn [m] = 0 := by rw [endsIn, List.countP_singleton, hn]; rfl
  rw [hb, this, ite_self, Nat.add_zero]

/-- A block takes the end of a session. -/
theorem State.TidyAt.ended (k : s.TidyAt q) {e : Byte} {rest : List ToBlock} (hm : (s.port p).path b = .sessionEnd e :: rest)
    (hp : t.ports = (s.afterTaking b p rest).ports)
    (hb : ∀ c, completionsIn (t.back c q) = completionsIn (s.back c q) + if q = p ∧ c = b then 1 else 0)
    (hg : s.Gains t) (hend : ¬ t.Holds b p) : t.TidyAt q := k.taken hm hp hb hg fun _ => hend

/-- While an end of p's session is on a path, the session is CLOSED (R142). -/
theorem State.TidyAt.closed_of_end (k : s.TidyAt p) {e : Byte} {rest : List ToBlock}
    (hm : (s.port p).path b = .sessionEnd e :: rest) : (s.port p).session = .closed := by
  cases hs : (s.port p).session with
  | closed => rfl
  | opened =>
    have h0 := (k.quiet (k.opened hs) b).1
    have : 0 < endsIn ((s.port p).path b) := endsIn_pos.2 ⟨e, by rw [hm]; exact List.mem_cons_self⟩
    omega

theorem State.CanServe.opened {m : Nat} {e : Byte} {r : Request} {rest : List ToBlock} (h : s.CanServe p m e r rest) :
    (s.port p).session = .opened := ((sessionIs_iff s p e).1 h.session).1

theorem State.CanServe.path {m : Nat} {e : Byte} {r : Request} {rest : List ToBlock} (h : s.CanServe p m e r rest)
    (hb : r.block = b) : (s.port p).path b = .request m e r :: rest := hb ▸ h.head

/-- The state after a device reset or a power-on, port by port. -/
theorem tidyAt_reset (hu : ∀ c, (t.port q).path c = [] ∧ (t.port q).pendingTeardowns = 0)
    (hc : t.calendar.toRouter = [] ∧ t.calendar.back = Vector.replicate 4 [] ∧ ∀ n, (t.calendar.slot n).owner = none)
    (hr : t.router = Router.initial) (hl : t.lines = LineUnit.initial)
    (ht : t.timebase.authority = none ∧ t.timebase.back = Vector.replicate 4 []) : t.TidyAt q := by
  obtain ⟨hsend, hcb, hslots⟩ := hc
  obtain ⟨hta, htb⟩ := ht
  have hempty : (Vector.replicate 4 [] : Vector (List FromBlock) 4)[q] = [] := Vector.getElem_replicate q.isLt
  refine tidyAt_empty (hu .timebase).2 (fun c => (hu c).1) (fun c => ?_) fun c hh => ?_
  · cases c with
    | timebase => simp only [State.back, htb, hempty]
    | calendar => simp only [State.back, hcb, hempty]
    | router => simp only [State.back, hr]; exact hempty
    | line => simp only [State.back, hl]; exact hempty
  · cases c with
    | timebase => simp [State.Holds, hta] at hh
    | calendar =>
      obtain ⟨n, hn⟩ | ⟨x, hx, -⟩ := hh
      · simp [hslots] at hn
      · simp [hsend] at hx
    | router => exact hh (by rw [hr]; exact ⟨initial_queue q, initial_stack q, initial_setting q⟩)
    | line =>
      obtain ⟨i, hi⟩ := hh
      have : LineUnit.initial.record i = LineRecord.initial := Vector.getElem_replicate i.isLt
      rw [hl, this] at hi
      cases hi

theorem tidyAt_atRouter {m : Nat} {e : Byte} {r : Request} {rest : List ToBlock} (k : s.TidyAt q)
    (hr : s.CanServe p m e r rest) (hb : r.block = .router) :
    { s.afterTaking .router p rest with
      router := (Router.reportFrom s.router true none (r.onRouter p s.isOpen s.router).1).send p
        (.outcome m (r.onRouter p s.isOpen s.router).2) }.TidyAt q := by
  have back := sameCompletions_reportFrom s.router (r.onRouter p s.isOpen s.router).1 true none
  rw [onRouter_back] at back
  have bare : ∀ q, (s.port q).session = .closed → s.router.Bare q →
      (Router.reportFrom s.router true none (r.onRouter p s.isOpen s.router).1).Bare q := fun q hs hq => by
    have hqp : q ≠ p := by
      rintro rfl
      rw [hr.opened] at hs
      cases hs
    exact bare_reportFrom true none (bare_onRouter r hqp (isOpen_of_closed hs) hq)
  generalize Router.reportFrom s.router true none (r.onRouter p s.isOpen s.router).1 = r' at back bare ⊢
  refine k.answered (hr.path hb) rfl rfl (fun c => ?_) (gains_events (fun q => .inl) bare rfl rfl)
  cases c with
  | router => exact (completions_answer (by simp) _).trans (back q)
  | _ => rfl

theorem tidyAt_routerEnd {e : Byte} {rest : List ToBlock} (k : s.TidyAt q) (hm : (s.port p).path .router = .sessionEnd e :: rest)
    (hs : (s.port p).session = .closed) :
    { s.afterTaking .router p rest with
      router := (Router.reportFrom s.router true (some p) (s.router.tearDown (s.afterTaking .router p rest).isOpen p)).send p
        .completion }.TidyAt q := by
  have closed {q : Port} (h : (s.port q).session = .closed) : (s.afterTaking .router p rest).isOpen q = false :=
    isOpen_of_closed (by rw [afterTaking_session.1, h])
  have back := sameCompletions_reportFrom s.router (s.router.tearDown (s.afterTaking .router p rest).isOpen p) true (some p)
  rw [tearDown_back] at back
  have self := bare_reportFrom (old := s.router) true (some p) (bare_tearDown_self (r := s.router) (closed hs))
  have bare : ∀ q, (s.port q).session = .closed → s.router.Bare q →
      (Router.reportFrom s.router true (some p) (s.router.tearDown (s.afterTaking .router p rest).isOpen p)).Bare q :=
      fun q hq hb => by
    by_cases hqp : q = p
    · subst q
      exact self
    · exact bare_reportFrom true (some p) (bare_tearDown hqp (closed hq) hb)
  generalize Router.reportFrom s.router true (some p) (s.router.tearDown (s.afterTaking .router p rest).isOpen p) = r'
    at back bare self ⊢
  refine k.ended hm rfl (fun c => ?_) (gains_events (fun q => .inl) bare rfl rfl) fun hh => hh self
  cases c with
  | router =>
    refine (completions_completion _).trans ?_
    rw [back q]
    simp [State.back]
  | _ => simp only [reduceCtorEq, and_false, if_false]; rfl

theorem tidyAt_atCalendar {m : Nat} {e : Byte} {r : Request} {rest : List ToBlock} (k : s.TidyAt q)
    (hr : s.CanServe p m e r rest) (hb : r.block = .calendar) :
    { s.afterTaking .calendar p rest with calendar := r.onCalendar p m s.calendar }.TidyAt q := by
  have hc : s.calendar.Gains _ fun q => (s.port q).session = .opened :=
    (gains_onCalendar (m := m) r).mono fun q (hq : q = p) => hq ▸ hr.opened
  generalize r.onCalendar p m s.calendar = c' at hc ⊢
  refine k.answered (hr.path hb) rfl rfl (fun c => ?_) (gains_events (fun q => hc.holds) (fun _ _ => id) rfl rfl)
  cases c with
  | calendar => exact hc.back q
  | _ => rfl

theorem tidyAt_calendarEnd {e : Byte} {rest : List ToBlock} (k : s.TidyAt q)
    (hm : (s.port p).path .calendar = .sessionEnd e :: rest) (hl : s.calendar.SlotLaw) :
    { s.afterTaking .calendar p rest with
      calendar := (s.calendar.endSession p s.timebase.toCalendar.length).send p .completion }.TidyAt q := by
  obtain ⟨hc, hnot⟩ := endSession_holds (P := fun q => (s.port q).session = .opened) p s.timebase.toCalendar.length hl
  generalize s.calendar.endSession p s.timebase.toCalendar.length = c' at hc hnot ⊢
  have hgain : ∀ q, (c'.send p .completion).HoldsFor q → s.calendar.HoldsFor q ∨ (s.port q).session = .opened :=
    fun q hq => hc.holds hq
  have hnot' : ¬ (c'.send p .completion).HoldsFor p := hnot
  refine k.ended hm rfl (fun c => ?_) (gains_events hgain (fun _ _ => id) rfl rfl) hnot'
  cases c with
  | calendar =>
    refine (completions_completion _).trans ?_
    rw [hc.back q]
    simp [State.back]
  | _ => simp only [reduceCtorEq, and_false, if_false]; rfl

theorem tidyAt_timebaseEnd {e : Byte} {rest : List ToBlock} (k : s.TidyAt q)
    (hm : (s.port p).path .timebase = .sessionEnd e :: rest) :
    { s.afterTaking .timebase p rest with timebase := (s.timebase.endSession p).send p .completion }.TidyAt q := by
  have ended : (∀ q, (s.timebase.endSession p).authority = some q → s.timebase.authority = some q) ∧
      (s.timebase.endSession p).authority ≠ some p ∧ (s.timebase.endSession p).back = s.timebase.back := by
    unfold Timebase.endSession
    split
    case isTrue => exact ⟨by simp, by simp, rfl⟩
    case isFalse h => exact ⟨fun _ => id, h, rfl⟩
  obtain ⟨howner, hnot, hback⟩ := ended
  generalize s.timebase.endSession p = t' at howner hnot hback ⊢
  refine k.ended hm rfl (fun c => ?_) (gains_timebase (fun q hq => .inl (howner q hq)) rfl rfl rfl) hnot
  cases c with
  | timebase =>
    refine (completions_completion _).trans ?_
    rw [hback]
    simp [State.back]
  | _ => simp only [reduceCtorEq, and_false, if_false]; rfl

theorem tidyAt_lineEnd {e : Byte} {rest : List ToBlock} (k : s.TidyAt q) (hm : (s.port p).path .line = .sessionEnd e :: rest) :
    { s.afterTaking .line p rest with lines := (s.lines.endSession p).send p .completion }.TidyAt q := by
  have howner := lineEnd_owner (l := s.lines) p
  have hback : (s.lines.endSession p).back = s.lines.back := rfl
  generalize s.lines.endSession p = l' at howner hback ⊢
  refine k.ended hm rfl (fun c => ?_) (gains_line (fun i q hq => .inl ?_) rfl rfl rfl) fun ⟨i, hi⟩ => ?_
  · cases c with
    | line =>
      refine (completions_completion _).trans ?_
      rw [hback]
      simp [State.back]
    | _ => simp only [reduceCtorEq, and_false, if_false]; rfl
  · have hq' : (l'.record i).owner = some q := hq
    rw [howner] at hq'
    split at hq'
    · cases hq'
    · exact hq'
  · have hi' : (l'.record i).owner = some p := hi
    rw [howner] at hi'
    split at hi'
    · cases hi'
    · exact absurd hi' ‹_›

theorem Effect.tidy (h : Effect s t) (hl : s.calendar.SlotLaw) (k : ∀ q, s.TidyAt q) (q : Port) : t.TidyAt q := by
  have kq := k q
  have backed (b : Block) (p : Port) {m : FromBlock} {rest : List ToBlock} (hm : m ≠ .completion) {x : ToBlock}
      (hpath : (s.port p).path b = x :: rest) (hx : x.isEnd = false) :
      ((s.afterTaking b p rest).setBack b p (s.back b p ++ [m])).TidyAt q := by
    refine kq.answered hpath hx (by cases b <;> rfl) (fun c => ?_) fun c q hq => .inl ?_
    · rw [setBack_back]
      split
      · rename_i hcq
        obtain ⟨rfl, rfl⟩ := hcq
        rw [completionsIn_append, completionsIn_eq_zero (l := [m]) fun h => hm (List.mem_singleton.1 h).symm, Nat.add_zero]
      · rw [State.afterTaking, setPort_back]
    · exact setPort_holds.1 (setBack_holds.1 hq)
  have same : s.calendar.Gains s.calendar fun q => (s.port q).session = .opened := calendarGains_refl _
  cases h with
  | nothing => exact kq
  | lowSample => exact kq.calendarEvent rfl same (fun _ => id) rfl ⟨rfl, rfl⟩ ⟨rfl, rfl⟩
  | highSample => exact kq.calendarEvent rfl same (fun _ => id) rfl ⟨rfl, rfl⟩ ⟨rfl, rfl⟩
  | pinTick => exact kq.calendarEvent rfl same (fun _ => id) rfl ⟨rfl, rfl⟩ ⟨rfl, rfl⟩
  | powerOn =>
    refine tidyAt_reset (fun c => ?_) ⟨rfl, rfl, fun n => ?_⟩ rfl rfl ⟨rfl, rfl⟩
    · rw [reset_port]
      cases c <;> exact ⟨rfl, rfl⟩
    · exact congrArg Slot.owner (initial_slot n)
  | deviceReset =>
    refine tidyAt_reset (fun c => ?_) ⟨rfl, rfl, fun n => ?_⟩ rfl rfl ⟨rfl, rfl⟩
    · have : (State.deviceReset { s with rstnLows := s.rstnLows + 1 }).port q = (s.port q).deviceReset := tabulate_get _ q
      rw [this]
      cases c <;> exact ⟨rfl, rfl⟩
    · exact congrArg Slot.owner (tabulate_get _ n)
  | atPort p u hu =>
    obtain ⟨v, b, hv, rfl⟩ := hu.goes
    exact tidyAt_atPort kq (hv.move.before rfl rfl (pathsGain_of_eq fun b => by cases b <;> rfl))
  | message b p m rest hm => exact tidyAt_message hm kq
  | part b p m rest hm => exact backed b p (by simp) hm rfl
  | stale b p m e r rest hm => exact backed b p (by simp) hm rfl
  | atTimebase p m e r rest hr hb =>
    obtain ⟨howner, hback⟩ := onTimebase_authority p r s.timebase
    generalize (r.onTimebase p s.timebase).2 = reply
    generalize (r.onTimebase p s.timebase).1 = t' at howner hback ⊢
    refine kq.answered (hr.path hb) rfl rfl (fun c => ?_)
      (gains_timebase (fun q hq => (howner q hq).imp_right fun h : q = p => h ▸ hr.opened) rfl rfl rfl)
    cases c with
    | timebase => exact (completions_answer (by simp) _).trans (by rw [hback]; rfl)
    | _ => rfl
  | atCalendar p m e r rest hr hb => exact tidyAt_atCalendar kq hr hb
  | atRouter p m e r rest hr hb => exact tidyAt_atRouter kq hr hb
  | atLine p m e r rest hr hb =>
    obtain ⟨howner, hback⟩ := onLine_gains (l := s.lines) p r
    generalize (r.onLine p s.lines).2 = reply
    generalize (r.onLine p s.lines).1 = l' at howner hback ⊢
    refine kq.answered (hr.path hb) rfl rfl (fun c => ?_)
      (gains_line (fun i q hq => (howner i q hq).imp_right fun h : q = p => h ▸ hr.opened) rfl rfl rfl)
    cases c with
    | line => exact (completions_answer (by simp) _).trans (by rw [hback]; rfl)
    | _ => rfl
  | timebaseEnd p e rest hm => exact tidyAt_timebaseEnd kq hm
  | calendarEnd p e rest _ hm => exact tidyAt_calendarEnd kq hm hl
  | routerEnd p e rest u hm hu =>
    subst hu
    exact tidyAt_routerEnd kq hm ((k p).closed_of_end hm)
  | lineEnd p e rest hm => exact tidyAt_lineEnd kq hm
  | tick =>
    obtain ⟨ha, hb⟩ := arrive_keeps s.timebase
    exact kq.calendarEvent rfl same (fun _ => id) rfl ⟨ha, hb⟩ ⟨rfl, rfl⟩
  | delivery d c hd =>
    have hc : s.calendar.Gains (c.fireAllDue d.value) fun q => (s.port q).session = .opened :=
      (gains_delivering hd).trans (gains_fireAllDue _)
    rw [State.finishDelivery]
    generalize c.fireAllDue d.value = c' at hc ⊢
    exact kq.calendarEvent rfl (hc.trans (calendarGains_of_eq rfl (fun _ => id) (sameCompletions_refl _))) (fun _ => id) rfl
      ⟨rfl, rfl⟩ ⟨rfl, rfl⟩
  | fire n d c hd =>
    have hc : s.calendar.Gains (c.fireIfRunning d.value n) fun q => (s.port q).session = .opened :=
      (gains_delivering hd).trans (gains_fireIfRunning _)
    generalize c.fireIfRunning d.value n = c' at hc ⊢
    exact kq.calendarEvent rfl (hc.trans (calendarGains_of_eq rfl (fun _ => id) (sameCompletions_refl _))) (fun _ => id) rfl
      ⟨rfl, rfl⟩ ⟨rfl, rfl⟩
  | edge e j =>
    have hc : s.calendar.Gains (s.calendar.edgeVisit e j 64) fun q => (s.port q).session = .opened := gains_edgeVisit e j 64
    generalize s.calendar.edgeVisit e j 64 = c' at hc ⊢
    exact kq.calendarEvent rfl (hc.trans (calendarGains_of_eq rfl (fun _ => id) (sameCompletions_refl _))) (fun _ => id) rfl
      ⟨rfl, rfl⟩ ⟨rfl, rfl⟩
  | edgePart e j n =>
    have hc : s.calendar.Gains (s.calendar.edgeVisit e j (n.val + 1)) fun q => (s.port q).session = .opened :=
      gains_edgeVisit e j (n.val + 1)
    generalize s.calendar.edgeVisit e j (n.val + 1) = c' at hc ⊢
    exact kq.calendarEvent rfl (hc.trans (calendarGains_of_eq rfl (fun _ => id) (sameCompletions_refl _))) (fun _ => id) rfl
      ⟨rfl, rfl⟩ ⟨rfl, rfl⟩
  | gate e v rest =>
    have hc : s.calendar.Gains (s.calendar.takeGate e v) fun q => (s.port q).session = .opened := gains_takeGate e v
    generalize s.calendar.takeGate e v = c' at hc ⊢
    exact kq.calendarEvent rfl hc (fun _ => id) rfl ⟨rfl, rfl⟩ ⟨rfl, rfl⟩
  | count m rest => exact kq.calendarEvent rfl (gains_count m) (fun _ => id) rfl ⟨rfl, rfl⟩ ⟨rfl, rfl⟩
  | sample levels =>
    obtain ⟨howner, hback⟩ := lineGains_sampleAll (l := s.lines) (P := fun q => (s.port q).session = .opened) levels
    generalize s.lines.sampleAll levels = l' at howner hback ⊢
    refine kq.blocks rfl (fun c => ?_) (gains_line howner rfl rfl rfl)
    cases c <;> simp only [State.back, hback]
  | changeLevel e level =>
    obtain ⟨howner, hback⟩ :=
      (lineGains_refl (P := fun q => (s.port q).session = .opened) s.lines).changeLevel e level
    generalize s.lines.changeLevel e level = l' at howner hback ⊢
    refine kq.blocks rfl (fun c => ?_) (gains_line howner rfl rfl rfl)
    cases c <;> simp only [State.back, hback]
  | binding granted pins m rest =>
    have hc : s.calendar.Gains { s.calendar with toPin := rest } fun q => (s.port q).session = .opened :=
      calendarGains_of_eq rfl (fun _ => id) (sameCompletions_refl _)
    have hc' := hc.trans (gains_takeAnswer granted)
    generalize Calendar.takeAnswer _ granted = c' at hc' ⊢
    exact kq.calendarEvent rfl hc' (fun _ => id) rfl ⟨rfl, rfl⟩ ⟨rfl, rfl⟩
  | pinRequest pins m rest =>
    exact kq.calendarEvent rfl (calendarGains_of_eq rfl (fun _ => id) (sameCompletions_refl _)) (fun _ => id) rfl ⟨rfl, rfl⟩
      ⟨rfl, rfl⟩
  | fireRequest x rest hx =>
    have hc : s.calendar.Gains { s.calendar with toRouter := rest } fun q => (s.port q).session = .opened :=
      calendarGains_of_eq rfl (fun m hm => by rw [hx]; exact List.mem_cons_of_mem _ hm) (sameCompletions_refl _)
    refine kq.event rfl hc (fun q hs hb => bare_reportFrom false none (bare_takeFire x ?_ hb)) ?_ ⟨rfl, rfl⟩ ⟨rfl, rfl⟩
    · simp [State.eligible, isOpen_of_closed hs]
    · exact (losesOn_takeFire _ x).sameCompletions.trans (sameCompletions_reportFrom _ _ _ _)
  | purgeRequest n g rest hx =>
    have hc : s.calendar.Gains { s.calendar with toRouter := rest } fun q => (s.port q).session = .opened :=
      calendarGains_of_eq rfl (fun m hm => by rw [hx]; exact List.mem_cons_of_mem _ hm) (sameCompletions_refl _)
    refine kq.event rfl hc (fun q _ hb => bare_reportFrom false none (bare_purge n g hb)) ?_ ⟨rfl, rfl⟩ ⟨rfl, rfl⟩
    have := sameCompletions_reportFrom s.router (s.router.purge n g) false none
    rwa [purge_back] at this

/-! ### The Port Units' own laws -/

/-- The laws of one Port Unit, with a device reset in progress or not. -/
def PortUnit.Keeps (u v : PortUnit) : Prop := u.AlertLaw ∧ u.HolderLaw → v.AlertLaw ∧ v.HolderLaw

theorem setPath_laws {u : PortUnit} (c : Block) (l : List ToBlock) :
    u.Keeps (u.setPath c l) ∧ (u.setPath c l).link = u.link ∧ (u.setPath c l).prstLow = u.prstLow := by
  refine ⟨fun ⟨ha, hh⟩ => ⟨(alertLaw_congr ?_ ?_ ?_ ?_).2 ha, ?_⟩, ?_, ?_⟩
  case refine_5 =>
    simpa only [PortUnit.HolderLaw, setPath_executing, setPath_response, setPath_pendingTeardowns, setPath_session] using hh
  all_goals cases c <;> rfl

theorem initial_laws {u : PortUnit} (he : u.executing = none) (ht : u.pendingTeardowns = 0) (hl : u.alertLine = false)
    (hs : u.session = .closed) : u.AlertLaw ∧ u.HolderLaw :=
  ⟨by simp [PortUnit.AlertLaw, hl, hs], holderLaw_idle he (ht ▸ Nat.zero_le 4)⟩

/-- What an effect makes of one port: its laws stand, and so does the link law of reset. -/
theorem Effect.port (h : Effect s t) (q : Port) :
    (s.port q).Keeps (t.port q) ∧
      ((s.inReset = true ∨ (s.port q).prstLow = true → (s.port q).link = .idle) →
        t.inReset = true ∨ (t.port q).prstLow = true → (t.port q).link = .idle) := by
  have same (hp : t.ports = s.ports) (hr : t.inReset = true → s.inReset = true) :
      (s.port q).Keeps (t.port q) ∧
        ((s.inReset = true ∨ (s.port q).prstLow = true → (s.port q).link = .idle) →
          t.inReset = true ∨ (t.port q).prstLow = true → (t.port q).link = .idle) := by
    have hport : t.port q = s.port q := by simp only [State.port, hp]
    rw [hport]
    exact ⟨id, fun hs ht => hs (ht.imp_left hr)⟩
  have still (hp : t.ports = s.ports) (hr : t.rstnLows = s.rstnLows) :=
    same hp fun h => by rwa [State.inReset, hr] at h
  have taken {p : Port} {b : Block} {rest : List ToBlock} (hp : t.ports = (s.afterTaking b p rest).ports)
      (hr : t.rstnLows = s.rstnLows) :
      (s.port q).Keeps (t.port q) ∧
        ((s.inReset = true ∨ (s.port q).prstLow = true → (s.port q).link = .idle) →
          t.inReset = true ∨ (t.port q).prstLow = true → (t.port q).link = .idle) := by
    have hport : t.port q = (s.afterTaking b p rest).port q := by simp only [State.port, hp]
    rw [State.afterTaking, setPort_port] at hport
    rw [hport, show t.inReset = s.inReset by rw [State.inReset, hr, State.inReset]]
    split
    · subst q
      obtain ⟨hk, hlink, hprst⟩ := setPath_laws (u := s.port p) b rest
      rw [hlink, hprst]
      exact ⟨hk, id⟩
    · exact ⟨id, id⟩
  cases h with
  | powerOn =>
    rw [reset_port]
    exact ⟨fun _ => initial_laws rfl rfl rfl rfl, fun _ _ => rfl⟩
  | deviceReset =>
    have : (State.deviceReset { s with rstnLows := s.rstnLows + 1 }).port q = (s.port q).deviceReset := tabulate_get _ q
    rw [this]
    exact ⟨fun _ => initial_laws rfl rfl rfl rfl, fun _ _ => rfl⟩
  | lowSample hlow => exact same rfl fun hr => absurd (inReset_iff.1 hr) (Nat.not_le.2 hlow)
  | highSample => exact same rfl fun hr => absurd (inReset_iff.1 hr) (by simp)
  | atPort p u hu =>
    rw [setPort_port, setPort_inReset]
    split
    · subst q
      refine ⟨?_, hu.link⟩
      obtain ⟨v, b, k, rfl⟩ := hu.goes
      exact fun ⟨ha, hh⟩ => ⟨k.alert ha, k.holder hh⟩
    · exact ⟨id, id⟩
  | message b p m rest =>
    rw [setPort_port, setBack_port, setPort_inReset, setBack_inReset]
    split
    · subst q
      refine ⟨take_laws m, ?_⟩
      have hkept : ((s.port p).take m).prstLow = (s.port p).prstLow ∧ ((s.port p).take m).link = (s.port p).link := by
        by_cases hm : m = .completion
        · subst m
          change (s.port p).takeCompletion.prstLow = _ ∧ (s.port p).takeCompletion.link = _
          obtain ⟨he, -⟩ | ⟨x, -, -, -, he⟩ := takeCompletion_cases (s.port p) <;> rw [he] <;> exact ⟨rfl, rfl⟩
        · obtain ⟨-, -, -, h4, h5⟩ := take_stays (u := s.port p) hm
          exact ⟨h4, h5⟩
      rw [hkept.1, hkept.2]
      exact id
    · exact ⟨id, id⟩
  | part b p m rest => exact taken (b := b) (p := p) (rest := rest) (by cases b <;> rfl) (setBack_rstnLows ..)
  | stale b p m e r rest => exact taken (b := b) (p := p) (rest := rest) (by cases b <;> rfl) (setBack_rstnLows ..)
  | atTimebase p m e r rest => exact taken (b := .timebase) (p := p) (rest := rest) rfl rfl
  | atCalendar p m e r rest => exact taken (b := .calendar) (p := p) (rest := rest) rfl rfl
  | atRouter p m e r rest => exact taken (b := .router) (p := p) (rest := rest) rfl rfl
  | atLine p m e r rest => exact taken (b := .line) (p := p) (rest := rest) rfl rfl
  | timebaseEnd p e rest => exact taken (b := .timebase) (p := p) (rest := rest) rfl rfl
  | calendarEnd p e rest =>
    exact taken (b := .calendar) (p := p) (rest := rest) rfl rfl
  | routerEnd p e rest u _ hu =>
    subst hu
    exact taken (b := .router) (p := p) (rest := rest) rfl rfl
  | lineEnd p e rest => exact taken (b := .line) (p := p) (rest := rest) rfl rfl
  | _ => exact still rfl rfl

end

/-- Settles O55, effect by effect. -/
theorem stepKeepsPortLaws : Obligations.StepKeepsPortLaws := by
  intro s t hp h
  obtain rfl | ⟨rest, he⟩ := step_cases h
  · have hback (b : Block) (q : Port) : s.refclkPeriod.back b q = s.back b q ∧
        s.refclkPeriod.timebase.authority = s.timebase.authority := by
      obtain ⟨-, he⟩ | ⟨-, he⟩ := refclk_cases s.timebase <;> cases b <;> simp only [State.refclkPeriod, State.back, he] <;>
        simp [arrive_keeps]
    refine ⟨hp, fun _ hl => (teardownLaw_iff _).2 fun q => ?_, id⟩
    refine ((teardownLaw_iff _).1 hl q).blocks rfl (fun c => by rw [(hback c q).1]) (gains_timebase (fun q hq => .inl ?_) rfl rfl rfl)
    rwa [(hback .timebase q).2] at hq
  · refine ⟨fun q => (he.port q).1 (hp q), fun hs hl => (teardownLaw_iff _).2 ?_, fun hl q => (he.port q).2 (hl q)⟩
    exact Effect.tidy he hs ((teardownLaw_iff _).1 hl)

end Sys2Proof.Machine
end

section
/-! PROOFS. Power-on and the resets (R18, R144 to R146), the laws after power-on, and the refusal of requests whose session has
ended (R136). -/

namespace Sys2Proof.Machine

/-! ### Power-on -/

/-- Settles O60: each law, at the state after power-on. -/
theorem lawsHoldAtPowerOn : Obligations.LawsHoldAtPowerOn := by
  have hport (p : Port) : State.reset.port p = PortUnit.initial := reset_port [] p
  have hclock : State.reset.ClockLaw := clockLaw_reset []
  refine ⟨fun p => ?_, (teardownLaw_iff _).2 fun p => ?_, fun p _ => ?_, rangeLaw_initial, heldLaw_initial,
    lawful_iff_sound.2 sound_initial, timeLaw_iff.2 ⟨hclock.1, hclock.2.1⟩, hclock.2.2, lawful_iff_routerSound.2 sound_initialRouter,
    reportLaw_iff.2 ⟨fun p => ?_, fun p a ha => ?_⟩⟩
  · rw [hport]
    exact initial_laws rfl rfl rfl rfl
  · refine tidyAt_reset (fun c => ?_) ⟨rfl, rfl, fun n => ?_⟩ rfl rfl ⟨rfl, rfl⟩
    · rw [hport]
      cases c <;> exact ⟨rfl, rfl⟩
    · exact congrArg Slot.owner (initial_slot n)
  · rw [hport]
    rfl
  · rw [hport]
    exact quiet_sized
  · have hback : State.reset.router.back[p] = [] := Vector.getElem_replicate p.isLt
    rw [hback] at ha
    cases ha

/-- Settles O6: the fields of the state after power-on, read off part by part. -/
theorem restAtPowerOn : Obligations.RestAtPowerOn := by
  refine ⟨rfl, fun s => ⟨_, exec_powerOn s, rfl, rfl, ⟨rfl, rfl, rfl, rfl, rfl, rfl, rfl, rfl, rfl, rfl⟩, ⟨rfl, fun e => ?_⟩,
    fun e => ?_, fun o => ?_, fun p => ?_⟩⟩
  · exact Vector.getElem_replicate e.isLt
  · exact Vector.getElem_replicate e.isLt
  · exact Vector.getElem_replicate o.isLt
  · rw [reset_port]
    exact ⟨rfl, rfl, rfl, rfl, rfl, rfl, rfl, rfl, rfl, rfl, rfl, rfl, rfl, rfl, rfl, rfl, rfl⟩

/-! ### Device reset -/

theorem exec_deviceReset (s : State) :
    exec .deviceReset s =
      if s.inReset then .next s
      else
        .next (if { s with rstnLows := s.rstnLows + 1 }.inReset then { s with rstnLows := s.rstnLows + 1 }.deviceReset
          else { s with rstnLows := s.rstnLows + 1 }) := rfl

/-- What the eighth low sample in a row makes of the state, part by part. -/
theorem exec_deviceReset_of_eighth {s : State} (h : s.rstnLows = 7) :
    exec .deviceReset s = .next { s with rstnLows := 8 }.deviceReset := by
  have h7 : ¬ s.inReset = true := fun hr => by
    have := inReset_iff.1 hr
    omega
  have h8 : { s with rstnLows := s.rstnLows + 1 }.inReset = true := inReset_iff.2 (Nat.le_of_eq (congrArg (· + 1) h.symm))
  rw [exec_deviceReset, if_neg h7, if_pos h8, h]

/-- Settles O7: by the number of low samples in a row. -/
theorem deviceReset : Obligations.DeviceReset := by
  refine ⟨fun _ => rfl, fun s h => ?_, fun s h => ?_, fun s h => ⟨_, exec_deviceReset_of_eighth h, rfl, rfl, rfl, fun n => ?_,
    ⟨rfl, rfl, rfl, rfl, rfl, rfl, rfl, rfl⟩, rfl, rfl, rfl, fun p => ?_⟩⟩
  · have h0 : ¬ s.inReset = true := fun hr => by
      have := inReset_iff.1 hr
      omega
    have h1 : ¬ { s with rstnLows := s.rstnLows + 1 }.inReset = true := fun hr => by
      have := inReset_iff.1 hr
      dsimp only at this
      omega
    rw [exec_deviceReset, if_neg h0, if_neg h1]
  · rw [exec_deviceReset, if_pos (inReset_iff.2 h)]
  · have hslot : State.reset.calendar.slot n = Slot.initial := initial_slot n
    rw [hslot]
    exact tabulate_get _ n
  · have hport : State.reset.port p = PortUnit.initial := reset_port [] p
    rw [hport]
    exact tabulate_get _ p

/-! ### Port reset -/

/-- What a port reset makes of the Port Unit. -/
theorem portReset_eq (u : PortUnit) {sent : List ToBlock} (h : sent = if u.session = .opened then [.sessionEnd u.epoch] else []) :
    u.portReset =
      { session := .closed, epoch := u.epoch, pendingTeardowns := if u.session = .opened then 4 else u.pendingTeardowns,
        link := .idle, buffer := [], out := [], shownReady := false, executing := none, nextMark := u.nextMark,
        response := none, refusedFlag := false, checkFlag := false, lostFlag := false, refused := 0, checkFailures := 0,
        badFrames := 0, lostNotices := 0, alertReport := AlertReport.quiet, alertLine := false, prstLow := true,
        toTimebase := u.toTimebase ++ sent, toCalendar := u.toCalendar ++ sent, toRouter := u.toRouter ++ sent,
        toLine := u.toLine ++ sent } := by
  subst h
  cases hs : u.session <;>
    simp [PortUnit.portReset, hs, PortUnit.endSession, sendAll_eq, PortUnit.clearPort, PortUnit.clearCounters, PortUnit.drive,
      PortUnit.alertLevel]

/-- Settles O8: PRSTn low clears the port, and ends its session if one is OPEN. -/
theorem portReset : Obligations.PortReset := by
  refine ⟨fun _ _ => rfl, fun s p sent hp hsent => ?_⟩
  change execPortReset p s = _
  rw [execPortReset, hp, portReset_eq _ hsent]
  rfl

/-! ### Stale requests -/

/-- Settles O9: at each of the four blocks. -/
theorem staleRequestRefused : Obligations.StaleRequestRefused := by
  intro s p m e r rest hh hfree hs
  have hstale : ¬ s.sessionIs p e = true := fun h => hs ((sessionIs_iff s p e).1 h)
  cases hb : r.block with
  | timebase => rw [exec_command_timebase hh hb, if_neg hstale]
  | calendar => rw [exec_command_calendar hh hb (hfree hb), if_neg hstale]
  | router => rw [exec_command_router hh hb, if_neg hstale]
  | line => rw [exec_command_line hh hb, if_neg hstale]

end Sys2Proof.Machine
end

section
/-! PROOFS. Timebase writes, tick arrivals and slew steps (R4, R5, R10 to R13, R16, R17), and the end of a session at the Timebase and
at the Line Unit (R20, R85). -/

namespace Sys2Proof.Machine

/-! ### Timebase writes -/

section
variable {t : Timebase} {p : Port} {w : TimeWrite}

theorem inRange_iff : t.inRange w = true ↔ w.InRange t.time := by
  cases w with
  | set v => simp [Timebase.inRange, TimeWrite.InRange, signedDiff]
  | adjust a sp =>
    have := sp.isLt
    simp [Timebase.inRange, TimeWrite.InRange]
    omega
  | tick d => simp [Timebase.inRange, TimeWrite.InRange]

theorem accept_of_not_holder (ha : t.authority ≠ some p) : t.accept p w = (t, Reply.bare .notAuthority) := if_pos ha

theorem accept_of_pending (ha : t.authority = some p) (hw : t.pendingWrite ≠ none) : t.accept p w = (t, Reply.bare .busy) := by
  simp [Timebase.accept, ha, Option.isSome_iff_ne_none.2 hw]

theorem accept_of_out_of_range (ha : t.authority = some p) (hw : t.pendingWrite = none) (hr : ¬ w.InRange t.time) :
    t.accept p w = (t, Reply.bare .badField) := by
  simp [Timebase.accept, ha, hw, inRange_iff, hr]

theorem accept_of_in_range (ha : t.authority = some p) (hw : t.pendingWrite = none) (hr : w.InRange t.time) :
    t.accept p w = ({ t with pendingWrite := some { write := w, issuer := p } }, Reply.bare .accepted) := by
  simp [Timebase.accept, ha, hw, inRange_iff, hr]

theorem onTimebase_of_write {r : Request} (h : r.write? = some w) :
    r.block = .timebase ∧ r.onTimebase p = Timebase.accept p w := by
  cases r with
  | timeSet v => cases h; exact ⟨rfl, rfl⟩
  | timeAdjust a sp => cases h; exact ⟨rfl, rfl⟩
  | timeTick d => cases h; exact ⟨rfl, rfl⟩
  | _ => cases h

/-- A write that can be taken is judged by the Timebase. -/
theorem exec_write_of_canServe {s : State} {m : Nat} {e : Byte} {r : Request} {rest : List ToBlock} (hw : r.write? = some w)
    (hc : s.CanServe p m e r rest) :
    exec (r.command p) s = .next { s.afterTaking .timebase p rest with
      timebase := (s.timebase.accept p w).1.send p (.outcome m (s.timebase.accept p w).2) } := by
  obtain ⟨hb, ha⟩ := onTimebase_of_write (p := p) hw
  rw [exec_command_timebase hc.head hb, if_pos hc.session, ha]

end

/-- Settles O12: the checks of R10 in their order. -/
theorem timeWrites : Obligations.TimeWrites := by
  intro s p m e rest r w hw hc
  rw [exec_write_of_canServe hw hc]
  refine ⟨fun ha => ?_, fun ha hp => ?_, fun ha hp hr => ?_, fun ha hp hr => ?_⟩
  · rw [accept_of_not_holder ha, refuses_timebase]
  · rw [accept_of_pending ha hp, refuses_timebase]
  · rw [accept_of_out_of_range ha hp hr, refuses_timebase]
  · rw [accept_of_in_range ha hp hr, timebase_send_bare]

/-! ### Ticks -/

section
variable {t : Timebase}

theorem arrive_of_no_write (hw : t.pendingWrite = none) : t.arrive = Timebase.plainTick { t with phase := 0 } := by
  have : { t with phase := 0, pendingWrite := none } = { t with phase := 0 } := by rw [← hw]
  simp only [Timebase.arrive, hw, this]

theorem arrive_of_tick {d : BitVec 24} {q : Port} (hw : t.pendingWrite = some { write := .tick d, issuer := q }) :
    t.arrive = Timebase.plainTick { t with phase := 0, pendingWrite := none, divisor := d.setWidth 17 } := by
  simp only [Timebase.arrive, hw]

theorem arrive_of_set {v : Time} {q : Port} (hw : t.pendingWrite = some { write := .set v, issuer := q }) :
    t.arrive = Timebase.applySet { t with phase := 0, pendingWrite := none } v := by
  simp only [Timebase.arrive, hw]

theorem arrive_of_adjust {a : BitVec 24} {sp : BitVec 16} {q : Port}
    (hw : t.pendingWrite = some { write := .adjust a sp, issuer := q }) :
    t.arrive = Timebase.applyAdjust { t with phase := 0, pendingWrite := none } a sp := by
  simp only [Timebase.arrive, hw]

theorem plainTick_of_no_slew (h : t.slewRemaining = 0) : t.plainTick = t.advance 1 := if_pos h

theorem slewStepNext_iff : t.slewStepNext = true ↔ t.slewRemaining ≠ 0 ∧ t.countdown.toNat ≤ 1 := by
  simp [Timebase.slewStepNext]

theorem plainTick_of_countdown (h : t.slewRemaining ≠ 0) (hc : 2 ≤ t.countdown.toNat) :
    t.plainTick = Timebase.advance { t with countdown := t.countdown - 1 } 1 := by
  have : ¬ t.slewStepNext = true := fun hs => by
    have := (slewStepNext_iff.1 hs).2
    omega
  rw [Timebase.plainTick, if_neg h, if_neg this]

theorem plainTick_of_gain (h : t.slewStepNext = true) (hd : t.slewDirection = .gain) :
    t.plainTick = Timebase.advance { t with slewRemaining := t.slewRemaining - 1, countdown := t.slewSpacing } 2 := by
  simp only [Timebase.plainTick, if_neg (slewStepNext_iff.1 h).1, if_pos h, hd]

theorem plainTick_of_lose (h : t.slewStepNext = true) (hd : t.slewDirection = .lose) :
    t.plainTick = { t with slewRemaining := t.slewRemaining - 1, countdown := t.slewSpacing } := by
  simp only [Timebase.plainTick, if_neg (slewStepNext_iff.1 h).1, if_pos h, hd]

/-- A tick that no SET or ADJUST takes, with the divisor that a pending TICK leaves (R13, R16). -/
theorem arrive_of_divisor {q : Port} {div : BitVec 17}
    (h : (t.pendingWrite = none ∧ div = t.divisor) ∨
      ∃ d, t.pendingWrite = some { write := .tick d, issuer := q } ∧ div = d.setWidth 17) :
    t.arrive = Timebase.plainTick { t with phase := 0, pendingWrite := none, divisor := div } := by
  obtain ⟨hw, rfl⟩ | ⟨d, hw, rfl⟩ := h
  · rw [arrive_of_no_write hw, ← hw]
  · exact arrive_of_tick hw

theorem arrivesAsSlewStep_iff {q : Port} {div : BitVec 17}
    (h : (t.pendingWrite = none ∧ div = t.divisor) ∨
      ∃ d, t.pendingWrite = some { write := .tick d, issuer := q } ∧ div = d.setWidth 17) :
    t.arrivesAsSlewStep = t.slewStepNext := by
  obtain ⟨hw, -⟩ | ⟨d, hw, -⟩ := h <;> simp only [Timebase.arrivesAsSlewStep, hw, Bool.and_true]

end

theorem exec_tickArrival (s : State) : exec .tickArrival s = .next { s with timebase := s.timebase.arrive } := rfl

theorem exec_slewStep (s : State) :
    exec .slewStep s = if s.timebase.arrivesAsSlewStep then exec .tickArrival s else .next s := rfl

/-- Settles O13, by the write that is pending. -/
theorem tickArrivals : Obligations.TickArrivals := by
  intro s q
  refine ⟨fun hw hs => ?_, fun v hw => ?_, fun a sp hw ha => ?_, fun d hw hs => ?_⟩
  · rw [exec_tickArrival, arrive_of_no_write hw, plainTick_of_no_slew]
    exacts [rfl, hs]
  · exact ⟨_, _, by rw [exec_tickArrival, arrive_of_set hw]; rfl⟩
  · rw [exec_tickArrival, arrive_of_adjust hw, Timebase.applyAdjust]
    by_cases h0 : a.toInt = 0
    · refine ⟨s.timebase.slewDirection, s.timebase.slewSpacing, s.timebase.countdown, ?_, fun h => absurd h0 h⟩
      rw [if_pos h0, h0]
      rfl
    · refine ⟨if 0 < a.toInt then .gain else .lose, sp, sp, ?_, fun _ => ⟨rfl, rfl, fun h => if_pos h, fun h => if_neg ?_⟩⟩
      · rw [if_neg h0]
        rfl
      · omega
  · rw [exec_tickArrival, arrive_of_tick hw, plainTick_of_no_slew]
    exacts [rfl, hs]

/-- Settles O14, by the countdown and the direction of the slew. -/
theorem slewTicks : Obligations.SlewTicks := by
  intro s q div hs hw
  have harrive := arrive_of_divisor hw
  have hnext := arrivesAsSlewStep_iff hw
  refine ⟨fun hc => ⟨?_, ?_⟩, fun hc => ?_⟩
  · have : ¬ s.timebase.slewStepNext = true := fun h => by
      have := (slewStepNext_iff.1 h).2
      omega
    rw [exec_slewStep, hnext, if_neg this]
  · rw [exec_tickArrival, harrive, plainTick_of_countdown]
    exacts [rfl, hs, hc]
  · have hstep : s.timebase.slewStepNext = true := slewStepNext_iff.2 ⟨hs, by rw [hc]; decide⟩
    have hexec : exec .slewStep s = exec .tickArrival s := by rw [exec_slewStep, hnext, if_pos hstep]
    refine ⟨hexec.symm, fun hd => ?_, fun hd => ?_⟩
    · rw [hexec, exec_tickArrival, harrive, plainTick_of_gain]
      exacts [rfl, hstep, hd]
    · rw [hexec, exec_tickArrival, harrive, plainTick_of_lose]
      exacts [hstep, hd]

/-! ### Session ends -/

/-- Settles O15: each block gives up what the port held, and answers with a completion. -/
theorem sessionEndAtTimebaseAndLines : Obligations.SessionEndAtTimebaseAndLines := by
  intro s p e rest
  refine ⟨fun h => ?_, fun h => ⟨(s.lines.endSession p).records, ?_, fun i => ?_⟩⟩
  · have he : (s.afterTaking .timebase p rest).timebase.endSession p =
        { s.timebase with authority := if s.timebase.authority = some p then none else s.timebase.authority } := by
      unfold Timebase.endSession
      rw [State.afterTaking, setPort_timebase]
      split <;> rfl
    change execTimebaseSessionEnd p s = _
    simp only [execTimebaseSessionEnd, takeSessionEnd_of_head (b := .timebase) h, he]
    rfl
  · change execLineSessionEnd p s = _
    simp only [execLineSessionEnd, takeSessionEnd_of_head (b := .line) h]
    rfl
  · refine (tabulate_get _ i).trans ?_
    dsimp only
    split <;> rfl

end Sys2Proof.Machine
end

section
/-! PROOFS. The output pins (R33, R34, R87 to R90): the requests of the Calendar, and delivered ticks. -/

namespace Sys2Proof.Machine

section
variable {u : PinUnit} {o i : PinNo}

/-! ### Bindings (R87) -/

theorem pinRefuses_iff {new : Option PinNo} {n : SlotNo} :
    u.refuses new n = true ↔ ∃ o k, new = some o ∧ (u.record o).bound = some k ∧ k ≠ n := by
  cases new with
  | none => simp [PinUnit.refuses]
  | some o => cases hb : (u.record o).bound <;> simp [PinUnit.refuses, PinRecord.boundToOther, hb]

/-- An old pin that is not the new one is unbound; all others stay. -/
theorem dropOld_record (old new : Option PinNo) :
    (u.dropOld old new).record i = if old = some i ∧ new ≠ some i then PinRecord.initial else u.record i := by
  cases old with
  | none => simp [PinUnit.dropOld]
  | some o =>
    by_cases ho : i = o
    · subst i
      by_cases hn : new = some o <;> simp [PinUnit.dropOld, PinUnit.unbindPin, hn]
    · have ho' : ¬ o = i := fun h => ho h.symm
      by_cases hn : new = some o <;> simp [PinUnit.dropOld, PinUnit.unbindPin, hn, ho, ho']

variable {old new : Option PinNo} {action : PinAction} {n : SlotNo}

theorem takeNew_record_of_ne (h : new ≠ some i) : (u.takeNew old new action n).record i = u.record i := by
  cases new with
  | none => rfl
  | some o =>
    have hi : ¬ i = o := fun e => h (e ▸ rfl)
    unfold PinUnit.takeNew
    dsimp only
    split_ifs <;> simp [hi]

theorem takeNew_record_of_kept (ho : old = some i) (ha : (u.record i).action = action) :
    (u.takeNew old (some i) action n).record i = u.record i := by
  simp [PinUnit.takeNew, ho, ha]

theorem takeNew_record_of_action (ho : old = some i) (ha : (u.record i).action ≠ action) :
    (u.takeNew old (some i) action n).record i = { u.record i with action := action, level := false, pulseTime := none } := by
  simp [PinUnit.takeNew, ho, ha]

theorem takeNew_record_of_free (ho : old ≠ some i) (hb : (u.record i).bound = none) :
    (u.takeNew old (some i) action n).record i = { u.record i with bound := some n, action := action } := by
  simp [PinUnit.takeNew, ho, hb]

/-- What a granted binding makes of each pin. -/
theorem bind_record (i : PinNo) :
    (new ≠ some i → old = some i → (u.bind old new action n).record i = PinRecord.initial) ∧
    (new ≠ some i → old ≠ some i → (u.bind old new action n).record i = u.record i) ∧
    (new = some i → old = some i → (u.record i).action = action → (u.bind old new action n).record i = u.record i) ∧
    (new = some i → old = some i → (u.record i).action ≠ action →
      (u.bind old new action n).record i = { u.record i with action := action, level := false, pulseTime := none }) ∧
    (new = some i → old ≠ some i → (u.record i).bound = none →
      (u.bind old new action n).record i = { u.record i with bound := some n, action := action }) := by
  have drop := dropOld_record (u := u) (i := i) old new
  unfold PinUnit.bind
  refine ⟨fun hn ho => ?_, fun hn ho => ?_, fun hn ho ha => ?_, fun hn ho ha => ?_, fun hn ho hb => ?_⟩
  · rw [takeNew_record_of_ne hn, drop, if_pos ⟨ho, hn⟩]
  · rw [takeNew_record_of_ne hn, drop, if_neg fun h => ho h.1]
  all_goals
    rw [if_neg fun h => h.2 hn] at drop
    subst hn
    rw [← drop]
  · exact takeNew_record_of_kept ho (by rw [drop, ha])
  · exact takeNew_record_of_action ho (by rwa [drop])
  · exact takeNew_record_of_free ho (by rw [drop, hb])

/-- A grant touches the pin records alone. -/
theorem bind_eq : u.bind old new action n = { u with records := (u.bind old new action n).records } := by
  have drop : ∀ u : PinUnit, (u.dropOld old new).tickBegun = u.tickBegun := fun u => by
    unfold PinUnit.dropOld
    split
    · split <;> rfl
    · rfl
  have take : ∀ u : PinUnit, (u.takeNew old new action n).tickBegun = u.tickBegun := fun u => by
    unfold PinUnit.takeNew
    split
    · rfl
    · dsimp only
      split_ifs <;> rfl
  have : (u.bind old new action n).tickBegun = u.tickBegun := (take _).trans (drop u)
  rw [← this]

/-! ### Delivered ticks (R89) -/

theorem pulseEndsAt_iff {x : PinRecord} {t : Time} : x.pulseEndsAt t = true ↔ ∃ v, x.pulseTime = some v ∧ v ≠ t := by
  cases hp : x.pulseTime <;> simp [PinRecord.pulseEndsAt, hp]

theorem ticked_of_ends {x : PinRecord} {t v : Time} (hp : x.pulseTime = some v) (hv : v ≠ t) :
    x.ticked t = { x with level := false, pulseTime := none } := if_pos (pulseEndsAt_iff.2 ⟨v, hp, hv⟩)

theorem ticked_of_stays {x : PinRecord} {t : Time} (h : x.pulseTime = none ∨ x.pulseTime = some t) : x.ticked t = x := by
  refine if_neg fun he => ?_
  obtain ⟨v, hp, hv⟩ := pulseEndsAt_iff.1 he
  rw [hp] at h
  obtain h | h := h
  · cases h
  · exact hv (Option.some.inj h)

theorem tick_record (t : Time) : (u.tick t).record i = (u.record i).ticked t := tabulate_get _ i

/-- A pulse that has ended once stays ended. -/
theorem ticked_ticked (x : PinRecord) (t : Time) : (x.ticked t).ticked t = x.ticked t := by
  by_cases h : x.pulseEndsAt t = true
  · obtain ⟨v, hp, hv⟩ := pulseEndsAt_iff.1 h
    rw [ticked_of_ends hp hv]
    exact ticked_of_stays (.inl rfl)
  · rw [show x.ticked t = x from if_neg h]
    exact if_neg h

/-- The end of one pulse before the tick changes nothing in what the tick does. -/
theorem tick_setRecord (t : Time) : ((u.setRecord o ((u.record o).ticked t)).tick t).records = (u.tick t).records := by
  refine vector_ext_fin fun i => ?_
  have h1 := tick_record (u := u.setRecord o ((u.record o).ticked t)) (i := i) t
  have h2 := tick_record (u := u) (i := i) t
  rw [pin_setRecord_record] at h1
  refine h1.trans (Eq.trans ?_ h2.symm)
  split
  · subst i
    exact ticked_ticked _ t
  · rfl

end

/-! ### The statements -/

section
variable {s : State} {m : PinRequest} {rest : List PinRequest}

theorem pinRequest_of_head (hb : s.pins.tickBegun = false) (h : s.calendar.toPin = m :: rest) :
    s.pinRequest = some (m, { s with calendar := { s.calendar with toPin := rest } }) := by
  simp only [State.pinRequest, hb, h]

theorem exec_pinDeliveredTick_of_head {t : Time} {rest : List Time} (h : s.timebase.toPin = t :: rest) :
    exec .pinDeliveredTick s = .next { s with
      timebase := { s.timebase with toPin := rest }, pins := { s.pins.tick t with tickBegun := false } } := by
  change execPinDeliveredTick s = _
  simp only [execPinDeliveredTick, h]

theorem exec_pulseEnd_of_ends {t v : Time} {o : PinNo} {rest : List Time} (h : s.timebase.toPin = t :: rest)
    (hp : (s.pins.record o).pulseTime = some v) (hv : v ≠ t) :
    exec (.pulseEnd o) s = .next { s with
      pins := { s.pins.setRecord o ((s.pins.record o).ticked t) with tickBegun := true } } := by
  change execPulseEnd o s = _
  simp only [execPulseEnd, h, pulseEndsAt_iff.2 ⟨v, hp, hv⟩, if_true]

end

/-- Settles O19: the Calendar asks, and takes the Pin Unit's answer. -/
theorem slotConfigureWithPin : Obligations.SlotConfigureWithPin := by
  refine ⟨fun s p m e h f n c rest hc ho hs hf hp => ?_, fun s w old new action rest hb hw ht => ⟨fun hr => ?_, fun hr => ?_⟩⟩
  · have hask := configure_asks (m := m) (p := p) hs hf hp
    rw [exec_slotConfigure_of_canServe hc, withSlot_of_owns ho, hask]
    rfl
  · change execBindingRequest s = _
    simp only [execBindingRequest, pinRequest_of_head hb ht, pinRefuses_iff.2 hr, if_true, Calendar.takeAnswer, hw]
    rfl
  · refine ⟨(s.pins.bind old new action w.slot).records, ?_, bind_record⟩
    have hno : ¬ s.pins.refuses new w.slot = true := fun h => by
      obtain ⟨o, k, hn, hk, hne⟩ := pinRefuses_iff.1 h
      exact hne (hr o k hn hk)
    change execBindingRequest s = _
    simp only [execBindingRequest, pinRequest_of_head hb ht, hno, Calendar.takeAnswer, hw]
    rw [← bind_eq]
    rfl

/-- Settles O37, request by request; a PULSE_END is a part of the tick that follows. -/
theorem pinRequestsAndTicks : Obligations.PinRequestsAndTicks := by
  refine ⟨fun s o rest hb => ⟨fun action t h => ?_, fun h => ?_, fun h => ?_⟩, fun s t rest h =>
    ⟨⟨_, exec_pinDeliveredTick_of_head h, fun o => ⟨fun hp => ?_, fun v hp hv => ?_⟩⟩, fun o v hp hv => ?_⟩⟩
  · change execFireAction s = _
    simp only [execFireAction, pinRequest_of_head hb h]
    cases action <;> rfl
  · change execDriveLow s = _
    simp only [execDriveLow, pinRequest_of_head hb h]
    rfl
  · change execUnbind s = _
    simp only [execUnbind, pinRequest_of_head hb h]
    rfl
  · exact (tick_record t).trans (ticked_of_stays hp)
  · exact (tick_record t).trans (ticked_of_ends hp hv)
  · refine ⟨_, exec_pulseEnd_of_ends h hp hv, ?_, ?_⟩
    · rw [ticked_of_ends hp hv]
      rfl
    · rw [exec_pinDeliveredTick_of_head h]
      refine (exec_pinDeliveredTick_of_head (by exact h)).trans ?_
      exact congrArg (fun r => (.next { s with
        timebase := { s.timebase with toPin := rest }, pins := { records := r, tickBegun := false } } : Result)) (tick_setRecord t)

end Sys2Proof.Machine
end

section
/-! PROOFS. The lines (R74 to R84): what a sample and a line command make of one record, and what they send the Calendar. -/

namespace Sys2Proof.Machine

/-! ### Edges and level changes (R75, R76) -/

/-- The sense qualifies a change to level `v` (R75). -/
theorem qualifies_iff {x : Sense} {v : Bool} :
    x.qualifies v = true ↔ x = .both ∨ (x = .rise ∧ v = true) ∨ (x = .fall ∧ v = false) := by
  cases x <;> simp [Sense.qualifies]

/-- The record after its accepted level changed to `v`. -/
def LineRecord.changed (x : LineRecord) (v : Bool) : LineRecord :=
  { x with
    accepted := v, run := 0, held := x.held || (x.sense.qualifies v && !x.enabled),
    edgeCount := if x.sense.qualifies v && x.enabled then x.edgeCount + 1 else x.edgeCount }

/-- What a change of line `i` to level `v` sends the Calendar. -/
def LineRecord.changeSends (x : LineRecord) (i : LineNo) (v : Bool) : List LineMessage :=
  .gate i x.enabled v :: (if x.sense.qualifies v && x.enabled then [.edge i] else [])

section
variable {l : LineUnit} {i : LineNo}

/-- A record replaced and reported (R47, R75). -/
theorem report_setRecord (x : LineRecord) :
    (l.setRecord i x).report i =
      { l with records := setAt l.records i x, toCalendar := l.toCalendar ++ [.gate i x.enabled x.accepted] } := by
  simp [LineUnit.report, LineUnit.setRecord, LineUnit.record]

theorem qualifyingEdge_of_enabled (he : (l.record i).enabled = true) :
    l.qualifyingEdge i =
      { l with
        records := setAt l.records i { l.record i with edgeCount := (l.record i).edgeCount + 1 },
        toCalendar := l.toCalendar ++ [.edge i] } := if_pos he

theorem qualifyingEdge_of_disabled (he : (l.record i).enabled = false) :
    l.qualifyingEdge i = l.setRecord i { l.record i with held := true } := if_neg (by simp [he])

theorem changeLevel_eq (v : Bool) :
    l.changeLevel i v =
      { l with
        records := setAt l.records i ((l.record i).changed v), toCalendar := l.toCalendar ++ (l.record i).changeSends i v } := by
  rw [LineUnit.changeLevel, report_setRecord]
  unfold LineRecord.changed LineRecord.changeSends
  generalize l.record i = x
  cases hq : x.sense.qualifies v with
  | false => simp
  | true =>
    cases he : x.enabled with
    | false =>
      rw [if_pos rfl, qualifyingEdge_of_disabled (by simp [LineUnit.record, he])]
      simp [LineUnit.setRecord, LineUnit.record, he]
    | true =>
      rw [if_pos rfl, qualifyingEdge_of_enabled (by simp [LineUnit.record, he])]
      simp [LineUnit.record, he]

/-- The record after a sample at `v` (R74). -/
def LineRecord.sampled (x : LineRecord) (v : Bool) : LineRecord :=
  if v = x.accepted then { x with run := 0 }
  else if x.filter.toNat ≤ x.run.toNat then x.changed v
  else { x with run := x.run + 1 }

theorem accepts_iff {x : LineRecord} {v : Bool} : x.accepts v = true ↔ v ≠ x.accepted ∧ x.filter.toNat ≤ x.run.toNat := by
  simp [LineRecord.accepts]

theorem sampleSends_of_accepts {x : LineRecord} {v : Bool} (h : x.accepts v = true) :
    x.sampleSends i v = x.changeSends i v := by
  rw [LineRecord.sampleSends, if_pos (accepts_iff.1 h), LineRecord.changeSends, Bool.and_comm]
  cases x.sense <;> rfl

theorem sampleSends_of_not_accepts {x : LineRecord} {v : Bool} (h : ¬ x.accepts v = true) : x.sampleSends i v = [] :=
  if_neg fun k => h (accepts_iff.2 k)

theorem sample_eq (v : Bool) :
    l.sample i v =
      { l with
        records := setAt l.records i ((l.record i).sampled v), toCalendar := l.toCalendar ++ (l.record i).sampleSends i v } := by
  by_cases ha : (l.record i).accepts v = true
  · obtain ⟨hv, hr⟩ := accepts_iff.1 ha
    rw [LineUnit.sample, if_neg hv, if_pos ha, changeLevel_eq, LineRecord.sampled, if_neg hv, if_pos hr, sampleSends_of_accepts ha]
  · rw [sampleSends_of_not_accepts ha, List.append_nil]
    by_cases hv : v = (l.record i).accepted
    · rw [LineUnit.sample, if_pos hv, LineRecord.sampled, if_pos hv]
      rfl
    · have hr : ¬ (l.record i).filter.toNat ≤ (l.record i).run.toNat := fun h => ha (accepts_iff.2 ⟨hv, h⟩)
      rw [LineUnit.sample, if_neg hv, if_neg ha, LineRecord.sampled, if_neg hv, if_neg hr]
      rfl

/-- Events of different lines, taken one after another, each change their own record and send their own messages. -/
theorem foldl_lines {f : LineUnit → LineNo → LineUnit} {x : LineNo → LineRecord → LineRecord}
    {sends : LineNo → LineRecord → List LineMessage}
    (hf : ∀ l e, f l e =
      { l with records := setAt l.records e (x e (l.record e)), toCalendar := l.toCalendar ++ sends e (l.record e) })
    (es : List LineNo) (hn : es.Nodup) (l : LineUnit) :
    es.foldl f l =
        { l with records := (es.foldl f l).records, toCalendar := l.toCalendar ++ es.flatMap fun e => sends e (l.record e) } ∧
      ∀ i, (es.foldl f l).record i = if i ∈ es then x i (l.record i) else l.record i := by
  induction es generalizing l with
  | nil => simp
  | cons e es ih =>
    obtain ⟨he, hn⟩ := List.nodup_cons.1 hn
    obtain ⟨hl, hr⟩ := ih hn (f l e)
    have hrec (i : LineNo) : (f l e).record i = if i = e then x e (l.record e) else l.record i := by
      rw [hf]
      exact setAt_get ..
    have hsends : (es.flatMap fun i => sends i ((f l e).record i)) = es.flatMap fun i => sends i (l.record i) :=
      List.flatMap_congr fun i hi => by rw [hrec, if_neg fun h : i = e => he (h ▸ hi)]
    refine ⟨?_, fun i => ?_⟩
    · rw [List.foldl_cons, hl, hsends, hf, List.flatMap_cons, List.append_assoc]
    · rw [List.foldl_cons, hr, hrec]
      by_cases hi : i = e
      · subst i
        simp [he]
      · simp [hi]

theorem sampleAll_eq (levels : LineSet) (h : l.initialTaken = true) :
    l.sampleAll levels = { l with
        records := (l.sampleAll levels).records,
        toCalendar := l.toCalendar ++ (List.finRange 12).flatMap fun e => (l.record e).sampleSends e (levels.getLsbD e.val) } ∧
      ∀ i, (l.sampleAll levels).record i = (l.record i).sampled (levels.getLsbD i.val) := by
  obtain ⟨he, hr⟩ := foldl_lines (x := fun e x => x.sampled (levels.getLsbD e.val))
    (sends := fun e x => x.sampleSends e (levels.getLsbD e.val)) (fun l e => sample_eq (l := l) _) (List.finRange 12)
    (List.nodup_finRange 12) l
  have hall : l.sampleAll levels = (List.finRange 12).foldl (fun l e => l.sample e (levels.getLsbD e.val)) l := by
    rw [LineUnit.sampleAll, if_pos h]
  rw [hall]
  exact ⟨he, fun i => (hr i).trans (if_pos (List.mem_finRange i))⟩

theorem initialSample_eq (v : Bool) :
    l.initialSample i v =
      { l with
        records := setAt l.records i { l.record i with accepted := v, run := 0 },
        toCalendar := l.toCalendar ++ [.gate i (l.record i).enabled v] } := by
  simp [LineUnit.initialSample, LineUnit.report, LineUnit.setRecord, LineUnit.record]

theorem sampleAll_initial (levels : LineSet) (h : l.initialTaken = false) :
    l.sampleAll levels = { l with
        records := (l.sampleAll levels).records, initialTaken := true,
        toCalendar := l.toCalendar ++ (List.finRange 12).map fun e => .gate e (l.record e).enabled (levels.getLsbD e.val) } ∧
      ∀ i, (l.sampleAll levels).record i = { l.record i with accepted := levels.getLsbD i.val, run := 0 } := by
  obtain ⟨he, hr⟩ := foldl_lines (x := fun e x => { x with accepted := levels.getLsbD e.val, run := 0 })
    (sends := fun e x => [.gate e x.enabled (levels.getLsbD e.val)]) (fun l e => initialSample_eq (l := l) _) (List.finRange 12)
    (List.nodup_finRange 12) { l with initialTaken := true }
  have hall : l.sampleAll levels =
      (List.finRange 12).foldl (fun l e => l.initialSample e (levels.getLsbD e.val)) { l with initialTaken := true } := by
    rw [LineUnit.sampleAll, if_neg (by simp [h])]
  rw [hall]
  refine ⟨he.trans ?_, fun i => (hr i).trans (if_pos (List.mem_finRange i))⟩
  rw [List.map_eq_flatMap]
  rfl

end

theorem exec_lineSample {s : State} (levels : LineSet) (h : s.inReset = false) :
    exec (.lineSample levels) s = .next { s with lines := s.lines.sampleAll levels } := by
  change execLineSample levels s = _
  rw [execLineSample, h]
  rfl

theorem exec_changeOfAcceptedLevel {s : State} {i : LineNo} {v : Bool} (hr : s.inReset = false) (ht : s.lines.initialTaken = true)
    (ha : (s.lines.record i).accepts v = true) :
    exec (.changeOfAcceptedLevel i v) s = .next { s with
      lines := { s.lines with
        records := setAt s.lines.records i ((s.lines.record i).changed v),
        toCalendar := s.lines.toCalendar ++ (s.lines.record i).changeSends i v } } := by
  change execChangeOfAcceptedLevel i v s = _
  rw [execChangeOfAcceptedLevel, hr, ht, ha, changeLevel_eq]
  rfl

/-- Settles O33: a sample of each line on its own, then all twelve. -/
theorem lineSamples : Obligations.LineSamples := by
  refine ⟨fun s levels hr ht => ⟨⟨(s.lines.sampleAll levels).records, ?_, fun i => ?_⟩, fun i v q hv hf hq => ?_⟩,
    fun s levels => ⟨fun hr => ?_, fun hr ht => ⟨(s.lines.sampleAll levels).records, ?_, ?_⟩⟩⟩
  · rw [exec_lineSample levels hr, ← (sampleAll_eq levels ht).1]
  · have hrec : (s.lines.sampleAll levels).records[i] = (s.lines.record i).sampled (levels.getLsbD i.val) :=
      (sampleAll_eq levels ht).2 i
    rw [hrec, LineRecord.sampled]
    refine ⟨fun hv => if_pos hv, fun hv hf => ?_, fun hv hf t he => ?_⟩
    · rw [if_neg hv, if_neg (Nat.not_le.2 hf)]
    · rw [exec_changeOfAcceptedLevel hr ht (accepts_iff.2 ⟨hv, hf⟩)] at he
      cases he
      rw [if_neg hv, if_pos hf]
      exact ((setAt_get ..).trans (if_pos rfl)).symm
  · obtain rfl : q = (s.lines.record i).sense.qualifies v := Bool.eq_iff_iff.2 (hq.trans qualifies_iff.symm)
    rw [exec_changeOfAcceptedLevel hr ht (accepts_iff.2 ⟨hv, hf⟩)]
    rfl
  · change execLineSample levels s = _
    rw [execLineSample, hr]
    rfl
  · rw [exec_lineSample levels hr, ← (sampleAll_initial levels ht).1]
  · exact (sampleAll_initial levels ht).2

/-! ### Line commands (R78 to R84) -/

theorem sense_ofCode_iff {b : Byte} {m : Sense} : Sense.ofCode b = some m ↔ b = m.code := by
  constructor
  · intro h
    unfold Sense.ofCode at h
    split at h <;> cases h <;> exact BitVec.eq_of_toNat_eq ‹_›
  · rintro rfl
    cases m <;> rfl

section
variable {l : LineUnit} {p : Port} {i : LineNo} {b : Byte} {modifies : Bool} {act : LineNo → LineUnit → LineUnit × Reply}

theorem withLine_of_no_line (h : 12 ≤ b.toNat) : l.withLine p modifies b act = (l, Reply.bare .badField) := by
  simp only [LineUnit.withLine, LineUnit.checkLine, indexOf_eq_none h]

theorem withLine_of_not_owner (hb : b.toNat = i.val) (ho : (l.record i).owner ≠ some p) :
    l.withLine p true b act = (l, Reply.bare .notOwner) := by
  simp [LineUnit.withLine, LineUnit.checkLine, indexOf_eq_some hb, ho]

theorem withLine_of_owner (hb : b.toNat = i.val) (ho : (l.record i).owner = some p) : l.withLine p modifies b act = act i l := by
  simp [LineUnit.withLine, LineUnit.checkLine, indexOf_eq_some hb, ho]

theorem withLine_of_any (hb : b.toNat = i.val) : l.withLine p false b act = act i l := by
  simp [LineUnit.withLine, LineUnit.checkLine, indexOf_eq_some hb]

theorem refuses_line (s : State) (p : Port) (m : Nat) (rest : List ToBlock) (o : OutcomeCode) :
    s.refuses .line p m rest o =
      { s.afterTaking .line p rest with lines := s.lines.send p (.outcome m (Reply.bare o)) } := rfl

theorem claim_of_line_busy {q : Port} (hq : q ≠ p) (ho : (l.record i).owner = some q) :
    l.claim p i = (l, Reply.bare .lineBusy) := by
  simp [LineUnit.claim, ho, hq]

theorem claim_of_free_line (ho : (l.record i).owner = none ∨ (l.record i).owner = some p) :
    l.claim p i = (l.setRecord i { l.record i with owner := some p }, Reply.bare .ok) := by
  obtain ho | ho := ho
  · simp only [LineUnit.claim, ho]
  · have : l.setRecord i { l.record i with owner := some p } = l := by
      rw [← ho]
      exact congrArg (fun r => { l with records := r }) (setAt_get_self l.records i)
    simp [LineUnit.claim, ho, this]

theorem config_of_fields {sense filter : Byte} {sn : Sense} (hs : sense = sn.code) (hf : filter.toNat ≤ 15) :
    l.config sense filter i =
      (l.setRecord i { l.record i with
        sense := sn, filter := filter.setWidth 4,
        held := if sn = (l.record i).sense then (l.record i).held else false }, Reply.bare .ok) := by
  have hc : Sense.ofCode sense = some sn := sense_ofCode_iff.2 hs
  have hh : ((l.record i).held && decide (sn = (l.record i).sense)) =
      if sn = (l.record i).sense then (l.record i).held else false := by split <;> simp [*]
  simp only [LineUnit.config, hc, if_pos hf, hh]

theorem config_of_bad_fields {sense filter : Byte} (h : 3 ≤ sense.toNat ∨ 16 ≤ filter.toNat) :
    l.config sense filter i = (l, Reply.bare .badField) := by
  unfold LineUnit.config
  split
  · rfl
  · rename_i sn hc
    have hs : sense = sn.code := sense_ofCode_iff.1 hc
    have h3 : sense.toNat < 3 := by subst hs; cases sn <;> decide
    rw [if_neg (by omega)]

theorem enable_of_enabled {discard : Bool} (he : (l.record i).enabled = true) :
    l.enable discard i = (l, { outcome := .ok, payload := .lineEnabled (l.record i).held }) := by
  simp only [LineUnit.enable, he, if_true]

theorem enable_of_disabled {discard : Bool} (he : (l.record i).enabled = false) :
    l.enable discard i =
      ({ l with
        records := setAt l.records i { l.record i with
          enabled := true, held := false,
          edgeCount := if (l.record i).held && !discard then (l.record i).edgeCount + 1 else (l.record i).edgeCount },
        toCalendar := l.toCalendar ++ .gate i true (l.record i).accepted ::
          (if (l.record i).held && !discard then [.edge i] else []) },
        { outcome := .ok, payload := .lineEnabled (l.record i).held }) := by
  rw [LineUnit.enable, report_setRecord]
  dsimp only
  rw [if_neg (by simp [he])]
  cases hh : (l.record i).held && !discard with
  | false => simp
  | true => simp [LineUnit.deliverEdge, LineUnit.setRecord, LineUnit.record]

theorem disable_of_disabled (he : (l.record i).enabled = false) : l.disable i = (l, Reply.bare .ok) := by
  simp [LineUnit.disable, he]

theorem disable_of_enabled (he : (l.record i).enabled = true) :
    l.disable i =
      ({ l with
        records := setAt l.records i { l.record i with enabled := false },
        toCalendar := l.toCalendar ++ [.gate i false (l.record i).accepted] }, Reply.bare .ok) := by
  rw [LineUnit.disable, if_pos he, report_setRecord]

end

/-- Settles O34: the line exists, and its owner decides. -/
theorem lineClaimReleaseConfigStatus : Obligations.LineClaimReleaseConfigStatus := by
  intro s p m e i b rest hb
  refine ⟨fun hc => ⟨fun q hq ho => ?_, fun ho => ?_⟩, fun hc ho => ?_, fun sense filter sn hc ho hs hf => ?_, fun hc => ?_⟩
  · rw [exec_lineClaim_of_canServe hc, withLine_of_any hb, claim_of_line_busy hq ho, refuses_line]
  · rw [exec_lineClaim_of_canServe hc, withLine_of_any hb, claim_of_free_line ho]
    rfl
  · rw [exec_lineRelease_of_canServe hc, withLine_of_owner hb ho]
    rfl
  · rw [exec_lineConfig_of_canServe hc, withLine_of_owner hb ho, config_of_fields hs hf]
    rfl
  · rw [exec_lineStatus_of_canServe hc, withLine_of_any hb]
    rfl

/-- Settles O35: by whether the line is enabled. -/
theorem lineEnableDisablePulse : Obligations.LineEnableDisablePulse := by
  intro s p m e i b rest hb ho
  refine ⟨fun discard hc => ⟨fun he hh => ?_, fun he => ?_⟩, fun hc => ⟨fun he => ?_, fun he => ?_⟩,
    fun hc => ⟨fun he => ?_, fun he => ?_⟩⟩
  · rw [exec_lineEnable_of_canServe hc, withLine_of_owner hb ho, enable_of_enabled he, hh]
    rfl
  · rw [exec_lineEnable_of_canServe hc, withLine_of_owner hb ho, enable_of_disabled he]
    rfl
  · rw [exec_lineDisable_of_canServe hc, withLine_of_owner hb ho, disable_of_disabled he]
    rfl
  · rw [exec_lineDisable_of_canServe hc, withLine_of_owner hb ho, disable_of_enabled he]
    rfl
  · rw [exec_linePulse_of_canServe hc, withLine_of_owner hb ho, LineUnit.pulse, qualifyingEdge_of_enabled he, he]
    rfl
  · rw [exec_linePulse_of_canServe hc, withLine_of_owner hb ho, LineUnit.pulse, qualifyingEdge_of_disabled he, he]
    rfl

/-! ### Refusals of line commands -/

section
variable {r : Request} {b : Byte} {p : Port} {l : LineUnit}

/-- Every line command is one that `withLine` checks; all but LINE_CLAIM and LINE_STATUS are the owner's alone. -/
theorem onLine_of_line (h : r.line? = some b) :
    r.block = .line ∧ ∃ modifies act, r.onLine p = LineUnit.withLine p modifies b act ∧
      (r ≠ .lineClaim b → r ≠ .lineStatus b → modifies = true) := by
  cases r <;> cases h
  case lineClaim => exact ⟨rfl, _, _, rfl, fun h => absurd rfl h⟩
  case lineStatus => exact ⟨rfl, _, _, rfl, fun _ h => absurd rfl h⟩
  all_goals exact ⟨rfl, _, _, rfl, fun _ _ => rfl⟩

theorem exec_line_of_refused {s : State} {m : Nat} {e : Byte} {rest : List ToBlock} {o : OutcomeCode} (hb : r.block = .line)
    (hc : s.CanServe p m e r rest) (h : r.onLine p s.lines = (s.lines, Reply.bare o)) :
    exec (r.command p) s = .next (s.refuses .line p m rest o) := by
  rw [exec_command_line hc.head hb, if_pos hc.session, h, refuses_line]

end

/-- Settles O36: the checks of R78 and R80 in their order. -/
theorem lineCommandChecks : Obligations.LineCommandChecks := by
  intro s p m e r b rest hl hc
  obtain ⟨hline, modifies, act, ha, hm⟩ := onLine_of_line (p := p) hl
  refine ⟨fun hb => ?_, fun i hb => ⟨fun ho h1 h2 => ?_, fun sense filter hr ho hf => ?_⟩⟩
  · exact exec_line_of_refused hline hc (by rw [ha, withLine_of_no_line hb])
  · refine exec_line_of_refused hline hc ?_
    rw [ha, hm h1 h2, withLine_of_not_owner hb ho]
  · subst hr
    refine exec_line_of_refused hline hc ((withLine_of_owner hb ho).trans (config_of_bad_fields hf))

end Sys2Proof.Machine
end

section
/-! PROOFS. The service commands (R114 to R127): what each makes of the Router, which ports it reports (R130), and what it answers. -/

namespace Sys2Proof.Machine

/-! ### What an event reports (R130) -/

section
variable {old r : Router} {folds : Bool} {p q : Port}

theorem changedFor_iff :
    Router.changedFor folds old r q = true ↔
      r.queue q ≠ old.queue q ∨ r.stack q ≠ old.stack q ∨ r.setting q ≠ old.setting q ∨
        folds = true ∧ ∃ k ∈ r.queue q, r.notice k ≠ old.notice k := by
  simp only [Router.changedFor, Bool.or_eq_true, Bool.and_eq_true, decide_eq_true_eq, List.any_eq_true, or_assoc]
  exact or_congr ne_comm (or_congr ne_comm (or_congr ne_comm (and_congr_right fun _ =>
    exists_congr fun k => and_congr_right fun _ => ne_comm)))

/-- A port of which nothing changed, and whose queue lists no changed record, is not reported. -/
theorem changedFor_eq_false (hq : r.queue q = old.queue q) (hs : r.stack q = old.stack q) (ht : r.setting q = old.setting q)
    (hn : ∀ k ∈ r.queue q, r.notice k = old.notice k) : ¬ Router.changedFor folds old r q = true := by
  rw [changedFor_iff]
  rintro (h | h | h | ⟨-, k, hk, h⟩)
  · exact h hq
  · exact h hs
  · exact h ht
  · exact h (hn k hk)

/-- At the end of a request of `p` the changed ports are reported, and then the outcome is sent. -/
theorem reportThenSend_spec (old r : Router) (p : Port) (m : FromBlock) :
    ∃ back, (Router.reportFrom old true none r).send p m = { r with back := back } ∧
      ∀ q : Port, back[q] =
        r.back[q] ++ (if Router.changedFor true old r q = true then [.alert (r.alertOf q)] else []) ++
          (if q = p then [m] else []) := by
  obtain ⟨back, he, hb⟩ := reportFrom_spec old r true none
  refine ⟨sendBack back p m, by rw [he]; rfl, fun q => ?_⟩
  rw [sendBack_get]
  split
  · subst q
    rw [hb]
    simp
  · rw [hb]
    simp

/-- When p alone is reported, only p's path back gains something. -/
theorem reportThenSend_self {m : FromBlock} (hp : Router.changedFor true old r p = true)
    (hq : ∀ q, q ≠ p → ¬ Router.changedFor true old r q = true) :
    (Router.reportFrom old true none r).send p m =
      { r with back := setAt r.back p (r.back[p] ++ [.alert (r.alertOf p), m]) } := by
  obtain ⟨back, he, hb⟩ := reportThenSend_spec old r p m
  rw [he]
  have : back = setAt r.back p (r.back[p] ++ [.alert (r.alertOf p), m]) := by
    refine vector_ext_fin fun q => ?_
    rw [hb, setAt_get]
    by_cases h : q = p
    · subst q
      rw [if_pos hp, if_pos rfl, if_pos rfl, List.append_assoc]
      rfl
    · rw [if_neg (hq q h), if_neg h, if_neg h, List.append_nil, List.append_nil]
  rw [this]

/-- A request that changes nothing at the Router is answered without a report. -/
theorem reportThenSend_same (r : Router) (p : Port) (m : FromBlock) : (Router.reportFrom r true none r).send p m = r.send p m := by
  rw [reportFrom_self]

theorem refuses_router (s : State) (p : Port) (m : Nat) (rest : List ToBlock) (o : OutcomeCode) :
    s.refuses .router p m rest o =
      { s.afterTaking .router p rest with router := s.router.send p (.outcome m (Reply.bare o)) } := rfl

end

section
variable {r : Router} {p : Port} {h : Handle} {x : Notice} {elig : Port → Bool} {b : Byte}

/-! ### DONE (R124, R125) -/

theorem indexOf_handle {b : Byte} {h : Handle} (hb : b.toNat = h.val) : indexOf 64 b = some h ∧ b ≠ 0xFF := by
  refine ⟨indexOf_eq_some hb, ?_⟩
  rintro rfl
  have := h.isLt
  rw [← hb] at this
  revert this
  decide

theorem complete_of_names {l₁ l₂ : List Handle} (hs : r.stack p = l₁ ++ h :: l₂) (hn : (r.stack p).Nodup)
    (hb : (b = 0xFF ∧ l₁ = []) ∨ b.toNat = h.val) (hx : r.notice h = some x) :
    r.complete p b elig =
      ({ r with pool := setAt r.pool h none, inService := setAt r.inService p (l₁ ++ l₂) },
        { outcome := .ok, payload := .completed h x (l₁ ++ l₂).length }) := by
  have hname : r.noticeToComplete p b = .ok h := by
    obtain ⟨rfl, rfl⟩ | hb := hb
    · simp only [Router.noticeToComplete, if_pos, hs, List.nil_append]
    · obtain ⟨hi, hne⟩ := indexOf_handle hb
      simp only [Router.noticeToComplete, if_neg hne, hi]
      rw [if_pos (by rw [hs]; simp)]
  have hw : without h (r.stack p) = l₁ ++ l₂ := by
    rw [hs] at hn ⊢
    exact without_append hn
  have hstack : (Router.stack ((r.setStack p (l₁ ++ l₂)).freeRecord h) p) = l₁ ++ l₂ := by
    simp [Router.freeRecord]
  simp only [Router.complete, hname, hx, hw, hstack]
  rfl

theorem complete_of_bad_field (hb : 64 ≤ b.toNat) (hne : b ≠ 0xFF) : r.complete p b elig = (r, Reply.bare .badField) := by
  simp only [Router.complete, Router.noticeToComplete, if_neg hne, indexOf_eq_none hb]

theorem complete_of_not_in_service (hb : (b = 0xFF ∧ r.stack p = []) ∨ ∃ h : Handle, b.toNat = h.val ∧ h ∉ r.stack p) :
    r.complete p b elig = (r, Reply.bare .notInService) := by
  obtain ⟨rfl, hs⟩ | ⟨h, hb, hn⟩ := hb
  · simp only [Router.complete, Router.noticeToComplete, if_pos, hs]
  · obtain ⟨hi, hne⟩ := indexOf_handle hb
    simp only [Router.complete, Router.noticeToComplete, if_neg hne, hi, if_neg hn]

/-! ### SERVICE_SET (R114 to R116) -/

theorem boolOfCode_of_lt {b : Byte} (h : b.toNat < 2) : boolOfCode b = some (decide (b = 1)) := by
  have hb : b = 0 ∨ b = 1 := by
    have h2 : b.toNat = 0 ∨ b.toNat = 1 := by omega
    exact h2.imp (fun e => BitVec.eq_of_toNat_eq e) fun e => BitVec.eq_of_toNat_eq e
  obtain rfl | rfl := hb <;> rfl

theorem boolOfCode_of_ge {b : Byte} (h : 2 ≤ b.toNat) : boolOfCode b = none := by
  unfold boolOfCode
  split <;> first | omega | rfl

theorem serviceSet_of_bad_field {mask a l : Byte} (h : 2 ≤ a.toNat ∨ 2 ≤ l.toNat) :
    r.serviceSet p mask a l elig = (r, Reply.bare .badField) := by
  obtain h | h := h
  · simp only [Router.serviceSet, boolOfCode_of_ge h]
  · cases ha : boolOfCode a <;> simp only [Router.serviceSet, boolOfCode_of_ge h, ha]

theorem serviceSet_of_bad_state {mask a l : Byte} (ha : a = 1) (hl : l.toNat < 2) (hs : r.stack p ≠ []) :
    r.serviceSet p mask a l elig = (r, Reply.bare .badState) := by
  subst ha
  have : (r.stack p).isEmpty = false := by simpa using hs
  simp only [Router.serviceSet, boolOfCode_of_lt (b := 1) (by decide), boolOfCode_of_lt hl, this]
  rfl

theorem serviceSet_of_fields {mask a l : Byte} (ha : a.toNat < 2) (hl : l.toNat < 2) (hs : a = 0 ∨ r.stack p = []) :
    r.serviceSet p mask a l elig =
      (r.setSetting p { mask := mask, autoDone := decide (a = 1), alertOnResponse := decide (l = 1) },
        { outcome := .ok, payload :=
            .service { mask := mask, autoDone := decide (a = 1), alertOnResponse := decide (l = 1) } (r.queue p).length
              (r.stack p).length }) := by
  have hfree : ¬ (decide (a = 1) && !(r.stack p).isEmpty) = true := by
    obtain rfl | hs := hs
    · simp
    · simp [hs]
  simp only [Router.serviceSet, boolOfCode_of_lt ha, boolOfCode_of_lt hl, if_neg hfree]

/-! ### FETCH and PEEK (R117 to R123) -/

theorem firstUnmasked_of {l₁ l₂ : List Handle} (hf : r.FirstUnmasked p l₁ h l₂) : r.firstUnmasked p = some h := by
  rw [Router.firstUnmasked, hf.queue, List.find?_append]
  have : l₁.find? (fun k => !(r.setting p).mask.getLsbD (r.classOf k)) = none := by
    simp only [List.find?_eq_none]
    intro k hk
    simp [hf.masked k hk]
  simp [this, hf.unmasked]

theorem fetchable_of_first (hf : r.firstUnmasked p = some h) :
    r.fetchable p = if !r.aboveTop p h then .error .blocked else if !r.hasRoom p then .error .full else .ok h := by
  have hne : r.queue p ≠ [] := fun he => by
    rw [Router.firstUnmasked, he] at hf
    cases hf
  obtain ⟨k, l, hq⟩ := List.exists_cons_of_ne_nil hne
  simp only [Router.fetchable, hq, hf]

/-- With no fetchable notice the reason is answered (R118). -/
theorem fetchable_eq_error {reason : NoneReason} (hn : r.NotFetchable p reason) : r.fetchable p = .error reason := by
  cases hn with
  | empty hq => simp only [Router.fetchable, hq]
  | masked hq hm =>
    obtain ⟨k, l, hk⟩ := List.exists_cons_of_ne_nil hq
    have : r.firstUnmasked p = none := by
      simp only [Router.firstUnmasked, List.find?_eq_none]
      intro k hk
      simp [hm k hk]
    simp only [Router.fetchable, hk, this]
  | blocked l₁ h l₂ k hf hk hc =>
    have : r.aboveTop p h = false := by
      obtain ⟨l, hl⟩ := List.head?_eq_some_iff.1 hk
      simpa [Router.aboveTop, hl] using hc
    rw [fetchable_of_first (firstUnmasked_of hf), this]
    rfl
  | full l₁ h l₂ k hf hk hc hl ha =>
    have htop : r.aboveTop p h = true := by
      obtain ⟨l, hl⟩ := List.head?_eq_some_iff.1 hk
      simpa [Router.aboveTop, hl] using hc
    have hroom : r.hasRoom p = false := by
      rw [Router.hasRoom, ha, Bool.or_false, decide_eq_false_iff_not]
      exact Nat.not_lt.2 hl
    rw [fetchable_of_first (firstUnmasked_of hf), htop, hroom]
    rfl

theorem peek_of_fetchable {l₁ l₂ : List Handle} (hf : r.Fetchable p l₁ h l₂) (hx : r.notice h = some x) :
    r.peek p elig = (r, r.noticeReply p h x) := by
  simp only [Router.peek, fetchable_eq_ok hf, hx]

theorem fetch_of_fetchable {l₁ l₂ : List Handle} (hf : r.Fetchable p l₁ h l₂) (hx : r.notice h = some x) :
    r.fetch p elig =
      (if (r.setting p).autoDone then (r.unqueue p h x).freeRecord h else (r.unqueue p h x).setStack p (h :: (r.unqueue p h x).stack p),
        Router.noticeReply
          (if (r.setting p).autoDone then (r.unqueue p h x).freeRecord h
            else (r.unqueue p h x).setStack p (h :: (r.unqueue p h x).stack p)) p h x) := by
  simp only [Router.fetch, fetchable_eq_ok hf, hx]

theorem fetch_of_not_fetchable {reason : NoneReason} (hn : r.NotFetchable p reason) :
    r.fetch p elig = (r, r.noNotice p reason) ∧ r.peek p elig = (r, r.noNotice p reason) := by
  simp only [Router.fetch, Router.peek, fetchable_eq_error hn, and_self]

/-- The queues after the record that is fetched has left them (R119, R121). -/
theorem unqueue_queue (r : Router) (p : Port) (h : Handle) (x : Notice) (q : Port) :
    (r.unqueue p h x).queue q =
      if q = p ∨ x.offer ≠ .broadcast then without h (r.queue q) else r.queue q := by
  unfold Router.unqueue Offer.delivery
  cases hx : x.offer with
  | broadcast => by_cases hq : q = p <;> simp [hq]
  | claim => simp

/-- What FETCH makes of the Router, field by field. -/
structure Router.FetchedTo (r : Router) (p : Port) (h : Handle) (x : Notice) (r' : Router) : Prop where
  settings : r'.settings = r.settings
  poolExhausted : r'.poolExhausted = r.poolExhausted
  toCalendar : r'.toCalendar = r.toCalendar
  back : r'.back = r.back
  queue : ∀ q, r'.queue q = if q = p ∨ x.offer ≠ .broadcast then without h (r.queue q) else r.queue q
  others : ∀ k, k ≠ h → r'.notice k = r.notice k
  others_stack : ∀ q, q ≠ p → r'.stack q = r.stack q
  held : (r.setting p).autoDone = false → r'.notice h = r.notice h ∧ r'.stack p = h :: r.stack p
  done : (r.setting p).autoDone = true → r'.notice h = none ∧ r'.stack p = r.stack p

theorem fetchedTo (r : Router) (p : Port) (h : Handle) (x : Notice) :
    r.FetchedTo p h x
      (if (r.setting p).autoDone then (r.unqueue p h x).freeRecord h
        else (r.unqueue p h x).setStack p (h :: (r.unqueue p h x).stack p)) := by
  have queue := unqueue_queue r p h x
  obtain ⟨hserv, hset, hpool, hback, hcal, hexh⟩ := unqueue_keeps r p h x
  generalize r.unqueue p h x = r' at queue hserv hset hpool hback hcal hexh
  have hstack (q : Port) : r'.stack q = r.stack q := by simp only [Router.stack, hserv]
  have hnotice (k : Handle) : r'.notice k = r.notice k := by simp only [Router.notice, hpool]
  cases ha : (r.setting p).autoDone
  · refine ⟨hset, hexh, hcal, hback, queue, fun k _ => hnotice k, fun q hq => ?_, fun _ => ⟨hnotice h, ?_⟩,
      fun h => absurd (ha.symm.trans h) (by simp)⟩
    · exact (setStack_stack ..).trans (by rw [if_neg hq, hstack])
    · exact (setStack_stack ..).trans (by rw [if_pos rfl, hstack])
  · refine ⟨hset, hexh, hcal, hback, queue, fun k hk => ?_, fun q _ => hstack q,
      fun h => absurd (ha.symm.trans h) (by simp), fun _ => ⟨?_, hstack p⟩⟩
    · exact (setNotice_notice ..).trans (by rw [if_neg hk, hnotice])
    · exact (setNotice_notice ..).trans (if_pos rfl)

/-- A record is listed by no queue that it left, and a BROADCAST record was listed by p's queue alone. -/
theorem Router.FetchedTo.unlisted {r' : Router} {l₁ l₂ : List Handle} (k : r.FetchedTo p h x r') (hp : r.PoolLaw)
    (hq : r.queue p = l₁ ++ h :: l₂) (hx : r.notice h = some x) (q : Port) : h ∉ r'.queue q := by
  rw [k.queue]
  split
  · exact fun hm => (mem_without.1 hm).2 rfl
  · rename_i hn
    rw [not_or, not_not] at hn
    exact fun hm => hn.1 ((hp.2 h).2.2.2 x hx hn.2 q p hm (by rw [hq]; simp))

/-- After a FETCH p is reported, and each port whose queue the record left. -/
theorem Router.FetchedTo.reports {r' : Router} {l₁ l₂ : List Handle} (k : r.FetchedTo p h x r') (hp : r.PoolLaw)
    (hq : r.queue p = l₁ ++ h :: l₂) (hx : r.notice h = some x) :
    r'.queue p = l₁ ++ l₂ ∧ Router.changedFor true r r' p = true ∧
      ∀ q, q ≠ p → (Router.changedFor true r r' q = true ↔ r'.queue q ≠ r.queue q) := by
  have hqueue : r'.queue p = l₁ ++ l₂ := by
    have hn := (hp.1 p).1
    rw [k.queue, if_pos (.inl rfl)]
    rw [hq] at hn ⊢
    exact without_append hn
  refine ⟨hqueue, changedFor_iff.2 (.inl fun he => ?_), fun q hqp => changedFor_iff.trans ⟨?_, .inl⟩⟩
  · rw [hqueue, hq] at he
    have := congrArg List.length he
    simp at this
  · rintro (hc | hc | hc | ⟨-, j, hj, hc⟩)
    · exact hc
    · exact absurd (k.others_stack q hqp) hc
    · exact absurd (by simp only [Router.setting, k.settings]) hc
    · refine absurd (k.others j ?_) hc
      rintro rfl
      exact k.unlisted hp hq hx q hj

/-! ### DECLINE (R126, R127) -/

theorem decline_of_bad_field (hb : 64 ≤ b.toNat) : r.decline p b elig = (r, Reply.bare .badField) := by
  simp only [Router.decline, indexOf_eq_none hb]

theorem decline_of_not_in_service (hb : b.toNat = h.val) (hs : h ∉ r.stack p) :
    r.decline p b elig = (r, Reply.bare .notInService) := by
  simp only [Router.decline, indexOf_eq_some hb, if_neg hs]

theorem decline_of_broadcast (hb : b.toNat = h.val) (hs : h ∈ r.stack p) (hx : r.notice h = some x) (ho : x.offer = .broadcast) :
    r.decline p b elig = (r, Reply.bare .badState) := by
  simp only [Router.decline, indexOf_eq_some hb, if_pos hs, hx, ho, Offer.delivery]

theorem decline_of_claim {offered declined : PortSet} (hb : b.toNat = h.val) (hs : h ∈ r.stack p) (hx : r.notice h = some x)
    (ho : x.offer = .claim offered declined) :
    r.decline p b elig =
      (((r.setStack p (without h (r.stack p))).reoffer elig h (x.givenBackBy p offered declined)).1,
        { outcome := .ok, payload := .declined h
            ((((r.setStack p (without h (r.stack p))).reoffer elig h (x.givenBackBy p offered declined)).1).stack p).length
            ((r.setStack p (without h (r.stack p))).reoffer elig h (x.givenBackBy p offered declined)).2 }) := by
  simp only [Router.decline, indexOf_eq_some hb, if_pos hs, hx, ho, Offer.delivery, declinedBy_claim ho]

end

/-! ### The statements -/

/-- A request that is refused changes nothing but p's paths. -/
theorem refused_router (s : State) (p : Port) (m : Nat) (rest : List ToBlock) (o : OutcomeCode) :
    { s.afterTaking .router p rest with
      router := (Router.reportFrom s.router true none (s.router, Reply.bare o).1).send p (.outcome m (s.router, Reply.bare o).2) } =
      s.refuses .router p m rest o := by
  rw [reportThenSend_same, refuses_router]

/-- A request that goes on with a next Router. -/
theorem served_router {s u : State} {r r' : Router} {p : Port} {m : FromBlock}
    (h : (Router.reportFrom s.router true none r).send p m = r') :
    (.next { u with router := (Router.reportFrom s.router true none r).send p m } : Result) = .next { u with router := r' } := by
  rw [h]

/-- Settles O42: the top of the stack or a notice named, else the refusals. -/
theorem done : Obligations.Done := by
  intro s p m e b rest hc
  rw [exec_done_of_canServe hc]
  refine ⟨fun l₁ h l₂ x hp hs hb hx => ?_, fun hb hne => ?_, fun hb => ?_⟩
  · rw [complete_of_names hs (hp.1 p).2 hb hx]
    refine ⟨_, served_router (reportThenSend_self (changedFor_iff.2 (.inr (.inl fun he => ?_))) fun q hq =>
      changedFor_eq_false rfl ?_ rfl ?_), rfl⟩
    · have hstack : (setAt s.router.inService p (l₁ ++ l₂))[p] = l₁ ++ h :: l₂ := he.trans hs
      rw [setAt_get, if_pos rfl] at hstack
      have := congrArg List.length hstack
      simp at this
    · exact (setAt_get ..).trans (if_neg hq)
    · intro k hk
      refine (setAt_get ..).trans (if_neg ?_)
      rintro rfl
      exact (hp.2 k).2.1 q p hk (by rw [hs]; simp)
  · rw [complete_of_bad_field hb hne, refused_router]
  · rw [complete_of_not_in_service hb, refused_router]

/-- When no port is reported, only the outcome is sent. -/
theorem reportThenSend_none {old r : Router} {p : Port} {m : FromBlock} (h : ∀ q, ¬ Router.changedFor true old r q = true) :
    (Router.reportFrom old true none r).send p m = r.send p m := by
  have : (List.finRange 4).filter (fun q => Router.changedFor true old r q || decide ((none : Option Port) = some q)) = [] :=
    List.filter_eq_nil_iff.2 fun q _ => by simpa using h q
  rw [Router.reportFrom, this]
  rfl

/-- A changed setting of p is reported to p alone (R130). -/
theorem reports_setSetting (old : Router) (p : Port) (x : ServiceSettings) (m : FromBlock) :
    (Router.reportFrom old true none (old.setSetting p x)).send p m =
      { old with
        settings := setAt old.settings p x,
        back := setAt old.back p (old.back[p] ++
          (if old.setting p = x then [] else [.alert ((old.setSetting p x).alertOf p)]) ++ [m]) } := by
  have hset (q : Port) : (old.setSetting p x).setting q = if q = p then x else old.setting q := setSetting_setting ..
  have others (q : Port) (hq : q ≠ p) : ¬ Router.changedFor true old (old.setSetting p x) q = true :=
    changedFor_eq_false rfl rfl (by rw [hset, if_neg hq]) fun _ _ => rfl
  by_cases hx : old.setting p = x
  · rw [if_pos hx, List.append_nil]
    refine reportThenSend_none fun q => ?_
    by_cases hq : q = p
    · subst q
      exact changedFor_eq_false rfl rfl (by rw [hset, if_pos rfl, hx]) fun _ _ => rfl
    · exact others q hq
  · rw [if_neg hx, List.append_assoc]
    refine reportThenSend_self (changedFor_iff.2 (.inr (.inr (.inl fun he => hx ?_)))) others
    rw [hset, if_pos rfl] at he
    exact he.symm

/-- Settles O44: all three settings or none. -/
theorem serviceSet : Obligations.ServiceSet := by
  intro s p m e mask a l rest hc
  rw [exec_serviceSet_of_canServe hc]
  refine ⟨fun h => ?_, fun ha hl hs => ?_, fun ha hl hs => ?_⟩
  · rw [serviceSet_of_bad_field h, refused_router]
  · rw [serviceSet_of_bad_state ha hl hs, refused_router]
  · rw [serviceSet_of_fields ha hl hs]
    exact ⟨_, _, rfl, served_router (reports_setSetting ..), rfl⟩

/-- Settles O41: the fetchable notice, or the reason why there is none. -/
theorem fetchAndPeek : Obligations.FetchAndPeek := by
  intro s p m e rest
  refine ⟨fun l₁ h l₂ x hc hp hf hx => ?_, fun l₁ h l₂ x hc hf hx => ?_, fun reason r hr hc hn => ?_⟩
  · have k := fetchedTo s.router p h x
    rw [exec_fetch_of_canServe hc, fetch_of_fetchable hf hx]
    generalize (if (s.router.setting p).autoDone then (s.router.unqueue p h x).freeRecord h
      else (s.router.unqueue p h x).setStack p (h :: (s.router.unqueue p h x).stack p)) = r' at k
    obtain ⟨hqueue, hchanged, hothers⟩ := k.reports hp hf.queue hx
    obtain ⟨back, he, hb⟩ := reportThenSend_spec s.router r' p (.outcome m (r'.noticeReply p h x))
    refine ⟨{ r' with back := back }, by rw [he], k.settings, k.poolExhausted, k.toCalendar, hqueue, k.others,
      fun ha => ⟨(k.held ha).1.trans hx, (k.held ha).2⟩, k.done, ?_, fun q hq => ⟨k.others_stack q hq, fun ho => ?_, fun ho => ?_, ?_⟩⟩
    · refine (hb p).trans ?_
      rw [if_pos hchanged, if_pos rfl, k.back, List.append_assoc]
      rfl
    · refine (k.queue q).trans (if_neg ?_)
      simp [hq, ho]
    · exact (k.queue q).trans (if_pos (.inr ho))
    · refine (hb q).trans ?_
      rw [if_neg hq, List.append_nil, k.back]
      by_cases hc : r'.queue q = s.router.queue q
      · rw [if_neg fun h => (hothers q hq).1 h hc]
        exact congrArg _ (if_pos hc).symm
      · rw [if_pos ((hothers q hq).2 hc)]
        exact congrArg _ (if_neg hc).symm
  · rw [exec_peek_of_canServe hc, peek_of_fetchable hf hx, reportThenSend_same]
    rfl
  · obtain ⟨hfetch, hpeek⟩ := fetch_of_not_fetchable (elig := s.isOpen) hn
    obtain rfl | rfl := hr
    · refine (exec_fetch_of_canServe hc).trans ?_
      rw [hfetch, reportThenSend_same]
      rfl
    · refine (exec_peek_of_canServe hc).trans ?_
      rw [hpeek, reportThenSend_same]
      rfl

/-- Settles O43: the refusals in order, then the re-offer. -/
theorem decline : Obligations.Decline := by
  intro s p m e b rest hc
  rw [exec_decline_of_canServe hc]
  refine ⟨fun hb => ?_, fun h hb => ⟨fun hs => ?_, fun x hs hx => ⟨fun ho => ?_, fun offered declined l ho hp hl => ?_⟩⟩⟩
  · rw [decline_of_bad_field hb, refused_router]
  · rw [decline_of_not_in_service hb hs, refused_router]
  · rw [decline_of_broadcast hb hs hx ho, refused_router]
  · have hr := reoffer_spec s.isOpen (s.router.setStack p l) h (x.givenBackBy p offered declined)
      fun q hq => (hp.2 h).2.1 q p hq hs
    have hwithout : without h (s.router.stack p) = l := hl.symm
    rw [decline_of_claim hb hs hx ho, hwithout]
    generalize (s.router.setStack p l).reoffer s.isOpen h (x.givenBackBy p offered declined) = a at hr ⊢
    obtain ⟨r₁, result⟩ := a
    obtain ⟨hserv, hset, -, hback⟩ := hr.keeps
    dsimp only at hserv hset hback
    have hstack (q : Port) : r₁.stack q = if q = p then l else s.router.stack q := by
      rw [Router.stack, hserv]
      exact setStack_stack ..
    have hsetting (q : Port) : r₁.setting q = s.router.setting q := by
      rw [Router.setting, hset]
      rfl
    obtain ⟨back, he, hb'⟩ := reportThenSend_spec s.router r₁ p
      (.outcome m { outcome := .ok, payload := .declined h (r₁.stack p).length result })
    refine ⟨r₁, result, back, _, hr, rfl, by rw [he], ?_, fun q hq => ?_⟩
    · have hchanged : Router.changedFor true s.router r₁ p = true := changedFor_iff.2 (.inr (.inl fun hsame => by
        rw [hstack, if_pos rfl] at hsame
        rw [← hsame, hl] at hs
        simpa using List.of_mem_filter hs))
      rw [hb', if_pos hchanged, if_pos rfl, hstack, if_pos rfl, hback, List.append_assoc]
      rfl
    · rw [hb', if_neg hq, List.append_nil, hback, changedFor_reports (by rw [hstack, if_neg hq]) (hsetting q)]
      rfl

end Sys2Proof.Machine
end

section
/-! PROOFS. The end of a session at the Notice Router (R95, R131 to R133): what giving up queue entries and giving back stack entries
leaves alone, which records they free, and which ports are reported. -/

namespace Sys2Proof.Machine

/-! ### Chains -/

section
variable {α β : Type} {R : α → β → β → Prop} {l : List α} {b d : β}

/-- What every link of a chain does, and links in a row do, the chain does. -/
theorem Chain.lift {S : β → β → Prop} (h : Chain R l b d) (hrefl : ∀ b, S b b) (htrans : ∀ b c d, S b c → S c d → S b d)
    (hstep : ∀ a b c, R a b c → S b c) : S b d := by
  induction h with
  | nil b => exact hrefl b
  | cons a l b c d hR _ ih => exact htrans b c d (hstep a b c hR) ih

/-- What every link for another entry keeps, a chain without that entry keeps. -/
theorem Chain.keeps {P : β → Prop} {k : α} (h : Chain R l b d) (hk : k ∉ l) (hother : ∀ a b c, a ≠ k → R a b c → P b → P c)
    (hb : P b) : P d := by
  induction h with
  | nil => exact hb
  | cons a l b c d hR _ ih =>
    rw [List.mem_cons, not_or] at hk
    exact ih hk.2 (hother a b c (fun h => hk.1 h.symm) hR hb)

/-- A chain over a list with entry `k`: `P` stands until k's link, which makes it `Q`, and `Q` stands. -/
theorem Chain.turns {P Q : β → Prop} {k : α} (h : Chain R l b d) (hk : k ∈ l) (hother : ∀ a b c, a ≠ k → R a b c → P b → P c)
    (hown : ∀ b c, R k b c → P b → Q c) (hafter : ∀ a b c, R a b c → Q b → Q c) (hb : P b) : Q d := by
  induction h with
  | nil => cases hk
  | cons a l b c d hR hc ih =>
    by_cases ha : a = k
    · subst ha
      exact hc.lift (S := fun b d => Q b → Q d) (fun _ => id) (fun _ _ _ f g h => g (f h)) hafter (hown b c hR hb)
    · exact ih (List.mem_of_ne_of_mem (fun h => ha h.symm) hk) (hother a b c ha hR hb)

end

/-! ### What a teardown leaves alone -/

/-- Stacks, settings, the counter and the paths back stay, and the queues lose nothing. -/
structure Router.ListsOn (isOpen : Port → Bool) (r r' : Router) : Prop where
  inService : r'.inService = r.inService
  settings : r'.settings = r.settings
  poolExhausted : r'.poolExhausted = r.poolExhausted
  back : r'.back = r.back
  queue : ∀ q, (r.queue q).Sublist (r'.queue q) ∧ (isOpen q = false → r'.queue q = r.queue q)

section
variable {r r' : Router} {h k : Handle} {isOpen : Port → Bool} {p : Port}

theorem listsOn_refl (r : Router) : r.ListsOn isOpen r := ⟨rfl, rfl, rfl, rfl, fun _ => ⟨List.Sublist.refl _, fun _ => rfl⟩⟩

theorem listsOn_trans (a b c : Router) (h : a.ListsOn isOpen b) (k : b.ListsOn isOpen c) : a.ListsOn isOpen c :=
  ⟨k.inService.trans h.inService, k.settings.trans h.settings, k.poolExhausted.trans h.poolExhausted, k.back.trans h.back,
    fun q => ⟨(h.queue q).1.trans (k.queue q).1, fun hq => ((k.queue q).2 hq).trans ((h.queue q).2 hq)⟩⟩

theorem givesUp_listsOn (g : Router.GivesUp h r r') : r.ListsOn isOpen r' := by
  cases g <;> exact ⟨rfl, rfl, rfl, rfl, fun _ => ⟨List.Sublist.refl _, fun _ => rfl⟩⟩

theorem sublist_of_enters {c : Class} {old new : List Handle} (he : r.Enters c h old new) : old.Sublist new := by
  obtain ⟨l₁, l₂, rfl, rfl, -, -⟩ := he
  exact List.Sublist.append_left (List.sublist_cons_self h l₂) l₁

theorem reoffers_listsOn {x : Notice} {result : Reoffer} (hr : r.Reoffers isOpen h x r' result) : r.ListsOn isOpen r' := by
  obtain ⟨hserv, hset, hexh, hback⟩ := hr.keeps
  refine ⟨hserv, hset, hexh, hback, fun q => ?_⟩
  obtain he | ⟨hopen, he⟩ := hr.queue q
  · exact ⟨by rw [he], fun _ => he⟩
  · exact ⟨sublist_of_enters he, fun hq => by rw [hq] at hopen; cases hopen⟩

theorem givesBack_listsOn (g : Router.GivesBack isOpen p h r r') : r.ListsOn isOpen r' := by
  cases g with
  | broadcast => exact ⟨rfl, rfl, rfl, rfl, fun _ => ⟨List.Sublist.refl _, fun _ => rfl⟩⟩
  | claim x offered declined _ result _ _ hr => exact reoffers_listsOn hr

/-! ### Which records a teardown frees (R131, R132) -/

/-- Record `k` is in use and of delivery BROADCAST. -/
def Router.Broadcasts (k : Handle) (r : Router) : Prop := ∃ x, r.notice k = some x ∧ x.offer = .broadcast

theorem broadcasts_of_eq (he : r'.notice k = r.notice k) (hb : r.Broadcasts k) : r'.Broadcasts k := by
  obtain ⟨x, hx, ho⟩ := hb
  exact ⟨x, he.trans hx, ho⟩

theorem givesUp_other (g : Router.GivesUp h r r') (hk : h ≠ k) : r'.notice k = r.notice k := by
  have hk' : ¬ k = h := fun e => hk e.symm
  cases g with
  | stays => rfl
  | _ => exact (setAt_get ..).trans (if_neg hk')

theorem givesUp_own (g : Router.GivesUp h r r') (hb : r.Broadcasts h) : r'.notice h = none := by
  obtain ⟨x, hx, ho⟩ := hb
  have same {y : Notice} (hy : r.notice h = some y) : y = x := Option.some.inj (hy.symm.trans hx)
  cases g with
  | broadcast => exact (setAt_get ..).trans (if_pos rfl)
  | stays y q hy hne => exact absurd (same hy ▸ ho) hne
  | undelivered y hy hne => exact absurd (same hy ▸ ho) hne

theorem givesUp_free (g : Router.GivesUp h r r') (hf : r.notice k = none) : r'.notice k = none := by
  cases g with
  | stays => exact hf
  | _ =>
    refine (setAt_get ..).trans ?_
    split
    · rfl
    · exact hf

/-- A re-offer leaves other BROADCAST records BROADCAST and other free records free. -/
theorem reoffers_other {x : Notice} {result : Reoffer} (hr : r.Reoffers isOpen h x r' result) (hk : h ≠ k) :
    (r.Broadcasts k → r'.Broadcasts k) ∧ (r.notice k = none → r'.notice k = none) := by
  have hk' : ¬ k = h := fun e => hk e.symm
  cases hr with
  | folded p j y _ hl =>
    have he : Router.notice { r with pool := setAt (setAt r.pool j (some
        { y with overrun := BitVec.ofNat 8 (min (y.overrun.toNat + (x.overrun.toNat + 1)) 255), redelivered := true })) h none } k =
        if k = j then some { y with
          overrun := BitVec.ofNat 8 (min (y.overrun.toNat + (x.overrun.toNat + 1)) 255), redelivered := true }
        else r.notice k := ((setAt_get ..).trans (if_neg hk')).trans (setAt_get ..)
    by_cases hj : k = j
    · subst j
      rw [if_pos rfl] at he
      obtain ⟨-, hy, -⟩ := hl
      refine ⟨fun ⟨z, hz, ho⟩ => ⟨_, he, ?_⟩, fun hf => ?_⟩
      · exact (congrArg Notice.offer (Option.some.inj (hy.symm.trans hz))).trans ho
      · rw [hy] at hf
        cases hf
    · rw [if_neg hj] at he
      exact ⟨broadcasts_of_eq he, he.trans⟩
  | listed =>
    have he := (setAt_get r.pool h k (some x)).trans (if_neg hk')
    exact ⟨broadcasts_of_eq he, Eq.trans he⟩
  | undelivered =>
    have he := (setAt_get r.pool h k none).trans (if_neg hk')
    exact ⟨broadcasts_of_eq he, Eq.trans he⟩

theorem givesBack_other (g : Router.GivesBack isOpen p h r r') (hk : h ≠ k) (hb : r.Broadcasts k) : r'.Broadcasts k := by
  cases g with
  | broadcast => exact broadcasts_of_eq ((setAt_get ..).trans (if_neg fun e => hk e.symm)) hb
  | claim x offered declined _ result _ _ hr => exact (reoffers_other hr hk).1 hb

theorem givesBack_own (g : Router.GivesBack isOpen p h r r') (hb : r.Broadcasts h) : r'.notice h = none := by
  obtain ⟨x, hx, ho⟩ := hb
  cases g with
  | broadcast => exact (setAt_get ..).trans (if_pos rfl)
  | claim y offered declined _ result hy hclaim =>
    rw [← Option.some.inj (hx.symm.trans hy), ho] at hclaim
    cases hclaim

theorem givesBack_free (g : Router.GivesBack isOpen p h r r') (hf : r.notice k = none) : r'.notice k = none := by
  have hk : h ≠ k := by
    rintro rfl
    cases g with
    | broadcast x hx => rw [hf] at hx; cases hx
    | claim x offered declined _ result hx => rw [hf] at hx; cases hx
  cases g with
  | broadcast => exact ((setAt_get ..).trans (if_neg fun e => hk e.symm)).trans hf
  | claim x offered declined _ result _ _ hr => exact (reoffers_other hr hk).2 hf

/-- Both halves of a teardown free every BROADCAST record that p's queue or stack had. -/
theorem teardown_frees {r r₁ r₂ : Router} {queue stack : List Handle} (h₁ : Chain Router.GivesUp queue r r₁) {r₁' : Router}
    (he : r₁'.pool = r₁.pool) (h₂ : Chain (Router.GivesBack isOpen p) stack r₁' r₂) (hb : r.Broadcasts k)
    (hk : k ∈ queue ∨ k ∈ stack) : r₂.notice k = none := by
  have hnotice : r₁'.notice k = r₁.notice k := by simp only [Router.notice, he]
  by_cases hq : k ∈ queue
  · have hfree : r₁.notice k = none :=
      h₁.turns (P := Router.Broadcasts k) (Q := fun r => r.notice k = none) hq
        (fun _ _ _ ha g => broadcasts_of_eq (givesUp_other g ha)) (fun _ _ => givesUp_own) (fun _ _ _ => givesUp_free) hb
    exact h₂.lift (S := fun a b : Router => a.notice k = none → b.notice k = none) (fun _ => id) (fun _ _ _ f g h => g (f h))
      (fun _ _ _ => givesBack_free) (hnotice.trans hfree)
  · have hkept : r₁.Broadcasts k :=
      h₁.keeps (P := Router.Broadcasts k) hq (fun _ _ _ ha g => broadcasts_of_eq (givesUp_other g ha)) hb
    exact h₂.turns (P := Router.Broadcasts k) (Q := fun r => r.notice k = none) (hk.resolve_left hq)
      (fun _ _ _ ha g => givesBack_other g ha) (fun _ _ => givesBack_own) (fun _ _ _ => givesBack_free)
      (broadcasts_of_eq hnotice hkept)

/-- The two halves of a teardown, and what they leave (R131, R132). -/
theorem tearDown_halves (r : Router) (p : Port) (hp : r.PoolLaw) :
    ∃ r₁ r₂, Chain Router.GivesUp (r.queue p) { r with queues := setAt r.queues p [] } r₁ ∧
      Chain (Router.GivesBack isOpen p) (r.stack p) { r₁ with inService := setAt r₁.inService p [] } r₂ ∧
      r.tearDown isOpen p = { r₂ with settings := setAt r₂.settings p ServiceSettings.defaults } ∧ r₂.PoolLaw ∧
      Router.ListsOn isOpen { r with queues := setAt r.queues p [], inService := setAt r.inService p [] } r₂ := by
  obtain ⟨hup, hpool₁⟩ := chain_givesUp (poolLaw_iff.1 hp) p
  have hunfold : r.tearDown isOpen p =
      Router.setSetting
        ((((r.queue p).foldl Router.abandonEntry { r with queues := setAt r.queues p [] }).stack p).foldl
          (Router.abandonService isOpen p)
          (((r.queue p).foldl Router.abandonEntry { r with queues := setAt r.queues p [] }).setStack p [])) p
        ServiceSettings.defaults := rfl
  generalize (r.queue p).foldl Router.abandonEntry { r with queues := setAt r.queues p [] } = r₁ at hup hpool₁ hunfold
  have hkeeps₁ : Router.ListsOn isOpen { r with queues := setAt r.queues p [] } r₁ :=
    hup.lift (S := Router.ListsOn isOpen) listsOn_refl listsOn_trans fun _ _ _ => givesUp_listsOn
  have hserv : r₁.inService = r.inService := hkeeps₁.inService
  have hstack : r₁.stack p = r.stack p := by simp only [Router.stack, hserv]
  obtain ⟨hback, hpool₂⟩ := chain_givesBack isOpen hpool₁ p
  have hkeeps₂ := hback.lift (S := Router.ListsOn isOpen) listsOn_refl listsOn_trans fun _ _ _ => givesBack_listsOn
  rw [hstack] at hback
  refine ⟨r₁, _, hup, hback, hunfold.trans (by rw [hstack]; rfl), ?_, ?_⟩
  · rw [hstack] at hpool₂
    exact poolLaw_iff.2 hpool₂
  · rw [hstack] at hkeeps₂
    refine ⟨hkeeps₂.inService.trans (by rw [hserv]), hkeeps₂.settings.trans hkeeps₁.settings,
      hkeeps₂.poolExhausted.trans hkeeps₁.poolExhausted, hkeeps₂.back.trans hkeeps₁.back, fun q => ?_⟩
    exact ⟨(hkeeps₁.queue q).1.trans (hkeeps₂.queue q).1, fun hq => ((hkeeps₂.queue q).2 hq).trans ((hkeeps₁.queue q).2 hq)⟩

end

theorem exec_teardown_of_head {s : State} {p : Port} {e : Byte} {rest : List ToBlock}
    (h : (s.port p).toRouter = .sessionEnd e :: rest) :
    exec (.teardown p) s = .next { s.afterTaking .router p rest with
      router := (Router.reportFrom s.router true (some p) (s.router.tearDown s.isOpen p)).send p .completion } := by
  have hopen : (s.afterTaking .router p rest).isOpen = s.isOpen := by
    funext q
    simp only [State.isOpen, afterTaking_session.1]
  change execTeardown p s = _
  simp only [execTeardown, takeSessionEnd_of_head (b := .router) h, hopen]
  rfl

/-- Settles O45: the queue is given up, the stack is given back, and the settings return to their defaults. -/
theorem teardown : Obligations.Teardown := by
  intro s p e rest hm hclosed hp
  have hself : s.isOpen p = false := isOpen_of_closed hclosed
  obtain ⟨r₁, r₂, hup, hback, htear, hpool, keeps⟩ := tearDown_halves (isOpen := s.isOpen) s.router p hp
  have hfree (h : Handle) (x : Notice) (hx : s.router.notice h = some x) (ho : x.offer = .broadcast)
      (hl : h ∈ s.router.queue p ∨ h ∈ s.router.stack p) : r₂.notice h = none :=
    teardown_frees (r₁' := { r₁ with inService := setAt r₁.inService p [] }) hup rfl hback ⟨x, hx, ho⟩ hl
  have hqueue : r₂.queue p = [] := ((keeps.queue p).2 hself).trans ((setAt_get ..).trans (if_pos rfl))
  have hstack (q : Port) : r₂.stack q = if q = p then [] else s.router.stack q := by
    rw [Router.stack, keeps.inService]
    exact setAt_get ..
  have hsublist (q : Port) (hq : q ≠ p) : (s.router.queue q).Sublist (r₂.queue q) := by
    have : Router.queue { s.router with
        queues := setAt s.router.queues p [], inService := setAt s.router.inService p [] } q = s.router.queue q :=
      (setAt_get ..).trans (if_neg hq)
    rw [← this]
    exact (keeps.queue q).1
  have hsetting (q : Port) : (setAt r₂.settings p ServiceSettings.defaults)[q] =
      if q = p then ServiceSettings.defaults else s.router.setting q := by
    rw [setAt_get, keeps.settings]
    rfl
  obtain ⟨back, he, hb⟩ := reportFrom_spec s.router (s.router.tearDown s.isOpen p) true (some p)
  rw [tearDown_back] at hb
  rw [htear] at he hb
  have hsent (q : Port) : (sendBack back p .completion)[q] = back[q] ++ (if q = p then [.completion] else []) := by
    rw [sendBack_get]
    split
    · subst q
      rfl
    · rw [List.append_nil]
  refine ⟨r₁, r₂, sendBack back p .completion, _, hup, hback, rfl, ?_, ?_, fun q hq => ?_, hqueue, (hstack p).trans (if_pos rfl),
    keeps.poolExhausted, poolLaw_iff.2 ((poolLaw_iff.1 hpool).congr rfl rfl rfl), hfree, fun q hq => ⟨hsublist q hq,
    (hstack q).trans (if_neg hq), (hsetting q).trans (if_neg hq)⟩⟩
  · rw [exec_teardown_of_head hm, htear, he]
    rfl
  · have hquiet : Router.alertOf { r₂ with settings := setAt r₂.settings p ServiceSettings.defaults } p = AlertReport.quiet := by
      have hs : Router.setting { r₂ with settings := setAt r₂.settings p ServiceSettings.defaults } p = ServiceSettings.defaults :=
        (hsetting p).trans (if_pos rfl)
      have hq' : Router.queue { r₂ with settings := setAt r₂.settings p ServiceSettings.defaults } p = [] := hqueue
      have hst : Router.stack { r₂ with settings := setAt r₂.settings p ServiceSettings.defaults } p = [] :=
        (hstack p).trans (if_pos rfl)
      simp only [Router.alertOf, Router.fetchable, hs, hq', hst]
      rfl
    rw [hsent, if_pos rfl, hb, if_pos (by simp), hquiet, List.append_assoc]
    rfl
  · have hnot : ¬ (some p = some q) := fun h => hq (Option.some.inj h).symm
    rw [hsent, if_neg hq, List.append_nil, hb]
    simp only [hnot, decide_false, Bool.or_false]
    rw [changedFor_reports (r := { r₂ with settings := setAt r₂.settings p ServiceSettings.defaults })
      ((hstack q).trans (if_neg hq)) ((hsetting q).trans (if_neg hq))]
    rfl

end Sys2Proof.Machine
end

section
/-! PROOFS. Fire requests and purges at the Notice Router (R97 to R109): the visits of a BROADCAST request, the cases of a CLAIM
request, what a purge removes, and which ports are reported. -/

namespace Sys2Proof.Machine

section
variable {old r r' : Router} {h k : Handle} {p : Port} {q : FireRequest} {elig : Port → Bool} {x : Notice}

/-! ### Reports of an event that folds nothing (R130) -/

theorem changedFor_queue (hs : r.inService = old.inService) (ht : r.settings = old.settings) :
    Router.changedFor false old r p = true ↔ r.queue p ≠ old.queue p := by
  rw [changedFor_iff]
  simp [Router.stack, Router.setting, hs, ht]

theorem reportFrom_queues (hs : r.inService = old.inService) (ht : r.settings = old.settings) :
    ∃ back, Router.reportFrom old false none r = { r with back := back } ∧
      ∀ p : Port, back[p] = r.back[p] ++ (if r.queue p = old.queue p then [] else [.alert (r.alertOf p)]) := by
  obtain ⟨back, he, hb⟩ := reportFrom_spec old r false none
  refine ⟨back, he, fun p => ?_⟩
  rw [hb]
  by_cases hq : r.queue p = old.queue p
  · rw [if_pos hq, if_neg]
    simpa using fun h => (changedFor_queue hs ht).1 h hq
  · rw [if_neg hq, if_pos]
    simpa using (changedFor_queue hs ht).2 hq

/-- When every queue is as it was, nothing is reported. -/
theorem reportFrom_of_same_queues (hs : r.inService = old.inService) (ht : r.settings = old.settings) (hq : r.queues = old.queues) :
    Router.reportFrom old false none r = r := by
  have : (List.finRange 4).filter (fun p => Router.changedFor false old r p || decide ((none : Option Port) = some p)) = [] :=
    List.filter_eq_nil_iff.2 fun p _ => by
      simpa using fun h => (changedFor_queue hs ht).1 h (by simp only [Router.queue, hq])
  rw [Router.reportFrom, this]
  rfl

/-! ### Purge (R109) -/

/-- The purge takes the records of slot `n` and generation `g`. -/
def Router.purges (r : Router) (n : SlotNo) (g : BitVec 16) (h : Handle) : Bool :=
  match r.notice h with
  | some x => x.slot = n && x.generation = g
  | none => false

/-- What a purge over the handles of `l` makes of the Router. -/
structure Router.PurgedTo (r : Router) (n : SlotNo) (g : BitVec 16) (l : List Handle) (r' : Router) : Prop where
  inService : r'.inService = r.inService
  settings : r'.settings = r.settings
  poolExhausted : r'.poolExhausted = r.poolExhausted
  toCalendar : r'.toCalendar = r.toCalendar
  freed : ∀ k, k ∈ l → r.purges n g k = true → r.isListed k = true → r'.notice k = none
  kept : ∀ k, ¬ (k ∈ l ∧ r.purges n g k = true ∧ r.isListed k = true) → r'.notice k = r.notice k
  queue : ∀ p, r'.queue p = (r.queue p).filter fun k => !(decide (k ∈ l) && r.purges n g k)

theorem purgeRecord_of_purges {n : SlotNo} {g : BitVec 16} (hp : r.purges n g h = true) (hl : r.isListed h = true) :
    Router.purgeRecord n g r h = (r.withdrawAll h).freeRecord h := by
  unfold Router.purges at hp
  split at hp
  · rename_i x hx
    simp only [Router.purgeRecord, hx, hp, hl, Bool.and_true, if_true]
  · cases hp

theorem purgeRecord_of_not {n : SlotNo} {g : BitVec 16} (hp : ¬ (r.purges n g h = true ∧ r.isListed h = true)) :
    Router.purgeRecord n g r h = r := by
  unfold Router.purgeRecord
  split
  · rename_i x hx
    refine if_neg fun hc => hp ?_
    rw [Bool.and_eq_true] at hc
    exact ⟨by simp only [Router.purges, hx, hc.1], hc.2⟩
  · rfl

theorem isListed_withdrawAll (hk : k ≠ h) : ((r.withdrawAll h).freeRecord h).isListed k = r.isListed k := by
  rw [Bool.eq_iff_iff, isListed_iff, isListed_iff]
  refine exists_congr fun p => ?_
  have : ((r.withdrawAll h).freeRecord h).queue p = without h (r.queue p) := withdrawAll_queue r h p
  rw [this, mem_without]
  simp [hk]

theorem purges_congr {n : SlotNo} {g : BitVec 16} (hn : r'.notice k = r.notice k) : r'.purges n g k = r.purges n g k := by
  simp only [Router.purges, hn]

/-- A purge, handle by handle. -/
theorem purgedTo_foldl (n : SlotNo) (g : BitVec 16) (l : List Handle) (hl : l.Nodup) (r : Router) :
    r.PurgedTo n g l (l.foldl (Router.purgeRecord n g) r) := by
  induction l generalizing r with
  | nil =>
    refine ⟨rfl, rfl, rfl, rfl, fun k hk => absurd hk List.not_mem_nil, fun _ _ => rfl, fun p => ?_⟩
    exact (List.filter_eq_self.2 (by simp)).symm
  | cons h l ih =>
    obtain ⟨hh, hl⟩ := List.nodup_cons.1 hl
    have k := ih hl (Router.purgeRecord n g r h)
    rw [List.foldl_cons]
    by_cases hp : r.purges n g h = true ∧ r.isListed h = true
    case neg =>
      rw [purgeRecord_of_not hp] at k ⊢
      refine ⟨k.inService, k.settings, k.poolExhausted, k.toCalendar, fun j hj hpj hlj => ?_, fun j hj => ?_, fun p => ?_⟩
      · obtain rfl | hj := List.mem_cons.1 hj
        · exact absurd ⟨hpj, hlj⟩ hp
        · exact k.freed j hj hpj hlj
      · exact k.kept j fun hc => hj ⟨List.mem_cons_of_mem _ hc.1, hc.2⟩
      · rw [k.queue]
        refine List.filter_congr fun j hj => ?_
        by_cases hjh : j = h
        · subst j
          have : r.purges n g h = false := by
            by_contra hc
            exact hp ⟨by simpa using hc, isListed_iff.2 ⟨p, hj⟩⟩
          simp [this]
        · simp [hjh]
    case pos =>
      rw [purgeRecord_of_purges hp.1 hp.2] at k ⊢
      have hnotice (j : Handle) : ((r.withdrawAll h).freeRecord h).notice j = if j = h then none else r.notice j :=
        setNotice_notice ..
      have hpurges {j : Handle} (hj : j ≠ h) : ((r.withdrawAll h).freeRecord h).purges n g j = r.purges n g j :=
        purges_congr (by rw [hnotice, if_neg hj])
      refine ⟨k.inService, k.settings, k.poolExhausted, k.toCalendar, fun j hj hpj hlj => ?_, fun j hj => ?_, fun p => ?_⟩
      · by_cases hjh : j = h
        · subst j
          rw [k.kept h fun hc => hh hc.1, hnotice, if_pos rfl]
        · exact k.freed j (List.mem_of_ne_of_mem hjh hj) (by rw [hpurges hjh, hpj]) (by rw [isListed_withdrawAll hjh, hlj])
      · have hjh : j ≠ h := by
          rintro rfl
          exact hj ⟨List.mem_cons_self, hp⟩
        rw [k.kept j fun hc => hj ⟨List.mem_cons_of_mem _ hc.1, by rw [← hpurges hjh]; exact hc.2.1,
          by rw [← isListed_withdrawAll hjh]; exact hc.2.2⟩, hnotice, if_neg hjh]
      · have hq : ((r.withdrawAll h).freeRecord h).queue p = without h (r.queue p) := withdrawAll_queue r h p
        rw [k.queue, hq, without, List.filter_filter]
        refine List.filter_congr fun j _ => ?_
        by_cases hjh : j = h
        · subst j
          simp [hp.1]
        · rw [hpurges hjh]
          simp [hjh]

/-! ### The visits of a BROADCAST request (R101) -/

/-- Every record that a queue lists is in use. -/
def Router.ListsUsed (r : Router) : Prop := ∀ p h, h ∈ r.queue p → r.notice h ≠ none

theorem listsUsed_of_poolLaw (hp : r.PoolLaw) : r.ListsUsed := fun p h hm => (hp.2 h).1.2 (.inl ⟨p, hm⟩)

theorem enters_congr {c : Class} {l l' : List Handle} (hc : ∀ k ∈ l, r'.classOf k = r.classOf k) (he : r'.Enters c h l l') :
    r.Enters c h l l' := by
  obtain ⟨l₁, l₂, rfl, hl', h1, h2⟩ := he
  refine ⟨l₁, l₂, rfl, hl', fun k hk => ?_, fun k hk => ?_⟩
  · rw [← hc k (List.mem_append_left _ hk)]
    exact h1 k hk
  · rw [← hc k (List.mem_append_right _ (List.mem_of_mem_head? hk))]
    exact h2 k hk

theorem coalesce_of_some (hx : r.notice h = some x) : r.coalesce h q.fired q.weight.toNat = r.setNotice h (some (x.coalesced q)) := by
  simp only [Router.coalesce, hx]
  rfl

theorem listsUsed_setNotice (hu : r.ListsUsed) (h : Handle) (x : Notice) : (r.setNotice h (some x)).ListsUsed := fun p k hk => by
  rw [setNotice_notice]
  split
  · simp
  · exact hu p k hk

/-- The record a BROADCAST request makes. -/
theorem record_broadcast (hd : q.delivery = .broadcast) :
    q.record =
      { slot := q.slot, generation := q.generation, kind := q.kind, cls := q.cls, tag := q.tag, offer := .broadcast,
        firstFired := q.fired, lastFired := q.fired, overrun := BitVec.ofNat 8 (min (q.weight.toNat - 1) 255),
        redelivered := false } := by
  have : satAdd (0 : BitVec 8) (q.weight.toNat - 1) = BitVec.ofNat 8 (min (q.weight.toNat - 1) 255) := by simp [satAdd]
  simp only [FireRequest.record, hd, this]

/-- One visit is one of the cases of R101, and keeps what the next visit rests on. -/
theorem visit_broadcastTo (hd : q.delivery = .broadcast) (done : List Handle) (p : Port) (hu : r.ListsUsed) :
    Router.Visit elig q p r done (Router.broadcastTo elig q (r, done) p) ∧ (Router.broadcastTo elig q (r, done) p).1.ListsUsed ∧
      (Router.broadcastTo elig q (r, done) p).1.inService = r.inService ∧
      (Router.broadcastTo elig q (r, done) p).1.settings = r.settings := by
  cases he : elig p with
  | false =>
    have : Router.broadcastTo elig q (r, done) p = (r, done) := by simp [Router.broadcastTo, he]
    rw [this]
    exact ⟨.skipped he, hu, rfl, rfl⟩
  | true =>
    cases hm : r.matchIn p q.slot q.generation q.kind with
    | some h =>
      obtain ⟨hq, x, hx, hmatch⟩ := matchIn_eq_some hm
      by_cases hdone : h ∈ done
      · have : Router.broadcastTo elig q (r, done) p = (r, done) := by simp [Router.broadcastTo, he, hm, hdone]
        rw [this]
        exact ⟨.servedAlready h x he hq hx hmatch hdone, hu, rfl, rfl⟩
      · have : Router.broadcastTo elig q (r, done) p = (r.setNotice h (some (x.coalesced q)), h :: done) := by
          simp [Router.broadcastTo, he, hm, hdone, coalesce_of_some hx]
        rw [this]
        exact ⟨.coalesced h x he hq hx hmatch hdone, listsUsed_setNotice hu _ _, rfl, rfl⟩
    | none =>
      have hno := matchIn_eq_none_iff.1 hm
      by_cases hfull : 16 ≤ (r.queue p).length
      · have : Router.broadcastTo elig q (r, done) p = (r.loseCopy q p, done) := by
          simp [Router.broadcastTo, he, hm, queueFull_iff.2 hfull]
        rw [this]
        exact ⟨.queueFull he hno hfull, hu, rfl, rfl⟩
      · have hroom : r.queueFull p = false := by
          rw [← Bool.not_eq_true, queueFull_iff]
          exact hfull
        cases hf : r.lowestFree with
        | some h =>
          have : Router.broadcastTo elig q (r, done) p = ((r.setNotice h (some q.record)).enter p h, done) := by
            simp [Router.broadcastTo, he, hm, hroom, hf]
          rw [this]
          have hlow : r.LowestFree h := by
            refine ⟨lowestFree_free hf, fun k hk hn => ?_⟩
            have := List.find?_eq_some_iff_getElem.1 hf
            obtain ⟨-, i, hi, hih, hbefore⟩ := this
            have hi' : i = h.val := by
              rw [List.getElem_finRange] at hih
              exact congrArg Fin.val hih
            have := hbefore k.val (hi' ▸ hk)
            simp [hn] at this
          have henters : r.Enters q.cls h (r.queue p) ((r.setNotice h (some q.record)).enterList h (r.queue p)) := by
            have hx : (r.setNotice h (some q.record)).notice h = some q.record := by simp
            refine enters_congr (fun k hk => classOf_congr ?_) (enters_enterList hx (r.queue p))
            rw [setNotice_notice, if_neg]
            rintro rfl
            exact hu p k hk hlow.1
          refine ⟨?_, fun k j hj => ?_, rfl, rfl⟩
          · have hmade := Router.Visit.made (isOpen := elig) (q := q) (p := p) (r := r) (done := done) h _ he hno
              (Nat.not_le.1 hfull) hlow henters
            rw [← record_broadcast hd] at hmade
            exact hmade
          · have hq : ((r.setNotice h (some q.record)).enter p h).queue k =
                if k = p then (r.setNotice h (some q.record)).enterList h (r.queue p) else r.queue k := setQueue_queue ..
            have hn : ((r.setNotice h (some q.record)).enter p h).notice j = if j = h then some q.record else r.notice j :=
              setNotice_notice ..
            rw [hn]
            split
            · simp
            · rename_i hj'
              rw [hq] at hj
              split at hj
              · exact hu p j (((mem_of_enters henters).1 hj).resolve_left hj')
              · exact hu k j hj
        | none =>
          have hnone : ∀ h, r.notice h ≠ none := fun h hn => by
            simp only [Router.lowestFree, List.find?_eq_none] at hf
            simpa [hn] using hf h (List.mem_finRange h)
          have : Router.broadcastTo elig q (r, done) p = ((r.loseCopy q p).countExhausted, done) := by
            simp [Router.broadcastTo, he, hm, hroom, hf]
          rw [this]
          refine ⟨?_, hu, rfl, rfl⟩
          have hpool := Router.Visit.poolEmpty (isOpen := elig) (q := q) (p := p) (r := r) (done := done) he hno
            (Nat.not_le.1 hfull) hnone
          have hcount : BitVec.ofNat 16 (min (r.poolExhausted.toNat + 1) 65535) = satInc r.poolExhausted := (satInc_eq _).symm
          rw [hcount] at hpool
          exact hpool

theorem visits_broadcast (hd : q.delivery = .broadcast) (l : List Port) (done : List Handle) (hu : r.ListsUsed) :
    Router.Visits elig q l (r, done) (l.foldl (Router.broadcastTo elig q) (r, done)) ∧
      (l.foldl (Router.broadcastTo elig q) (r, done)).1.inService = r.inService ∧
      (l.foldl (Router.broadcastTo elig q) (r, done)).1.settings = r.settings := by
  induction l generalizing r done with
  | nil => exact ⟨.nil _, rfl, rfl⟩
  | cons p l ih =>
    obtain ⟨hv, hu', hs, ht⟩ := visit_broadcastTo (elig := elig) hd done p hu
    rw [List.foldl_cons]
    generalize Router.broadcastTo elig q (r, done) p = a at hv hu' hs ht
    obtain ⟨r₁, done₁⟩ := a
    obtain ⟨hvs, hs', ht'⟩ := ih done₁ hu'
    exact ⟨.cons p l r done _ _ hv hvs, hs'.trans hs, ht'.trans ht⟩

end

/-! ### The statements -/

theorem exec_fireRequest_of_head {s : State} {q : FireRequest} {rest : List RouterRequest} (h : s.calendar.toRouter = .fire q :: rest) :
    exec .fireRequest s = .next { s with
      calendar := { s.calendar with toRouter := rest },
      router := Router.reportFrom s.router false none (s.router.takeFire (s.eligible q) q) } := by
  change execFireRequest s = _
  simp only [execFireRequest, h]

/-- Settles O38: visit after visit, then the reports. -/
theorem broadcastFire : Obligations.BroadcastFire := by
  intro s q rest hm hd hp
  obtain ⟨hv, hs, ht⟩ := visits_broadcast (r := s.router) (elig := s.eligible q) hd
    ((List.finRange 4).filter fun p => hasPort q.targets p) [] (listsUsed_of_poolLaw hp)
  have htake : s.router.takeFire (s.eligible q) q =
      (((List.finRange 4).filter fun p => hasPort q.targets p).foldl (Router.broadcastTo (s.eligible q) q) (s.router, [])).1 := by
    simp only [Router.takeFire, hd, Router.broadcast]
  generalize ((List.finRange 4).filter fun p => hasPort q.targets p).foldl (Router.broadcastTo (s.eligible q) q) (s.router, []) = a
    at hv hs ht htake
  obtain ⟨r', done⟩ := a
  obtain ⟨back, he, hb⟩ := reportFrom_queues hs ht
  exact ⟨r', done, back, hv, by rw [exec_fireRequest_of_head hm, htake, he], hb⟩

/-- Settles O40: what the purge over all the handles leaves. -/
theorem purge : Obligations.Purge := by
  intro s n g rest hm
  have k := purgedTo_foldl n g (List.finRange 64) (List.nodup_finRange 64) s.router
  change s.router.PurgedTo n g (List.finRange 64) (s.router.purge n g) at k
  have hback := purge_back (r := s.router) n g
  generalize hr : s.router.purge n g = r' at k hback
  obtain ⟨back, he, hb⟩ := reportFrom_queues k.inService k.settings
  refine ⟨{ r' with back := back }, ?_, k.inService, k.settings, k.poolExhausted, k.toCalendar, fun h => ⟨fun x p hx hs hg hq => ?_, ?_⟩,
    fun p => ⟨?_, ?_⟩⟩
  · change execPurgeRequest s = _
    simp only [execPurgeRequest, hm, hr, he]
  · exact k.freed h (List.mem_finRange h) (by simp [Router.purges, hx, hs, hg]) (isListed_iff.2 ⟨p, hq⟩)
  · rintro (hno | hno)
    · refine k.kept h fun hc => ?_
      obtain ⟨p, hp⟩ := isListed_iff.1 hc.2.2
      exact hno p hp
    · refine k.kept h fun hc => ?_
      have := hc.2.1
      unfold Router.purges at this
      split at this
      · rename_i x hx
        exact hno x hx (by simpa using this)
      · cases this
  · refine (k.queue p).trans (List.filter_congr fun h _ => ?_)
    unfold Router.purges
    cases s.router.notice h <;> simp
  · refine (hb p).trans ?_
    rw [hback]
    rfl

end Sys2Proof.Machine
end

section
/-! PROOFS. Fire requests of delivery CLAIM (R103 to R105): the record coalesced into, the ports already served, and the record that
is listed for the eligible set. -/

namespace Sys2Proof.Machine

section
variable {r r' : Router} {h k : Handle} {p : Port} {q : FireRequest} {elig : Port → Bool} {x : Notice}

/-! ### Case 1: a CLAIM record that some queue lists -/

theorem listsClaim_iff :
    (r.isClaim h && r.recordIs q.slot q.generation q.kind h && r.isListed h) = true ↔ ∃ x, r.ListsClaim q h x := by
  rw [Bool.and_eq_true, Bool.and_eq_true, recordIs_iff, isListed_iff]
  constructor
  · rintro ⟨⟨hc, x, hx, hmatch⟩, hl⟩
    refine ⟨x, hx, hmatch, fun ho => ?_, hl⟩
    simp [Router.isClaim, hx, ho, Offer.delivery] at hc
  · rintro ⟨x, hx, hmatch, ho, hl⟩
    refine ⟨⟨?_, x, hx, hmatch⟩, hl⟩
    cases hoff : x.offer with
    | broadcast => exact absurd hoff ho
    | claim offered declined => simp [Router.isClaim, hx, hoff, Offer.delivery]

theorem claimMatch_of_lowest (hl : r.ListsClaim q h x) (hlow : ∀ k y, k < h → ¬ r.ListsClaim q k y) :
    r.claimMatch q = some h := by
  unfold Router.claimMatch
  rw [List.find?_eq_some_iff_getElem]
  refine ⟨listsClaim_iff.2 ⟨x, hl⟩, h.val, by simp, by simp, fun j hj => ?_⟩
  rw [Bool.not_eq_true', ← Bool.not_eq_true]
  intro hc
  obtain ⟨y, hy⟩ := listsClaim_iff.1 hc
  rw [List.getElem_finRange] at hy
  exact hlow _ y hj hy

theorem claimMatch_eq_none (hno : ∀ h x, ¬ r.ListsClaim q h x) : r.claimMatch q = none := by
  simp only [Router.claimMatch, List.find?_eq_none]
  intro h _ hc
  obtain ⟨x, hx⟩ := listsClaim_iff.1 hc
  exact hno h x hx

/-! ### Case 3: the ports that already list a match -/

theorem recordIs_recast (c : r.Recast r') (n : SlotNo) (g : BitVec 16) (kind : NoticeKind) (h : Handle) :
    r'.recordIs n g kind h = r.recordIs n g kind h := by
  have hk := c.keys h
  unfold Router.recordIs Notice.isOf
  cases hx : r.notice h <;> cases hy : r'.notice h <;> simp_all [Notice.key]

theorem matchIn_recast (c : r.Recast r') (p : Port) (n : SlotNo) (g : BitVec 16) (kind : NoticeKind) :
    r'.matchIn p n g kind = r.matchIn p n g kind := by
  have : r'.recordIs n g kind = r.recordIs n g kind := funext fun h => recordIs_recast c n g kind h
  rw [Router.matchIn, Router.matchIn, c.queue, this]

/-- The record after a coalescing, if it is in use. -/
def Router.coalesced (r : Router) (q : FireRequest) (h : Handle) : Option Notice := (r.notice h).map fun x => x.coalesced q

theorem coalesceAt_notice (p : Port) (h : Handle) :
    (Router.coalesceAt q r p).notice h =
      if r.matchIn p q.slot q.generation q.kind = some h then r.coalesced q h else r.notice h := by
  unfold Router.coalesceAt
  cases hm : r.matchIn p q.slot q.generation q.kind with
  | none => simp
  | some k =>
    obtain ⟨-, x, hx, -⟩ := matchIn_eq_some hm
    simp only [coalesce_of_some hx, setNotice_notice, Option.some.injEq, Router.coalesced]
    by_cases hk : h = k
    · subst h
      simp [hx]
    · rw [if_neg hk, if_neg fun e => hk e.symm]

/-- A coalescing touches the pool alone. -/
theorem coalesceAt_eq (p : Port) : Router.coalesceAt q r p = { r with pool := (Router.coalesceAt q r p).pool } := by
  unfold Router.coalesceAt
  split
  · unfold Router.coalesce
    split <;> rfl
  · rfl

/-- Coalescings at ports that list different records: each record listed there takes the fire in once. -/
theorem foldl_coalesceAt (l : List Port) (hl : l.Nodup) (r : Router)
    (hone : ∀ p ∈ l, ∀ p' ∈ l, ∀ h, r.matchIn p q.slot q.generation q.kind = some h →
      r.matchIn p' q.slot q.generation q.kind = some h → p = p') :
    l.foldl (Router.coalesceAt q) r = { r with pool := (l.foldl (Router.coalesceAt q) r).pool } ∧
      ∀ h, ((∃ p ∈ l, r.matchIn p q.slot q.generation q.kind = some h) →
          (l.foldl (Router.coalesceAt q) r).notice h = r.coalesced q h) ∧
        ((∀ p ∈ l, r.matchIn p q.slot q.generation q.kind ≠ some h) →
          (l.foldl (Router.coalesceAt q) r).notice h = r.notice h) := by
  induction l generalizing r with
  | nil => exact ⟨rfl, fun h => ⟨fun ⟨p, hp, _⟩ => absurd hp List.not_mem_nil, fun _ => rfl⟩⟩
  | cons p l ih =>
    obtain ⟨hp, hl⟩ := List.nodup_cons.1 hl
    have c := recast_coalesceAt (r := r) q p
    have hm (p' : Port) := matchIn_recast c p' q.slot q.generation q.kind
    have hn := coalesceAt_notice (r := r) (q := q) p
    have he := coalesceAt_eq (r := r) (q := q) p
    rw [List.foldl_cons]
    generalize Router.coalesceAt q r p = r₁ at hm hn he
    obtain ⟨heq, hrec⟩ := ih hl r₁ fun a ha b hb h h1 h2 => by
      rw [hm] at h1 h2
      exact hone a (List.mem_cons_of_mem _ ha) b (List.mem_cons_of_mem _ hb) h h1 h2
    refine ⟨heq.trans (by rw [he]), fun h => ⟨fun ⟨p', hp', hm'⟩ => ?_, fun hno => ?_⟩⟩
    · obtain rfl | hp' := List.mem_cons.1 hp'
      · rw [(hrec h).2 fun a ha hc => ?_, hn, if_pos hm']
        rw [hm] at hc
        exact hp (hone p' List.mem_cons_self a (List.mem_cons_of_mem _ ha) h hm' hc ▸ ha)
      · have hne : r.matchIn p q.slot q.generation q.kind ≠ some h := fun hc =>
          hp (hone p List.mem_cons_self p' (List.mem_cons_of_mem _ hp') h hc hm' ▸ hp')
        rw [(hrec h).1 ⟨p', hp', by rw [hm, hm']⟩]
        unfold Router.coalesced
        rw [hn, if_neg hne]
    · rw [(hrec h).2 fun a ha hc => hno a (List.mem_cons_of_mem _ ha) (by rw [← hm, hc]), hn,
        if_neg (hno p List.mem_cons_self)]

theorem mem_served_iff :
    p ∈ r.served elig q ↔ hasPort q.targets p = true ∧ elig p = true ∧ r.ListsMatch p q := by
  rw [Router.served, List.mem_filter]
  have : (r.matchIn p q.slot q.generation q.kind).isSome = true ↔ r.ListsMatch p q := by
    rw [← not_iff_not, ← matchIn_eq_none_iff, Bool.not_eq_true, Option.isSome_eq_false_iff, Option.isNone_iff_eq_none]
  simp [this, and_assoc]

theorem mem_eligibleSet_iff :
    p ∈ r.eligibleSet elig q ↔
      hasPort q.targets p = true ∧ elig p = true ∧ (r.queue p).length < 16 ∧ ¬ r.ListsMatch p q := by
  rw [Router.eligibleSet, List.mem_filter]
  have hm : (r.matchIn p q.slot q.generation q.kind).isNone = true ↔ ¬ r.ListsMatch p q := by
    rw [Option.isNone_iff_eq_none, matchIn_eq_none_iff]
  have hf : (!r.queueFull p) = true ↔ (r.queue p).length < 16 := by
    rw [Bool.not_eq_true', ← Bool.not_eq_true, queueFull_iff, not_le]
  simp only [Bool.and_eq_true, hm, hf, List.mem_finRange, true_and, and_assoc]

/-- Where no CLAIM record matches, two ports list no common match: a BROADCAST record has one holder. -/
theorem match_unshared (hp : r.PoolLaw) (hno : ∀ h x, ¬ r.ListsClaim q h x) {p p' : Port}
    (h1 : r.matchIn p q.slot q.generation q.kind = some h) (h2 : r.matchIn p' q.slot q.generation q.kind = some h) : p = p' := by
  obtain ⟨hq, x, hx, hmatch⟩ := matchIn_eq_some h1
  obtain ⟨hq', -⟩ := matchIn_eq_some h2
  have ho : x.offer = .broadcast := by
    by_contra ho
    exact hno h x ⟨hx, hmatch, ho, p, hq⟩
  exact (hp.2 h).2.2.2 x hx ho p p' hq hq'

/-- What the coalescings of case 3 make of the pool. -/
theorem served_pool {served : Port → Prop} {pool : Vector (Option Notice) 64} (hp : r.PoolLaw) (ho : r.OrderLaw)
    (hno : ∀ h x, ¬ r.ListsClaim q h x) (hserved : ∀ p, served p ↔ p ∈ r.served elig q)
    (hpool : ∀ h : Handle,
      (∀ x, r.notice h = some x → x.Matches q → (∃ p, served p ∧ h ∈ r.queue p) → pool[h] = some (x.coalesced q)) ∧
      ((∀ x, r.notice h = some x → x.Matches q → ∀ p, served p → h ∉ r.queue p) → pool[h] = r.notice h)) :
    (r.served elig q).foldl (Router.coalesceAt q) r = { r with pool := pool } := by
  obtain ⟨he, hn⟩ := foldl_coalesceAt (q := q) (r.served elig q) ((List.nodup_finRange 4).filter _) r
    fun p _ p' _ h h1 h2 => match_unshared hp hno h1 h2
  rw [he]
  have : ((r.served elig q).foldl (Router.coalesceAt q) r).pool = pool := by
    refine vector_ext_fin fun h => ?_
    have hn := hn h
    have hpool := hpool h
    by_cases hm : ∃ p ∈ r.served elig q, r.matchIn p q.slot q.generation q.kind = some h
    · obtain ⟨p, hps, hmp⟩ := hm
      obtain ⟨hq, x, hx, hmatch⟩ := matchIn_eq_some hmp
      refine (hn.1 ⟨p, hps, hmp⟩).trans ?_
      rw [hpool.1 x hx hmatch ⟨p, (hserved p).2 hps, hq⟩]
      simp [Router.coalesced, hx]
    · push Not at hm
      refine (hn.2 hm).trans (hpool.2 fun x hx hmatch p hps hq => ?_).symm
      exact hm p ((hserved p).1 hps) (matchIn_of_mem ho hq hx hmatch.1 hmatch.2.1 hmatch.2.2)
  rw [this]

/-! ### Case 4: the record listed for the eligible set (R104, R105) -/

theorem record_claim (hd : q.delivery = .claim) :
    q.record =
      { slot := q.slot, generation := q.generation, kind := q.kind, cls := q.cls, tag := q.tag,
        offer := .claim q.targets 0, firstFired := q.fired, lastFired := q.fired,
        overrun := BitVec.ofNat 8 (min (q.weight.toNat - 1) 255), redelivered := false } := by
  have : satAdd (0 : BitVec 8) (q.weight.toNat - 1) = BitVec.ofNat 8 (min (q.weight.toNat - 1) 255) := by simp [satAdd]
  simp only [FireRequest.record, hd, this]

section
variable (hm : r.claimMatch q = none)
include hm

theorem claim_of_none_eligible (he : r.eligibleSet elig q = []) :
    r.claim elig q =
      if (r.served elig q).isEmpty then
        ((r.served elig q).foldl (Router.coalesceAt q) r).tellCalendar (.undelivered q.slot q.generation)
      else (r.served elig q).foldl (Router.coalesceAt q) r := by
  simp only [Router.claim, hm, he, List.isEmpty_nil, if_true]

theorem claim_of_pool_empty (he : r.eligibleSet elig q ≠ [])
    (hf : ((r.served elig q).foldl (Router.coalesceAt q) r).lowestFree = none) :
    r.claim elig q =
      (((r.served elig q).foldl (Router.coalesceAt q) r).tellCalendar (.lost q.slot q.generation)).countExhausted := by
  simp only [Router.claim, hm, List.isEmpty_iff, if_neg he, hf]

theorem claim_of_lowest_free (he : r.eligibleSet elig q ≠ [])
    (hf : ((r.served elig q).foldl (Router.coalesceAt q) r).lowestFree = some h) :
    r.claim elig q =
      (((r.served elig q).foldl (Router.coalesceAt q) r).setNotice h (some q.record)).enterAll h (r.eligibleSet elig q) := by
  simp only [Router.claim, hm, List.isEmpty_iff, if_neg he, hf]

end

end

/-- A fire request after which every queue, stack and setting is as it was. -/
theorem exec_fireRequest_quiet {s : State} {q : FireRequest} {rest : List RouterRequest} {r' : Router}
    (h : s.calendar.toRouter = .fire q :: rest) (ht : s.router.takeFire (s.eligible q) q = r')
    (hs : r'.inService = s.router.inService) (hset : r'.settings = s.router.settings) (hq : r'.queues = s.router.queues) :
    exec .fireRequest s = .next { s with calendar := { s.calendar with toRouter := rest }, router := r' } := by
  rw [exec_fireRequest_of_head h, ht, reportFrom_of_same_queues hs hset hq]

/-- Settles O39: the record that takes the fire in, or the ports served and the eligible set. -/
theorem claimFire : Obligations.ClaimFire := by
  intro s base q rest hm hbase hd hp ho
  subst hbase
  have htake : s.router.takeFire (s.eligible q) q = s.router.claim (s.eligible q) q := by simp only [Router.takeFire, hd]
  refine ⟨fun h x hl hlow => ?_, fun hno served eligible pool hserved heligible hpool => ?_⟩
  · have hx := hl.1
    refine exec_fireRequest_quiet hm (htake.trans ?_) rfl rfl rfl
    simp only [Router.claim, claimMatch_of_lowest hl hlow, coalesce_of_some hx]
    rfl
  · have helig (p : Port) : s.eligible q p = true ↔ (s.port p).session = .opened ∧ q.tie ≠ some (.ended p) := by
      simp [State.eligible, State.isOpen]
    have hserved' (p : Port) : served p ↔ p ∈ s.router.served (s.eligible q) q := by
      rw [hserved, mem_served_iff, helig, and_assoc]
    have heligible' (p : Port) : eligible p ↔ p ∈ s.router.eligibleSet (s.eligible q) q := by
      rw [heligible, mem_eligibleSet_iff, helig, and_assoc]
    have hmatch := claimMatch_eq_none hno
    have hfold := served_pool hp ho hno hserved' hpool
    have hrecast : s.router.Recast { s.router with pool := pool } := by
      rw [← hfold]
      exact foldl_keeps (P := fun a => s.router.Recast a) (fun a p ha => ha.trans (recast_coalesceAt q p)) _ (recast_refl _)
    have none_eligible (h : ∀ p, ¬ eligible p) : s.router.eligibleSet (s.eligible q) q = [] :=
      List.eq_nil_iff_forall_not_mem.2 fun p hp => h p ((heligible' p).2 hp)
    have some_eligible : (∃ p, eligible p) → s.router.eligibleSet (s.eligible q) q ≠ [] := fun ⟨p, hp⟩ =>
      List.ne_nil_of_mem ((heligible' p).1 hp)
    refine ⟨fun hne ⟨p, hps⟩ => ?_, fun hne hns => ?_, fun he hfull => ?_, fun h he hlow => ?_⟩
    · have hsome : ¬ (s.router.served (s.eligible q) q).isEmpty = true := fun hc =>
        List.ne_nil_of_mem ((hserved' p).1 hps) (List.isEmpty_iff.1 hc)
      refine exec_fireRequest_quiet hm (htake.trans ?_) rfl rfl rfl
      rw [claim_of_none_eligible hmatch (none_eligible hne), if_neg hsome, hfold]
    · have hnil : s.router.served (s.eligible q) q = [] :=
        List.eq_nil_iff_forall_not_mem.2 fun p hp => hns p ((hserved' p).2 hp)
      refine exec_fireRequest_quiet hm (htake.trans ?_) rfl rfl rfl
      rw [claim_of_none_eligible hmatch (none_eligible hne), hnil, List.isEmpty_nil, if_pos rfl]
      rfl
    · refine exec_fireRequest_quiet hm (htake.trans ?_) rfl rfl rfl
      have hcount : satInc s.router.poolExhausted = BitVec.ofNat 16 (min (s.router.poolExhausted.toNat + 1) 65535) := satInc_eq _
      rw [claim_of_pool_empty hmatch (some_eligible he), hfold, ← hcount]
      · rfl
      · rw [hfold]
        exact lowestFree_eq_none fun h hn => hfull h ((hrecast.none_iff h).1 hn)
    · have hlow' : ((s.router.served (s.eligible q) q).foldl (Router.coalesceAt q) s.router).lowestFree = some h := by
        rw [hfold]
        exact lowestFree_eq_some ⟨(hrecast.none_iff h).2 hlow.1, fun k hk hn => hlow.2 k hk ((hrecast.none_iff k).1 hn)⟩
      have hclaim := claim_of_lowest_free hmatch (some_eligible he) hlow'
      rw [hfold] at hclaim
      obtain ⟨queues, hall, hqueues⟩ := enterAll_spec h (s.router.eligibleSet (s.eligible q) q)
        (Router.setNotice { s.router with pool := pool } h (some q.record)) ((List.nodup_finRange 4).filter _)
      rw [hall] at hclaim
      have henters (p : Port) : s.router.Enters q.cls h (s.router.queue p)
          ((Router.setNotice { s.router with pool := pool } h (some q.record)).enterList h (s.router.queue p)) := by
        have hx : (Router.setNotice { s.router with pool := pool } h (some q.record)).notice h = some q.record :=
          (setNotice_notice ..).trans (if_pos rfl)
        refine enters_congr (fun k hk => ?_) (enters_enterList hx (s.router.queue p))
        have hkh : k ≠ h := by
          rintro rfl
          exact listsUsed_of_poolLaw hp p k hk hlow.1
        refine (classOf_congr ?_).trans (hrecast.classOf k)
        exact (setNotice_notice ..).trans (if_neg hkh)
      obtain ⟨back, hrep, hback⟩ := reportFrom_queues (old := s.router)
        (r := { Router.setNotice { s.router with pool := pool } h (some q.record) with queues := queues }) rfl rfl
      refine ⟨queues, back,
        { Router.setNotice { s.router with pool := pool } h (some q.record) with queues := queues, back := back }, ?_, ?_, fun p => ⟨fun hpe => ?_, fun hpe => ?_⟩⟩
      · rw [exec_fireRequest_of_head hm, htake, hclaim, hrep]
      · rw [← record_claim hd]
        rfl
      · have hq : s.router.Enters q.cls h (s.router.queue p) queues[p] := by
          rw [(hqueues p).trans (if_pos ((heligible' p).1 hpe))]
          exact henters p
        refine ⟨hq, (hback p).trans ?_⟩
        refine congrArg _ (if_neg fun he => ?_)
        have hlen := length_of_enters hq
        rw [show queues[p] = s.router.queue p from he] at hlen
        omega
      · have hq : queues[p] = s.router.queue p := (hqueues p).trans (if_neg fun h => hpe ((heligible' p).2 h))
        refine ⟨hq, (hback p).trans ?_⟩
        exact (congrArg _ (if_pos hq)).trans (List.append_nil _)

end Sys2Proof.Machine
end

section
/-! PROOFS. Request frames at the Port Unit: how far a frame has come, its judgement, and OPEN, CLOSE and PORT_STATUS
(R134 to R142, R152 to R155). -/

namespace Sys2Proof.Machine

/-! ### How far a frame has come (R152) -/

section
variable {l : List Byte}

theorem getElem?_of_le_length (h : ¬ l.length < 4) : l[3]? = some (byteAt l 3) := by
  rw [byteAt, List.getElem?_eq_getElem (by omega), Option.getD_some]

theorem frameProgress_growing_iff : frameProgress l = .growing ↔ FrameGrowing l := by
  unfold frameProgress FrameGrowing
  by_cases h4 : l.length < 4
  · simp [h4]
  · rw [getElem?_of_le_length h4]
    simp only [h4, if_false, false_or, Option.some.injEq, exists_eq_left', Config.maxRequestPayload]
    generalize (byteAt l 3).toNat = k
    by_cases hk : 40 < k
    · simp [hk, Nat.not_le.2 hk]
    · by_cases hl : l.length < 5 + k <;> simp [hk, hl, Nat.not_lt.1 hk]

theorem frameProgress_overlong_iff : frameProgress l = .overlong ↔ FrameOverlong l := by
  unfold frameProgress FrameOverlong
  by_cases h4 : l.length < 4
  · have : l[3]? = none := List.getElem?_eq_none (by omega)
    simp [h4, this]
  · rw [getElem?_of_le_length h4]
    simp only [h4, if_false, Option.some.injEq, exists_eq_left', Config.maxRequestPayload]
    generalize (byteAt l 3).toNat = k
    by_cases hk : 40 < k
    · simp [hk]
    · by_cases hl : l.length < 5 + k <;> simp [hk, hl]

end

/-! ### The judgement of a frame (R153, R154, R135) -/

/-- The Port Unit after a frame that passed the checks of R154. -/
def PortUnit.passed (u : PortUnit) : PortUnit := { u with refusedFlag := false, checkFlag := false }

section
variable {u : PortUnit} {code e q : Byte} {payload : List Byte} {c : Command}

theorem holdersBusy_iff : u.holdersBusy = true ↔ u.executing ≠ none ∨ u.response ≠ none := by
  simp [PortUnit.holdersBusy, Option.isSome_iff_ne_none]

theorem holdersBusy_of_empty (hx : u.executing = none) (hr : u.response = none) : u.holdersBusy = false := by
  rw [PortUnit.holdersBusy, hx, hr]
  rfl

/-- A frame that ends while a holder is busy is refused (R153). -/
theorem judgeFrame_of_busy (h : u.executing ≠ none ∨ u.response ≠ none) (whole : Bool) :
    u.judgeFrame whole = u.countRefused := if_pos (holdersBusy_iff.2 h)

/-- A frame that does not end whole is answered BAD_FRAME (R154). -/
theorem judgeFrame_of_broken (hx : u.executing = none) (hr : u.response = none) :
    u.judgeFrame false = (PortUnit.countBadFrame { u with refusedFlag := false }).answer (Reply.bare .badFrame) := by
  simp [PortUnit.judgeFrame, holdersBusy_of_empty hx hr, PortUnit.linkVerdict, PortUnit.linkCount]

/-- A whole frame with a wrong check byte is answered CHECK_FAIL (R154). -/
theorem judgeFrame_of_checkFail (hx : u.executing = none) (hr : u.response = none) (hc : passesCheck u.buffer = false) :
    u.judgeFrame true = (PortUnit.countCheckFail { u with refusedFlag := false }).answer (Reply.bare .checkFail) := by
  simp [PortUnit.judgeFrame, holdersBusy_of_empty hx hr, PortUnit.linkVerdict, PortUnit.linkCount, hc]

/-- The outcome, if any, that the checks of R154 on the fields of a frame with a right check byte give. -/
theorem linkVerdict_of_framed (h : u.Framed code e q payload) :
    (Command.ofCode code = none → u.linkVerdict true = .error .unknownCommand) ∧
      ∀ c, Command.ofCode code = some c →
        (payload.length ≠ c.payloadLength → u.linkVerdict true = .error .badField) ∧
          (payload.length = c.payloadLength → u.linkVerdict true = .ok c) := by
  obtain ⟨hcode, -, -, -, hlen, -, hpass⟩ := framed_fields h
  have hn : (BitVec.ofNat 8 payload.length).toNat = payload.length := by
    rw [BitVec.toNat_ofNat]
    exact Nat.mod_eq_of_lt (by have := h.size; omega)
  have hm (c : Command) (hc : Command.ofCode code = some c) :
      u.linkVerdict true = if payload.length = c.payloadLength then .ok c else .error .badField := by
    simp only [PortUnit.linkVerdict, hpass, hcode, hc, hlen, hn]
    rfl
  refine ⟨fun hc => ?_, fun c hc => ⟨fun hl => (hm c hc).trans (if_neg hl), fun hl => (hm c hc).trans (if_pos hl)⟩⟩
  simp [PortUnit.linkVerdict, hpass, hcode, hc]

theorem linkCount_of_framed (h : u.Framed code e q payload) :
    PortUnit.linkCount { u with refusedFlag := false } true = u.passed := by
  obtain ⟨-, -, -, -, -, -, hpass⟩ := framed_fields h
  simp [PortUnit.linkCount, hpass, PortUnit.passed]

/-- The end of a whole frame while both holders are EMPTY. -/
theorem endFrame_of_framed (h : u.Framed code e q payload) : u.endFrame = { u.judgeFrame true with link := .discard } := by
  obtain ⟨-, -, -, -, -, hdone, -⟩ := framed_fields h
  simp [PortUnit.endFrame, hdone]

theorem endFrame_of_error (h : u.Framed code e q payload) {o : OutcomeCode} (hv : u.linkVerdict true = .error o) :
    u.endFrame = { u.passed.respond code q (Reply.bare o) with link := .discard } := by
  obtain ⟨hcode, -, hseq, -⟩ := framed_fields h
  rw [endFrame_of_framed h, PortUnit.judgeFrame, holdersBusy_of_empty h.executing h.response, linkCount_of_framed h, hv, ← hcode,
    ← hseq]
  rfl

theorem endFrame_of_refusal (h : u.Framed code e q payload) {o : OutcomeCode} (hv : u.linkVerdict true = .ok c)
    (hs : u.sessionRefusal c = some o) :
    u.endFrame = { u.passed.respond code q (Reply.bare o) with link := .discard } := by
  obtain ⟨hcode, -, hseq, -⟩ := framed_fields h
  rw [endFrame_of_framed h, PortUnit.judgeFrame, holdersBusy_of_empty h.executing h.response, linkCount_of_framed h, hv, ← hcode,
    ← hseq]
  simp only [hs]
  rfl

theorem endFrame_of_passed (h : u.Framed code e q payload) (hv : u.linkVerdict true = .ok c) (hs : u.sessionRefusal c = none) :
    u.endFrame = { u.passed.carryOut c with link := .discard } := by
  rw [endFrame_of_framed h, PortUnit.judgeFrame, holdersBusy_of_empty h.executing h.response, linkCount_of_framed h, hv]
  simp only [hs]
  rfl

theorem framedCommand_of_framed (h : u.Framed code e q payload) (hc : Command.ofCode code = some c)
    (hl : payload.length = c.payloadLength) : u.framedCommand = some c := by
  obtain ⟨-, -, -, -, -, hdone, -⟩ := framed_fields h
  simp [PortUnit.framedCommand, h.link, hdone, holdersBusy_of_empty h.executing h.response,
    ((linkVerdict_of_framed h).2 c hc).2 hl, Except.toOption]

/-- The session checks pass a command of the OPEN session, under its epoch (R135). -/
theorem sessionRefusal_of_current (hs : u.session = .opened) (he : u.frameEpoch = u.epoch) : u.sessionRefusal c = none := by
  unfold PortUnit.sessionRefusal
  split <;> simp [hs, he]

theorem sessionRefusal_of_closed (h1 : c ≠ .openSession) (h2 : c ≠ .portStatus) (hs : u.session = .closed) :
    u.sessionRefusal c = some .notOpen := by
  cases c <;> first | contradiction | simp [PortUnit.sessionRefusal, hs]

theorem sessionRefusal_of_stale (h1 : c ≠ .openSession) (h2 : c ≠ .portStatus) (hs : u.session = .opened)
    (he : u.frameEpoch ≠ u.epoch) : u.sessionRefusal c = some .staleSession := by
  cases c <;> first | contradiction | simp [PortUnit.sessionRefusal, hs, he]

/-- A command that a block owns is passed on (R135). -/
theorem carryOut_of_request {b : Block} {r : Request} (h : c.request u.framePayload = some (b, r)) :
    u.carryOut c = u.passOn b r := by
  cases c <;> simp_all [PortUnit.carryOut, Command.request]

/-- A response formed leaves the alert line at its level, whatever becomes of the link. -/
theorem alertLaw_respond_link (w : PortUnit) (reply : Reply) (link : LinkState) (buffer out : List Byte) (shown : Bool) :
    PortUnit.AlertLaw { w.respond code q reply with link := link, buffer := buffer, out := out, shownReady := shown } :=
  (alertLaw_congr rfl rfl rfl rfl).2 (alertLaw_drive _)

end

/-! ### OPEN, CLOSE and PORT_STATUS (R137 to R142) -/

section
variable {s : State} {p : Port} {code e q : Byte} {payload : List Byte} {c : Command}

theorem exec_requestFrame (h : (s.port p).link = .request) :
    exec (.requestFrame p) s = .next (s.setPort p (s.port p).endFrame) := if_pos h

/-- The end of a frame that holds a request of the Port Unit's own is the event of its command. -/
theorem endFrameOf_of_framed (h : (s.port p).Framed code e q payload) (hc : Command.ofCode code = some c)
    (hl : payload.length = c.payloadLength) : s.endFrameOf p c = .next (s.setPort p (s.port p).endFrame) :=
  if_pos (framedCommand_of_framed h hc hl)

theorem linkVerdict_ok (h : (s.port p).Framed code e q payload) (hc : Command.ofCode code = some c)
    (hl : payload.length = c.payloadLength) : (s.port p).linkVerdict true = .ok c :=
  ((linkVerdict_of_framed h).2 c hc).2 hl

theorem takeOpen_of_opened {u : PortUnit} (h : u.session = .opened) :
    u.takeOpen = u.answer { outcome := .alreadyOpen, payload := .epoch u.epoch } := if_pos h

theorem takeOpen_of_closed {u : PortUnit} (h : u.session = .closed) :
    u.takeOpen = if u.pendingTeardowns = 0 then u.openNow u.frameCode u.frameSequence else u.hold .waitingOpen := by
  simp [PortUnit.takeOpen, h]

/-- CLOSE written out: the session ends on all four paths and the frame is answered (R139, R142). -/
theorem takeClose_eq (u : PortUnit) :
    u.takeClose =
      { u with
        session := .closed, pendingTeardowns := 4, executing := none,
        response := some { code := u.frameCode, outcome := .ok, sequence := u.frameSequence, payload := [u.epoch] },
        alertLine := false,
        toTimebase := u.toTimebase ++ [.sessionEnd u.epoch], toCalendar := u.toCalendar ++ [.sessionEnd u.epoch],
        toRouter := u.toRouter ++ [.sessionEnd u.epoch], toLine := u.toLine ++ [.sessionEnd u.epoch] } := rfl

/-- PORT_STATUS written out: the Port Unit's part, the clear, the mark, and the four parts sent (R140, R141). -/
theorem takePortStatus_eq {u : PortUnit} {flags : Byte} (h : u.framePayload = [flags]) :
    u.takePortStatus =
      { u with
        refused := if flags.getLsbD 0 then 0 else u.refused,
        checkFailures := if flags.getLsbD 0 then 0 else u.checkFailures,
        badFrames := if flags.getLsbD 0 then 0 else u.badFrames,
        lostNotices := if flags.getLsbD 0 then 0 else u.lostNotices,
        lostFlag := if flags.getLsbD 0 then false else u.lostFlag,
        executing := some
          { mark := u.nextMark, code := u.frameCode, sequence := u.frameSequence,
            work := .gathering { session := u.sessionPart, authority := none, slots := none, lines := none, notices := none } },
        nextMark := u.nextMark + 1,
        toTimebase := u.toTimebase ++ [.part u.nextMark], toCalendar := u.toCalendar ++ [.part u.nextMark],
        toRouter := u.toRouter ++ [.part u.nextMark], toLine := u.toLine ++ [.part u.nextMark] } := by
  rw [PortUnit.takePortStatus, h]
  have hf : flag0 (byteAt [flags] 0) = flags.getLsbD 0 := rfl
  rw [hf]
  cases flags.getLsbD 0 <;> rfl

end

/-- OPEN as R137 and R138 state it. -/
theorem openFrame_spec {s : State} {p : Port} {e q : Byte} (h : (s.port p).Framed 0x01 e q []) :
    exec (.openSession p) s = .next (s.setPort p { (s.port p).passed.takeOpen with link := .discard }) := by
  rw [show exec (.openSession p) s = .next (s.setPort p (s.port p).endFrame) from endFrameOf_of_framed h rfl rfl,
    endFrame_of_passed h (linkVerdict_ok h rfl rfl) rfl]
  rfl

/-- Settles O46. -/
theorem openAndClose : Obligations.OpenAndClose := by
  unfold Obligations.OpenAndClose
  refine ⟨fun s p e q h => ?_, fun s p e q h hs he => ?_⟩
  · obtain ⟨hcode, -, hseq, -⟩ := framed_fields h
    have hexec := openFrame_spec h
    have hx := h.executing
    refine ⟨(exec_requestFrame h.link).trans (endFrameOf_of_framed h rfl rfl).symm, fun hs => ?_, fun e' hs ht he' => ?_,
      fun hs ht => ?_⟩
    · have hopen : (s.port p).passed.takeOpen =
          (s.port p).passed.respond 0x01 q { outcome := .alreadyOpen, payload := .epoch (s.port p).epoch } := by
        rw [takeOpen_of_opened (u := (s.port p).passed) hs, ← hcode, ← hseq]
        rfl
      rw [hexec, hopen]
      refine ⟨_, rfl, ?_, alertLaw_respond_link ..⟩
      rw [(respond_spec _ _ _ _).1]
      simp [PortUnit.passed, hx, Payload.bytes]
    · have hopen : (s.port p).passed.takeOpen = (s.port p).passed.openNow 0x01 q := by
        rw [takeOpen_of_closed (u := (s.port p).passed) hs, ← hcode, ← hseq]
        exact if_pos ht
      rw [← nextNumber_epoch] at he'
      subst he'
      rw [hexec, hopen, PortUnit.openNow]
      refine ⟨_, rfl, ?_, alertLaw_respond_link ..⟩
      rw [(respond_spec _ _ _ _).1]
      simp [PortUnit.passed, hx, Payload.bytes]
    · have hopen : (s.port p).passed.takeOpen = (s.port p).passed.hold .waitingOpen := by
        rw [takeOpen_of_closed (u := (s.port p).passed) hs]
        exact if_neg (Nat.pos_iff_ne_zero.1 ht)
      rw [hexec, hopen, ← hcode, ← hseq]
      rfl
  · obtain ⟨hcode, hepoch, hseq, -⟩ := framed_fields h
    have hexec : exec (.closeSession p) s = .next (s.setPort p (s.port p).endFrame) := endFrameOf_of_framed h rfl rfl
    refine ⟨(exec_requestFrame h.link).trans hexec.symm, hexec.trans ?_⟩
    rw [endFrame_of_passed h (linkVerdict_ok h rfl rfl) (sessionRefusal_of_current hs (hepoch.trans he.symm))]
    have hclose : (s.port p).passed.carryOut .closeSession = (s.port p).passed.takeClose := rfl
    rw [hclose, takeClose_eq, ← he]
    have hx := h.executing
    simp [PortUnit.passed, hx, ← hcode, ← hseq, PortUnit.frameCode, PortUnit.frameSequence]

/-- Settles O47. -/
theorem portStatus : Obligations.PortStatus := by
  unfold Obligations.PortStatus
  intro s p e q flags h
  obtain ⟨hcode, -, hseq, hpayload, -⟩ := framed_fields h
  have hexec : exec (.portStatus p) s = .next (s.setPort p (s.port p).endFrame) := endFrameOf_of_framed h rfl rfl
  refine ⟨(exec_requestFrame h.link).trans hexec.symm, _, hexec, ?_⟩
  rw [endFrame_of_passed h (linkVerdict_ok h rfl rfl) rfl]
  have hstatus : (s.port p).passed.carryOut .portStatus = (s.port p).passed.takePortStatus := rfl
  rw [hstatus, takePortStatus_eq (u := (s.port p).passed) hpayload, ← hcode, ← hseq]
  rfl

/-! ### The judgement as the statement writes it -/

section
variable {s : State} {p : Port} {u : PortUnit}

theorem satInc_counter (v : BitVec 16) : satInc v = BitVec.ofNat 16 (min (v.toNat + 1) 65535) := satInc_eq v

/-- A frame that does not end whole, with its link, buffer and read as its end leaves them. -/
theorem endFrame_of_overlong (h : FrameOverlong u.buffer) :
    u.endFrame = { u.judgeFrame false with link := .discard } := by
  simp [PortUnit.endFrame, frameProgress_overlong_iff.2 h]

theorem endFrame_of_growing (h : FrameGrowing u.buffer) :
    u.endFrame = { u.judgeFrame false with link := .idle, buffer := [], out := [], shownReady := false } := by
  simp [PortUnit.endFrame, frameProgress_growing_iff.2 h]

/-- A frame refused while a holder is busy (R153). -/
theorem endFrame_of_busy (hb : u.executing ≠ none ∨ u.response ≠ none) :
    (¬ FrameGrowing u.buffer → u.endFrame = { u.countRefused with link := .discard }) ∧
      (FrameGrowing u.buffer →
        u.endFrame = { u.countRefused with link := .idle, buffer := [], out := [], shownReady := false }) := by
  refine ⟨fun hg => ?_, fun hg => by rw [endFrame_of_growing hg, judgeFrame_of_busy hb]⟩
  rw [← frameProgress_growing_iff] at hg
  cases hf : frameProgress u.buffer with
  | growing => exact absurd hf hg
  | complete => simp only [PortUnit.endFrame, hf, judgeFrame_of_busy hb]
  | overlong => simp only [PortUnit.endFrame, hf, judgeFrame_of_busy hb]

theorem countRefused_eq :
    u.countRefused =
      { u with refusedFlag := true, refused := BitVec.ofNat 16 (min (u.refused.toNat + 1) 65535) } := by
  rw [PortUnit.countRefused, satInc_counter]

/-- The answer BAD_FRAME to a frame that does not end whole (R154). -/
theorem judgeFrame_broken_eq (hx : u.executing = none) (hr : u.response = none) :
    u.judgeFrame false =
      { u with
        refusedFlag := false, badFrames := BitVec.ofNat 16 (min (u.badFrames.toNat + 1) 65535),
        response := some
          { code := (u.buffer[0]?).getD 0, outcome := .badFrame, sequence := (u.buffer[2]?).getD 0, payload := [] },
        alertLine := (u.judgeFrame false).alertLine } := by
  rw [judgeFrame_of_broken hx hr, PortUnit.answer, (respond_spec _ _ _ _).1, PortUnit.countBadFrame, satInc_counter]
  simp [hx, Reply.bare, Payload.bytes, PortUnit.frameCode, PortUnit.frameSequence, byteAt]

/-- The answer BAD_FRAME leaves the alert line at its level, whatever becomes of the link. -/
theorem alertLaw_judgeFrame_broken (hx : u.executing = none) (hr : u.response = none) (link : LinkState) (buffer out : List Byte)
    (shown : Bool) :
    PortUnit.AlertLaw { u.judgeFrame false with link := link, buffer := buffer, out := out, shownReady := shown } := by
  rw [judgeFrame_of_broken hx hr]
  exact alertLaw_respond_link ..

/-- A frame cut short, answered BAD_FRAME. -/
theorem endFrame_growing_spec (hx : u.executing = none) (hr : u.response = none) (hg : FrameGrowing u.buffer) :
    u.endFrame =
      { u with
        link := .idle, buffer := [], out := [], shownReady := false, refusedFlag := false,
        badFrames := BitVec.ofNat 16 (min (u.badFrames.toNat + 1) 65535),
        response := some
          { code := (u.buffer[0]?).getD 0, outcome := .badFrame, sequence := (u.buffer[2]?).getD 0, payload := [] },
        alertLine := u.endFrame.alertLine } ∧ u.endFrame.AlertLaw := by
  rw [endFrame_of_growing hg]
  refine ⟨?_, alertLaw_judgeFrame_broken hx hr ..⟩
  rw [judgeFrame_broken_eq hx hr]

/-- An overlong frame, answered BAD_FRAME. -/
theorem endFrame_overlong_spec (hx : u.executing = none) (hr : u.response = none) (ho : FrameOverlong u.buffer) :
    u.endFrame =
      { u with
        link := .discard, refusedFlag := false,
        badFrames := BitVec.ofNat 16 (min (u.badFrames.toNat + 1) 65535),
        response := some
          { code := (u.buffer[0]?).getD 0, outcome := .badFrame, sequence := (u.buffer[2]?).getD 0, payload := [] },
        alertLine := u.endFrame.alertLine } ∧ u.endFrame.AlertLaw := by
  rw [endFrame_of_overlong ho]
  refine ⟨?_, (alertLaw_congr rfl rfl rfl rfl).2 (alertLaw_judgeFrame_broken hx hr .idle [] [] false)⟩
  rw [judgeFrame_broken_eq hx hr]

/-- A whole frame with a wrong check byte (R150, R154). -/
theorem endFrame_of_wrong_check {code e q check : Byte} {payload : List Byte} (hx : u.executing = none) (hr : u.response = none)
    (hsize : payload.length ≤ 40)
    (hb : u.buffer = [code, e, q, BitVec.ofNat 8 payload.length] ++ payload ++ [check])
    (hc : check ≠ checkByte ([code, e, q, BitVec.ofNat 8 payload.length] ++ payload)) :
    u.endFrame =
      { u with
        link := .discard, refusedFlag := false, checkFlag := true,
        checkFailures := BitVec.ofNat 16 (min (u.checkFailures.toNat + 1) 65535),
        response := some { code := code, outcome := .checkFail, sequence := q, payload := [] },
        alertLine := u.endFrame.alertLine } ∧ u.endFrame.AlertLaw := by
  have hn : (BitVec.ofNat 8 payload.length).toNat = payload.length := by
    rw [BitVec.toNat_ofNat]
    exact Nat.mod_eq_of_lt (by omega)
  have h0 : u.frameCode = code := by rw [PortUnit.frameCode, hb]; rfl
  have h2 : u.frameSequence = q := by rw [PortUnit.frameSequence, hb]; rfl
  have h3 : byteAt u.buffer 3 = BitVec.ofNat 8 payload.length := by rw [hb]; rfl
  have hlen : u.buffer.length = 5 + payload.length := by
    rw [hb]
    simp
    omega
  have hdone : frameProgress u.buffer = .complete := by
    have hm : ¬ Config.maxRequestPayload < payload.length := by
      simp only [Config.maxRequestPayload]
      omega
    rw [frameProgress, h3, hn, hlen, if_neg (by omega), if_neg hm, if_neg (by omega)]
  have hlast : byteAt u.buffer (4 + payload.length) = check := by
    have hk : ([code, e, q, BitVec.ofNat 8 payload.length] ++ payload).length = 4 + payload.length := by
      simp
      omega
    rw [byteAt, hb, ← hk, List.getElem?_concat_length, Option.getD_some]
  have hfront : u.buffer.take (4 + payload.length) = [code, e, q, BitVec.ofNat 8 payload.length] ++ payload := by
    rw [hb, List.take_append_of_le_length (by simp; omega)]
    exact List.take_of_length_le (by simp; omega)
  have hfail : passesCheck u.buffer = false := by
    rw [passesCheck, h3, hn, hlast, hfront]
    exact decide_eq_false hc
  have hend : u.endFrame = { u.judgeFrame true with link := .discard } := by simp only [PortUnit.endFrame, hdone]
  rw [hend, judgeFrame_of_checkFail hx hr hfail, PortUnit.answer]
  refine ⟨?_, alertLaw_respond_link ..⟩
  rw [(respond_spec _ _ _ _).1, PortUnit.countCheckFail, satInc_counter]
  simp [hx, Reply.bare, Payload.bytes, PortUnit.frameCode, PortUnit.frameSequence, ← h0, ← h2]

/-- A whole frame answered by the link checks or the session checks (R135, R154). -/
theorem answered_of_endFrame {code q : Byte} {o : OutcomeCode} (hx : u.executing = none)
    (h : u.endFrame = { u.passed.respond code q (Reply.bare o) with link := .discard }) :
    u.endFrame =
      { u with
        link := .discard, refusedFlag := false, checkFlag := false,
        response := some { code := code, outcome := o, sequence := q, payload := [] }, alertLine := u.endFrame.alertLine } ∧
      u.endFrame.AlertLaw := by
  rw [h]
  refine ⟨?_, alertLaw_respond_link ..⟩
  rw [(respond_spec _ _ _ _).1]
  simp [PortUnit.passed, hx, Reply.bare, Payload.bytes]

end

/-- Settles O52. -/
theorem requestFrame : Obligations.RequestFrame := by
  unfold Obligations.RequestFrame
  intro s p
  refine ⟨fun hl hb v hv => ?_, fun link buffer out shown hl hx hr hend => ?_, fun code e q check payload hl hx hr hsize hbuf hc => ?_,
    fun code e q payload o h ho => ?_, fun code e q payload c b r h hc hlen hreq hs he => ?_⟩
  · rw [exec_requestFrame hl]
    rw [← countRefused_eq] at hv
    subst hv
    exact ⟨fun hg => by rw [(endFrame_of_busy hb).1 hg], fun hg => by rw [(endFrame_of_busy hb).2 hg]⟩
  · refine ⟨_, exec_requestFrame hl, ?_⟩
    rcases hend with ⟨ho, rfl, rfl, rfl, rfl⟩ | ⟨hg, rfl, rfl, rfl, rfl⟩
    · exact endFrame_overlong_spec hx hr ho
    · exact endFrame_growing_spec hx hr hg
  · exact ⟨_, exec_requestFrame hl, endFrame_of_wrong_check hx hr hsize hbuf hc⟩
  · have hx := h.executing
    have hepoch := (framed_fields h).2.1
    refine ⟨_, exec_requestFrame h.link, answered_of_endFrame hx ?_⟩
    rcases ho with ⟨hc, rfl⟩ | ⟨c, hc, hlen, rfl⟩ | ⟨c, hc, hlen, h1, h2, ⟨hs, rfl⟩ | ⟨hs, he, rfl⟩⟩
    · exact endFrame_of_error h ((linkVerdict_of_framed h).1 hc)
    · exact endFrame_of_error h (((linkVerdict_of_framed h).2 c hc).1 hlen)
    · exact endFrame_of_refusal h (linkVerdict_ok h hc hlen) (sessionRefusal_of_closed h1 h2 hs)
    · exact endFrame_of_refusal h (linkVerdict_ok h hc hlen) (sessionRefusal_of_stale h1 h2 hs fun k => he (k.symm.trans hepoch))
  · obtain ⟨hcode, hepoch, hseq, hpayload, -⟩ := framed_fields h
    rw [exec_requestFrame h.link,
      endFrame_of_passed h (linkVerdict_ok h hc hlen) (sessionRefusal_of_current hs (hepoch.trans he.symm)),
      carryOut_of_request (u := (s.port p).passed) (b := b) (r := r) (by rw [← hreq, ← hpayload]; rfl), ← hcode, ← hseq, ← hepoch]
    cases b <;> rfl

end Sys2Proof.Machine
end

section
/-! PROOFS. Messages between the blocks and the Port Units: the parts of a PORT_STATUS, completions, outcomes, lost-notice and alert
reports (R94, R108, R138 to R143, R155, R157, R159). -/

namespace Sys2Proof.Machine

/-! ### What the blocks report -/

section
variable {s : State} {p : Port}

/-- Bit by bit, a set built from a list of line numbers. -/
theorem getLsbD_foldl_lines (f : LineNo → Bool) (i : LineNo) (l : List LineNo) (t : LineSet) :
    (l.foldl (fun t e => if f e then t ||| BitVec.twoPow 12 e.val else t) t).getLsbD i.val =
      (t.getLsbD i.val || (decide (i ∈ l) && f i)) := by
  induction l generalizing t with
  | nil => simp
  | cons e l ih =>
    rw [List.foldl_cons, ih]
    by_cases he : i = e
    · subst he
      cases f i <;> simp
    · cases f e <;> simp [he]

theorem getLsbD_lineSetOf (f : LineNo → Bool) (i : LineNo) : (lineSetOf f).getLsbD i.val = f i := by
  rw [lineSetOf, getLsbD_foldl_lines]
  simp

/-- A block's part is sent back as the block stood when it took the message (R140). -/
theorem exec_portStatusPart {b : Block} {m : Nat} {rest : List ToBlock} (h : (s.port p).path b = .part m :: rest)
    (hf : b = .calendar → s.calendar.busy = .free) :
    exec (.portStatusPart p b) s =
      .next ((s.afterTaking b p rest).setBack b p (s.back b p ++ [.part m (s.partOf b p)])) := by
  have hfree : s.blockFree b = true := by
    cases b with
    | calendar => exact decide_eq_true (hf rfl)
    | _ => rfl
  have hback : (s.afterTaking b p rest).back b p = s.back b p := by cases b <;> rfl
  have hpart : (s.afterTaking b p rest).partOf b p = s.partOf b p := by cases b <;> rfl
  simp only [exec, execPortStatusPart, hfree, if_true, takePart_of_head h, hback, hpart]

end

/-! ### Parts that return (R140, R143) -/

section
variable {u : PortUnit} {x : Executing} {g : Gathering} {m : Nat} {report : PartReport}

/-- A part of another request than the one that is executing is discarded (R143, R155). -/
theorem takePartReturn_of_other (h : ∀ x, u.executing = some x → x.mark ≠ m) : u.takePartReturn m report = u := by
  unfold PortUnit.takePartReturn
  split
  case h_2 => rfl
  case h_1 x hx =>
    split
    · exact if_neg (h x hx)
    · rfl

theorem takePartReturn_of_gathering (hx : u.executing = some x) (hm : x.mark = m) (hg : x.work = .gathering g) :
    (∀ f, (g.add report).payload? = some f →
        u.takePartReturn m report = u.respond x.code x.sequence { outcome := .ok, payload := f }) ∧
      ((g.add report).payload? = none →
        u.takePartReturn m report = { u with executing := some { x with work := .gathering (g.add report) } }) := by
  constructor <;> intros <;> simp_all [PortUnit.takePartReturn]

theorem payload?_eq_none (h : g.authority = none ∨ g.slots = none ∨ g.lines = none ∨ g.notices = none) : g.payload? = none := by
  unfold Gathering.payload?
  split
  · simp_all
  · rfl

theorem payload?_eq_some {a : Bool} {n : Nat} {l : LineSet} {r : NoticesPart} (ha : g.authority = some a) (hn : g.slots = some n)
    (hl : g.lines = some l) (hr : g.notices = some r) : g.payload? = some (.portStatus g.session a n l r) := by
  simp only [Gathering.payload?, ha, hn, hl, hr]

theorem add_session : (g.add report).session = g.session := by cases report <;> rfl

end

section
variable {s : State} {p : Port} {b : Block} {rest : List FromBlock}

/-- A message that changes nothing at the Port Unit is taken from its path. -/
theorem setBack_setPort_self : (s.setBack b p rest).setPort p (s.port p) = s.setBack b p rest := by
  rw [← setBack_port s b p p rest, setPort_self]

theorem exec_portStatusPartReturn {m : Nat} {report : PartReport} (h : s.back b p = .part m report :: rest) :
    exec (.portStatusPartReturn p b) s =
      .next ((s.setBack b p rest).setPort p ((s.port p).takePartReturn m report)) := by
  simp only [exec, execPortStatusPartReturn, h]

theorem exec_completion (h : s.back b p = .completion :: rest) :
    exec (.completion p b) s = .next ((s.setBack b p rest).setPort p (s.port p).takeCompletion) := by
  simp only [exec, execCompletion, h]

theorem exec_blockOutcome {m : Nat} {reply : Reply} (h : s.back b p = .outcome m reply :: rest) :
    exec (.blockOutcome p b) s = .next ((s.setBack b p rest).setPort p ((s.port p).takeOutcome m reply)) := by
  simp only [exec, execBlockOutcome, h]

theorem exec_lostNoticeReport (h : s.back .router p = .lostNotice :: rest) :
    exec (.lostNoticeReport p) s = .next ((s.setBack .router p rest).setPort p (s.port p).countLost) := by
  simp only [exec, execLostNoticeReport, h]

theorem exec_alertReport {report : AlertReport} (h : s.back .router p = .alert report :: rest) :
    exec (.alertReport p) s = .next ((s.setBack .router p rest).setPort p ((s.port p).takeAlert report)) := by
  simp only [exec, execAlertReport, h]

end

/-- Settles O48. -/
theorem portStatusParts : Obligations.PortStatusParts := by
  unfold Obligations.PortStatusParts
  refine ⟨fun s p b m rest h hf => ⟨s.partOf b p, exec_portStatusPart h hf, ?_, ?_, ?_, ?_⟩,
    fun s p b m report rest h => ⟨fun hother => ?_, fun x g g' hx hm hg hg' => ?_⟩⟩
  · rintro rfl
    rfl
  · rintro rfl
    exact congrArg PartReport.slots List.countP_eq_length_filter
  · rintro rfl
    exact ⟨_, rfl, fun i => getLsbD_lineSetOf _ i⟩
  · rintro rfl
    have hfree : s.router.freeCount = ((List.finRange 64).filter fun h => (s.router.notice h).isNone).length :=
      List.countP_eq_length_filter
    rw [← hfree]
    rfl
  · rw [exec_portStatusPartReturn h, takePartReturn_of_other hother, setBack_setPort_self]
  · have hadd : g' = g.add report := by
      rw [hg']
      cases report <;> rfl
    subst hadd
    clear hg'
    have hsession : (g.add report).session = g.session := add_session
    obtain ⟨hlast, hmore⟩ := takePartReturn_of_gathering (report := report) hx hm hg
    rw [exec_portStatusPartReturn h]
    refine ⟨fun hnone => by rw [hmore (payload?_eq_none hnone)], fun a n l r ha hn hl hr => ?_⟩
    rw [hlast _ (payload?_eq_some ha hn hl hr), hsession]
    exact ⟨_, rfl, respond_spec ..⟩

/-- Settles O49. -/
theorem messagesAtThePortUnit : Obligations.MessagesAtThePortUnit := by
  unfold Obligations.MessagesAtThePortUnit
  refine fun s p b rest => ⟨fun h => ⟨fun hk => ?_, fun x e' ht hx hw he' => ?_⟩, fun m reply h => ⟨fun hother => ?_, fun x hx hm hw => ?_⟩,
    fun h => ?_, fun report h => ⟨_, exec_alertReport h, rfl, alertLaw_drive _⟩⟩
  · rw [exec_completion h]
    obtain ⟨he, -⟩ | ⟨x, h0, hx, hw, -⟩ := takeCompletion_cases (s.port p)
    · rw [he]
    · rcases hk with h2 | hno
      · omega
      · exact absurd hw (hno x hx)
  · rw [exec_completion h]
    obtain ⟨-, hno⟩ | ⟨y, -, hy, -, he⟩ := takeCompletion_cases (s.port p)
    · exact absurd hw (hno (by omega) x hx)
    · obtain rfl := Option.some.inj (hx.symm.trans hy)
      rw [← nextNumber_epoch] at he'
      subst he'
      rw [he, PortUnit.openNow, ht]
      exact ⟨_, rfl, respond_spec ..⟩
  · have hsame : (s.port p).takeOutcome m reply = s.port p := by
      unfold PortUnit.takeOutcome
      split
      case h_2 => rfl
      case h_1 x hx =>
        have hne := hother x hx
        rw [if_neg (by simpa [imp_iff_not_or] using hne)]
    rw [exec_blockOutcome h, hsame, setBack_setPort_self]
  · have hresponds : (s.port p).takeOutcome m reply = (s.port p).respond x.code x.sequence reply := by
      simp [PortUnit.takeOutcome, hx, hm, hw]
    rw [exec_blockOutcome h, hresponds]
    exact ⟨_, rfl, respond_spec ..⟩
  · rw [exec_lostNoticeReport h, PortUnit.countLost, satInc_counter]

end Sys2Proof.Machine
end

section
/-! PROOFS. The port link: the status header and PDO, the bytes of a transaction, the check byte, and the configuration fields as
they are written and read (R147 to R152, R156, R160, R163, R164, R166, R167). -/

namespace Sys2Proof.Machine

/-! ### The status header (R147 to R149, R164) -/

theorem bitIf_getElem (i j : Nat) (b : Bool) (hj : j < 8) : (bitIf i b)[j] = (decide (j = i) && b) := by
  cases b <;> simp [bitIf, eq_comm]

section
variable {u : PortUnit}

/-- Byte 0 of the header, bit by bit. -/
theorem headerByte0_bits (u : PortUnit) :
    u.headerByte0.getLsbD 0 = decide (u.session = .opened) ∧ u.headerByte0.getLsbD 1 = u.response.isSome ∧
      u.headerByte0.getLsbD 2 = u.executing.isSome ∧ u.headerByte0.getLsbD 3 = u.refusedFlag ∧
      u.headerByte0.getLsbD 4 = u.lostFlag ∧ u.headerByte0.getLsbD 5 = u.checkFlag ∧ u.headerByte0.getLsbD 6 = u.alertLine ∧
      u.headerByte0.getLsbD 7 = false := by
  refine ⟨?_, ?_, ?_, ?_, ?_, ?_, ?_, ?_⟩ <;> simp [PortUnit.headerByte0, bitIf_getElem]

/-- Byte 1 of the header holds the two lengths of the alert report in fields of their own. -/
theorem headerByte1_fields (hq : u.alertReport.queueLength ≤ 16) (hd : u.alertReport.stackDepth ≤ 4) :
    (u.headerByte1.extractLsb' 3 5).toNat = u.alertReport.queueLength ∧
      (u.headerByte1.extractLsb' 0 3).toNat = u.alertReport.stackDepth := by
  simp only [PortUnit.headerByte1, BitVec.extractLsb'_toNat, BitVec.toNat_ofNat, Nat.shiftRight_eq_div_pow]
  omega

end

section
variable {s : State} {p : Port}

theorem pdo_of_released (h : s.inReset = true ∨ (s.port p).prstLow = true ∨ (s.port p).link = .idle) : s.pdo p = none := by
  unfold State.pdo PortUnit.pdoByte
  rcases h with h | h | h <;> simp [h]

theorem pdo_of_driven (hr : s.inReset = false) (hp : (s.port p).prstLow = false) (hl : (s.port p).link ≠ .idle) :
    s.pdo p = some ((s.port p).out.headD 0) := by
  simp [State.pdo, PortUnit.pdoByte, hr, hp, hl]

end

/-- Settles O50. -/
theorem statusHeader : Obligations.StatusHeader := by
  unfold Obligations.StatusHeader
  refine ⟨fun s p => ⟨pdo_of_released, fun hr hp hl => ⟨fun ho => ?_, fun b l ho => ?_⟩⟩, fun s p hr hp hl hq hd => ?_⟩
  · rw [pdo_of_driven hr hp hl, ho, List.headD_nil]
  · rw [pdo_of_driven hr hp hl, ho, List.headD_cons]
  · have hexec : exec (.statusHeader p) s = .next (s.setPort p (s.port p).select) := by
      simp [exec, execStatusHeader, hr, hp, hl]
    obtain ⟨h0, h1, h2, h3, h4, h5, h6, h7⟩ := headerByte0_bits (s.port p)
    obtain ⟨hqueue, hstack⟩ := headerByte1_fields hq hd
    exact ⟨_, _, hexec, h0, h1, h2, h3, h4, h5, h6, h7, hqueue, hstack⟩

/-! ### The bytes of a transaction (R147, R148, R152, R156) -/

section
variable {s : State} {p : Port} {u : PortUnit} {b : Byte}

theorem receive_first (h : u.link = .header) (hb : b ≠ 0) :
    u.receive b = { u with link := .request, buffer := [b], out := u.out.tail } := by
  simp only [PortUnit.receive, h]
  exact if_neg hb

theorem receive_zero (h : u.link = .header) : u.receive 0 = u.beginRead := by simp [PortUnit.receive, h]

theorem receive_growing (h : u.link = .request) (hg : FrameGrowing u.buffer) :
    u.receive b = { u with buffer := u.buffer ++ [b], out := u.out.tail } := by
  simp [PortUnit.receive, h, frameProgress_growing_iff.2 hg]

/-- The last byte of a response frame consumes the response. -/
theorem receive_last (h : u.link = .read) (hs : u.shownReady = true) (ho : u.out.length = 1) : u.receive b = u.consume := by
  simp [PortUnit.receive, h, PortUnit.shiftRead, hs, ho]

/-- Every other byte of a read, and every byte after the end of a frame, is passed over. -/
theorem receive_passed (h : u.link = .discard ∨ (u.link = .read ∧ (u.shownReady = false ∨ u.out.length ≠ 1))) :
    u.receive b = { u with out := u.out.tail } := by
  rcases h with h | ⟨h, hs | ho⟩
  · simp [PortUnit.receive, h]
  · simp [PortUnit.receive, h, PortUnit.shiftRead, hs]
  · simp [PortUnit.receive, h, PortUnit.shiftRead, ho]

theorem deselect_of_request (h : u.link = .request) :
    u.deselect = { u.endFrame with link := .idle, buffer := [], out := [], shownReady := false } := by
  simp [PortUnit.deselect, h]

theorem deselect_of_other (h : u.link ≠ .request) :
    u.deselect = { u with link := .idle, buffer := [], out := [], shownReady := false } := by
  simp [PortUnit.deselect, h]

/-- The end of a transaction adds nothing to the end of a frame cut short. -/
theorem deselect_of_growing (h : u.link = .request) (hg : FrameGrowing u.buffer) : u.deselect = u.endFrame := by
  rw [deselect_of_request h, endFrame_of_growing hg]

end

/-- Settles O51. -/
theorem linkTransaction : Obligations.LinkTransaction := by
  unfold Obligations.LinkTransaction
  intro s p b
  have hbyte (b : Byte) : exec (.requestByteReceived p b) s = .next (s.setPort p ((s.port p).receive b)) := rfl
  have hend : exec (.transactionEnd p) s = .next (s.setPort p (s.port p).deselect) := rfl
  refine ⟨fun hl hb => ?_, fun hl hg => ?_, fun hl => ?_, fun hl hs => ?_, fun hl => ?_, fun hl => ?_,
    fun hl => ⟨⟨_, exec_requestFrame hl, ?_⟩, fun hg hx hr => ?_, fun hg hb => ?_⟩⟩
  · rw [hbyte, receive_first hl hb]
  · rw [hbyte, receive_growing hl hg]
  · have hread : exec (.responseRead p) s = .next (s.setPort p (s.port p).beginRead) := if_pos hl
    refine ⟨by rw [hbyte, receive_zero hl, hread], hread.trans ?_⟩
    refine congrArg
      (fun l => (.next (s.setPort p { s.port p with link := .read, out := (s.port p).out.tail ++ l }) : Result)) ?_
    unfold PortUnit.frameToRead
    cases (s.port p).shownReady <;> cases (s.port p).response <;> rfl
  · have hconsumed : exec (.responseConsumed p) s = .next (s.setPort p (s.port p).consume) := by
      simp [exec, execResponseConsumed, hl, hs]
    exact ⟨_, hconsumed, rfl, alertLaw_drive _, fun ho => by rw [hbyte, receive_last hl hs ho, hconsumed]⟩
  · rw [hbyte, receive_passed hl]
  · rw [hend, deselect_of_other hl]
  · rw [hend, deselect_of_request hl]
  · exact ⟨_, hend.trans (by rw [deselect_of_growing hl hg]), endFrame_growing_spec hx hr hg⟩
  · rw [hend, deselect_of_growing hl hg, (endFrame_of_busy hb).2 hg, countRefused_eq]

/-! ### The check byte (R150) -/

section
variable {r b : Byte}

/-- A bit that differs from the register's top bit leaves bit 0 set, so the polynomial is never cancelled by the shift. -/
theorem crcBit_eq_iff {bit : Bool} {y : Byte} (hy : y.getLsbD 0 = false) :
    crcBit r bit = y ↔ r.msb = bit ∧ r <<< 1 = y := by
  unfold crcBit
  by_cases h : r.msb = bit
  · simp [h]
  · have hne : (r <<< 1) ^^^ 0x2F ≠ y := by
      rintro rfl
      simp at hy
    rw [if_neg h]
    exact iff_of_false hne fun k => h k.1

/-- The register stands at the bits of `b` still to come exactly when it did so one bit before. -/
theorem crcBit_eq_shift_iff {i j k : Nat} (hj : i + j = 7) (hk : k = i + 1) :
    crcBit r (b.getLsbD j) = b <<< k ↔ r = b <<< i := by
  subst hk
  rw [crcBit_eq_iff (by simp)]
  constructor
  · rintro ⟨hmsb, hshift⟩
    apply BitVec.eq_of_getLsbD_eq
    intro n hn
    by_cases h7 : n = 7
    · subst h7
      have hi : ¬ 7 < i := by omega
      rw [BitVec.msb_eq_getLsbD_last] at hmsb
      simp only [BitVec.getLsbD_shiftLeft, hi, decide_false, Bool.not_false]
      rw [show 7 - i = j by omega, ← hmsb]
      rfl
    · have hnext := congrArg (fun v => BitVec.getLsbD v (n + 1)) hshift
      have hn' : n + 1 < 8 := by omega
      simp only [BitVec.getLsbD_shiftLeft, hn', decide_true, Bool.true_and, Nat.add_sub_cancel, Nat.add_lt_add_iff_right,
        Nat.add_sub_add_right] at hnext
      simpa only [BitVec.getLsbD_shiftLeft, hn, decide_true, Bool.true_and, Nat.not_lt_zero, Nat.lt_one_iff,
        Nat.succ_ne_zero, decide_false, Bool.not_false] using hnext
  · rintro rfl
    refine ⟨?_, by rw [BitVec.shiftLeft_add]⟩
    have hi : ¬ 7 < i := by omega
    rw [BitVec.msb_eq_getLsbD_last]
    simp only [Nat.reduceSub, BitVec.getLsbD_shiftLeft, Nat.reduceLT, decide_true, hi, decide_false, Bool.not_false, Bool.true_and]
    rw [show 7 - i = j by omega]

/-- One byte leaves the register at 0 exactly when it is what the register held. -/
theorem crcByte_eq_zero_iff : crcByte r b = 0 ↔ b = r := by
  have h8 : (0 : Byte) = b <<< 8 := by simp
  have h0 : b <<< 0 = b := by simp
  simp only [crcByte, List.foldl_cons, List.foldl_nil]
  rw [h8, crcBit_eq_shift_iff (i := 7) rfl rfl, crcBit_eq_shift_iff (i := 6) rfl rfl, crcBit_eq_shift_iff (i := 5) rfl rfl,
    crcBit_eq_shift_iff (i := 4) rfl rfl, crcBit_eq_shift_iff (i := 3) rfl rfl, crcBit_eq_shift_iff (i := 2) rfl rfl,
    crcBit_eq_shift_iff (i := 1) rfl rfl, crcBit_eq_shift_iff (i := 0) rfl rfl, h0, eq_comm]

end

/-- Settles O53. -/
theorem checkOverWholeFrame : Obligations.CheckOverWholeFrame := by
  unfold Obligations.CheckOverWholeFrame
  intro l check
  have hlast : checkByte (l ++ [check]) = crcByte (checkByte l) check := List.foldl_append
  rw [hlast, crcByte_eq_zero_iff]

/-! ### Configuration fields (R163, R166, R167) -/

/-- Reading the bytes of a number, most significant first, behind a number already read. -/
theorem foldl_beBytes (k n acc : Nat) :
    (beBytes k n).foldl (fun n b => n * 256 + b.toNat) acc = acc * 256 ^ k + n % 256 ^ k := by
  induction k generalizing acc with
  | zero => simp [beBytes, Nat.mod_one]
  | succ k ih =>
    rw [beBytes, List.foldl_cons, ih, BitVec.toNat_ofNat, pow_succ 256 k, Nat.mod_mul, add_mul]
    norm_num
    ring

theorem field_of_beBytes {w : Nat} {l : List Byte} {off len : Nat} {x : BitVec w} (hw : w ≤ 8 * len)
    (h : (l.drop off).take len = beBytes len x.toNat) : field w l off len = x := by
  have hx : x.toNat < 256 ^ len := calc
    x.toNat < 2 ^ w := x.isLt
    _ ≤ 2 ^ (8 * len) := Nat.pow_le_pow_right (by decide) hw
    _ = 256 ^ len := by rw [Nat.pow_mul]
  rw [field, h, beNat, foldl_beBytes, Nat.zero_mul, Nat.zero_add, Nat.mod_eq_of_lt hx, BitVec.ofNat_toNat, BitVec.setWidth_eq]

/-- The configuration bytes behind a slot handle are read as fields that name the configuration. -/
theorem configFields_means {c : SlotConfig} (hc : c.Legal) (h₀ h₁ h₂ : Byte) :
    (configFields ([h₀, h₁, h₂] ++ c.bytes)).Means c where
  legal := hc
  mode := rfl
  period := field_of_beBytes (by decide) rfl
  window := field_of_beBytes (by decide) rfl
  count := field_of_beBytes (by decide) rfl
  line := rfl
  gate := rfl
  anchor := rfl
  pin := rfl
  action := rfl
  cls := by
    have hcls : (configFields ([h₀, h₁, h₂] ++ c.bytes)).cls = BitVec.ofNat 8 c.cls.val := rfl
    rw [hcls, BitVec.toNat_ofNat]
    exact Nat.mod_eq_of_lt (by have := c.cls.isLt; omega)
  targets := by
    have htargets : (configFields ([h₀, h₁, h₂] ++ c.bytes)).targets = c.targets.setWidth 8 := rfl
    rw [htargets, BitVec.setWidth_setWidth_of_le _ (by decide), BitVec.setWidth_eq]
  delivery := rfl
  policy := rfl
  tag := field_of_beBytes (by decide) rfl

/-- Settles O54. -/
theorem configurationRoundTrip : Obligations.ConfigurationRoundTrip := by
  unfold Obligations.ConfigurationRoundTrip
  intro c h₀ h₁ h₂ hc
  have hm := configFields_means hc h₀ h₁ h₂
  exact ⟨hm, (means_iff.1 hm).1⟩

end Sys2Proof.Machine
end
